-- ==== Sys2Proof/Word.lean ====
section
/-! DEFINITION. The unit of every message and frame of the node: the byte (R169, R170). -/

namespace Sys2Proof

/-- One byte of the sensor port or of the roof link (R169). -/
abbrev Byte := BitVec 8

end Sys2Proof
end

