-- ==== Sys2Proof/Syntax.lean ====
section
/-! DEFINITION. The commands of the node: one constructor per row of spec/opcode_table.json.
Every command carries `elapsed`, the time in nanoseconds since the command before it (log 1). -/

namespace Sys2Proof

/-- The two lines of the odometer pair (section 3.1). -/
inductive OdoLine where
  | p | q
  deriving DecidableEq, Repr

/-- A phase state of the odometer pair: the levels of P and of Q (section 3.1). -/
structure OdoPair where
  p : Bool
  q : Bool
  deriving DecidableEq, Repr

/-- An edge of a group after its first: at most 200 ns after the edge before it, and on which line (R32). -/
structure LaterEdge where
  after : Fin 201
  line : OdoLine
  deriving DecidableEq, Repr

/-- A group of edges of the odometer pair, each within 200 ns of the one before it (R32). -/
structure EdgeGroup where
  first : OdoLine
  later : List LaterEdge
  deriving DecidableEq, Repr

/-- A group of edges with the time from the command before it to the instant of its resolution (log 1). -/
structure EdgeEvent where
  elapsed : Nat
  edges : EdgeGroup
  deriving DecidableEq, Repr

/-- What the receiver has found in the present spell of carrier (R149): every bit of it so far, in the order of arrival, with
the time from the command before (logs 1, 31). -/
structure ReceptionEvent where
  elapsed : Nat
  bits : List Bool
  deriving DecidableEq, Repr

/-- LEFT or RIGHT, looking forward (R7, R8). -/
inductive Side where
  | left | right
  deriving DecidableEq, Repr

/-- The steps of the node (spec/opcode_table.json), in the table's order. -/
inductive Instr where
  /-- POWER_ON_RESET (R161) with what is sampled then: straps, odometer pair, carrier present, scan message
  in progress (R10, R32, R155, R22). -/
  | powerOnReset (elapsed : Nat) (straps : BitVec 3) (pair : OdoPair) (carrier midScan : Bool)
  /-- SCAN_MESSAGE_BEGIN (R15). -/
  | scanMessageBegin (elapsed : Nat)
  /-- SCAN_MESSAGE_END (R16): the end mark, after all bytes of the message. -/
  | scanMessageEnd (elapsed : Nat) (bytes : List Byte)
  /-- SCAN_MESSAGE_SILENCE (R14): 200 microseconds of silence end the message with the bytes received so far. -/
  | scanMessageSilence (elapsed : Nat) (bytes : List Byte)
  /-- EXPOSURE_WORD_SENT (R24). -/
  | exposureWordSent (elapsed : Nat)
  /-- ODOMETER_TRANSITION (R33), 200 ns after the last of its edges: one line changes. The DU takes what the edges form (R32,
  log 30). -/
  | odometerTransition (elapsed : Nat) (edges : EdgeGroup)
  /-- ILLEGAL_TRANSITION (R34), 200 ns after the last of its edges: both lines change. The DU takes what the edges form (R32,
  log 30). -/
  | illegalTransition (event : EdgeEvent)
  /-- SCAN_PASS (R56): the TT serves the scan pass at the head of its list. -/
  | scanPass (elapsed : Nat)
  /-- BIN_CLOSE (R125). -/
  | binClose (elapsed : Nat)
  /-- FINAL_CLOSE (R119). -/
  | finalClose (elapsed : Nat)
  /-- EDGE_APPLICATION (R78). -/
  | edgeApplication (elapsed : Nat)
  /-- MARK_APPLICATION (R124). -/
  | markApplication (elapsed : Nat)
  /-- NEIGHBOUR_LOST_APPLICATION (R96). -/
  | neighbourLostApplication (elapsed : Nat)
  /-- ATTEMPT_BEGIN (R137). -/
  | attemptBegin (elapsed : Nat)
  /-- COLLISION (R138). -/
  | collision (elapsed : Nat)
  /-- JAM_END (R139), with the random draw from which a backoff is chosen (log 6). -/
  | jamEnd (elapsed : Nat) (draw : Nat)
  /-- BACKOFF_END (R139). -/
  | backoffEnd (elapsed : Nat)
  /-- FRAME_SENT (R138). -/
  | frameSent (elapsed : Nat)
  /-- BUS_JAM (R141). -/
  | busJam (elapsed : Nat)
  /-- HEARTBEAT_TIMER_EXPIRY (R147). -/
  | heartbeatTimerExpiry (elapsed : Nat)
  /-- RECEPTION_BEGIN (R149), with the bits of the spell of carrier so far, among which the receiver looks for the end of a
  preamble (log 31). -/
  | receptionBegin (event : ReceptionEvent)
  /-- FRAME_RECEIVED (R149, R150): carrier ceases, with the bits that came after those of RECEPTION_BEGIN; they may end in the
  middle of a byte (log 31). -/
  | frameReceived (elapsed : Nat) (bits : List Bool)
  /-- NEIGHBOUR_TIMER_EXPIRY (R95). -/
  | neighbourTimerExpiry (elapsed : Nat) (side : Side)
  /-- RECORD_AGE_EXPIRY (R130). -/
  | recordAgeExpiry (elapsed : Nat)
  /-- HOLD_PERIOD_END (R131). -/
  | holdPeriodEnd (elapsed : Nat)
  /-- RUN_START (R158). -/
  | runStart (elapsed : Nat)
  /-- ENTER_DRAINING (R159). -/
  | enterDraining (elapsed : Nat)
  /-- DRAIN_LIMIT (R133). -/
  | drainLimit (elapsed : Nat)
  /-- ALERT_PULSE_END (R168). -/
  | alertPulseEnd (elapsed : Nat)
  /-- MEDIUM_QUIET (R137). -/
  | mediumQuiet (elapsed : Nat)
  /-- CARRIER_APPEARS (R141). -/
  | carrierAppears (elapsed : Nat)
  /-- END_MARK_AFTER_RESET (R22). -/
  | endMarkAfterReset (elapsed : Nat)
  deriving DecidableEq, Repr

end Sys2Proof
end

