-- ==== Sys2Proof/Config.lean ====
section
/-! DEFINITION. The fixed capacities of the part, with the rule that states each, and the one value the spec leaves open. -/

namespace Sys2Proof.Config

/-- Entries of the track table (R48). -/
def trackEntries : Nat := 8
/-- Records the record queue holds (R128). -/
def queuePlaces : Nat := 64
/-- Records a GAUGE frame carries at most (R129). -/
def gaugeRecords : Nat := 24
/-- Records a hold list holds (R91). -/
def holdPlaces : Nat := 4
/-- Bin closes that may wait (R40). -/
def closePlaces : Nat := 10
/-- EDGE and MARK applications that may wait (R53). -/
def applicationPlaces : Nat := 4
/-- Samples an accumulator counts (R50). -/
def sampleLimit : Nat := 255
/-- Spots in a scan message (R14). -/
def spotLimit : Nat := 16
/-- Serials of one origin slot (R65). -/
def serials : Nat := 65536
/-- Transmission attempts of one frame (R140). -/
def attempts : Nat := 16
/-- The broadcast slot (R10, R145). -/
def broadcast : Nat := 15
/-- The bits of a jam that ends at an instant, in the order of their sending, which the spec does not give (R138): a free value
(log 29). -/
opaque jamBit (ends bit : Nat) : Bool

end Sys2Proof.Config
end

