-- ==== Sys2Proof/Machine/State.lean ====
section
/-! DEFINITION. The state of the node, block by block (00_scope.md, "Blocks"), and the machine after power-on reset.
Every quantity is an integer in the units of 00_scope.md, "Units and ranges"; instants are nanoseconds. -/

namespace Sys2Proof.Machine

/-! ## Settings (R163) -/

/-- Facing +1 (head x grows toward the right) or -1 (R2). -/
inductive Facing where
  | plus | minus
  deriving DecidableEq, Repr

/-- Direction sense of the odometer pair (R32). -/
inductive DirectionSense where
  | normal | reversed
  deriving DecidableEq, Repr

/-- One entry of the wire type table (R101). -/
structure WireType where
  nominal : Nat
  radius : Nat
  bias : Nat
  limit : Nat
  deriving DecidableEq, Repr

/-- The settings of a CONFIG frame as accepted and clamped (R163). `wireTypes` holds the entries below the type
count, so its length is the type count (R102). -/
structure Settings where
  sequence : Nat
  fieldOrigin : Int
  fieldWidth : Nat
  facing : Facing
  heightOffset : Nat
  margin : Nat
  leftNeighbour : Option Nat
  rightNeighbour : Option Nat
  xGate : Nat
  zGate : Nat
  linkXGate : Nat
  linkZGate : Nat
  confirmHits : Nat
  coastLimit : Nat
  openThreshold : Nat
  holdThreshold : Nat
  exposureStart : Nat
  stepLength : Nat
  pulseLength : Nat
  direction : DirectionSense
  wireTypes : List WireType
  defaultType : Nat
  staggerLimit : Nat
  drainThreshold : Nat
  ageLimit : Nat
  hysteresis : Nat
  neighbourTimeout : Nat
  alertMask : BitVec 16
  alertPulse : Nat
  deriving DecidableEq, Repr

/-- Settings with the source slot of the CONFIG frame that carried them (R158, R162). -/
structure SourcedSettings where
  settings : Settings
  source : Nat
  deriving DecidableEq, Repr

/-! ## Scan Intake Unit -/

/-- A spot of a scan message, in the head frame (R14). -/
structure Spot where
  headX : Nat
  headZ : Nat
  width : Option Nat
  peak : Nat
  deriving DecidableEq, Repr

/-- A checked, screened and stamped scan (R21). -/
structure Scan where
  number : Nat
  level : Nat
  spots : List Spot
  gpi : Int
  hw : Int
  deriving DecidableEq, Repr

/-- The state of a scan page (section 2.2). -/
inductive Page where
  | free
  | filling
  | posted (scan : Scan)
  deriving DecidableEq, Repr

/-- The two scan pages (R15). -/
inductive PageId where
  | a | b
  deriving DecidableEq, Repr

/-- The receiver of the sensor port: between messages, within a captured or an uncaptured message (R15), or within
the rest of a message that a power-on reset cut (R22). -/
inductive PortReceiver where
  | idle
  | captured (page : PageId)
  | uncaptured
  | ignoring
  deriving DecidableEq, Repr

/-- The Scan Intake Unit (R29). `word` is the exposure word being sent, `wordDue` says that a later one follows it
(R24). -/
structure Siu where
  pageA : Page
  pageB : Page
  port : PortReceiver
  continuity : Option Nat
  level : Nat
  word : Option Nat
  wordDue : Bool
  drift : Nat
  associated : Nat
  saturated : Nat
  weak : Nat
  settled : Bool
  deriving DecidableEq, Repr

/-! ## Distance Unit -/

/-- The Distance Unit (R46): reference phase state, quarter count, sub-step accumulator, current GPI, high-water
index; and the instant up to which it has resolved the edges of the pair, 200 ns after the last edge (R32). -/
structure Du where
  pair : OdoPair
  quarter : Int
  sub : Nat
  gpi : Int
  hw : Int
  resolved : Nat
  deriving DecidableEq, Repr

/-! ## Track Table -/

/-- A wire's label: origin slot and serial (R74). -/
structure Label where
  origin : Nat
  serial : Nat
  deriving DecidableEq, Repr

/-- A track's state (R49); hits and tentative miss run are present while TENTATIVE (R48). -/
inductive TrackState where
  | tentative (hits missRun : Nat)
  | confirmed
  | coasting
  deriving DecidableEq, Repr

/-- A track's role (R75); the release-from GPI is present while RELEASING (R48). -/
inductive Role where
  | owner
  | shadow
  | releasing (start : Int)
  deriving DecidableEq, Repr

/-- The name of a role, as kept in "peer role last seen" (R87). -/
inductive RoleName where
  | owner | shadow | releasing
  deriving DecidableEq, Repr

/-- The class of a wear sample (R105). -/
inductive WearClass where
  | noFlat | beyond | measured
  deriving DecidableEq, Repr

/-- A wear sample: residual, face width, class and the index of its type (R105). -/
structure WearSample where
  residual : Nat
  width : Nat
  cls : WearClass
  type : Nat
  deriving DecidableEq, Repr

/-- A filled accumulator (R50). An empty accumulator is `none` where this is optional. -/
structure Accumulator where
  bin : Int
  count : Nat
  sumX : Int
  sumZ : Nat
  minimum : Option WearSample
  deriving DecidableEq, Repr

/-- A measurement record (R115). GAP_BEFORE and MARK are the presence of `gap` and of `mark`; `wear` is residual and
face width. -/
structure Record where
  label : Label
  gpi : Int
  noSample : Bool
  noFlat : Bool
  beyond : Bool
  wearLimit : Bool
  staggerLimit : Bool
  contested : Bool
  takenOver : Bool
  final : Bool
  stagger : Int
  height : Nat
  samples : Nat
  wear : Option (Nat × Nat)
  gap : Option Nat
  mark : Option Nat
  deriving DecidableEq, Repr

/-- An entry of the track table in use (R48). -/
structure Track where
  label : Label
  birth : Int
  state : TrackState
  role : Role
  missedBins : Nat
  lastX : Int
  lastZ : Nat
  link : Option Side
  peerRole : Option RoleName
  peerThrough : Option Int
  absent : Nat
  former : Option Label
  lastQueued : Option Int
  mark : Option Nat
  contested : Bool
  takenOver : Bool
  held : List Record
  acc : Option Accumulator
  deriving DecidableEq, Repr

/-- One entry of an EDGE report (R76). -/
structure EdgeEntry where
  side : Side
  role : Role
  label : Label
  birth : Int
  x : Int
  z : Nat
  former : Option Label
  deriving DecidableEq, Repr

/-- An EDGE report (R76). The two neighbour settings are the header bytes as sent: a slot, or FFh for none (R173). -/
structure EdgeReport where
  source : Nat
  bin : Int
  left : Nat
  right : Nat
  centre : Int
  heartbeat : Bool
  entries : List EdgeEntry
  deriving DecidableEq, Repr

/-- The requests of the TT (R52). An EDGE application names the side on which its sender is configured. -/
inductive Request where
  | scanPass (page : PageId)
  | binClose (bin : Int)
  | finalClose (bin : Int)
  | edge (side : Side) (report : EdgeReport)
  | mark (number : Nat) (type : Option Nat)
  | neighbourLost (side : Side)
  deriving DecidableEq, Repr

/-- The Track Table (R51). `tracks` are the entries in use; `serving` is the track count as it stood before the request
in service began (R165). -/
structure Tt where
  isOpen : Bool
  serial : Nat
  tracks : List Track
  requests : List Request
  leftCentre : Option Int
  rightCentre : Option Int
  serving : Option Nat
  deriving DecidableEq, Repr

/-! ## Wear Arithmetic Unit -/

/-- The current type of the Wear Arithmetic Unit (R103). -/
structure Wau where
  currentType : Option Nat
  deriving DecidableEq, Repr

/-! ## Record Queue -/

/-- A record in the queue with its entry time (R128). -/
structure QueuedRecord where
  record : Record
  entered : Nat
  deriving DecidableEq, Repr

/-- The Record Queue (R128): the queue is `inFrame` followed by `queued`; a GAUGE frame exists exactly while `inFrame`
is not empty. `hold` is the end of the hold period (R131); `pastLimit` says that the drain limit of this run has been
reached (R133). -/
structure Rq where
  inFrame : List QueuedRecord
  queued : List QueuedRecord
  hold : Option Nat
  pastLimit : Bool
  deriving DecidableEq, Repr

/-! ## Roof Link Controller -/

/-- A spell of carrier from another station (R141): its beginning, whether a reception may begin in it (R149), and
whether BUS_JAM has been latched for it. -/
structure Spell where
  since : Nat
  usable : Bool
  jammed : Bool
  deriving DecidableEq, Repr

/-- An EDGE frame: the bin of its header and the bytes of the frame proper (R145, R146). -/
structure EdgeFrame where
  bin : Int
  bytes : List Byte
  deriving DecidableEq, Repr

/-- The source of a frame in its attempt cycle (R142). -/
inductive FrameSource where
  | edge (bin : Int)
  | status (drainEnd : Bool)
  | gauge
  deriving DecidableEq, Repr

/-- The phases of an attempt cycle (section 8.2). -/
inductive TxPhase where
  | deferring
  | transmitting (since : Nat)
  | jam (ends : Nat)
  | backingOff (ends : Nat)
  deriving DecidableEq, Repr

/-- The transmitter (R142): free, or busy with a frame in its attempt cycle (R139). -/
inductive Transmitter where
  | free
  | busy (source : FrameSource) (bytes : List Byte) (attempts : Nat) (phase : TxPhase)
  deriving DecidableEq, Repr

/-- The liveness states of a neighbour (R94). -/
inductive LifeState where
  | unheard | present | lost
  deriving DecidableEq, Repr

/-- Liveness of a configured neighbour with the end of its timer while that runs (R94). -/
structure Liveness where
  state : LifeState
  timer : Option Nat
  deriving DecidableEq, Repr

/-- The Roof Link Controller (R155). `reception` holds the reception in progress, as the bits of its frame proper found so far
in the order of arrival (R149, log 31). -/
structure Rlc where
  carrier : Option Spell
  reception : Option (List Bool)
  lastQuiet : Nat
  tx : Transmitter
  edgeSlot : Option EdgeFrame
  heartbeat : Option Nat
  leftLife : Option Liveness
  rightLife : Option Liveness
  deriving DecidableEq, Repr

/-! ## Run Control and Alert -/

/-- The node states (R156). -/
inductive NodeState where
  | unconfigured | ready | running | draining
  deriving DecidableEq, Repr

/-- The reasons of a refusal (R164, R175). -/
inductive Reason where
  | length | field | margin | neighbour | step | pulse | type
  deriving DecidableEq, Repr

/-- The result of a STATUS (R164); the reason belongs to REFUSED alone. -/
inductive StatusResult where
  | accepted
  | refused (reason : Reason)
  | queried
  | drained
  deriving DecidableEq, Repr

/-- The pending STATUS (R164). -/
structure PendingStatus where
  result : StatusResult
  destination : Nat
  drainEnd : Bool
  deriving DecidableEq, Repr

/-- The seven counters (R167). -/
structure Counters where
  scansTaken : Nat
  skippedScans : Nat
  lostBins : Nat
  abandonedFrames : Nat
  badFrames : Nat
  droppedEdges : Nat
  drainLoss : Nat
  deriving DecidableEq, Repr

/-- Run Control and Alert (R161). `since` is the instant of the last change of node state (R157); `alert` is the end of
the alert pulse while one runs (R168); `drainTimer` is the end of the drain timer while it runs (R159). -/
structure Rca where
  node : NodeState
  since : Nat
  slot : Nat
  pendingSettings : Option SourcedSettings
  runSettings : Option SourcedSettings
  latches : BitVec 13
  clearMask : BitVec 13
  status : Option PendingStatus
  counters : Counters
  alert : Option Nat
  drainTimer : Option Nat
  deriving DecidableEq, Repr

/-! ## The node -/

/-- The whole node. `pending` is the queue of commands and `now` the present instant: the model's own (logs 1, 3). -/
structure State where
  pending : List Instr
  now : Nat
  siu : Siu
  du : Du
  tt : Tt
  wau : Wau
  rq : Rq
  rlc : Rlc
  rca : Rca
  deriving DecidableEq, Repr

/-- The spec gives the node no fault (R113, R166). These name states that no run from reset reaches (log 19): safe. -/
inductive Fault where
  /-- Raised where a block needs the run settings and there are none: by the end of a message or a quarter transition
  in RUNNING, by a request at an open track table, by a run start in READY without pending settings, and by an
  EDGE heartbeat without run settings. Safe. -/
  | noRunSettings
  /-- Raised by SCAN_PASS when the page it names is not POSTED (R21). Safe. -/
  | pageNotPosted
  deriving DecidableEq, Repr

/-- Why a command is refused: each names an event that cannot occur in the present state (log 4), so a refusal is
safe. -/
inductive Refusal where
  /-- No meaning for the command yet; raised by exec only. Safe. -/
  | notModelled (mnemonic : String)
  /-- SCAN_MESSAGE_BEGIN within a message (R14: messages do not overlap). Safe. -/
  | messageInProgress
  /-- SCAN_MESSAGE_END or SCAN_MESSAGE_SILENCE outside a message, END_MARK_AFTER_RESET with nothing to ignore
  (R14, R22). Safe. -/
  | noMessage
  /-- EXPOSURE_WORD_SENT with no word being sent (R24). Safe. -/
  | noWord
  /-- A request is served that is not the oldest of an open track table (R52, R54). Safe. -/
  | notNextRequest
  /-- A transmitter event in another phase of the attempt cycle (section 8.2). Safe. -/
  | transmitterPhase
  /-- An event before the time the spec gives it, COLLISION after the first 64 bytes (R137 to R141), or a group of edges that
  would belong to the group before it (R32). Safe. -/
  | timeNotReached
  /-- A timer expires that does not run (R95, R131, R133, R147, R168). Safe. -/
  | timerNotRunning
  /-- ATTEMPT_BEGIN while carrier is present, CARRIER_APPEARS while it already is (R137, R141). Safe. -/
  | carrierPresent
  /-- MEDIUM_QUIET, BUS_JAM or RECEPTION_BEGIN without a spell of carrier that allows it (R141, R149). Safe. -/
  | noCarrier
  /-- MEDIUM_QUIET or RECEPTION_BEGIN within a reception (R149). Safe. -/
  | receptionInProgress
  /-- FRAME_RECEIVED outside a reception (R149). Safe. -/
  | noReception
  /-- RECORD_AGE_EXPIRY with no QUEUED record (R130). Safe. -/
  | noQueuedRecord
  deriving DecidableEq, Repr

/-- Where a meaning ends. -/
abbrev Result := Host.Outcome State Fault Refusal

/-- The SIU after power-on reset: both pages FREE, level 0 with its word being sent (R24, R29). -/
def Siu.reset : Siu where
  pageA := .free
  pageB := .free
  port := .idle
  continuity := none
  level := 0
  word := some 0
  wordDue := false
  drift := 0
  associated := 0
  saturated := 0
  weak := 0
  settled := false

/-- The DU after power-on reset (R46); the pair at 00 is a DESIGN CHOICE (log 8). -/
def Du.reset : Du where
  pair := ⟨false, false⟩
  quarter := 0
  sub := 0
  gpi := 0
  hw := 0
  resolved := 0

/-- The TT after power-on reset: free, empty and closed (R51). -/
def Tt.reset : Tt where
  isOpen := false
  serial := 0
  tracks := []
  requests := []
  leftCentre := none
  rightCentre := none
  serving := none

/-- The RQ after power-on reset (R128). -/
def Rq.reset : Rq where
  inFrame := []
  queued := []
  hold := none
  pastLimit := false

/-- The RLC after power-on reset with a quiet medium (R155). -/
def Rlc.reset : Rlc where
  carrier := none
  reception := none
  lastQuiet := 0
  tx := .free
  edgeSlot := none
  heartbeat := none
  leftLife := none
  rightLife := none

/-- Every counter at 0 (R161, R167). -/
def Counters.zero : Counters where
  scansTaken := 0
  skippedScans := 0
  lostBins := 0
  abandonedFrames := 0
  badFrames := 0
  droppedEdges := 0
  drainLoss := 0

/-- The RCA after power-on reset (R161); slot 0 is a DESIGN CHOICE (log 8). -/
def Rca.reset : Rca where
  node := .unconfigured
  since := 0
  slot := 0
  pendingSettings := none
  runSettings := none
  latches := 0
  clearMask := 0
  status := none
  counters := Counters.zero
  alert := none
  drainTimer := none

/-- The node right after power-on reset (R161 and the tables of R29, R46, R51, R128, R155) with the inputs of log 8: all
straps low, the odometer pair at 00, no carrier, no scan message in progress. -/
def State.reset : State where
  pending := []
  now := 0
  siu := Siu.reset
  du := Du.reset
  tt := Tt.reset
  wau := ⟨none⟩
  rq := Rq.reset
  rlc := Rlc.reset
  rca := Rca.reset

end Sys2Proof.Machine
end

