-- ==== Sys2Proof/Machine/Ops.lean ====
section
/-! DEFINITION. The named operations every meaning is built from: the times of the spec, the passing of time, the
update of one block, ordering, and counters that are held at their largest value. -/

namespace Sys2Proof.Machine

/-! ## Times (R32, R135, R137 to R141, R147, R131, R157, R159), in nanoseconds -/

/-- Nanoseconds of a microsecond. -/
def microsecond : Nat := 1000
/-- Nanoseconds of a millisecond. -/
def millisecond : Nat := 1000000
/-- The resolution of the edges of the odometer pair, 200 ns (R32). -/
def edgeResolution : Nat := 200
/-- The interframe gap, 4.8 microseconds (R135). -/
def interframeGap : Nat := 4800
/-- The slot time, 25.6 microseconds (R135). -/
def slotTime : Nat := 25600
/-- The jam, 1.6 microseconds (R135). -/
def jamTime : Nat := 1600
/-- One bit on the roof link, 50 ns (R135). -/
def bitTime : Nat := 50
/-- One byte on the roof link (R135). -/
def byteTime : Nat := 8 * bitTime
/-- The heartbeat timer, 5 ms (R147). -/
def heartbeatTime : Nat := 5 * millisecond
/-- The hold period, 1 ms (R131). -/
def holdTime : Nat := millisecond
/-- The drain limit, 1,000 ms (R159). -/
def drainTime : Nat := 1000 * millisecond
/-- A spell of carrier beyond this is a bus jam: 1,000 microseconds (R141). -/
def busJamTime : Nat := 1000 * microsecond
/-- The length at which the RCA reacts to a spell of the run line: 100 microseconds (R157). -/
def runLineSpell : Nat := 100 * microsecond

/-! ## Time and blocks -/

/-- The instant of a command: `elapsed` after the one before it (log 1). -/
def State.elapse (elapsed : Nat) (s : State) : State := { s with now := s.now + elapsed }

/-- Replace the SIU. -/
def State.withSiu (s : State) (x : Siu) : State := { s with siu := x }
/-- Replace the DU. -/
def State.withDu (s : State) (x : Du) : State := { s with du := x }
/-- Replace the TT. -/
def State.withTt (s : State) (x : Tt) : State := { s with tt := x }
/-- Replace the WAU. -/
def State.withWau (s : State) (x : Wau) : State := { s with wau := x }
/-- Replace the RQ. -/
def State.withRq (s : State) (x : Rq) : State := { s with rq := x }
/-- Replace the RLC. -/
def State.withRlc (s : State) (x : Rlc) : State := { s with rlc := x }
/-- Replace the RCA. -/
def State.withRca (s : State) (x : Rca) : State := { s with rca := x }

/-- The settings in force (R5), once a run has started. -/
def State.settings (s : State) : Option Settings := s.rca.runSettings.map (·.settings)

/-- The tracks of the table. -/
def State.withTracks (s : State) (ts : List Track) : State := s.withTt { s.tt with tracks := ts }

/-- Append a request at the tail of the list (R52). -/
def State.post (s : State) (r : Request) : State := s.withTt { s.tt with requests := s.tt.requests ++ [r] }

/-- The page of a name (R15). -/
def Siu.page (u : Siu) : PageId → Page
  | .a => u.pageA
  | .b => u.pageB

/-- Replace a page. -/
def Siu.setPage (u : Siu) (p : PageId) (x : Page) : Siu :=
  match p with
  | .a => { u with pageA := x }
  | .b => { u with pageB := x }

/-- Run a meaning when its timer runs and has reached its end (log 2). -/
def onExpiry (s : State) (timer : Option Nat) (go : Result) : Result :=
  match timer with
  | none => .refused .timerNotRunning
  | some ends => if ends ≤ s.now then go else .refused .timeNotReached

/-! ## Counters (R167) -/

/-- The largest value of a 32-bit counter (R30, R134, R154). -/
def max32 : Nat := 4294967295
/-- The largest value of a 16-bit counter (R154, R167). -/
def max16 : Nat := 65535

/-- Raise a counter by `d`, held at its largest value (R167). -/
def raise (limit n d : Nat) : Nat := min (n + d) limit

/-- Replace the counters. -/
def State.withCounters (s : State) (c : Counters) : State := s.withRca { s.rca with counters := c }

/-! ## Order -/

/-- Comparison by the first component that differs, as the tie rules state it (R59, R74, R76, R80). -/
def lexLt : List Int → List Int → Bool
  | [], [] => false
  | [], _ :: _ => true
  | _ :: _, [] => false
  | a :: as, b :: bs => if a < b then true else if b < a then false else lexLt as bs

/-- Insert before the first element with a key that is not lower. -/
def insertBy {α : Type} (key : α → List Int) (x : α) : List α → List α
  | [] => [x]
  | y :: ys => if lexLt (key y) (key x) then y :: insertBy key x ys else x :: y :: ys

/-- A list in increasing order of its keys; elements of equal keys keep their order. -/
def sortBy {α : Type} (key : α → List Int) : List α → List α
  | [] => []
  | x :: xs => insertBy key x (sortBy key xs)

/-- A candidate pair of a track and a spot or EDGE entry, by position in their lists, with the key that orders it. -/
structure Candidate where
  track : Nat
  other : Nat
  key : List Int
  deriving DecidableEq, Repr

/-- Greedy assignment: accept each pair in turn when neither of its two is already in an accepted pair (R59, R80). -/
def greedy : List Candidate → List Nat → List Nat → List Candidate
  | [], _, _ => []
  | c :: cs, tracks, others =>
    if tracks.contains c.track || others.contains c.other then greedy cs tracks others
    else c :: greedy cs (c.track :: tracks) (c.other :: others)

/-- Assign greedily in increasing order of key. -/
def assign (cs : List Candidate) : List Candidate := greedy (sortBy Candidate.key cs) [] []

/-- The key by which labels are ordered: origin slot, then serial (R76, R125). -/
def Label.key (l : Label) : List Int := [l.origin, l.serial]

/-- The key by which age is ordered: birth GPI, then origin slot, then serial; lower is older (R74). -/
def ageKey (birth : Int) (l : Label) : List Int := birth :: l.key

/-- Whether a track of the list bears a label. -/
def borne (l : Label) (ts : List Track) : Bool := ts.any fun t => t.label == l

end Sys2Proof.Machine
end

