-- ==== Sys2Proof/Machine/Flags.lean ====
section
/-! DEFINITION. The thirteen event latches with the alert pin they drive (R166, R168), and the flag word of a record
(R174). -/

namespace Sys2Proof.Machine

/-- The event latches (R166). -/
inductive Latch where
  | wearLimit | staggerLimit | neighbourLost | neighbourMismatch | tableFull | queueFull | scanSkipped
  | quadError | overspeed | collisionLimit | busJam | configRefused | contested
  deriving DecidableEq, Repr

/-- The position of a latch (R166). -/
def Latch.position : Latch → Nat
  | .wearLimit => 0
  | .staggerLimit => 1
  | .neighbourLost => 2
  | .neighbourMismatch => 3
  | .tableFull => 4
  | .queueFull => 5
  | .scanSkipped => 6
  | .quadError => 7
  | .overspeed => 8
  | .collisionLimit => 9
  | .busJam => 10
  | .configRefused => 11
  | .contested => 12

/-- Whether a latch is set. -/
def State.latched (s : State) (l : Latch) : Bool := s.rca.latches.getLsbD l.position

/-- The alert pulse after an event of a latch: restarted at full length when the mask in force selects it; no mask is
in force before the first run start (R168). -/
def alertAfter (s : State) (l : Latch) : Option Nat :=
  match s.settings with
  | some c => if c.alertMask.getLsbD l.position then some (s.now + c.alertPulse * millisecond) else s.rca.alert
  | none => s.rca.alert

/-- An event sets its latch, or sets it again (R166, R168). -/
def State.setLatch (s : State) (l : Latch) : State :=
  s.withRca { s.rca with latches := s.rca.latches ||| BitVec.twoPow 13 l.position, alert := alertAfter s l }

/-- Set a latch where a condition holds. -/
def State.latchIf (s : State) (b : Bool) (l : Latch) : State := if b then s.setLatch l else s

/-- The alert pin is high exactly while a pulse runs (R168). -/
def State.alertPin (s : State) : Bool := s.rca.alert.isSome

/-- The node holds the run line low in UNCONFIGURED and DRAINING and releases it in READY and RUNNING (R156). -/
def State.runLineHeld (s : State) : Bool :=
  match s.rca.node with
  | .unconfigured | .draining => true
  | .ready | .running => false

/-- A flag bit. -/
def flagBit (b : Bool) (position : Nat) : Nat := if b then 2 ^ position else 0

/-- The flag word of a record: bit 10 says that the wear fields are present (R174). -/
def Record.flags (r : Record) : Nat :=
  flagBit r.noSample 0 + flagBit r.noFlat 1 + flagBit r.beyond 2 + flagBit r.wearLimit 3 + flagBit r.staggerLimit 4
    + flagBit r.contested 5 + flagBit r.takenOver 6 + flagBit r.gap.isSome 7 + flagBit r.mark.isSome 8
    + flagBit r.final 9 + flagBit r.wear.isSome 10

end Sys2Proof.Machine
end

