-- ==== Sys2Proof/Machine/Bytes.lean ====
section
/-! DEFINITION. Byte order (R169), the CRC (R136), and the bits of a frame on the roof link (R135). -/

namespace Sys2Proof.Machine

/-- `n` bytes of a number, least significant byte first (R169). -/
def leBytes : Nat → Nat → List Byte
  | 0, _ => []
  | n + 1, v => BitVec.ofNat 8 v :: leBytes n (v / 256)

/-- `n` bytes of a signed number in two's complement, least significant byte first (R169). -/
def leIntBytes (n : Nat) (v : Int) : List Byte := leBytes n (v % (256 ^ n : Nat)).toNat

/-- The number of a list of bytes, least significant byte first (R169). -/
def readLe : List Byte → Nat
  | [] => 0
  | b :: bs => b.toNat + 256 * readLe bs

/-- The unsigned field of `n` bytes at an offset. -/
def fieldAt (bytes : List Byte) (offset n : Nat) : Nat := readLe ((bytes.drop offset).take n)

/-- A number of `n` bytes read as two's complement (R169). -/
def toSigned (n v : Nat) : Int := if v < 2 ^ (8 * n - 1) then (v : Int) else (v : Int) - (2 ^ (8 * n) : Nat)

/-- The signed field of `n` bytes at an offset. -/
def signedAt (bytes : List Byte) (offset n : Nat) : Int := toSigned n (fieldAt bytes offset n)

/-- Shift the CRC register by `n` bits, least significant bit first (R136, log 7). -/
def crcShift : Nat → BitVec 16 → BitVec 16
  | 0, r => r
  | n + 1, r => crcShift n (if r.getLsbD 0 then (r >>> 1) ^^^ 0x8408#16 else r >>> 1)

/-- Take one byte into the CRC register. -/
def crcByte (r : BitVec 16) (b : Byte) : BitVec 16 := crcShift 8 (r ^^^ b.setWidth 16)

/-- The CRC of a list of bytes: polynomial x^16 + x^12 + x^5 + 1, register all ones at the start, no inversion at the
end (R136). -/
def crc (bytes : List Byte) : BitVec 16 := bytes.foldl crcByte 0xFFFF#16

/-! ## The bits on the wire (R135) -/

/-- The preamble before every frame proper: seven bytes of 55h and one of D5h (R135). -/
def preamble : List Byte := List.replicate 7 0x55#8 ++ [0xD5#8]

/-- The bits of bytes in the order of their sending, each byte least significant bit first (R135). -/
def sentBits (bytes : List Byte) : List Bool := bytes.flatMap fun b => (List.range 8).map b.getLsbD

/-- The bits of a frame on the wire: the preamble, then the frame proper (R135). -/
def frameSignal (bytes : List Byte) : List Bool := sentBits (preamble ++ bytes)

/-- The end of a preamble: eight bits of the alternating pattern of 55h and the eight bits of a D5h byte, as sent (R149,
log 31). -/
def preambleEnd : List Bool := sentBits [0x55#8, 0xD5#8]

/-- The bits after the first end of a preamble among the bits of a spell of carrier; none where no end of a preamble is found
(R149). -/
def afterPreamble : List Bool → Option (List Bool)
  | [] => none
  | b :: bits =>
    if preambleEnd.isPrefixOf (b :: bits) then some ((b :: bits).drop preambleEnd.length) else afterPreamble bits

/-- The whole bytes that received bits form, the first bit of each the least significant (R135); trailing bits are ignored
(R149). -/
def wholeBytes : List Bool → List Byte
  | b0 :: b1 :: b2 :: b3 :: b4 :: b5 :: b6 :: b7 :: bits =>
    BitVec.ofBoolListLE [b0, b1, b2, b3, b4, b5, b6, b7] :: wholeBytes bits
  | _ => []

end Sys2Proof.Machine
end

