-- ==== Sys2Proof/Machine/Geometry.lean ====
section
/-! DEFINITION. Chapter 1: the car frame, the field, margins and sides, centres and the release preference, all
computed from the settings in force (log 21). -/

namespace Sys2Proof.Machine

/-- A lateral position held within -8,000 to +8,000 (R4). -/
def clampX (x : Int) : Int := max (-8000) (min x 8000)

/-- The car-frame lateral position of a head x (R3, R4). -/
def carX (c : Settings) (headX : Nat) : Int :=
  match c.facing with
  | .plus => clampX (c.fieldOrigin + headX)
  | .minus => clampX (c.fieldOrigin - headX)

/-- The car-frame height of a head z (R3). -/
def carZ (c : Settings) (headZ : Nat) : Nat := headZ + c.heightOffset

/-- The left edge L of the field (R6). -/
def fieldLeft (c : Settings) : Int :=
  match c.facing with
  | .plus => c.fieldOrigin
  | .minus => c.fieldOrigin - c.fieldWidth

/-- The right edge R of the field (R6). -/
def fieldRight (c : Settings) : Int :=
  match c.facing with
  | .plus => c.fieldOrigin + c.fieldWidth
  | .minus => c.fieldOrigin

/-- The geometric side of a position; `none` is CORE (R7). -/
def geometricSide (c : Settings) (x : Int) : Option Side :=
  if x ≤ fieldLeft c + c.margin then some .left
  else if fieldRight c - c.margin ≤ x then some .right
  else none

/-- The neighbour configured on a side. -/
def Settings.neighbour (c : Settings) : Side → Option Nat
  | .left => c.leftNeighbour
  | .right => c.rightNeighbour

/-- The effective side of a position: CORE where no neighbour is configured on its geometric side (R8). -/
def effectiveSide (c : Settings) (x : Int) : Option Side :=
  match geometricSide c x with
  | some side => if (c.neighbour side).isSome then some side else none
  | none => none

/-- The opposite side: the side of a neighbour that faces this node (R8). -/
def opposite : Side → Side
  | .left => .right
  | .right => .left

/-- The edge distance of a position (R9). -/
def edgeDistance (c : Settings) (x : Int) : Int := min (x - fieldLeft c) (fieldRight c - x)

/-- The node's own field centre (R12). -/
def ownCentre (c : Settings) : Int := (fieldLeft c + fieldRight c + 1) / 2

/-- The distance between two lateral positions. -/
def distance (x y : Int) : Nat := (x - y).natAbs

/-- The release preference at x against a neighbour's centre (R13). -/
def releasePreference (c : Settings) (x centre : Int) : Int := (distance x (ownCentre c) : Int) - distance x centre

/-- A track's x gate: 10 more for each missed bin, at most twice the base (R57). -/
def xGateOf (c : Settings) (missedBins : Nat) : Nat := min (c.xGate + 10 * missedBins) (2 * c.xGate)

/-- The centre of the neighbour on a side, as last taken (R12). -/
def Tt.centre (t : Tt) : Side → Option Int
  | .left => t.leftCentre
  | .right => t.rightCentre

/-- Take a neighbour's centre (R12). -/
def Tt.setCentre (t : Tt) (side : Side) (x : Int) : Tt :=
  match side with
  | .left => { t with leftCentre := some x }
  | .right => { t with rightCentre := some x }

end Sys2Proof.Machine
end

