-- ==== Sys2Proof/Machine/Operands.lean ====
section
/-! DEFINITION. What the bytes of a command mean: scan messages (R170), roof link frames (R150, R171), EDGE, MARK and
CONFIG payloads with their checks and clamps (R11, R44, R102, R162, R163, R173, R176 to R178). -/

namespace Sys2Proof.Machine

/-! ## Scan messages -/

/-- The spots of a message from its spot bytes, in order; FFFFh is no face width (R170). -/
def decodeSpots : Nat → List Byte → List Spot
  | 0, _ => []
  | n + 1, bytes =>
    { headX := fieldAt bytes 0 2
      headZ := fieldAt bytes 2 2
      width := if fieldAt bytes 4 2 = 65535 then none else some (fieldAt bytes 4 2)
      peak := fieldAt bytes 6 1 } :: decodeSpots n (bytes.drop 7)

/-- The header of a message is complete when its three bytes were received (R16, R170). -/
def headerComplete (bytes : List Byte) : Bool := decide (3 ≤ bytes.length)

/-- The scan number of a message with a complete header (R170). -/
def scanNumber (bytes : List Byte) : Nat := fieldAt bytes 0 1

/-- The spot count of a message with a complete header (R170). -/
def spotCount (bytes : List Byte) : Nat := fieldAt bytes 2 1

/-- The three checks of form of a captured message (R16). -/
def malformedScan (bytes : List Byte) : Bool :=
  !headerComplete bytes || decide (Config.spotLimit < spotCount bytes)
    || decide (bytes.length ≠ 3 + 7 * spotCount bytes)

/-- Screening (R18): spots beyond the field width or above head z 15,000 are removed, a face width above 2,000 is taken
as none. -/
def screen (c : Settings) (spots : List Spot) : List Spot :=
  (spots.filter fun p => decide (p.headX ≤ c.fieldWidth ∧ p.headZ ≤ 15000)).map fun p =>
    { p with width := p.width.filter fun w => decide (w ≤ 2000) }

/-! ## Frames -/

/-- The kinds of frame (R171). -/
inductive FrameKind where
  | edge | gauge | status | config | query | mark
  deriving DecidableEq, Repr

/-- The code of a kind (R171). -/
def FrameKind.code : FrameKind → Nat
  | .edge => 1
  | .gauge => 2
  | .status => 3
  | .config => 4
  | .query => 5
  | .mark => 6

/-- The kind a code names, if any (R171, R172). -/
def frameKind (code : Nat) : Option FrameKind :=
  [FrameKind.edge, .gauge, .status, .config, .query, .mark].find? fun k => k.code == code

/-- What the receiver takes from a valid frame (R150). -/
structure ReceivedFrame where
  destination : Nat
  source : Nat
  kind : Nat
  payload : List Byte
  deriving DecidableEq, Repr

/-- The length of a frame proper with a payload of `n` bytes (R136). -/
def properLength (n : Nat) : Nat := max 64 (n + 7)

/-- The CRC check (R150): all bytes but the last two against the last two. -/
def crcMatches (bytes : List Byte) : Bool :=
  (crc (bytes.take (bytes.length - 2))).toNat == readLe (bytes.drop (bytes.length - 2))

/-- A reception of 64 to 1,024 bytes that passes the CRC and length checks (R149, R150); a longer one is bad. -/
def validReception (bytes : List Byte) : Bool :=
  decide (64 ≤ bytes.length) && decide (bytes.length ≤ 1024) && crcMatches bytes
    && decide (bytes.length = properLength (fieldAt bytes 3 2))

/-- The parts of a valid frame (R171). -/
def parseFrame (bytes : List Byte) : ReceivedFrame where
  destination := fieldAt bytes 0 1
  source := fieldAt bytes 1 1
  kind := fieldAt bytes 2 1
  payload := (bytes.drop 5).take (fieldAt bytes 3 2)

/-! ## EDGE and MARK payloads -/

/-- A slot byte of 0 to 7, or FFh for none (R173, R176); any other code names nothing. -/
def slotCode (v : Nat) : Option (Option Nat) :=
  if v ≤ 7 then some (some v) else if v = 255 then some none else none

/-- The side of a code (R173). -/
def sideCode : Nat → Option Side
  | 0 => some .left
  | 1 => some .right
  | _ => none

/-- One EDGE entry and the bytes after it; `none` where it is malformed or cut (R173, R177). -/
def parseEntry (b : List Byte) : Option (EdgeEntry × List Byte) :=
  match sideCode (fieldAt b 0 1), slotCode (fieldAt b 13 1) with
  | some side, some former =>
    let size := if fieldAt b 1 1 = 2 then 20 else 16
    if 2 < fieldAt b 1 1 ∨ 7 < fieldAt b 2 1 ∨ b.length < size then none
    else
      let role : Role :=
        if fieldAt b 1 1 = 0 then .owner else if fieldAt b 1 1 = 1 then .shadow else .releasing (signedAt b 16 4)
      some ({ side := side, role := role
              label := ⟨fieldAt b 2 1, fieldAt b 3 2⟩
              birth := signedAt b 5 4, x := signedAt b 9 2, z := fieldAt b 11 2
              former := former.map fun o => ⟨o, fieldAt b 14 2⟩ }, b.drop size)
  | _, _ => none

/-- `n` entries that fill the bytes to the last (R177). -/
def parseEntries : Nat → List Byte → Option (List EdgeEntry)
  | 0, b => if b.isEmpty then some [] else none
  | n + 1, b =>
    match parseEntry b with
    | some (e, rest) => (parseEntries n rest).map (e :: ·)
    | none => none

/-- An EDGE payload of a frame from `source`; `none` where it is malformed (R173, R177). -/
def parseEdge (source : Nat) (b : List Byte) : Option EdgeReport :=
  let info := fieldAt b 8 1
  let count := info % 16
  let heartbeat := decide (128 ≤ info)
  if b.length < 9 ∨ 8 < count ∨ info / 16 % 8 ≠ 0 ∨ (heartbeat = true ∧ count ≠ 0) then none
  else
    (parseEntries count (b.drop 9)).map fun es =>
      { source := source, bin := signedAt b 0 4, left := fieldAt b 4 1, right := fieldAt b 5 1
        centre := signedAt b 6 2, heartbeat := heartbeat, entries := es }

/-- A MARK payload: mark number and optional wire type index; `none` where its length is not 3 (R176, R177). -/
def parseMark (b : List Byte) : Option (Nat × Option Nat) :=
  if b.length = 3 then some (fieldAt b 0 2, if fieldAt b 2 1 = 255 then none else some (fieldAt b 2 1)) else none

/-! ## CONFIG payload -/

/-- A value held within a range (R163). -/
def clampNat (low high v : Nat) : Nat := max low (min v high)

/-- A wire type entry as carried at index `t` (R176). -/
def rawType (b : List Byte) (t : Nat) : WireType where
  nominal := fieldAt b (37 + 8 * t) 2
  radius := fieldAt b (39 + 8 * t) 2
  bias := fieldAt b (41 + 8 * t) 2
  limit := fieldAt b (43 + 8 * t) 2

/-- A wire type as taken: bias and limit held within their ranges (R102). -/
def WireType.clamped (w : WireType) : WireType :=
  { w with bias := min w.bias 200, limit := min w.limit w.nominal }

/-- The entries below the type count, as taken (R102). -/
def typeTable (b : List Byte) : List WireType :=
  ((List.range (fieldAt b 35 1)).map (rawType b)).map WireType.clamped

/-- The settings of a CONFIG payload with every clamp of R163 applied. A code that names no value of its setting is
refused by `configChecks`. -/
def decodeSettings (b : List Byte) : Settings where
  sequence := fieldAt b 0 2
  fieldOrigin := signedAt b 2 2
  fieldWidth := fieldAt b 4 2
  facing := if fieldAt b 6 1 = 1 then .plus else .minus
  heightOffset := fieldAt b 7 2
  margin := fieldAt b 9 2
  leftNeighbour := (slotCode (fieldAt b 11 1)).join
  rightNeighbour := (slotCode (fieldAt b 12 1)).join
  xGate := clampNat 10 400 (fieldAt b 13 2)
  zGate := clampNat 10 1000 (fieldAt b 15 2)
  linkXGate := clampNat 10 400 (fieldAt b 17 2)
  linkZGate := clampNat 10 1000 (fieldAt b 19 2)
  confirmHits := clampNat 2 7 (fieldAt b 21 1)
  coastLimit := clampNat 1 15 (fieldAt b 22 1)
  openThreshold := clampNat 1 255 (fieldAt b 23 1)
  holdThreshold := clampNat 1 (clampNat 1 255 (fieldAt b 23 1)) (fieldAt b 24 1)
  exposureStart := clampNat 0 15 (fieldAt b 25 1)
  stepLength := fieldAt b 26 4
  pulseLength := fieldAt b 30 4
  direction := if fieldAt b 34 1 = 0 then .normal else .reversed
  wireTypes := typeTable b
  defaultType := fieldAt b 36 1
  staggerLimit := clampNat 0 8000 (fieldAt b 69 2)
  drainThreshold := clampNat 1 24 (fieldAt b 71 1)
  ageLimit := clampNat 1 50 (fieldAt b 72 1)
  hysteresis := clampNat 0 500 (fieldAt b 73 2)
  neighbourTimeout := clampNat 5 100 (fieldAt b 75 1)
  alertMask := BitVec.ofNat 16 (fieldAt b 76 2)
  alertPulse := clampNat 1 15 (fieldAt b 78 1)

/-- The reason of the first check that fails. -/
def firstFailure : List (Bool × Reason) → Option Reason
  | [] => none
  | (ok, r) :: rest => if ok then firstFailure rest else some r

/-- The geometry checks, in their order (R11, R178). -/
def geometryChecks (slot : Nat) (b : List Byte) (c : Settings) : List (Bool × Reason) :=
  [ (fieldAt b 6 1 == 1 || fieldAt b 6 1 == 255, .field),
    (decide (1000 ≤ c.fieldWidth ∧ c.fieldWidth ≤ 7000), .field),
    (decide (-8000 ≤ c.fieldOrigin ∧ c.fieldOrigin ≤ 8000), .field),
    (decide (-8000 ≤ fieldLeft c ∧ fieldRight c ≤ 8000), .field),
    (decide (c.heightOffset ≤ 30000), .field),
    (decide (c.margin ≤ c.fieldWidth / 3), .margin),
    ((slotCode (fieldAt b 11 1)).isSome && (slotCode (fieldAt b 12 1)).isSome, .neighbour),
    (c.leftNeighbour != some slot && c.rightNeighbour != some slot, .neighbour),
    (c.leftNeighbour != c.rightNeighbour || c.leftNeighbour.isNone, .neighbour) ]

/-- The distance checks, in their order (R44, R178). -/
def distanceChecks (b : List Byte) (c : Settings) : List (Bool × Reason) :=
  [ (decide (50000 ≤ c.stepLength ∧ c.stepLength ≤ 500000), .step),
    (decide (1 ≤ c.pulseLength ∧ c.pulseLength ≤ 65535 ∧ c.pulseLength < c.stepLength), .pulse),
    (decide (fieldAt b 34 1 ≤ 1), .step) ]

/-- The wire type checks (R102, R178). -/
def typeChecks (b : List Byte) (c : Settings) : List (Bool × Reason) :=
  [ (decide (1 ≤ fieldAt b 35 1 ∧ fieldAt b 35 1 ≤ 4), .type),
    (c.wireTypes.all fun w => decide (800 ≤ w.nominal ∧ w.nominal ≤ 2000 ∧ 300 ≤ w.radius ∧ w.radius ≤ 1000), .type),
    (decide (c.defaultType < fieldAt b 35 1), .type) ]

/-- All checks of a CONFIG payload, in their order (R162). -/
def configChecks (slot : Nat) (b : List Byte) : List (Bool × Reason) :=
  (decide (b.length = 79), .length) ::
    (geometryChecks slot b (decodeSettings b) ++ distanceChecks b (decodeSettings b) ++ typeChecks b (decodeSettings b))

/-- The judgement of a CONFIG payload: the reason of its refusal, or the settings it gives (R162). -/
def judgeConfig (slot : Nat) (b : List Byte) : Except Reason Settings :=
  match firstFailure (configChecks slot b) with
  | some r => .error r
  | none => .ok (decodeSettings b)

end Sys2Proof.Machine
end

