-- ==== Sys2Proof/Machine/Frames.lean ====
section
/-! DEFINITION. The bytes of every frame the node sends (R136, R171 to R175). -/

namespace Sys2Proof.Machine

/-- The header and payload with the pad to 64 bytes (R136). -/
def frameBody (destination source : Nat) (kind : FrameKind) (payload : List Byte) : List Byte :=
  leBytes 1 destination ++ leBytes 1 source ++ leBytes 1 kind.code ++ leBytes 2 payload.length ++ payload
    ++ List.replicate (57 - payload.length) 0#8

/-- A frame proper: header, payload, pad and CRC (R135, R136). -/
def frameProper (destination source : Nat) (kind : FrameKind) (payload : List Byte) : List Byte :=
  frameBody destination source kind payload ++ leBytes 2 (crc (frameBody destination source kind payload)).toNat

/-- A slot byte, FFh for none (R173). -/
def slotByte (s : Option Nat) : Nat := s.getD 255

/-- The side code (R173). -/
def sideByte : Side → Nat
  | .left => 0
  | .right => 1

/-- The role code (R173). -/
def Role.code : Role → Nat
  | .owner => 0
  | .shadow => 1
  | .releasing _ => 2

/-- The bytes of one EDGE entry (R173). -/
def entryBytes (e : EdgeEntry) : List Byte :=
  leBytes 1 (sideByte e.side) ++ leBytes 1 e.role.code ++ leBytes 1 e.label.origin ++ leBytes 2 e.label.serial
    ++ leIntBytes 4 e.birth ++ leIntBytes 2 e.x ++ leBytes 2 e.z
    ++ leBytes 1 (slotByte (e.former.map (·.origin))) ++ leBytes 2 ((e.former.map (·.serial)).getD 0)
    ++ (match e.role with
        | .releasing j => leIntBytes 4 j
        | _ => [])

/-- The bytes of an EDGE payload (R173). -/
def edgePayload (r : EdgeReport) : List Byte :=
  leIntBytes 4 r.bin ++ leBytes 1 r.left ++ leBytes 1 r.right ++ leIntBytes 2 r.centre
    ++ leBytes 1 (r.entries.length + if r.heartbeat then 128 else 0) ++ r.entries.flatMap entryBytes

/-- The EDGE frame of a report, addressed to slot 15 (R145). -/
def edgeFrame (r : EdgeReport) : EdgeFrame where
  bin := r.bin
  bytes := frameProper Config.broadcast r.source .edge (edgePayload r)

/-- The bytes of one measurement record (R174). -/
def recordBytes (r : Record) : List Byte :=
  leBytes 1 r.label.origin ++ leBytes 2 r.label.serial ++ leIntBytes 4 r.gpi ++ leBytes 2 r.flags
    ++ leIntBytes 2 r.stagger ++ leBytes 2 r.height ++ leBytes 1 r.samples
    ++ (match r.wear with
        | some (residual, width) => leBytes 2 residual ++ leBytes 2 width
        | none => [])
    ++ (match r.gap with
        | some g => leBytes 2 g
        | none => [])
    ++ (match r.mark with
        | some m => leBytes 2 m
        | none => [])

/-- The bytes of a GAUGE payload (R174). -/
def gaugePayload (rs : List Record) : List Byte := leBytes 1 rs.length ++ rs.flatMap recordBytes

/-- The code of a result (R175). -/
def StatusResult.code : StatusResult → Nat
  | .accepted => 0
  | .refused _ => 1
  | .queried => 2
  | .drained => 3

/-- The code of a reason (R175). -/
def Reason.code : Reason → Nat
  | .length => 1
  | .field => 2
  | .margin => 3
  | .neighbour => 4
  | .step => 5
  | .pulse => 6
  | .type => 7

/-- The reason code of a result; 00h for none (R175). -/
def StatusResult.reasonCode : StatusResult → Nat
  | .refused r => r.code
  | _ => 0

/-- The code of a node state (R175). -/
def NodeState.code : NodeState → Nat
  | .unconfigured => 0
  | .ready => 1
  | .running => 2
  | .draining => 3

/-- The code of a neighbour state; 00h for a side not configured or before any run (R175). -/
def lifeCode : Option Liveness → Nat
  | none => 0
  | some l =>
    match l.state with
    | .unheard => 1
    | .present => 2
    | .lost => 3

/-- The contents of a STATUS frame (R165). -/
structure StatusReport where
  result : StatusResult
  node : NodeState
  slot : Nat
  sequence : Nat
  latches : BitVec 13
  hw : Int
  level : Nat
  trackCount : Nat
  leftLife : Option Liveness
  rightLife : Option Liveness
  counters : Counters
  deriving DecidableEq, Repr

/-- The snapshot of a STATUS with a given result (R165). -/
def State.snapshot (s : State) (result : StatusResult) : StatusReport where
  result := result
  node := s.rca.node
  slot := s.rca.slot
  sequence := (s.rca.pendingSettings.map (·.settings.sequence)).getD 0
  latches := s.rca.latches
  hw := s.du.hw
  level := s.siu.level
  trackCount := s.tt.serving.getD s.tt.tracks.length
  leftLife := s.rlc.leftLife
  rightLife := s.rlc.rightLife
  counters := s.rca.counters

/-- The bytes of a STATUS payload (R175). -/
def statusPayload (r : StatusReport) : List Byte :=
  leBytes 1 r.result.code ++ leBytes 1 r.result.reasonCode ++ leBytes 1 r.node.code ++ leBytes 1 r.slot
    ++ leBytes 2 r.sequence ++ leBytes 2 r.latches.toNat ++ leIntBytes 4 r.hw ++ leBytes 1 r.level
    ++ leBytes 1 r.trackCount ++ leBytes 1 (lifeCode r.leftLife) ++ leBytes 1 (lifeCode r.rightLife)
    ++ leBytes 4 r.counters.scansTaken ++ leBytes 4 r.counters.skippedScans ++ leBytes 4 r.counters.lostBins
    ++ leBytes 2 r.counters.abandonedFrames ++ leBytes 4 r.counters.badFrames
    ++ leBytes 2 r.counters.droppedEdges ++ leBytes 2 r.counters.drainLoss

end Sys2Proof.Machine
end

