-- ==== Sys2Proof/Machine/RecordQueue.lean ====
section
/-! DEFINITION. The transmit arbiter with the STATUS build (R142, R143, R165), the Record Queue (R121 to R123, R129,
R133), the EDGE slot (R145), the end of a drain (R160) and the exposure word (R24): the operations several families
share. -/

namespace Sys2Proof.Machine

/-! ## The transmit arbiter -/

/-- Replace the transmitter. -/
def State.withTx (s : State) (t : Transmitter) : State := s.withRlc { s.rlc with tx := t }

/-- A chosen frame enters its attempt cycle with attempt count 0 and defers (R137, R139, R142). -/
def State.enterCycle (s : State) (source : FrameSource) (bytes : List Byte) : State :=
  s.withTx (.busy source bytes 0 .deferring)

/-- The arbiter chooses the pending STATUS: it is built from a snapshot, which then clears the latches that the
accumulated clear mask names, and the mask becomes empty (R143, R165). -/
def State.chooseStatus (s : State) (p : PendingStatus) : State :=
  (s.withRca { s.rca with
    latches := s.rca.latches &&& ~~~s.rca.clearMask
    clearMask := 0
    status := none }).enterCycle (.status p.drainEnd)
      (frameProper p.destination s.rca.slot .status (statusPayload (s.snapshot p.result)))

/-- The GAUGE frame of the records IN_FRAME, addressed to the recording station of the run (R144). -/
def State.gaugeBytes (s : State) (station : Nat) : List Byte :=
  frameProper station s.rca.slot .gauge (gaugePayload (s.rq.inFrame.map (·.record)))

/-- The transmit arbiter: while the transmitter is free and a source offers a frame it chooses the EDGE slot first, then
a pending STATUS, then the GAUGE frame (R142). -/
def arbitrate (s : State) : State :=
  match s.rlc.tx with
  | .busy .. => s
  | .free =>
    match s.rlc.edgeSlot, s.rca.status, s.rca.runSettings with
    | some e, _, _ => (s.withRlc { s.rlc with edgeSlot := none }).enterCycle (.edge e.bin) e.bytes
    | none, some p, _ => s.chooseStatus p
    | none, none, some run => if s.rq.inFrame.isEmpty then s else s.enterCycle .gauge (s.gaugeBytes run.source)
    | none, none, none => s

/-! ## The record queue -/

/-- The three conditions of R129 on the QUEUED records: the drain threshold, the age of the oldest, or DRAINING. -/
def gaugeDue (s : State) (c : Settings) : Bool :=
  match s.rq.queued with
  | [] => false
  | q :: _ =>
    decide (c.drainThreshold ≤ s.rq.queued.length) || decide (q.entered + c.ageLimit * millisecond ≤ s.now)
      || decide (s.rca.node = .draining)

/-- Whether a GAUGE frame may form: none exists, no hold period runs, the drain limit has not passed, and a condition
holds (R129, R131, R133). -/
def canForm (s : State) : Bool :=
  match s.settings with
  | some c => s.rq.inFrame.isEmpty && s.rq.hold.isNone && !s.rq.pastLimit && gaugeDue s c
  | none => false

/-- Test R129: form a GAUGE frame of the oldest QUEUED records, up to 24, and offer it to the arbiter. -/
def testForm (s : State) : State :=
  if canForm s then
    arbitrate (s.withRq { s.rq with
      inFrame := s.rq.queued.take Config.gaugeRecords
      queued := s.rq.queued.drop Config.gaugeRecords })
  else s

/-- The gap count of a record after the track's last queued GPI, where there is a gap (R122). -/
def gapCount (lastQueued : Option Int) (gpi : Int) : Option Nat :=
  match lastQueued with
  | none => none
  | some l => if l + 1 < gpi then some (min (gpi - l - 1).toNat 65535) else none

/-- The record as it enters: the track's label and the entry marks (R121 step 3, R122, R123). -/
def Track.entryOf (t : Track) (r : Record) : Record :=
  { r with
    label := t.label
    contested := t.contested
    takenOver := t.takenOver
    gap := gapCount t.lastQueued r.gpi
    mark := t.mark }

/-- The track after its record has entered (R121 step 3, R123). -/
def Track.afterEntry (t : Track) (r : Record) : Track :=
  { t with lastQueued := some r.gpi, contested := false, takenOver := false, mark := none }

/-- Whether a record is already covered by the last queued GPI (R121 step 1). -/
def Track.covers (t : Track) (r : Record) : Bool :=
  match t.lastQueued with
  | some l => decide (r.gpi ≤ l)
  | none => false

/-- Records in the queue, QUEUED and IN_FRAME alike (R121). -/
def Rq.count (q : Rq) : Nat := q.inFrame.length + q.queued.length

/-- Count records lost at or after the drain limit (R133, R167). -/
def State.countDrainLoss (s : State) (n : Nat) : State :=
  s.withCounters { s.rca.counters with drainLoss := raise max16 s.rca.counters.drainLoss n }

/-- Refuse a record for want of room (R121 step 2, R134). -/
def State.refuseRecord (s : State) : State :=
  (s.setLatch .queueFull).withCounters { s.rca.counters with lostBins := raise max32 s.rca.counters.lostBins 1 }

/-- Place a record at the tail of the queue with the present instant as its entry time (R121 step 3, R128). -/
def State.enqueue (s : State) (r : Record) : State :=
  s.withRq { s.rq with queued := s.rq.queued ++ [⟨r, s.now⟩] }

/-- Offer a record of a track for entry to the RQ: after the drain limit it is drain loss (R133, log 11); otherwise the
three steps of R121, an entry being followed by the test of R129. -/
def offer (r : Record) (t : Track) (s : State) : Track × State :=
  if s.rq.pastLimit then (t, s.countDrainLoss 1)
  else if t.covers r then (t, s)
  else if Config.queuePlaces ≤ s.rq.count then (t, s.refuseRecord)
  else (t.afterEntry r, testForm (s.enqueue (t.entryOf r)))

/-- Offer several records one after another (R92, R120). -/
def offerAll : List Record → Track → State → Track × State
  | [], t, s => (t, s)
  | r :: rs, t, s => offerAll rs (offer r t s).1 (offer r t s).2

/-- Append a record to a hold list; the oldest is lost when four are held (R91). -/
def holdRecord (held : List Record) (r : Record) : List Record :=
  (if Config.holdPlaces ≤ held.length then held.drop 1 else held) ++ [r]

/-- Route a record by the role of its track (R120). -/
def route (r : Record) (t : Track) (s : State) : Track × State :=
  match t.role with
  | .owner => offer r t s
  | .shadow | .releasing _ => ({ t with held := holdRecord t.held r }, s)

/-! ## The EDGE slot -/

/-- Place an EDGE frame in the slot, replacing a frame that waits there, and let the arbiter decide (R142, R145). -/
def State.placeEdge (s : State) (e : EdgeFrame) : State := arbitrate (s.withRlc { s.rlc with edgeSlot := some e })

/-! ## STATUS and the end of a drain -/

/-- Whether the pending STATUS is the drain-end STATUS (R160). -/
def drainEndPending (s : State) : Bool := (s.rca.status.map (·.drainEnd)).getD false

/-- A CONFIG or QUERY makes a STATUS pending, or updates the pending one, with its result and destination (R164); a
pending drain-end STATUS stays the drain-end STATUS (R160). -/
def State.statusFor (s : State) (result : StatusResult) (destination : Nat) : State :=
  arbitrate (s.withRca { s.rca with status := some ⟨result, destination, drainEndPending s⟩ })

/-- The conditions of R160 for the end of a drain. -/
def drainDone (s : State) : Bool :=
  decide (s.rca.node = .draining) && !s.tt.isOpen && s.rq.inFrame.isEmpty && s.rq.queued.isEmpty
    && s.rlc.edgeSlot.isNone && decide (s.rlc.tx = .free) && !drainEndPending s

/-- The destination of the drain-end STATUS: unchanged when one is pending, else the recording station of the run
(R164). -/
def drainDestination (s : State) : Option Nat :=
  match s.rca.status, s.rca.runSettings with
  | some p, _ => some p.destination
  | none, some run => some run.source
  | none, none => none

/-- Test R160: at the end of a drain the timer is stopped and a STATUS with result DRAINED becomes pending; then the
arbiter decides. -/
def testDrainEnd (s : State) : State :=
  match drainDestination s with
  | some d =>
    if drainDone s then
      arbitrate (s.withRca { s.rca with status := some ⟨.drained, d, true⟩, drainTimer := none })
    else arbitrate s
  | none => arbitrate s

/-- Change the node state, and the run line with it, at the present instant (R156). -/
def State.enterNode (s : State) (n : NodeState) : State := s.withRca { s.rca with node := n, since := s.now }

/-! ## The exposure word -/

/-- Send the exposure word: at once, or after the word being sent (R24). -/
def Siu.sendWord (u : Siu) : Siu :=
  match u.word with
  | none => { u with word := some u.level }
  | some _ => { u with wordDue := true }

/-- Take a level; a change of level sends the word (R24, R26, R27). -/
def Siu.stepTo (u : Siu) (level : Nat) : Siu :=
  if level = u.level then u else Siu.sendWord { u with level := level }

end Sys2Proof.Machine
end

