-- ==== Sys2Proof/Machine/Wear.lean ====
section
/-! DEFINITION. Chapter 6: the residual computation of the Wear Arithmetic Unit. -/

namespace Sys2Proof.Machine

/-- Integer square root by bits from `2 ^ (k - 1)` down, starting from `r` (R108). -/
def rootFrom : Nat → Nat → Nat → Nat
  | 0, r, _ => r
  | k + 1, r, q => if (r + 2 ^ k) * (r + 2 ^ k) ≤ q then rootFrom k (r + 2 ^ k) q else rootFrom k r q

/-- The integer square root of a chord term, which is below 2^22 (R107, R108). -/
def integerRoot (q : Nat) : Nat := rootFrom 11 0 q

/-- The corrected width (R106). -/
def correctedWidth (w : WireType) (width : Nat) : Int := (width : Int) - w.bias

/-- The chord term (R107). -/
def chordTerm (w : WireType) (c : Int) : Int := 4 * (w.radius : Int) ^ 2 - c ^ 2

/-- The removed height: half the difference of diameter and root, rounded half up (R108). -/
def removedHeight (radius root : Nat) : Nat := (2 * radius - root + 1) / 2

/-- The wear sample of a reported face width with a wire type (R105 to R108). -/
def wearSample (w : WireType) (index width : Nat) : WearSample :=
  let c := correctedWidth w width
  if c < 50 then ⟨w.nominal, c.toNat, .noFlat, index⟩
  else if chordTerm w c ≤ 0 then ⟨w.nominal - w.radius, c.toNat, .beyond, index⟩
  else ⟨w.nominal - removedHeight w.radius (integerRoot (chordTerm w c).toNat), c.toNat, .measured, index⟩

/-- The minimum after a further sample: replaced when the residual is smaller, kept when it is equal (R61, R110). -/
def smaller (old : Option WearSample) (new : WearSample) : WearSample :=
  match old with
  | none => new
  | some m => if new.residual < m.residual then new else m

end Sys2Proof.Machine
end

