-- ==== Sys2Proof/Machine/Records.lean ====
section
/-! DEFINITION. The making of a measurement record (R116 to R119, R111, R112), the release check (R89) and the close of
one accumulator (R68, R70), shared by bin closes, the final close and implicit closes; the taking of a request from the
list (R52). -/

namespace Sys2Proof.Machine

/-- The state of a track is TENTATIVE. -/
def TrackState.isTentative : TrackState → Bool
  | .tentative _ _ => true
  | .confirmed | .coasting => false

/-- The mean of `n` samples with sum `S`, a half rounded toward positive infinity (R116). -/
def mean (sum : Int) (n : Nat) : Int := (2 * sum + n) / (2 * n : Nat)

/-- The stagger of a full record (R116, R4). -/
def stagger (a : Accumulator) : Int := clampX (mean a.sumX a.count)

/-- The height of a full record (R116). -/
def height (a : Accumulator) : Nat := (2 * a.sumZ + a.count) / (2 * a.count)

/-- Whether a minimum lies strictly below the wear limit of the type it was computed with (R112). -/
def belowWearLimit (c : Settings) (m : Option WearSample) : Bool :=
  match m with
  | some m =>
    match c.wireTypes[m.type]? with
    | some w => decide (m.residual < w.limit)
    | none => false
  | none => false

/-- Whether a stagger exceeds the stagger limit, which 0 turns off (R118). -/
def beyondStagger (c : Settings) (x : Int) : Bool := c.staggerLimit != 0 && decide (c.staggerLimit < x.natAbs)

/-- Whether a minimum has a class (R111). -/
def hasClass (m : Option WearSample) (k : WearClass) : Bool := (m.map (·.cls == k)).getD false

/-- The full record of an accumulator (R116, R111, R112, R118); END where the final close makes it (R119). -/
def fullRecord (c : Settings) (final : Bool) (l : Label) (a : Accumulator) : Record where
  label := l
  gpi := a.bin
  noSample := false
  noFlat := hasClass a.minimum .noFlat
  beyond := hasClass a.minimum .beyond
  wearLimit := belowWearLimit c a.minimum
  staggerLimit := beyondStagger c (stagger a)
  contested := false
  takenOver := false
  final := final
  stagger := stagger a
  height := height a
  samples := a.count
  wear := a.minimum.map fun m => (m.residual, m.width)
  gap := none
  mark := none

/-- The NO_SAMPLE record of a track at the close of a bin (R117). -/
def noSampleRecord (final : Bool) (bin : Int) (t : Track) : Record where
  label := t.label
  gpi := bin
  noSample := true
  noFlat := false
  beyond := false
  wearLimit := false
  staggerLimit := false
  contested := false
  takenOver := false
  final := final
  stagger := t.lastX
  height := t.lastZ
  samples := 0
  wear := none
  gap := none
  mark := none

/-- The latches a record sets when it is made (R112, R118). -/
def State.latchRecord (s : State) (r : Record) : State :=
  (s.latchIf r.wearLimit .wearLimit).latchIf r.staggerLimit .staggerLimit

/-- Whether an OWNER track linked to a neighbour starts releasing after a record with this stagger (R13, R89). -/
def releases (c : Settings) (u : Tt) (t : Track) (x : Int) : Bool :=
  match t.role, t.link with
  | .owner, some side =>
    match u.centre side with
    | some n => decide ((c.hysteresis : Int) < releasePreference c x n) && t.peerRole != some .releasing
    | none => false
  | _, _ => false

/-- The release check after the record of bin `b` (R89). -/
def releaseCheck (c : Settings) (u : Tt) (t : Track) (r : Record) : Track :=
  if releases c u t r.stagger then { t with role := .releasing (r.gpi + 1) } else t

/-- Route a record just made, then apply the release check unless the final close made it (R119, R120, R125). -/
def finishRecord (c : Settings) (r : Record) (t : Track) (s : State) : Track × State :=
  let routed := route r t (s.latchRecord r)
  if r.final then routed else (releaseCheck c s.tt routed.1 r, routed.2)

/-- Close an accumulator for its track (R68, R70): cleared without a record where the track was TENTATIVE, else made
into a full record of its bin. `state` is the state by which the track is judged (R62). -/
def closeAccumulator (c : Settings) (final : Bool) (state : TrackState) (a : Accumulator) (t : Track) (s : State) :
    Track × State :=
  if state.isTentative then ({ t with acc := none }, s)
  else finishRecord c (fullRecord c final t.label a) { t with acc := none, missedBins := 0 } s

/-- The TT takes the oldest request of its open list and serves it whole (R52, R54, R165): `serve` answers the state
after the service, or nothing where the request is of another kind than the command names. -/
def serveNext (s : State) (serve : Settings → Request → State → Option Result) : Result :=
  match s.tt.requests with
  | [] => .refused .notNextRequest
  | r :: rest =>
    if s.tt.isOpen then
      match s.settings with
      | some c =>
        (serve c r (s.withTt { s.tt with requests := rest, serving := some s.tt.tracks.length })).getD
          (.refused .notNextRequest)
      | none => .fault .noRunSettings
    else .refused .notNextRequest

/-- The service of a request ends (R165). -/
def State.served (s : State) : State := s.withTt { s.tt with serving := none }

end Sys2Proof.Machine
end

