-- ==== Sys2Proof/Machine/Close.lean ====
section
/-! DEFINITION. Section 4.4, chapter 7 and section 2.5: BIN_CLOSE and FINAL_CLOSE. -/

namespace Sys2Proof.Machine

/-- A CONFIRMED or COASTING track without a sample in the bin (R69): dropped as exited, dropped beyond the coast limit,
or COASTING with a NO_SAMPLE record. -/
def closeUnseen (c : Settings) (k : Int) (final : Bool) (t : Track) (s : State) : Option Track × State :=
  if edgeDistance c t.lastX ≤ xGateOf c t.missedBins then (none, s)
  else if c.coastLimit < t.missedBins + 1 then (none, s)
  else
    let t := { t with missedBins := t.missedBins + 1, state := .coasting }
    let out := finishRecord c (noSampleRecord final k t) t s
    (some out.1, out.2)

/-- What the close of bin k does to one track (R67). -/
def closeTrack (c : Settings) (k : Int) (final : Bool) (t : Track) (s : State) : Option Track × State :=
  match t.acc with
  | some a =>
    if a.bin ≤ k then
      let out := closeAccumulator c final t.state a t s
      (some out.1, out.2)
    else (some t, s)
  | none => if t.state.isTentative then (some t, s) else closeUnseen c k final t s

/-- The tracks of a close, one after another; the tracks that remain (R125 step 1). -/
def closeTracks (c : Settings) (k : Int) (final : Bool) : List Track → State → List Track × State
  | [], s => ([], s)
  | t :: ts, s =>
    let first := closeTrack c k final t s
    let rest := closeTracks c k final ts first.2
    (first.1.toList ++ rest.1, rest.2)

/-- Step 1 of a close: the tracks in increasing label order (R125). -/
def dealWithTracks (c : Settings) (k : Int) (final : Bool) (s : State) : State :=
  let out := closeTracks c k final (sortBy (fun t => t.label.key) s.tt.tracks) s
  out.2.withTracks out.1

/-- The side on which a track is reported: its link, otherwise its effective side; nothing where it has no entry
(R76). -/
def reportSide (c : Settings) (t : Track) : Option Side :=
  match t.link with
  | some side => some side
  | none => effectiveSide c t.lastX

/-- The entry of a track in a CLOSE report (R76). -/
def reportEntry (c : Settings) (t : Track) : Option EdgeEntry :=
  (reportSide c t).map fun side =>
    { side := side, role := t.role, label := t.label, birth := t.birth, x := t.lastX, z := t.lastZ, former := t.former }

/-- The header of the node's EDGE reports (R76). -/
def reportOf (c : Settings) (slot : Nat) (bin : Int) (heartbeat : Bool) (entries : List EdgeEntry) : EdgeReport where
  source := slot
  bin := bin
  left := slotByte c.leftNeighbour
  right := slotByte c.rightNeighbour
  centre := ownCentre c
  heartbeat := heartbeat
  entries := entries

/-- The CLOSE report of bin k: entries in increasing x, then increasing label (R76, R126). -/
def closeReport (c : Settings) (k : Int) (s : State) : EdgeReport :=
  reportOf c s.rca.slot k false
    (sortBy (fun e => e.x :: e.label.key) (s.tt.tracks.filterMap (reportEntry c)))

/-- Step 2 of a close: in RUNNING the report is built, which clears every former label, and handed to the EDGE slot
(R77, R126). -/
def buildReport (c : Settings) (k : Int) (s : State) : State :=
  if s.rca.node = .running then
    (s.withTracks (s.tt.tracks.map fun t => { t with former := none })).placeEdge (edgeFrame (closeReport c k s))
  else s

/-- The level one step toward the start level (R27). -/
def toward (start level : Nat) : Nat := if level < start then level + 1 else if start < level then level - 1 else level

/-- The exposure decision of R26 and R27 for a settled bin: level and drift counter. -/
def exposureChoice (c : Settings) (u : Siu) (ts : List Track) : Nat × Nat :=
  if 2 ≤ u.associated ∧ u.associated ≤ 2 * u.saturated then (u.level - 1, 0)
  else if u.associated < 2 * u.weak then (min (u.level + 1) 15, 0)
  else if u.associated = 0 ∧ (ts.any fun t => !t.state.isTentative) = true then (min (u.level + 1) 15, 0)
  else if u.associated = 0 ∧ ts = [] then
    if u.drift + 1 = 16 then (toward c.exposureStart u.level, 0) else (u.level, u.drift + 1)
  else (u.level, 0)

/-- The bin statistics are cleared (R25, R26). -/
def Siu.clearStatistics (u : Siu) : Siu := { u with associated := 0, saturated := 0, weak := 0, settled := false }

/-- Step 3 of a close: the exposure step (R26 to R28). -/
def exposureStep (c : Settings) (s : State) : State :=
  let u := s.siu
  let choice := if u.settled then exposureChoice c u s.tt.tracks else (u.level, u.drift)
  s.withSiu ({ u with drift := choice.2 }.stepTo choice.1).clearStatistics

/-- BIN_CLOSE (R125). -/
def execBinClose (elapsed : Nat) (s : State) : Result :=
  serveNext (s.elapse elapsed) fun c r s =>
    match r with
    | .binClose k => some (.next (exposureStep c (buildReport c k (dealWithTracks c k false s))).served)
    | _ => none

/-- The TT becomes closed and the requests left are removed unserved (R54). -/
def State.closeTable (s : State) : State := s.withTt { s.tt with isOpen := false, requests := [] }

/-- FINAL_CLOSE (R119): no release check and no report; the TT becomes closed (R54), which may end the drain (R160). -/
def execFinalClose (elapsed : Nat) (s : State) : Result :=
  serveNext (s.elapse elapsed) fun c r s =>
    match r with
    | .finalClose k => some (.next (testDrainEnd (exposureStep c (dealWithTracks c k true s)).served.closeTable))
    | _ => none

end Sys2Proof.Machine
end

