-- ==== Sys2Proof/Machine/Distance.lean ====
section
/-! DEFINITION. Chapter 3: the Distance Unit: ODOMETER_TRANSITION and ILLEGAL_TRANSITION. -/

namespace Sys2Proof.Machine

/-- The pair after a transition of one line (R32). -/
def toggle (pair : OdoPair) : OdoLine → OdoPair
  | .p => { pair with p := !pair.p }
  | .q => { pair with q := !pair.q }

/-- The phase state that a group of edges leaves (R32). -/
def phaseAfter (pair : OdoPair) (g : EdgeGroup) : OdoPair :=
  g.later.foldl (fun p x => toggle p x.line) (toggle pair g.first)

/-- From the first edge of a group to the instant at which 200 ns have passed without an edge (R32). -/
def groupSpan (g : EdgeGroup) : Nat := (g.later.map fun x => x.after.val).sum + edgeResolution

/-- What a group of edges forms (R32). -/
inductive Transition where
  | unchanged
  | oneLine (line : OdoLine)
  | bothLines
  deriving DecidableEq, Repr

/-- The resolution of a group: the phase state before its first edge compared with the state after it (R32). -/
def resolve (before after : OdoPair) : Transition :=
  match before.p == after.p, before.q == after.q with
  | true, true => .unchanged
  | false, true => .oneLine .p
  | true, false => .oneLine .q
  | false, false => .bothLines

/-- Whether a transition of one line is a forward quarter of the table of R32, in the direction sense in force. -/
def isForward (d : DirectionSense) (pair : OdoPair) (line : OdoLine) : Bool :=
  let along := match line with
    | .p => pair.p == pair.q
    | .q => pair.p != pair.q
  match d with
  | .normal => along
  | .reversed => !along

/-- The largest GPI (R38). -/
def maxGpi : Int := 2147483647
/-- The smallest GPI (R38). -/
def minGpi : Int := -2147483648

/-- A forward count (R36, R38, R39): position and high-water index together. -/
def forwardCount (c : Settings) (u : Du) : Du :=
  if u.sub + c.pulseLength < c.stepLength then { u with sub := u.sub + c.pulseLength }
  else if u.gpi = maxGpi then u
  else { u with sub := u.sub + c.pulseLength - c.stepLength, gpi := u.gpi + 1, hw := max u.hw (u.gpi + 1) }

/-- A reverse count (R37, R38). -/
def reverseCount (c : Settings) (u : Du) : Du :=
  if c.pulseLength ≤ u.sub then { u with sub := u.sub - c.pulseLength }
  else if u.gpi = minGpi then u
  else { u with sub := u.sub + c.stepLength - c.pulseLength, gpi := u.gpi - 1 }

/-- A legal transition taken in RUNNING: the quarter count, and the count it may complete (R33, R36, R37). -/
def quarter (c : Settings) (line : OdoLine) (u : Du) : Du :=
  let u' := { u with pair := toggle u.pair line }
  if isForward c.direction u.pair line then
    if u.quarter + 1 = 4 then forwardCount c { u' with quarter := 0 } else { u' with quarter := u.quarter + 1 }
  else
    if u.quarter - 1 = -4 then reverseCount c { u' with quarter := 0 } else { u' with quarter := u.quarter - 1 }

/-- Whether a request is a bin close (R40). -/
def Request.isClose : Request → Bool
  | .binClose _ => true
  | _ => false

/-- Bin closes waiting (R40). -/
def Tt.closesWaiting (t : Tt) : Nat := t.requests.countP Request.isClose

/-- A crossing of the high-water index out of bin k: its close is posted, or lost to OVERSPEED (R39, R40). -/
def postClose (k : Int) (s : State) : State :=
  if s.tt.closesWaiting < Config.closePlaces then s.post (.binClose k) else s.setLatch .overspeed

/-- A legal transition (R33, R42): in RUNNING it counts, and a crossing of the high-water index posts the close of the bin
just left; in the other states it only keeps the reference. -/
def takeQuarter (line : OdoLine) (s : State) : Result :=
  if s.rca.node = .running then
    match s.settings with
    | some c =>
      let u := quarter c line s.du
      .next (if s.du.hw < u.hw then postClose s.du.hw (s.withDu u) else s.withDu u)
    | none => .fault .noRunSettings
  else .next (s.withDu { s.du with pair := toggle s.du.pair line, quarter := 0 })

/-- An illegal transition (R34, R42). -/
def takeIllegal (s : State) : State :=
  (s.withDu { s.du with pair := ⟨!s.du.pair.p, !s.du.pair.q⟩, quarter := 0 }).latchIf
    (decide (s.rca.node = .running)) .quadError

/-- The DU resolves a group of edges once 200 ns have passed since its last edge, and takes the transition it forms, if any
(R32). An edge that came within 200 ns of the group before would be of that group, so the first edge comes after the instant
at which that group was resolved (log 30). -/
def takeEdges (elapsed : Nat) (g : EdgeGroup) (s : State) : Result :=
  let s := s.elapse elapsed
  if s.now ≤ s.du.resolved + groupSpan g then .refused .timeNotReached
  else
    let s' := s.withDu { s.du with resolved := s.now }
    match resolve s.du.pair (phaseAfter s.du.pair g) with
    | .unchanged => .next s'
    | .oneLine line => takeQuarter line s'
    | .bothLines => .next (takeIllegal s')

/-- ODOMETER_TRANSITION (R32, R33): where its edges form a change of one line, the quarter of that line. -/
def execOdometerTransition (elapsed : Nat) (edges : EdgeGroup) (s : State) : Result := takeEdges elapsed edges s

/-- ILLEGAL_TRANSITION (R32, R34): where its edges form a change of both lines, the illegal transition. -/
def execIllegalTransition (event : EdgeEvent) (s : State) : Result := takeEdges event.elapsed event.edges s

end Sys2Proof.Machine
end

