-- ==== Sys2Proof/Machine/Link.lean ====
section
/-! DEFINITION. Sections 8.1 to 8.4: the medium, the attempt cycle, the heartbeat and the record queue's own events:
ATTEMPT_BEGIN, COLLISION, JAM_END, BACKOFF_END, FRAME_SENT, BUS_JAM, MEDIUM_QUIET, CARRIER_APPEARS,
HEARTBEAT_TIMER_EXPIRY, RECORD_AGE_EXPIRY, HOLD_PERIOD_END. -/

namespace Sys2Proof.Machine

/-! ## Times of a frame -/

/-- The time a frame proper takes with its preamble (R135). -/
def frameTime (bytes : List Byte) : Nat := (preamble ++ bytes).length * byteTime

/-- From the first preamble bit to the end of the 64th byte of the frame proper (R138). -/
def collisionWindow : Nat := (preamble.length + 64) * byteTime

/-! ## The end of an attempt cycle -/

/-- The node stops driving the pair: the medium becomes quiet now unless another station holds it (R137). -/
def State.stopDriving (s : State) : State :=
  if s.rlc.carrier.isNone then s.withRlc { s.rlc with lastQuiet := s.now } else s

/-- The attempt cycle of a STATUS ends: where it is the drain-end STATUS the node enters READY (R160). -/
def State.statusEnded (s : State) (drainEnd : Bool) : State := if drainEnd then s.enterNode .ready else s

/-- Count an abandoned or stale frame (R140, R146, R154). -/
def State.countAbandoned (s : State) : State :=
  s.withCounters { s.rca.counters with abandonedFrames := raise max16 s.rca.counters.abandonedFrames 1 }

/-- The heartbeat timer restarts; it runs in RUNNING only (R147). -/
def State.restartHeartbeat (s : State) : State :=
  if s.rca.node = .running then s.withRlc { s.rlc with heartbeat := some (s.now + heartbeatTime) } else s

/-- A frame was sent: its source is told (R131, R142, R147, R160). -/
def frameEnded (source : FrameSource) (s : State) : State :=
  match source with
  | .edge _ => s.restartHeartbeat
  | .status drainEnd => s.statusEnded drainEnd
  | .gauge => testForm (s.withRq { s.rq with inFrame := [] })

/-- The records of an abandoned GAUGE frame: back to QUEUED at the head, with the hold period; after the drain limit they
are drain loss (R131, R133). -/
def State.returnRecords (s : State) : State :=
  if s.rq.pastLimit then (s.countDrainLoss s.rq.inFrame.length).withRq { s.rq with inFrame := [] }
  else s.withRq { s.rq with
    inFrame := [], queued := s.rq.inFrame ++ s.rq.queued, hold := some (s.now + holdTime) }

/-- A frame is abandoned after its sixteenth attempt (R140). -/
def frameAbandoned (source : FrameSource) (s : State) : State :=
  let s := s.countAbandoned.setLatch .collisionLimit
  match source with
  | .edge _ => s
  | .status drainEnd => s.statusEnded drainEnd
  | .gauge => s.returnRecords

/-- The choices of a backoff after the n-th failed attempt: 2 to the smaller of n and 10 (R139). -/
def backoffChoices (n : Nat) : Nat := 2 ^ min n 10

/-- The phase after a failed attempt: straight to deferral with r = 0, else a backoff of r slot times (R139). -/
def backoffPhase (s : State) (r : Nat) : TxPhase := if r = 0 then .deferring else .backingOff (s.now + r * slotTime)

/-! ## Attempts -/

/-- An EDGE frame is stale when its bin is more than 4 below the high-water index (R146). -/
def stale (s : State) : FrameSource → Bool
  | .edge bin => decide (bin < s.du.hw - 4)
  | .status _ | .gauge => false

/-- A transmission attempt begins, or a stale EDGE frame is discarded (R137, R138, R146). -/
def beginAttempt (source : FrameSource) (bytes : List Byte) (attempts : Nat) (s : State) : State :=
  if stale s source then testDrainEnd (s.withTx .free).countAbandoned
  else s.withTx (.busy source bytes attempts (.transmitting s.now))

/-- ATTEMPT_BEGIN (R137): once the medium has been quiet for the interframe gap. -/
def execAttemptBegin (elapsed : Nat) (s : State) : Result :=
  let s := s.elapse elapsed
  match s.rlc.tx with
  | .busy source bytes attempts .deferring =>
    if s.rlc.carrier.isSome then .refused .carrierPresent
    else if s.rlc.lastQuiet + interframeGap ≤ s.now then .next (beginAttempt source bytes attempts s)
    else .refused .timeNotReached
  | .free | .busy _ _ _ (.transmitting _) | .busy _ _ _ (.jam _) | .busy _ _ _ (.backingOff _) =>
    .refused .transmitterPhase

/-- A spell of carrier begins; a reception may begin in it where it follows quiet (R149). -/
def State.spellBegins (s : State) (usable : Bool) : State :=
  match s.rlc.carrier with
  | some _ => s
  | none => s.withRlc { s.rlc with carrier := some ⟨s.now, usable, false⟩ }

/-- A collision found: the frame stops and the jam begins (R138). -/
def collide (source : FrameSource) (bytes : List Byte) (attempts : Nat) (s : State) : State :=
  (s.spellBegins false).withTx (.busy source bytes attempts (.jam (s.now + jamTime)))

/-- COLLISION (R138): within the first 64 bytes of the frame proper. -/
def execCollision (elapsed : Nat) (s : State) : Result :=
  let s := s.elapse elapsed
  match s.rlc.tx with
  | .busy source bytes attempts (.transmitting since) =>
    if s.now ≤ since + collisionWindow then .next (collide source bytes attempts s) else .refused .timeNotReached
  | .free | .busy _ _ _ .deferring | .busy _ _ _ (.jam _) | .busy _ _ _ (.backingOff _) => .refused .transmitterPhase

/-- The end of a jam: the attempt count rises; a backoff is chosen, or the frame is abandoned (R139, R140). -/
def endJam (source : FrameSource) (bytes : List Byte) (attempts draw : Nat) (s : State) : State :=
  let s := s.stopDriving
  if attempts + 1 < Config.attempts then
    s.withTx (.busy source bytes (attempts + 1) (backoffPhase s (draw % backoffChoices (attempts + 1))))
  else testDrainEnd (frameAbandoned source (s.withTx .free))

/-- JAM_END (R139); the draw stands for the random choice (log 6). -/
def execJamEnd (elapsed draw : Nat) (s : State) : Result :=
  let s := s.elapse elapsed
  match s.rlc.tx with
  | .busy source bytes attempts (.jam ends) =>
    if ends ≤ s.now then .next (endJam source bytes attempts draw s) else .refused .timeNotReached
  | .free | .busy _ _ _ .deferring | .busy _ _ _ (.transmitting _) | .busy _ _ _ (.backingOff _) =>
    .refused .transmitterPhase

/-- BACKOFF_END (R139): the frame returns to deferral. -/
def execBackoffEnd (elapsed : Nat) (s : State) : Result :=
  let s := s.elapse elapsed
  match s.rlc.tx with
  | .busy source bytes attempts (.backingOff ends) =>
    if ends ≤ s.now then .next (s.withTx (.busy source bytes attempts .deferring)) else .refused .timeNotReached
  | .free | .busy _ _ _ .deferring | .busy _ _ _ (.transmitting _) | .busy _ _ _ (.jam _) => .refused .transmitterPhase

/-- FRAME_SENT (R138): the attempt succeeds when the last CRC byte has been sent. -/
def execFrameSent (elapsed : Nat) (s : State) : Result :=
  let s := s.elapse elapsed
  match s.rlc.tx with
  | .busy source bytes _ (.transmitting since) =>
    if since + frameTime bytes ≤ s.now then
      .next (testDrainEnd (frameEnded source (s.stopDriving.withTx .free)))
    else .refused .timeNotReached
  | .free | .busy _ _ _ .deferring | .busy _ _ _ (.jam _) | .busy _ _ _ (.backingOff _) => .refused .transmitterPhase

/-! ## The medium -/

/-- Whether the node itself drives the pair, with a frame or a jam (R135). -/
def State.driving (s : State) : Bool :=
  match s.rlc.tx with
  | .busy _ _ _ (.transmitting _) | .busy _ _ _ (.jam _) => true
  | .free | .busy _ _ _ .deferring | .busy _ _ _ (.backingOff _) => false

/-- The bit that the node drives on the pair at this instant, where it drives one: of the preamble and the frame proper in
the order of sending (R135), or of the jam, whose 32 bits the spec does not give (R138, log 29). -/
def State.drivenBit (s : State) : Option Bool :=
  match s.rlc.tx with
  | .busy _ bytes _ (.transmitting since) => (frameSignal bytes)[(s.now - since) / bitTime]?
  | .busy _ _ _ (.jam ends) => if s.now < ends then some (Config.jamBit ends (31 - (ends - s.now - 1) / bitTime)) else none
  | .free | .busy _ _ _ .deferring | .busy _ _ _ (.backingOff _) => none

/-- Carrier ceases: the medium becomes quiet now unless the node itself drives it (R135, R137). -/
def State.carrierEnds (s : State) : State :=
  s.withRlc { s.rlc with
    carrier := none, reception := none, lastQuiet := if s.driving then s.rlc.lastQuiet else s.now }

/-- MEDIUM_QUIET (R137): carrier ceases without ending a reception. -/
def execMediumQuiet (elapsed : Nat) (s : State) : Result :=
  if s.rlc.carrier.isNone then .refused .noCarrier
  else if s.rlc.reception.isSome then .refused .receptionInProgress
  else .next (s.elapse elapsed).carrierEnds

/-- CARRIER_APPEARS (R137, R141): while the node transmits the first 64 bytes it is a collision (R138, log 15). -/
def execCarrierAppears (elapsed : Nat) (s : State) : Result :=
  let s := s.elapse elapsed
  if s.rlc.carrier.isSome then .refused .carrierPresent
  else
    match s.rlc.tx with
    | .busy source bytes attempts (.transmitting since) =>
      .next (if s.now ≤ since + collisionWindow then collide source bytes attempts s else s.spellBegins false)
    | .busy _ _ _ (.jam _) => .next (s.spellBegins false)
    | .free | .busy _ _ _ .deferring | .busy _ _ _ (.backingOff _) => .next (s.spellBegins true)

/-- BUS_JAM (R141): the spell has passed 1,000 microseconds; a reception in progress is discarded and the receiver takes
nothing from the rest of the spell. -/
def execBusJam (elapsed : Nat) (s : State) : Result :=
  let s := s.elapse elapsed
  match s.rlc.carrier with
  | none => .refused .noCarrier
  | some spell =>
    if spell.jammed then .refused .noCarrier
    else if spell.since + busJamTime < s.now then
      .next ((s.withRlc { s.rlc with
        carrier := some { spell with usable := false, jammed := true }, reception := none }).setLatch .busJam)
    else .refused .timeNotReached

/-! ## Heartbeat, record age, hold period -/

/-- Whether an EDGE frame is in its attempt cycle (R147). -/
def edgeInCycle (s : State) : Bool :=
  match s.rlc.tx with
  | .busy (.edge _) _ _ _ => true
  | .free | .busy (.status _) _ _ _ | .busy .gauge _ _ _ => false

/-- The heartbeat timer expires: it restarts, and a heartbeat is built unless a report is on its way (R147). -/
def expireHeartbeat (c : Settings) (s : State) : State :=
  let due := s.rlc.edgeSlot.isNone && !edgeInCycle s
  let s := s.withRlc { s.rlc with heartbeat := some (s.now + heartbeatTime) }
  if due then s.placeEdge (edgeFrame (reportOf c s.rca.slot (s.du.hw - 1) true [])) else s

/-- HEARTBEAT_TIMER_EXPIRY (R147). -/
def execHeartbeatTimerExpiry (elapsed : Nat) (s : State) : Result :=
  let s := s.elapse elapsed
  onExpiry s s.rlc.heartbeat
    (match s.settings with
      | some c => .next (expireHeartbeat c s)
      | none => .fault .noRunSettings)

/-- RECORD_AGE_EXPIRY (R129, R130): the oldest QUEUED record has reached the age limit. -/
def execRecordAgeExpiry (elapsed : Nat) (s : State) : Result :=
  let s := s.elapse elapsed
  match s.rq.queued, s.settings with
  | [], _ => .refused .noQueuedRecord
  | q :: _, some c =>
    if q.entered + c.ageLimit * millisecond ≤ s.now then .next (testForm s) else .refused .timeNotReached
  | _ :: _, none => .fault .noRunSettings

/-- HOLD_PERIOD_END (R131). -/
def execHoldPeriodEnd (elapsed : Nat) (s : State) : Result :=
  let s := s.elapse elapsed
  onExpiry s s.rq.hold (.next (testForm (s.withRq { s.rq with hold := none })))

end Sys2Proof.Machine
end

