-- ==== Sys2Proof/Machine/Ownership.lean ====
section
/-! DEFINITION. Chapter 5: EDGE_APPLICATION and NEIGHBOUR_LOST_APPLICATION; MARK_APPLICATION (R124, R104). -/

namespace Sys2Proof.Machine

/-! ## Take-over (R92) -/

/-- Step 1 of a take-over on the last queued GPI (R92). -/
def raisedQueued (last : Option Int) (f : Int) : Option Int :=
  match last with
  | none => some (f - 1)
  | some l => some (max l (f - 1))

/-- A take-over from gauge point f, or without a starting bin (R92): the held records from f on are offered in order, the
others are discarded. -/
def takeOver (start : Option Int) (t : Track) (s : State) : Track × State :=
  match start with
  | some f =>
    let t' := { t with role := .owner, takenOver := true, lastQueued := raisedQueued t.lastQueued f, held := [] }
    offerAll (t.held.filter fun r => decide (f ≤ r.gpi)) t' s
  | none => ({ t with role := .owner, takenOver := true, held := [] }, s)

/-- The starting bin of a take-over by contest, absence or loss: after peer-owner-through, else the oldest held record,
else none (R85, R88, R96). -/
def takeOverStart (t : Track) : Option Int :=
  match t.peerThrough, t.held with
  | some g, _ => some (g + 1)
  | none, r :: _ => some r.gpi
  | none, [] => none

/-- A link dissolves: by absence (R88) or by loss of the neighbour (R96). -/
def dissolve (t : Track) (s : State) : Track × State :=
  let t' := { t with link := none, absent := 0, peerRole := none }
  let out := match t.role with
    | .owner => (t', s)
    | .shadow | .releasing _ => takeOver (takeOverStart t) t' s
  ({ out.1 with peerThrough := none }, out.2)

/-! ## Label matching (R79) -/

/-- What the phases of an application carry: the tracks, the pairs of entry and track matched, and the entries passed
on. -/
structure Matching where
  tracks : List Track
  matched : List (Nat × Nat)
  passed : List (EdgeEntry × Nat)
  deriving DecidableEq, Repr

/-- The place of the track that bears a label. -/
def bearer (l : Label) (ts : List Track) : Option Nat := ts.findIdx? fun t => t.label == l

/-- Whether an entry may be matched to the track at a place: it is not linked to the other neighbour and no earlier entry
has matched it (R79). -/
def mayMatch (side : Side) (m : Matching) (i : Nat) : Bool :=
  (match m.tracks[i]? with
    | some t => t.link != some (opposite side)
    | none => false) && !(m.matched.any fun p => p.2 == i)

/-- A track takes an entry's label and birth GPI, its own label becoming its former label (R77, R79, R81). -/
def Track.relabel (e : EdgeEntry) (t : Track) : Track :=
  { t with label := e.label, birth := e.birth, former := some t.label }

/-- Label matching of one considered entry (R79). -/
def matchLabel (side : Side) (m : Matching) (e : EdgeEntry × Nat) : Matching :=
  match bearer e.1.label m.tracks with
  | some i => if mayMatch side m i then { m with matched := m.matched ++ [(e.2, i)] } else m
  | none =>
    match e.1.former.bind fun l => bearer l m.tracks with
    | some i =>
      if mayMatch side m i then
        { m with tracks := m.tracks.modify i (Track.relabel e.1), matched := m.matched ++ [(e.2, i)] }
      else m
    | none => { m with passed := m.passed ++ [e] }

/-! ## Position matching and adoption (R80, R81) -/

/-- Whether an entry and the track at place i are a candidate pair (R80). -/
def isLinkCandidate (c : Settings) (side : Side) (m : Matching) (t : Track) (i : Nat) (e : EdgeEntry) : Bool :=
  t.link.isNone && !(m.matched.any fun p => p.2 == i) && (effectiveSide c t.lastX == some side)
    && decide (distance e.x t.lastX ≤ c.linkXGate) && decide (distance e.z t.lastZ ≤ c.linkZGate)

/-- The candidate pairs with the key of R80: distance, age of the track, entry x, place in the frame. -/
def linkCandidates (c : Settings) (side : Side) (m : Matching) : List Candidate :=
  m.tracks.zipIdx.flatMap fun (t, i) =>
    (m.passed.filter fun (e, _) => isLinkCandidate c side m t i e).map fun (e, j) =>
      { track := i, other := j, key := (distance e.x t.lastX : Int) :: ageKey t.birth t.label ++ [e.x, j] }

/-- Whether an entry's label is older than a track's (R74). -/
def entryOlder (e : EdgeEntry) (t : Track) : Bool := lexLt (ageKey e.birth e.label) (ageKey t.birth t.label)

/-- Adoption for one position match (R81); a match whose adoption would give a second track a label already borne is set
aside (R48, R79, log 12). -/
def adopt (entries : List EdgeEntry) (m : Matching) (p : Nat × Nat) : Matching :=
  match entries[p.1]?, m.tracks[p.2]? with
  | some e, some t =>
    if entryOlder e t then
      if borne e.label m.tracks then m
      else { m with tracks := m.tracks.modify p.2 (Track.relabel e), matched := m.matched ++ [p] }
    else { m with matched := m.matched ++ [p] }
  | _, _ => m

/-- Order of pairs by the place of their entry in the frame (R82). -/
def inFrameOrder (ps : List (Nat × Nat)) : List (Nat × Nat) := sortBy (fun p => [(p.1 : Int)]) ps

/-- The entries that concern this node: those on the sender's side facing it (R8, R79). -/
def considered (side : Side) (es : List EdgeEntry) : List (EdgeEntry × Nat) :=
  es.zipIdx.filter fun (e, _) => e.side == opposite side

/-- Phases 1 to 3: label matching, position matching, adoption (R78 to R81). -/
def matchEntries (c : Settings) (side : Side) (es : List EdgeEntry) (ts : List Track) : Matching :=
  let m := (considered side es).foldl (matchLabel side) { tracks := ts, matched := [], passed := [] }
  let pairs := (assign (linkCandidates c side m)).map fun k => (k.other, k.track)
  (inFrameOrder pairs).foldl (adopt es) m

/-! ## Role outcomes (R83 to R87) -/

/-- The winner rule: whether this node wins against N for a label (R83). -/
def wins (own n : Nat) (l : Label) : Bool :=
  if l.origin = own then true else if l.origin = n then false else decide (own < n)

/-- The role outcome of a matched track and its entry (R84 to R86). -/
def roleOutcome (n : Nat) (e : EdgeEntry) (t : Track) (s : State) : Track × State :=
  let win := wins s.rca.slot n t.label
  match t.role, e.role with
  | .owner, .owner =>
    if win then ({ t with contested := true }, s.setLatch .contested) else ({ t with role := .shadow, held := [] }, s)
  | .owner, .shadow | .owner, .releasing _ => (t, s)
  | .shadow, .owner => (t, s)
  | .shadow, .releasing j => takeOver (some j) t s
  | .shadow, .shadow => if win then takeOver (takeOverStart t) t s else (t, s)
  | .releasing _, .owner => ({ t with role := .shadow }, s)
  | .releasing _, .shadow => (t, s)
  | .releasing j, .releasing j' => if win then takeOver (some (max j j')) t s else (t, s)

/-- The name of a role (R87). -/
def Role.name : Role → RoleName
  | .owner => .owner
  | .shadow => .shadow
  | .releasing _ => .releasing

/-- The peer fields after an entry of a report of bin g (R87). -/
def Track.peerFrom (g : Int) (e : EdgeEntry) (t : Track) : Track :=
  { t with
    peerRole := some e.role.name
    peerThrough := match e.role with
      | .owner => some g
      | .releasing j => some (j - 1)
      | .shadow => t.peerThrough }

/-- A matched track: link, role outcome, peer fields (R82). -/
def settle (side : Side) (r : EdgeReport) (e : EdgeEntry) (t : Track) (s : State) : Track × State :=
  let out := roleOutcome r.source e { t with link := some side, absent := 0 } s
  (out.1.peerFrom r.bin e, out.2)

/-- Apply an operation to the track at a place. -/
def State.updateTrack (s : State) (i : Nat) (f : Track → State → Track × State) : State :=
  match s.tt.tracks[i]? with
  | some t =>
    let out := f t s
    out.2.withTracks (out.2.tt.tracks.set i out.1)
  | none => s

/-- Phase 4 for one match. -/
def settlePair (side : Side) (r : EdgeReport) (s : State) (p : Nat × Nat) : State :=
  match r.entries[p.1]? with
  | some e => s.updateTrack p.2 (settle side r e)
  | none => s

/-! ## Absence (R88) -/

/-- An unmatched track linked to the sender counts an absence; the second dissolves its link (R88). -/
def countAbsence (t : Track) (s : State) : Track × State :=
  if 2 ≤ t.absent + 1 then dissolve t s else ({ t with absent := t.absent + 1 }, s)

/-- The places of the tracks linked to a side, in increasing label order (R88, R96). -/
def linkedPlaces (side : Side) (ts : List Track) : List Nat :=
  (sortBy (fun q : Track × Nat => q.1.label.key) (ts.zipIdx.filter fun (t, _) => t.link == some side)).map (·.2)

/-- Phase 5: absence for the tracks linked to the sender that no entry matched (R88). -/
def countAbsences (side : Side) (matched : List (Nat × Nat)) (s : State) : State :=
  ((linkedPlaces side s.tt.tracks).filter fun i => !(matched.any fun p => p.2 == i)).foldl
    (fun s i => s.updateTrack i countAbsence) s

/-! ## The application (R78) -/

/-- The mismatch check: the header names this node on the sender's side facing it (R78). -/
def headerNames (slot : Nat) (side : Side) (r : EdgeReport) : Bool :=
  match side with
  | .left => r.right == slot
  | .right => r.left == slot

/-- The report as taken: every x and the centre held within the car frame (R4). -/
def EdgeReport.clamped (r : EdgeReport) : EdgeReport :=
  { r with centre := clampX r.centre, entries := r.entries.map fun e => { e with x := clampX e.x } }

/-- The work of one EDGE application from the neighbour on a side (R78). -/
def applyEdge (c : Settings) (side : Side) (report : EdgeReport) (s : State) : State :=
  if headerNames s.rca.slot side report then
    let r := report.clamped
    let s := s.withTt (s.tt.setCentre side r.centre)
    if r.heartbeat then s
    else
      let m := matchEntries c side r.entries s.tt.tracks
      countAbsences side m.matched ((inFrameOrder m.matched).foldl (settlePair side r) (s.withTracks m.tracks))
  else s.setLatch .neighbourMismatch

/-- EDGE_APPLICATION (R78). -/
def execEdgeApplication (elapsed : Nat) (s : State) : Result :=
  serveNext (s.elapse elapsed) fun c r s =>
    match r with
    | .edge side report => some (.next (applyEdge c side report s).served)
    | _ => none

/-- The effect of a MARK: every track's pending mark, and the current type where the index names an entry (R104, R124).
It is the same in DRAINING, where R103 could be read otherwise (DEDUCED, log 33). -/
def applyMark (c : Settings) (number : Nat) (type : Option Nat) (s : State) : State :=
  let s := s.withTracks (s.tt.tracks.map fun t => { t with mark := some number })
  match type with
  | some i => if i < c.wireTypes.length then s.withWau ⟨some i⟩ else s
  | none => s

/-- MARK_APPLICATION (R124), in RUNNING and in DRAINING alike (R54, log 33). -/
def execMarkApplication (elapsed : Nat) (s : State) : Result :=
  serveNext (s.elapse elapsed) fun c r s =>
    match r with
    | .mark number type => some (.next (applyMark c number type s).served)
    | _ => none

/-- NEIGHBOUR_LOST_APPLICATION (R96): every link to the lost neighbour dissolves, in increasing label order. -/
def execNeighbourLostApplication (elapsed : Nat) (s : State) : Result :=
  serveNext (s.elapse elapsed) fun _ r s =>
    match r with
    | .neighbourLost side =>
      some (.next ((linkedPlaces side s.tt.tracks).foldl (fun s i => s.updateTrack i dissolve) s).served)
    | _ => none

end Sys2Proof.Machine
end

