-- ==== Sys2Proof/Machine/Receive.lean ====
section
/-! DEFINITION. Sections 8.6, 5.6 and 9.4, 9.5: RECEPTION_BEGIN, FRAME_RECEIVED, NEIGHBOUR_TIMER_EXPIRY. -/

namespace Sys2Proof.Machine

/-! ## Liveness (R94, R95) -/

/-- The liveness of a side. -/
def Rlc.life (r : Rlc) : Side → Option Liveness
  | .left => r.leftLife
  | .right => r.rightLife

/-- Replace the liveness of a side. -/
def Rlc.setLife (r : Rlc) (side : Side) (l : Option Liveness) : Rlc :=
  match side with
  | .left => { r with leftLife := l }
  | .right => { r with rightLife := l }

/-- The side on which a slot is a neighbour in force (R78, R152). -/
def neighbourSide (c : Settings) (slot : Nat) : Option Side :=
  if c.leftNeighbour = some slot then some .left
  else if c.rightNeighbour = some slot then some .right
  else none

/-- The side of a source, where it is a neighbour of the settings in force. -/
def State.sourceSide (s : State) (source : Nat) : Option Side := s.settings.bind fun c => neighbourSide c source

/-- A sign of life from a source (R94, R151): in RUNNING a neighbour becomes PRESENT and its timer restarts. -/
def signOfLife (source : Nat) (s : State) : State :=
  match s.settings, s.sourceSide source with
  | some c, some side =>
    if s.rca.node = .running then
      s.withRlc (s.rlc.setLife side (some ⟨.present, some (s.now + c.neighbourTimeout * millisecond)⟩))
    else s
  | _, _ => s

/-- A neighbour becomes LOST: latched, and a neighbour-lost application posted unless one waits or the TT is closed
(R53, R54, R95). -/
def loseNeighbour (side : Side) (s : State) : State :=
  let s := (s.withRlc (s.rlc.setLife side (some ⟨.lost, none⟩))).setLatch .neighbourLost
  if s.tt.isOpen && !s.tt.requests.contains (.neighbourLost side) then s.post (.neighbourLost side) else s

/-- NEIGHBOUR_TIMER_EXPIRY (R95). -/
def execNeighbourTimerExpiry (elapsed : Nat) (side : Side) (s : State) : Result :=
  let s := s.elapse elapsed
  onExpiry s ((s.rlc.life side).bind (·.timer)) (.next (loseNeighbour side s))

/-! ## Applications (R53, R153) -/

/-- Whether a request is an EDGE or MARK application (R53). -/
def Request.isApplication : Request → Bool
  | .edge _ _ | .mark _ _ => true
  | _ => false

/-- EDGE and MARK applications waiting (R53). -/
def Tt.applicationsWaiting (t : Tt) : Nat := t.requests.countP Request.isApplication

/-- Offer an application: not posted while the TT is closed, lost and counted when four wait (R53, R54, R153). -/
def offerApplication (r : Request) (s : State) : State :=
  if s.tt.isOpen then
    if s.tt.applicationsWaiting < Config.applicationPlaces then s.post r
    else s.withCounters { s.rca.counters with droppedEdges := raise max16 s.rca.counters.droppedEdges 1 }
  else s

/-- Count a bad frame (R150, R152, R177). -/
def State.countBad (s : State) : State :=
  s.withCounters { s.rca.counters with badFrames := raise max32 s.rca.counters.badFrames 1 }

/-! ## CONFIG and QUERY -/

/-- The effect of a CONFIG frame (R162). -/
def takeConfig (f : ReceivedFrame) (s : State) : State :=
  match judgeConfig s.rca.slot f.payload with
  | .error reason => (s.setLatch .configRefused).statusFor (.refused reason) f.source
  | .ok c =>
    let s := s.withRca { s.rca with pendingSettings := some ⟨c, f.source⟩ }
    (if s.rca.node = .unconfigured then s.enterNode .ready else s).statusFor .accepted f.source

/-- The effect of a QUERY frame (R164, R178). -/
def takeQuery (f : ReceivedFrame) (s : State) : State :=
  if f.payload.length = 2 then
    (s.withRca { s.rca with clearMask := s.rca.clearMask ||| BitVec.ofNat 13 (fieldAt f.payload 0 2) }).statusFor
      .queried f.source
  else s.statusFor (.refused .length) f.source

/-! ## The receive filter (R152) -/

/-- Whether a destination is the node's own slot or the broadcast slot (R152, R172). -/
def addressed (s : State) (f : ReceivedFrame) : Bool :=
  f.destination == s.rca.slot || f.destination == Config.broadcast

/-- The filter and the hand-on of a valid frame (R152, R153, R177). -/
def filterFrame (f : ReceivedFrame) (s : State) : State :=
  match frameKind f.kind with
  | none => s.countBad
  | some .gauge | some .status => s
  | some .edge =>
    match s.sourceSide f.source with
    | some side =>
      match parseEdge f.source f.payload with
      | some report => offerApplication (.edge side report) s
      | none => s.countBad
    | none => s
  | some .mark =>
    if addressed s f then
      match parseMark f.payload with
      | some (number, type) => offerApplication (.mark number type) s
      | none => s.countBad
    else s
  | some .config => if addressed s f then takeConfig f s else s
  | some .query => if addressed s f then takeQuery f s else s

/-- A reception that has ended: a fragment, a bad frame, or a valid frame that is first a sign of life (R149 to R152). -/
def judgeReception (bytes : List Byte) (s : State) : State :=
  if bytes.length < 64 then s
  else if validReception bytes then
    let f := parseFrame bytes
    filterFrame f (signOfLife f.source s)
  else s.countBad

/-- RECEPTION_BEGIN (R149): in a spell of carrier that follows quiet a reception begins at the end of a preamble, and what
follows it is the frame proper; where the bits of the spell hold no end of a preamble there is no reception, and nothing is
counted (log 31). -/
def execReceptionBegin (event : ReceptionEvent) (s : State) : Result :=
  if s.rlc.reception.isSome then .refused .receptionInProgress
  else
    match s.rlc.carrier with
    | none => .refused .noCarrier
    | some spell =>
      if spell.usable then
        .next ((s.elapse event.elapsed).withRlc { s.rlc with reception := afterPreamble event.bits })
      else .refused .noCarrier

/-- FRAME_RECEIVED (R149, R150): carrier ceases and the reception ends; its whole bytes are judged. -/
def execFrameReceived (elapsed : Nat) (bits : List Bool) (s : State) : Result :=
  match s.rlc.reception with
  | some heard => .next (judgeReception (wholeBytes (heard ++ bits)) (s.elapse elapsed).carrierEnds)
  | none => .refused .noReception

end Sys2Proof.Machine
end

