-- ==== Sys2Proof/Machine/Run.lean ====
section
/-! DEFINITION. Chapter 9: POWER_ON_RESET, RUN_START, ENTER_DRAINING, DRAIN_LIMIT, ALERT_PULSE_END. -/

namespace Sys2Proof.Machine

/-- POWER_ON_RESET (R161): every block in the state its rules give after reset, with what is sampled then: the straps
(R10), the pair (R32), carrier (R155) and a scan message in progress (R22). The queue of commands and the clock are not
the node's. -/
def execPowerOnReset (elapsed : Nat) (straps : BitVec 3) (pair : OdoPair) (carrier midScan : Bool) (s : State) :
    Result :=
  let now := s.now + elapsed
  .next { State.reset with
    pending := s.pending
    now := now
    siu := { Siu.reset with port := if midScan then .ignoring else .idle }
    du := { Du.reset with pair := pair, resolved := now }
    rlc := { Rlc.reset with carrier := if carrier then some ⟨now, false, false⟩ else none, lastQuiet := now }
    rca := { Rca.reset with slot := straps.toNat, since := now } }

/-- A page at run start: a POSTED page becomes FREE, a FILLING page goes on filling (R22, R29). -/
def Page.atRunStart : Page → Page
  | .posted _ => .free
  | .filling => .filling
  | .free => .free

/-- The SIU at run start (R29): the start level is sent whether or not the level changed (R24). -/
def Siu.start (c : Settings) (u : Siu) : Siu :=
  Siu.sendWord { u with
    pageA := u.pageA.atRunStart
    pageB := u.pageB.atRunStart
    continuity := none
    level := c.exposureStart
    drift := 0
    associated := 0
    saturated := 0
    weak := 0
    settled := false }

/-- The liveness of a side at run start (R97). -/
def startLife (c : Settings) (now : Nat) (neighbour : Option Nat) : Option Liveness :=
  neighbour.map fun _ => ⟨.unheard, some (now + c.neighbourTimeout * millisecond)⟩

/-- A run starts with the settings `r` (R158 and the tables of R29, R46, R51, R103, R128, R155). -/
def startRun (r : SourcedSettings) (s : State) : State :=
  { s with
    siu := s.siu.start r.settings
    du := { Du.reset with pair := s.du.pair, resolved := s.du.resolved }
    tt := { Tt.reset with isOpen := true }
    wau := ⟨some r.settings.defaultType⟩
    rq := Rq.reset
    rlc := { s.rlc with
      edgeSlot := none
      heartbeat := some (s.now + heartbeatTime)
      leftLife := startLife r.settings s.now r.settings.leftNeighbour
      rightLife := startLife r.settings s.now r.settings.rightNeighbour }
    rca := { s.rca with node := .running, since := s.now, runSettings := some r, counters := Counters.zero } }

/-- Whether the present spell of the run line can have lasted 100 microseconds: a node counts from its entry into the
state at the earliest (R157). -/
def spellLongEnough (s : State) : Bool := decide (s.rca.since + runLineSpell ≤ s.now)

/-- RUN_START (R157, R158): a high spell has no effect outside READY or when too short. -/
def execRunStart (elapsed : Nat) (s : State) : Result :=
  let s := s.elapse elapsed
  if s.rca.node = .ready && spellLongEnough s then
    match s.rca.pendingSettings with
    | some r => .next (startRun r s)
    | none => .fault .noRunSettings
  else .next s

/-- A neighbour's timer stops and its state stays (R97, R159). -/
def Liveness.stop (l : Liveness) : Liveness := { l with timer := none }

/-- The node enters DRAINING (R159): the final close of HW is posted, the drain timer starts, the DU drops its partial
cycle (R43), heartbeat and neighbour timers stop (R147, R97), and R129 is tested (R132). -/
def startDrain (s : State) : State :=
  let s := (s.enterNode .draining).post (.finalClose s.du.hw)
  testForm { s with
    du := { s.du with quarter := 0 }
    rlc := { s.rlc with
      heartbeat := none
      leftLife := s.rlc.leftLife.map Liveness.stop
      rightLife := s.rlc.rightLife.map Liveness.stop }
    rca := { s.rca with drainTimer := some (s.now + drainTime) } }

/-- ENTER_DRAINING (R157, R159): a low spell has no effect outside RUNNING or when too short. -/
def execEnterDraining (elapsed : Nat) (s : State) : Result :=
  let s := s.elapse elapsed
  if s.rca.node = .running && spellLongEnough s then .next (startDrain s) else .next s

/-- The drain limit (R133, R160): every QUEUED record is discarded as drain loss. -/
def reachLimit (s : State) : State :=
  let s := s.countDrainLoss s.rq.queued.length
  let s := s.withRq { s.rq with queued := [], pastLimit := true }
  testDrainEnd (s.withRca { s.rca with drainTimer := none })

/-- DRAIN_LIMIT (R133). -/
def execDrainLimit (elapsed : Nat) (s : State) : Result :=
  let s := s.elapse elapsed
  onExpiry s s.rca.drainTimer (.next (reachLimit s))

/-- ALERT_PULSE_END (R168). -/
def execAlertPulseEnd (elapsed : Nat) (s : State) : Result :=
  let s := s.elapse elapsed
  onExpiry s s.rca.alert (.next (s.withRca { s.rca with alert := none }))

end Sys2Proof.Machine
end

