-- ==== Sys2Proof/Machine/ScanPass.lean ====
section
/-! DEFINITION. Section 4.3: SCAN_PASS. -/

namespace Sys2Proof.Machine

/-- The classes of squelch (R23). -/
inductive SpotClass where
  | strong | weak | rejected
  deriving DecidableEq, Repr

/-- A spot in the car frame with its class (R56). -/
structure CarSpot where
  x : Int
  z : Nat
  width : Option Nat
  peak : Nat
  cls : SpotClass
  deriving DecidableEq, Repr

/-- The class of a peak intensity (R23). -/
def spotClass (c : Settings) (peak : Nat) : SpotClass :=
  if c.openThreshold ≤ peak then .strong else if c.holdThreshold ≤ peak then .weak else .rejected

/-- Convert and class a spot (R3, R23, R56). -/
def carSpot (c : Settings) (p : Spot) : CarSpot where
  x := carX c p.headX
  z := carZ c p.headZ
  width := p.width
  peak := p.peak
  cls := spotClass c p.peak

/-- Whether a track and a spot are a candidate pair (R58). -/
def isCandidate (c : Settings) (t : Track) (p : CarSpot) : Bool :=
  p.cls != .rejected && decide (distance p.x t.lastX ≤ xGateOf c t.missedBins)
    && decide (distance p.z t.lastZ ≤ c.zGate) && (p.cls == .strong || !t.state.isTentative)

/-- The candidate pairs of a scan, each with the key of R59: distance, age of the track, spot x, place in the page. -/
def scanCandidates (c : Settings) (ts : List Track) (spots : List CarSpot) : List Candidate :=
  ts.zipIdx.flatMap fun (t, i) => (spots.zipIdx.filter fun (p, _) => isCandidate c t p).map fun (p, j) =>
    { track := i, other := j, key := (distance p.x t.lastX : Int) :: ageKey t.birth t.label ++ [p.x, j] }

/-- The state after an association (R60). -/
def TrackState.associate (c : Settings) : TrackState → TrackState
  | .tentative hits _ => if c.confirmHits ≤ hits + 1 then .confirmed else .tentative (hits + 1) 0
  | .confirmed | .coasting => .confirmed

/-- The track after an association (R60). -/
def Track.associate (c : Settings) (p : CarSpot) (t : Track) : Track :=
  { t with lastX := p.x, lastZ := p.z, state := t.state.associate c, missedBins := 0 }

/-- The wear sample of a spot, where it yields one (R105). -/
def spotWear (c : Settings) (u : Wau) (p : CarSpot) : Option WearSample :=
  match p.cls, p.width, u.currentType with
  | .strong, some w, some i => c.wireTypes[i]?.map fun e => wearSample e i w
  | _, _, _ => none

/-- The accumulator after a sample in bin `g` (R50, R61). -/
def accumulate (g : Int) (p : CarSpot) (w : Option WearSample) (acc : Option Accumulator) : Accumulator :=
  let a := acc.getD { bin := g, count := 0, sumX := 0, sumZ := 0, minimum := none }
  let a := if a.count < Config.sampleLimit then
    { a with count := a.count + 1, sumX := a.sumX + p.x, sumZ := a.sumZ + p.z } else a
  match w with
  | some w => { a with minimum := some (smaller a.minimum w) }
  | none => a

/-- The implicit close of an older bin, by the state before the association (R62). -/
def implicitClose (c : Settings) (g : Int) (before : TrackState) (t : Track) (s : State) : Track × State :=
  match t.acc with
  | some a => if a.bin < g then closeAccumulator c false before a t s else (t, s)
  | none => (t, s)

/-- A scan is backtracking unless its stamp stands at the high-water index (R20, R61). -/
def Scan.backtracking (scan : Scan) : Bool := scan.gpi != scan.hw

/-- Offer a spot to a track's accumulator (R61); `before` is the track's state before the pass (R62). -/
def offerSpot (c : Settings) (scan : Scan) (before : TrackState) (p : CarSpot) (t : Track) (s : State) :
    Track × State :=
  if scan.backtracking then (t, s)
  else
    let (t, s) := implicitClose c scan.gpi before t s
    ({ t with acc := some (accumulate scan.gpi p (spotWear c s.wau p) t.acc) }, s)

/-- A bin statistic raised by one where a condition holds, held at 65,535 (R25). -/
def bump (b : Bool) (n : Nat) : Nat := if b then raise max16 n 1 else n

/-- The bin statistics of an associated spot (R25). -/
def State.countSpot (s : State) (scan : Scan) (p : CarSpot) : State :=
  let on := !scan.backtracking
  s.withSiu { s.siu with
    associated := bump on s.siu.associated
    saturated := bump (on && p.peak == 255) s.siu.saturated
    weak := bump (on && p.cls == .weak) s.siu.weak }

/-- One accepted pair: association, statistics, accumulation (R60, R25, R61). -/
def associatePair (c : Settings) (scan : Scan) (spots : List CarSpot) (s : State) (pair : Candidate) : State :=
  match s.tt.tracks[pair.track]?, spots[pair.other]? with
  | some t, some p =>
    let (t', s') := offerSpot c scan t.state p (t.associate c p) (s.countSpot scan p)
    s'.withTracks (s'.tt.tracks.set pair.track t')
  | _, _ => s

/-- The settled flag of a scan served (R25). -/
def State.settleBy (s : State) (scan : Scan) : State :=
  s.withSiu { s.siu with settled := s.siu.settled || (!scan.backtracking && scan.level == s.siu.level) }

/-- A tentative track after a pass that did not associate it; nothing where it is dropped (R63). -/
def missTentative (t : Track) : Option Track :=
  match t.state with
  | .tentative hits miss => if 2 ≤ miss + 1 then none else some { t with state := .tentative hits (miss + 1) }
  | .confirmed | .coasting => some t

/-- Count the misses of a pass (R63). -/
def countMisses (associated : List Nat) (ts : List Track) : List Track :=
  ts.zipIdx.filterMap fun (t, i) => if associated.contains i then some t else missTentative t

/-- The first serial at or after `n` that no track bears with the node's own slot (R65). -/
def allocateSerial (slot : Nat) (ts : List Track) : Nat → Nat → Nat
  | 0, n => n
  | k + 1, n => if borne ⟨slot, n⟩ ts then allocateSerial slot ts k ((n + 1) % Config.serials) else n

/-- A track at its birth, before its spot is offered to its accumulator (R64). The table of R64 gives the absent count no value;
0 is the model's choice (DESIGN CHOICE, log 32). -/
def newTrack (l : Label) (scan : Scan) (p : CarSpot) : Track where
  label := l
  birth := scan.gpi
  state := .tentative 1 0
  role := .owner
  missedBins := 0
  lastX := p.x
  lastZ := p.z
  link := none
  peerRole := none
  peerThrough := none
  absent := 0
  former := none
  lastQueued := none
  mark := none
  contested := false
  takenOver := false
  held := []
  acc := none

/-- The birth of a track from a spot (R64, R65). -/
def birth (c : Settings) (scan : Scan) (p : CarSpot) (s : State) : State :=
  let n := allocateSerial s.rca.slot s.tt.tracks Config.trackEntries s.tt.serial
  let (t, s) := offerSpot c scan (.tentative 1 0) p (newTrack ⟨s.rca.slot, n⟩ scan p) s
  s.withTt { s.tt with tracks := s.tt.tracks ++ [t], serial := (n + 1) % Config.serials }

/-- Births while an entry is free; the spots left when the table is full latch TABLE_FULL once (R64, R66). -/
def births (c : Settings) (scan : Scan) : List CarSpot → State → State
  | [], s => s
  | p :: rest, s =>
    if s.tt.tracks.length < Config.trackEntries then births c scan rest (birth c scan p s) else s.setLatch .tableFull

/-- The STRONG spots that no track took, in increasing car x, then page order (R64). -/
def leftOver (spots : List CarSpot) (taken : List Nat) : List CarSpot :=
  (sortBy (fun q : CarSpot × Nat => [q.1.x, (q.2 : Int)])
    (spots.zipIdx.filter fun (p, j) => p.cls == .strong && !taken.contains j)).map (·.1)

/-- The phases of a scan pass (R56 to R66). -/
def runPass (c : Settings) (scan : Scan) (s : State) : State :=
  let spots := scan.spots.map (carSpot c)
  let pairs := assign (scanCandidates c s.tt.tracks spots)
  let s := (pairs.foldl (associatePair c scan spots) s).settleBy scan
  let s := s.withTracks (countMisses (pairs.map (·.track)) s.tt.tracks)
  births c scan (leftOver spots (pairs.map (·.other))) s

/-- The pass ends and its page returns to FREE (R22, R56). -/
def endPass (page : PageId) (s : State) : State := (s.withSiu (s.siu.setPage page .free)).served

/-- SCAN_PASS (R56). -/
def execScanPass (elapsed : Nat) (s : State) : Result :=
  serveNext (s.elapse elapsed) fun c r s =>
    match r with
    | .scanPass page =>
      match s.siu.page page with
      | .posted scan => some (.next (endPass page (runPass c scan s)))
      | .free | .filling => some (.fault .pageNotPosted)
    | _ => none

end Sys2Proof.Machine
end

