-- ==== Sys2Proof/Machine/Sensor.lean ====
section
/-! DEFINITION. Chapter 2: scan messages, scan pages and the exposure word: SCAN_MESSAGE_BEGIN, SCAN_MESSAGE_END,
SCAN_MESSAGE_SILENCE, EXPOSURE_WORD_SENT, END_MARK_AFTER_RESET. -/

namespace Sys2Proof.Machine

/-- Count skipped scans (R30). -/
def State.countSkipped (s : State) (n : Nat) : State :=
  s.withCounters { s.rca.counters with skippedScans := raise max32 s.rca.counters.skippedScans n }

/-- A scan lost at the node: counted and latched (R15, R16). -/
def State.loseScan (s : State) : State := (s.countSkipped 1).setLatch .scanSkipped

/-- The beginning of a message between messages (R15). -/
def beginMessage (s : State) : State :=
  if s.siu.pageA = .free then s.withSiu { s.siu with pageA := .filling, port := .captured .a }
  else if s.siu.pageB = .free then s.withSiu { s.siu with pageB := .filling, port := .captured .b }
  else
    let s := s.withSiu { s.siu with port := .uncaptured }
    if s.rca.node = .running then s.loseScan else s

/-- The continuity check of a message that ends in RUNNING (R19). -/
def continuityCheck (bytes : List Byte) (s : State) : State :=
  if headerComplete bytes then
    let missing := match s.siu.continuity with
      | some p => (scanNumber bytes + 256 - p) % 256 - 1
      | none => 0
    (s.countSkipped missing).withSiu { s.siu with continuity := some (scanNumber bytes) }
  else s.withSiu { s.siu with continuity := none }

/-- The scan of a well-formed message, screened and stamped (R18, R20, R21). -/
def scanOf (c : Settings) (bytes : List Byte) (s : State) : Scan where
  number := scanNumber bytes
  level := fieldAt bytes 1 1
  spots := screen c (decodeSpots (spotCount bytes) (bytes.drop 3))
  gpi := s.du.gpi
  hw := s.du.hw

/-- The end of a captured message in RUNNING: discarded when malformed (R16), else screened, stamped and posted
(R18, R20, R21); either way it takes part in the continuity check (R19). -/
def takeMessage (c : Settings) (p : PageId) (bytes : List Byte) (s : State) : State :=
  if malformedScan bytes then continuityCheck bytes ((s.withSiu (s.siu.setPage p .free)).loseScan)
  else
    let s := continuityCheck bytes s
    let s := (s.withSiu (s.siu.setPage p (.posted (scanOf c bytes s)))).post (.scanPass p)
    s.withCounters { s.rca.counters with scansTaken := raise max32 s.rca.counters.scansTaken 1 }

/-- The port waits for the beginning of the next message (R14). -/
def State.portIdle (s : State) : State := s.withSiu { s.siu with port := .idle }

/-- The end of the message in progress (R16, R17, R19), by end mark or by silence (R14). -/
def endMessage (bytes : List Byte) (s : State) : Result :=
  match s.siu.port with
  | .idle | .ignoring => .refused .noMessage
  | .uncaptured => .next (if s.rca.node = .running then continuityCheck bytes s.portIdle else s.portIdle)
  | .captured p =>
    if s.rca.node = .running then
      match s.settings with
      | some c => .next (takeMessage c p bytes s.portIdle)
      | none => .fault .noRunSettings
    else .next (s.portIdle.withSiu (s.portIdle.siu.setPage p .free))

/-- SCAN_MESSAGE_BEGIN (R14, R15). -/
def execScanMessageBegin (elapsed : Nat) (s : State) : Result :=
  match s.siu.port with
  | .idle => .next (beginMessage (s.elapse elapsed))
  | .captured _ | .uncaptured | .ignoring => .refused .messageInProgress

/-- SCAN_MESSAGE_END (R16 to R21). -/
def execScanMessageEnd (elapsed : Nat) (bytes : List Byte) (s : State) : Result := endMessage bytes (s.elapse elapsed)

/-- SCAN_MESSAGE_SILENCE (R14): the message ends with the bytes received so far; silence also ends a message that is
being ignored after reset (log 18). -/
def execScanMessageSilence (elapsed : Nat) (bytes : List Byte) (s : State) : Result :=
  match s.siu.port with
  | .ignoring => .next (s.elapse elapsed).portIdle
  | .idle | .captured _ | .uncaptured => endMessage bytes (s.elapse elapsed)

/-- The character on the port's outward direction while a word is being sent: the level in its lower four bits (R170). -/
def Siu.outward (u : Siu) : Option Byte := u.word.map (BitVec.ofNat 8)

/-- EXPOSURE_WORD_SENT (R24): the word with the latest level follows where the level changed meanwhile. -/
def execExposureWordSent (elapsed : Nat) (s : State) : Result :=
  match s.siu.word with
  | none => .refused .noWord
  | some _ =>
    let s := s.elapse elapsed
    .next (s.withSiu { s.siu with word := if s.siu.wordDue then some s.siu.level else none, wordDue := false })

/-- END_MARK_AFTER_RESET (R22). -/
def execEndMarkAfterReset (elapsed : Nat) (s : State) : Result :=
  match s.siu.port with
  | .ignoring => .next (s.elapse elapsed).portIdle
  | .idle | .captured _ | .uncaptured => .refused .noMessage

end Sys2Proof.Machine
end

