-- ==== Sys2Proof/Machine/Dispatch.lean ====
section
/-! DEFINITION. One arm per command. -/

namespace Sys2Proof.Machine

def exec (i : Instr) (s : State) : Host.Outcome State Fault Refusal :=
  match i with
  | .powerOnReset elapsed straps pair carrier midScan => Sys2Proof.Machine.execPowerOnReset elapsed straps pair carrier midScan s
  | .scanMessageBegin elapsed => Sys2Proof.Machine.execScanMessageBegin elapsed s
  | .scanMessageEnd elapsed bytes => Sys2Proof.Machine.execScanMessageEnd elapsed bytes s
  | .scanMessageSilence elapsed bytes => Sys2Proof.Machine.execScanMessageSilence elapsed bytes s
  | .exposureWordSent elapsed => Sys2Proof.Machine.execExposureWordSent elapsed s
  | .odometerTransition elapsed edges => Sys2Proof.Machine.execOdometerTransition elapsed edges s
  | .illegalTransition event => Sys2Proof.Machine.execIllegalTransition event s
  | .scanPass elapsed => Sys2Proof.Machine.execScanPass elapsed s
  | .binClose elapsed => Sys2Proof.Machine.execBinClose elapsed s
  | .finalClose elapsed => Sys2Proof.Machine.execFinalClose elapsed s
  | .edgeApplication elapsed => Sys2Proof.Machine.execEdgeApplication elapsed s
  | .markApplication elapsed => Sys2Proof.Machine.execMarkApplication elapsed s
  | .neighbourLostApplication elapsed => Sys2Proof.Machine.execNeighbourLostApplication elapsed s
  | .attemptBegin elapsed => Sys2Proof.Machine.execAttemptBegin elapsed s
  | .collision elapsed => Sys2Proof.Machine.execCollision elapsed s
  | .jamEnd elapsed draw => Sys2Proof.Machine.execJamEnd elapsed draw s
  | .backoffEnd elapsed => Sys2Proof.Machine.execBackoffEnd elapsed s
  | .frameSent elapsed => Sys2Proof.Machine.execFrameSent elapsed s
  | .busJam elapsed => Sys2Proof.Machine.execBusJam elapsed s
  | .heartbeatTimerExpiry elapsed => Sys2Proof.Machine.execHeartbeatTimerExpiry elapsed s
  | .receptionBegin event => Sys2Proof.Machine.execReceptionBegin event s
  | .frameReceived elapsed bits => Sys2Proof.Machine.execFrameReceived elapsed bits s
  | .neighbourTimerExpiry elapsed side => Sys2Proof.Machine.execNeighbourTimerExpiry elapsed side s
  | .recordAgeExpiry elapsed => Sys2Proof.Machine.execRecordAgeExpiry elapsed s
  | .holdPeriodEnd elapsed => Sys2Proof.Machine.execHoldPeriodEnd elapsed s
  | .runStart elapsed => Sys2Proof.Machine.execRunStart elapsed s
  | .enterDraining elapsed => Sys2Proof.Machine.execEnterDraining elapsed s
  | .drainLimit elapsed => Sys2Proof.Machine.execDrainLimit elapsed s
  | .alertPulseEnd elapsed => Sys2Proof.Machine.execAlertPulseEnd elapsed s
  | .mediumQuiet elapsed => Sys2Proof.Machine.execMediumQuiet elapsed s
  | .carrierAppears elapsed => Sys2Proof.Machine.execCarrierAppears elapsed s
  | .endMarkAfterReset elapsed => Sys2Proof.Machine.execEndMarkAfterReset elapsed s

end Sys2Proof.Machine
end

