-- ==== Sys2Proof/Safety.lean ====
section
/-! DEFINITION. What counts as a sound state of the node: the standing laws of the spec, block by block, as predicates
that claims use. -/

namespace Sys2Proof.Machine

/-- The laws of the table (R48): at most eight tracks, no two with one label. -/
abbrev TableSound (s : State) : Prop :=
  s.tt.tracks.length ≤ 8 ∧ (s.tt.tracks.map (·.label)).Nodup

/-- The laws of the record queue (R128, R129): at most 64 records, at most 24 of them IN_FRAME. -/
abbrev QueueSound (s : State) : Prop :=
  s.rq.inFrame.length ≤ 24 ∧ s.rq.inFrame.length + s.rq.queued.length ≤ 64

/-- The waiting places of the request list (R40, R53): ten bin closes, four EDGE or MARK applications. -/
abbrev PlacesSound (s : State) : Prop :=
  s.tt.closesWaiting ≤ 10 ∧ s.tt.applicationsWaiting ≤ 4

/-- A track's role, link and peer fields (R48, R75, R85, R91): SHADOW and RELEASING tracks are linked, an OWNER holds no
record, at most four are held, the peer role is present exactly while linked, a SHADOW track knows how far its neighbour
measured, an unlinked track holds no peer-owner-through (R87), at most one absence is counted. -/
abbrev OwnershipSound (t : Track) : Prop :=
  (t.role ≠ .owner → t.link ≠ none) ∧ (t.role = .owner → t.held = []) ∧ t.held.length ≤ 4
    ∧ (t.peerRole.isSome = t.link.isSome) ∧ (t.role = .shadow → t.peerThrough ≠ none) ∧ t.absent ≤ 1
    ∧ (t.link = none → t.peerThrough = none)

/-- Settings as R11, R44, R102 and R163 leave them, as far as the laws below need them. -/
abbrev SettingsSound (c : Settings) : Prop :=
  1 ≤ c.pulseLength ∧ c.pulseLength < c.stepLength ∧ c.stepLength ≤ 500000
    ∧ 1000 ≤ c.fieldWidth ∧ c.fieldWidth ≤ 7000 ∧ -8000 ≤ fieldLeft c ∧ fieldRight c ≤ 8000
    ∧ c.heightOffset ≤ 30000 ∧ 3 * c.margin ≤ c.fieldWidth
    ∧ (c.leftNeighbour = c.rightNeighbour → c.leftNeighbour = none)
    ∧ 10 ≤ c.xGate ∧ c.xGate ≤ 400 ∧ 10 ≤ c.zGate ∧ c.zGate ≤ 1000
    ∧ 10 ≤ c.linkXGate ∧ c.linkXGate ≤ 400 ∧ 10 ≤ c.linkZGate ∧ c.linkZGate ≤ 1000
    ∧ 2 ≤ c.confirmHits ∧ c.confirmHits ≤ 7 ∧ 1 ≤ c.coastLimit ∧ c.coastLimit ≤ 15
    ∧ 1 ≤ c.holdThreshold ∧ c.holdThreshold ≤ c.openThreshold ∧ c.openThreshold ≤ 255 ∧ c.exposureStart ≤ 15
    ∧ 1 ≤ c.wireTypes.length ∧ c.wireTypes.length ≤ 4 ∧ c.defaultType < c.wireTypes.length
    ∧ (∀ w ∈ c.wireTypes, 800 ≤ w.nominal ∧ w.nominal ≤ 2000 ∧ 300 ≤ w.radius ∧ w.radius ≤ 1000 ∧ w.bias ≤ 200
        ∧ w.limit ≤ w.nominal)
    ∧ c.staggerLimit ≤ 8000 ∧ 1 ≤ c.drainThreshold ∧ c.drainThreshold ≤ 24 ∧ 1 ≤ c.ageLimit ∧ c.ageLimit ≤ 50
    ∧ c.hysteresis ≤ 500 ∧ 5 ≤ c.neighbourTimeout ∧ c.neighbourTimeout ≤ 100 ∧ 1 ≤ c.alertPulse ∧ c.alertPulse ≤ 15

/-- Both copies of the settings are sound, and the states that need them have them (R156, R158, R162, R163). -/
abbrev RunSound (s : State) : Prop :=
  (∀ r ∈ s.rca.pendingSettings, SettingsSound r.settings) ∧ (∀ r ∈ s.rca.runSettings, SettingsSound r.settings)
    ∧ (s.rca.node ≠ .unconfigured → s.rca.pendingSettings ≠ none)
    ∧ (s.rca.node = .running ∨ s.rca.node = .draining → s.rca.runSettings ≠ none)

/-- The laws of the position (R32, R33, R35, R38, R47): the sub-step lies below the step length, the quarter count within -3
to 3, the GPI at or below the high-water index, and no edge is resolved that has not come yet. -/
abbrev PositionSound (s : State) : Prop :=
  (∀ r ∈ s.rca.runSettings, s.du.sub < r.settings.stepLength) ∧ -3 ≤ s.du.quarter ∧ s.du.quarter ≤ 3
    ∧ minGpi ≤ s.du.gpi ∧ s.du.gpi ≤ s.du.hw ∧ 0 ≤ s.du.hw ∧ s.du.hw ≤ maxGpi ∧ s.du.resolved ≤ s.now

/-- The bin a request closes, where the DU posted it (R39). -/
def Request.closedBin : Request → Option Int
  | .binClose k => some k
  | _ => none

/-- The closes waiting name increasing bins, each below the high-water index (R47). -/
abbrev ClosesSound (s : State) : Prop :=
  (s.tt.requests.filterMap Request.closedBin).Pairwise (· < ·) ∧ ∀ k ∈ s.tt.requests.filterMap Request.closedBin, k < s.du.hw

/-- The laws of the exposure controller (R24, R25, R27). -/
abbrev ExposureSound (s : State) : Prop :=
  s.siu.level ≤ 15 ∧ s.siu.drift ≤ 15 ∧ s.siu.associated ≤ 65535 ∧ s.siu.saturated ≤ 65535 ∧ s.siu.weak ≤ 65535
    ∧ (∀ w ∈ s.siu.word, w ≤ 15)

/-- The laws of the transmitter (R140, R142): no frame has made sixteen attempts and is still in its cycle, and a free
transmitter means that no source offers a frame. -/
abbrev TransmitterSound (s : State) : Prop :=
  (match s.rlc.tx with
    | .free => s.rlc.edgeSlot = none ∧ s.rca.status = none ∧ s.rq.inFrame = []
    | .busy _ _ attempts _ => attempts < 16)
    ∧ (s.rq.inFrame ≠ [] → s.rca.runSettings ≠ none)

/-- A label lies within its ranges (R48). -/
abbrev LabelSound (l : Label) : Prop := l.origin ≤ 7 ∧ l.serial ≤ 65535

/-- A GPI lies within the signed 32-bit range (R38, R115). -/
abbrev GpiSound (g : Int) : Prop := minGpi ≤ g ∧ g ≤ maxGpi

/-- The fields of a record lie within their ranges (R1, R115), and its residual within the nominal height of a type in
force (R109). -/
abbrev RecordSound (types : List WireType) (r : Record) : Prop :=
  LabelSound r.label ∧ GpiSound r.gpi ∧ -8000 ≤ r.stagger ∧ r.stagger ≤ 8000 ∧ r.height ≤ 45000 ∧ r.samples ≤ 255
    ∧ (∀ w ∈ r.wear, w.1 ≤ 2000 ∧ w.2 ≤ 2000 ∧ ∃ e ∈ types, w.1 ≤ e.nominal)
    ∧ (r.noSample = true → r.wear = none ∧ r.samples = 0) ∧ ¬(r.noFlat = true ∧ r.beyond = true)
    ∧ (∀ g ∈ r.gap, 1 ≤ g ∧ g ≤ 65535) ∧ (∀ m ∈ r.mark, m ≤ 65535)

/-- An accumulator lies within its ranges (R50), its minimum within the nominal height of the type it was computed with
(R109). -/
abbrev AccumulatorSound (types : List WireType) (a : Accumulator) : Prop :=
  GpiSound a.bin ∧ 1 ≤ a.count ∧ a.count ≤ 255 ∧ -8000 * (a.count : Int) ≤ a.sumX ∧ a.sumX ≤ 8000 * (a.count : Int)
    ∧ a.sumZ ≤ 45000 * a.count
    ∧ ∀ m ∈ a.minimum, m.residual ≤ 2000 ∧ m.width ≤ 2000 ∧ ∃ e, types[m.type]? = some e ∧ m.residual ≤ e.nominal

/-- What a track holds for its records lies within its ranges (R1, R48, R50, R115). -/
abbrev GatheringSound (types : List WireType) (t : Track) : Prop :=
  LabelSound t.label ∧ -8000 ≤ t.lastX ∧ t.lastX ≤ 8000 ∧ t.lastZ ≤ 45000 ∧ (∀ m ∈ t.mark, m ≤ 65535)
    ∧ (∀ a ∈ t.acc, AccumulatorSound types a) ∧ ∀ r ∈ t.held, RecordSound types r

/-- What a request carries to the tracks lies within its ranges: the bin of a close, the labels of a report, a mark number
(R48, R115, R173, R176). -/
abbrev RequestSound : Request → Prop
  | .binClose k | .finalClose k => GpiSound k
  | .edge _ report => ∀ e ∈ report.entries, LabelSound e.label
  | .mark number _ => number ≤ 65535
  | .scanPass _ | .neighbourLost _ => True

/-- A posted scan is screened, and its stamp lies within range (R18, R20). -/
abbrev PageSound : Page → Prop
  | .posted scan => GpiSound scan.gpi ∧ GpiSound scan.hw ∧ ∀ p ∈ scan.spots, p.headZ ≤ 15000 ∧ ∀ w ∈ p.width, w ≤ 2000
  | .free | .filling => True

/-- The wire types in force (R101). -/
def State.wireTypes (s : State) : List WireType := (s.settings.map (·.wireTypes)).getD []

/-- Every record queued or held, every track with its accumulator, and what waits to reach them lie within their ranges
(R1, R18, R38, R48, R50, R109, R115). -/
abbrev RecordsSound (s : State) : Prop :=
  (∀ q ∈ s.rq.inFrame, RecordSound s.wireTypes q.record) ∧ (∀ q ∈ s.rq.queued, RecordSound s.wireTypes q.record)
    ∧ (∀ t ∈ s.tt.tracks, GatheringSound s.wireTypes t) ∧ (∀ r ∈ s.tt.requests, RequestSound r)
    ∧ PageSound s.siu.pageA ∧ PageSound s.siu.pageB ∧ GpiSound s.du.gpi ∧ GpiSound s.du.hw
    ∧ s.rca.slot ≤ 7 ∧ s.tt.serial ≤ 65535

/-- Where a request that deals with bins stands in their order (R55): the scan pass of a page at twice the high-water index
of its stamp, the close of bin k just after the scans of that bin. -/
def Request.turn (u : Siu) : Request → Option Int
  | .scanPass p =>
    match u.page p with
    | .posted scan => some (2 * scan.hw)
    | .free | .filling => none
  | .binClose k | .finalClose k => some (2 * k + 1)
  | .edge _ _ | .mark _ _ | .neighbourLost _ => none

/-- The turns of the requests waiting, in their order. -/
def State.turns (s : State) : List Int := s.tt.requests.filterMap (Request.turn s.siu)

/-- Bins are dealt with in increasing order (R47, R55, R75, R91): the requests waiting are in order, none stands beyond the
open bin, every hold list is in increasing GPI order, and the bins that a track holds records of lie below the bin it
gathers, below the open bin and before every request waiting. -/
abbrev OrderSound (s : State) : Prop :=
  s.turns.Pairwise (fun a b => a ≤ b ∧ (a % 2 = 1 → a < b)) ∧ (∀ n ∈ s.turns, n ≤ 2 * s.du.hw + 1)
    ∧ (s.rca.node = .running → ∀ n ∈ s.turns, n ≤ 2 * s.du.hw)
    ∧ ∀ t ∈ s.tt.tracks, t.held.Pairwise (fun a b => a.gpi < b.gpi)
      ∧ (∀ a ∈ t.acc, (∀ r ∈ t.held, r.gpi < a.bin) ∧ (s.tt.isOpen = true → a.bin ≤ s.du.hw) ∧ ∀ n ∈ s.turns, 2 * a.bin ≤ n)
      ∧ ∀ r ∈ t.held, (s.tt.isOpen = true → r.gpi < s.du.hw) ∧ ∀ n ∈ s.turns, 2 * r.gpi + 1 < n

/-- Every heartbeat, neighbour and drain timer runs only in the state its rule names, and a drain-end STATUS is in its
cycle only in DRAINING with the drain timer stopped (R97, R147, R159, R160). -/
abbrev TimersSound (s : State) : Prop :=
  (s.rlc.heartbeat ≠ none → s.rca.node = .running)
    ∧ (∀ l ∈ s.rlc.leftLife, l.timer ≠ none → s.rca.node = .running)
    ∧ (∀ l ∈ s.rlc.rightLife, l.timer ≠ none → s.rca.node = .running)
    ∧ (s.rca.drainTimer ≠ none → s.rca.node = .draining)
    ∧ drainEndPending s = false
    ∧ (match s.rlc.tx with
        | .busy (.status true) _ _ _ => s.rca.node = .draining ∧ s.rca.drainTimer = none
        | _ => True)

/-- Pages, port and request list (R15, R21, R22, R52, R54): a page is POSTED exactly while its one scan pass waits, FILLING
exactly while the port fills it; a closed TT has an empty list; a RUNNING node has an open TT and no final close waiting;
no scan pass stands behind a final close. -/
abbrev PagesSound (s : State) : Prop :=
  (∀ p : PageId, p = .a ∨ p = .b →
      s.tt.requests.count (.scanPass p) = (match s.siu.page p with
        | .posted _ => 1
        | _ => 0)
      ∧ (s.siu.page p = .filling ↔ s.siu.port = .captured p))
    ∧ (s.tt.isOpen = false → s.tt.requests = [])
    ∧ (s.rca.node = .running → s.tt.isOpen = true ∧ ∀ k, .finalClose k ∉ s.tt.requests)
    ∧ s.tt.requests.Pairwise (fun r r' => (∃ k, r = .finalClose k) → r' ≠ .scanPass .a ∧ r' ≠ .scanPass .b)

/-! ## The edges that a command brings -/

/-- The command `m` brings the edges of `g`, which leave the pair at `found`, and comes 200 ns after the last of them, the
first having come after the edges before were resolved (R32). -/
abbrev Brings (m : Instr) (e : Nat) (g : EdgeGroup) (s : State) (found : OdoPair) : Prop :=
  (m = .odometerTransition e g ∨ m = .illegalTransition ⟨e, g⟩)
    ∧ s.du.resolved + ((g.later.map fun x => x.after.val).sum + 200) < s.now + e
    ∧ g.later.foldl (fun p x => toggle p x.line) (toggle s.du.pair g.first) = found

/-! ## A moment within the service of a request -/

/-- The records of the queue in entry order (R128). -/
def Rq.records (q : Rq) : List QueuedRecord := q.inFrame ++ q.queued

/-- `m` is a moment of the command from `s` to `t` (R120): what a command does not change is as it was, the neighbours'
centres are those it leaves, the queue holds what stood in it, and what stands in it then is still the first part of it
afterwards. -/
abbrev Moment (s m t : State) : Prop :=
  m.now = t.now ∧ m.rca.slot = s.rca.slot ∧ m.rca.node = s.rca.node ∧ m.settings = s.settings ∧ m.du = s.du ∧ m.wau = s.wau
    ∧ m.tt.leftCentre = t.tt.leftCentre ∧ m.tt.rightCentre = t.tt.rightCentre ∧ m.rq.pastLimit = s.rq.pastLimit
    ∧ s.rq.records <+: m.rq.records ∧ m.rq.records <+: t.rq.records

/-- The track `v` is what `f` makes at a moment of the command from `s` to `t`, and the records `f` then enters stay in the
queue (R120, R127). -/
abbrev Dealt (s t : State) (f : State → Track × State) (v : Track) : Prop :=
  ∃ m, Moment s m t ∧ Moment s (f m).2 t ∧ v = (f m).1

end Sys2Proof.Machine
end

