-- ==== Sys2Proof/Certificates/Slice0/Obligations.lean ====
section
/-! DEFINITION. The statements about the model, one `Prop` each, in the order of the spec's chapters; the last group holds
the laws that every step keeps. A statement whose conclusion is an equation with `.next` says the whole frame: every field
that the right side does not name is unchanged. -/

open Sys2Proof Sys2Proof.Machine

/-! ## The step and power-on reset -/

/-- Each step takes the command at the front of the queue, whole, and runs it with the queue's rest; on an empty queue
the node idles (95_what_each_step_holds.md; logs 3 and 27). -/
def Obligations.StepRunsTheFrontCommand : Prop :=
  (∀ (c : Instr) (rest : List Instr) (s : State), s.pending = c :: rest → step s = exec c { s with pending := rest })
    ∧ ∀ s : State, s.pending = [] → step s = .next s

/-- POWER_ON_RESET from any state (R161 with R10, R24, R29, R32, R46, R51, R101, R103, R128, R155): it samples the straps, the pair,
carrier and a message in progress; it depends on no field of the node. The queue of commands and the clock go on (logs 1, 8). -/
def Obligations.PowerOnReset : Prop :=
  ∀ (e : Nat) (straps : BitVec 3) (pair : OdoPair) (carrier midScan : Bool) (s : State), ∃ t : State,
    exec (.powerOnReset e straps pair carrier midScan) s = .next t
      ∧ t.pending = s.pending ∧ t.now = s.now + e
      ∧ t.siu = ⟨.free, .free, if midScan then .ignoring else .idle, none, 0, some 0, false, 0, 0, 0, 0, false⟩
      ∧ t.du = ⟨pair, 0, 0, 0, 0, t.now⟩
      ∧ t.tt = ⟨false, 0, [], [], none, none, none⟩
      ∧ t.wau.currentType = none
      ∧ t.rq = ⟨[], [], none, false⟩
      ∧ t.rlc.carrier.isSome = carrier ∧ (∀ spell ∈ t.rlc.carrier, spell.usable = false)
      ∧ t.rlc.reception = none ∧ t.rlc.lastQuiet = t.now ∧ t.rlc.tx = .free ∧ t.rlc.edgeSlot = none
      ∧ t.rlc.heartbeat = none ∧ t.rlc.leftLife = none ∧ t.rlc.rightLife = none
      ∧ t.rca = ⟨.unconfigured, t.now, straps.toNat, none, none, 0, 0, none, ⟨0, 0, 0, 0, 0, 0, 0⟩, none, none⟩
      ∧ t.rca.slot ≤ 7 ∧ t.alertPin = false ∧ t.runLineHeld = true

/-- `State.reset` is the state after a POWER_ON_RESET with every input low and the medium quiet (the model's choice of
inputs, log 8), and it meets every law that this file states of each step. -/
def Obligations.ResetMeetsTheLaws : Prop :=
  exec (.powerOnReset 0 0 ⟨false, false⟩ false false) State.reset = .next State.reset
    ∧ TableSound State.reset ∧ QueueSound State.reset ∧ PlacesSound State.reset
    ∧ (∀ t ∈ State.reset.tt.tracks, OwnershipSound t) ∧ RunSound State.reset ∧ PositionSound State.reset
    ∧ ClosesSound State.reset ∧ ExposureSound State.reset ∧ TransmitterSound State.reset ∧ RecordsSound State.reset
    ∧ TimersSound State.reset ∧ PagesSound State.reset ∧ OrderSound State.reset

/-- What setting a latch does (R166, R168): that latch is set and no other changes; the alert pulse restarts at its full
length exactly when the mask in force selects the latch; before the first run start no event drives a pulse. ALERT_PULSE_END
is taken at the pulse's end or later and refused before it: that is the model's choice (logs 2 and 4). -/
def Obligations.LatchAndAlert : Prop :=
  ∀ (l : Latch) (s : State),
    (s.setLatch l = { s with rca := { s.rca with latches := (s.setLatch l).rca.latches, alert := (s.setLatch l).rca.alert } })
      ∧ (s.setLatch l).latched l = true
      ∧ (∀ l', l' ≠ l → (s.setLatch l).latched l' = s.latched l')
      ∧ (∀ c, s.settings = some c → c.alertMask.getLsbD l.position = true →
          (s.setLatch l).rca.alert = some (s.now + c.alertPulse * 1000000))
      ∧ (∀ c, s.settings = some c → c.alertMask.getLsbD l.position = false → (s.setLatch l).rca.alert = s.rca.alert)
      ∧ (s.settings = none → (s.setLatch l).rca.alert = s.rca.alert)
      ∧ (∀ e ends, s.rca.alert = some ends → ends ≤ s.now + e → exec (.alertPulseEnd e) s =
          .next { s with now := s.now + e, rca := { s.rca with alert := none } })
      ∧ (∀ e ends, s.rca.alert = some ends → s.now + e < ends → exec (.alertPulseEnd e) s = .refused .timeNotReached)
      ∧ (s.alertPin = true ↔ s.rca.alert ≠ none)

/-! ## Chapter 1: geometry -/

/-- The field, its centre, the sides and the edge distance (R6, R7, R8, R9, R12): the field is as wide as the setting, its centre
is the midpoint with a half rounded up, with margins of at most a third of the field the margins are disjoint, and a
position has the side of a neighbour only where one is configured. A spot within the field width is converted by the origin
plus the facing times the head x, unchanged by the limit of R4, and lies within the field; any spot is held within the car
frame (R3, R4). Its class is STRONG from the open threshold up, else WEAK from the hold threshold up, else rejected (R23). -/
def Obligations.FieldGeometry : Prop :=
  ∀ (c : Settings) (x : Int),
    fieldRight c - fieldLeft c = c.fieldWidth
      ∧ (c.facing = .plus → fieldLeft c = c.fieldOrigin) ∧ (c.facing = .minus → fieldRight c = c.fieldOrigin)
      ∧ 2 * ownCentre c ≤ fieldLeft c + fieldRight c + 1 ∧ fieldLeft c + fieldRight c ≤ 2 * ownCentre c
      ∧ (3 * c.margin ≤ c.fieldWidth → 1000 ≤ c.fieldWidth →
          (geometricSide c x = some .left ↔ x ≤ fieldLeft c + c.margin)
            ∧ (geometricSide c x = some .right ↔ fieldRight c - c.margin ≤ x)
            ∧ (geometricSide c x = none ↔ fieldLeft c + c.margin < x ∧ x < fieldRight c - c.margin))
      ∧ (∀ side, effectiveSide c x = some side ↔ geometricSide c x = some side ∧ c.neighbour side ≠ none)
      ∧ (0 ≤ edgeDistance c x ↔ fieldLeft c ≤ x ∧ x ≤ fieldRight c)
      ∧ (edgeDistance c x = x - fieldLeft c ∨ edgeDistance c x = fieldRight c - x)
      ∧ edgeDistance c x ≤ x - fieldLeft c ∧ edgeDistance c x ≤ fieldRight c - x
      ∧ ∀ p : Spot, -8000 ≤ fieldLeft c → fieldRight c ≤ 8000 →
        (p.headX ≤ c.fieldWidth →
          (carSpot c p).x = c.fieldOrigin + (match c.facing with
            | .plus => 1
            | .minus => -1) * (p.headX : Int)
          ∧ fieldLeft c ≤ (carSpot c p).x ∧ (carSpot c p).x ≤ fieldRight c)
        ∧ -8000 ≤ (carSpot c p).x ∧ (carSpot c p).x ≤ 8000
        ∧ (carSpot c p).z = p.headZ + c.heightOffset
        ∧ (carSpot c p).width = p.width ∧ (carSpot c p).peak = p.peak
        ∧ ((carSpot c p).cls = .strong ↔ c.openThreshold ≤ p.peak)
        ∧ ((carSpot c p).cls = .weak ↔ c.holdThreshold ≤ p.peak ∧ p.peak < c.openThreshold)
        ∧ ((carSpot c p).cls = .rejected ↔ p.peak < c.holdThreshold ∧ p.peak < c.openThreshold)

/-! ## Chapter 2: the sensor port -/

/-- SCAN_MESSAGE_BEGIN between messages (R15): page A if FREE, else page B if FREE, else the message is not captured, which
in RUNNING is counted and latched. -/
def Obligations.MessageBegins : Prop :=
  ∀ (e : Nat) (s : State), s.siu.port = .idle →
    (s.siu.pageA = .free → exec (.scanMessageBegin e) s =
        .next { s with now := s.now + e, siu := { s.siu with pageA := .filling, port := .captured .a } })
      ∧ (s.siu.pageA ≠ .free → s.siu.pageB = .free → exec (.scanMessageBegin e) s =
        .next { s with now := s.now + e, siu := { s.siu with pageB := .filling, port := .captured .b } })
      ∧ (s.siu.pageA ≠ .free → s.siu.pageB ≠ .free → s.rca.node ≠ .running → exec (.scanMessageBegin e) s =
        .next { s with now := s.now + e, siu := { s.siu with port := .uncaptured } })
      ∧ (s.siu.pageA ≠ .free → s.siu.pageB ≠ .free → s.rca.node = .running → exec (.scanMessageBegin e) s =
        .next (State.setLatch { s with
          now := s.now + e
          siu := { s.siu with port := .uncaptured }
          rca := { s.rca with counters := { s.rca.counters with
            skippedScans := min (s.rca.counters.skippedScans + 1) 4294967295 } } } .scanSkipped))

/-- A message that ends outside RUNNING is discarded, its page FREE again, by end mark or by silence alike (R14, R17); the
message ignored after a reset ends the same way and leaves the port waiting (R22, log 18). -/
def Obligations.MessageEndsUntaken : Prop :=
  ∀ (e : Nat) (bytes : List Byte) (m : Instr) (s : State), (m = .scanMessageEnd e bytes ∨ m = .scanMessageSilence e bytes) →
    (∀ p, s.siu.port = .captured p → s.rca.node ≠ .running → exec m s =
        .next { s with now := s.now + e, siu := { s.siu.setPage p .free with port := .idle } })
      ∧ (s.siu.port = .uncaptured → s.rca.node ≠ .running → exec m s =
        .next { s with now := s.now + e, siu := { s.siu with port := .idle } })
      ∧ (s.siu.port = .ignoring → exec (.scanMessageSilence e bytes) s =
        .next { s with now := s.now + e, siu := { s.siu with port := .idle } })
      ∧ (s.siu.port = .ignoring → exec (.endMarkAfterReset e) s =
        .next { s with now := s.now + e, siu := { s.siu with port := .idle } })

/-- A well-formed captured message that ends in RUNNING (R16, R18 to R21, R170): its spots, read at their offsets, of
which those beyond the field width in force or above head z 15,000 are removed, a face width above 2,000 is taken as none, the page is stamped and POSTED, its scan pass
joins the request list, and scans taken and missing scans are counted. -/
def Obligations.WellFormedMessageIsPosted : Prop :=
  ∀ (e : Nat) (bytes : List Byte) (m : Instr) (p : PageId) (c : Settings) (s : State),
    (m = .scanMessageEnd e bytes ∨ m = .scanMessageSilence e bytes) →
    s.siu.port = .captured p → s.rca.node = .running → s.settings = some c →
    3 ≤ bytes.length → fieldAt bytes 2 1 ≤ 16 → bytes.length = 3 + 7 * fieldAt bytes 2 1 →
    exec m s = .next { s with
      now := s.now + e
      siu := { s.siu.setPage p (.posted {
          number := fieldAt bytes 0 1
          level := fieldAt bytes 1 1
          spots := (((List.range (fieldAt bytes 2 1)).map fun i => (⟨fieldAt bytes (3 + 7 * i) 2, fieldAt bytes (5 + 7 * i) 2,
              if fieldAt bytes (7 + 7 * i) 2 = 65535 then none else some (fieldAt bytes (7 + 7 * i) 2),
              fieldAt bytes (9 + 7 * i) 1⟩ : Spot)).filter fun q =>
            decide (q.headX ≤ c.fieldWidth ∧ q.headZ ≤ 15000)).map fun q =>
              { q with width := q.width.filter fun w => decide (w ≤ 2000) }
          gpi := s.du.gpi
          hw := s.du.hw }) with
        port := .idle
        continuity := some (fieldAt bytes 0 1) }
      tt := { s.tt with requests := s.tt.requests ++ [.scanPass p] }
      rca := { s.rca with counters := { s.rca.counters with
        scansTaken := min (s.rca.counters.scansTaken + 1) 4294967295
        skippedScans := min (s.rca.counters.skippedScans + (match s.siu.continuity with
          | some q => (fieldAt bytes 0 1 + 256 - q) % 256 - 1
          | none => 0)) 4294967295 } } }

/-- A malformed captured message that ends in RUNNING is discarded, counted once and latched, and takes part in the
continuity check (R16, R19); an uncaptured one takes part in that check alone (R15). The check counts d − 1 missing scans
where d is 2 or more, without a latch, and the record takes the number; a message without a complete header clears the
record. -/
def Obligations.MalformedAndUncapturedMessages : Prop :=
  ∀ (bytes : List Byte) (s : State),
    (∀ (e : Nat) (m : Instr) (p : PageId) (c : Settings), (m = .scanMessageEnd e bytes ∨ m = .scanMessageSilence e bytes) →
        s.siu.port = .captured p → s.rca.node = .running → s.settings = some c →
        (bytes.length < 3 ∨ 16 < fieldAt bytes 2 1 ∨ bytes.length ≠ 3 + 7 * fieldAt bytes 2 1) →
        exec m s = .next (continuityCheck bytes (State.setLatch { s with
          now := s.now + e
          siu := { s.siu.setPage p .free with port := .idle }
          rca := { s.rca with counters := { s.rca.counters with
            skippedScans := min (s.rca.counters.skippedScans + 1) 4294967295 } } } .scanSkipped)))
      ∧ (∀ (e : Nat) (m : Instr), (m = .scanMessageEnd e bytes ∨ m = .scanMessageSilence e bytes) →
        s.siu.port = .uncaptured → s.rca.node = .running →
        exec m s = .next (continuityCheck bytes { s with now := s.now + e, siu := { s.siu with port := .idle } }))
      ∧ (3 ≤ bytes.length → s.siu.continuity = none → continuityCheck bytes s = { s with
          siu := { s.siu with continuity := some (fieldAt bytes 0 1) }
          rca := { s.rca with counters := { s.rca.counters with
            skippedScans := min s.rca.counters.skippedScans 4294967295 } } })
      ∧ (∀ p, 3 ≤ bytes.length → s.siu.continuity = some p → p ≤ 255 → continuityCheck bytes s = { s with
          siu := { s.siu with continuity := some (fieldAt bytes 0 1) }
          rca := { s.rca with counters := { s.rca.counters with
            skippedScans := min (s.rca.counters.skippedScans
              + ((((fieldAt bytes 0 1 : Int) - p) % 256).toNat - 1)) 4294967295 } } })
      ∧ (bytes.length < 3 → continuityCheck bytes s = { s with siu := { s.siu with continuity := none } })

/-- EXPOSURE_WORD_SENT (R24): the word being sent is complete; where a later one is due, the word with the latest level
follows it (log 17). The character of a word has the level in its lower four bits and 0 in its upper four (R170). -/
def Obligations.ExposureWordSent : Prop :=
  ∀ (e w : Nat) (s : State), s.siu.word = some w →
    exec (.exposureWordSent e) s = .next { s with
      now := s.now + e
      siu := { s.siu with word := if s.siu.wordDue then some s.siu.level else none, wordDue := false } }
      ∧ (w ≤ 15 → ∃ b : Byte, s.siu.outward = some b ∧ b.toNat % 16 = w ∧ b.toNat / 16 = 0)

/-! ## Chapter 3: distance -/

/-- The edges of the odometer pair that a command brings (R32): a group of edges, each within 200 ns of the one before, is
resolved once 200 ns have passed since the last; the same phase state forms no transition and leaves the reference, a change
of one line forms one transition of that line, a change of both one transition of both lines (IllegalTransition). Two edges
on one line leave the pair as it was, two on both lines change both. That either command may bring any group, and that one
whose first edge does not come after the group before was resolved is refused, are the model's (logs 4 and 30).
Outside RUNNING a transition of one line only keeps the reference (R42); in RUNNING a forward or reverse quarter moves the
quarter count by one where that does not complete a cycle (R33). Forward is P leading Q, the other way round in the reversed
sense. -/
def Obligations.QuarterWithoutCount : Prop :=
  ∀ (e : Nat) (g : EdgeGroup) (line : OdoLine) (m : Instr) (s : State),
    ((m = .odometerTransition e g ∨ m = .illegalTransition ⟨e, g⟩) →
        s.now + e ≤ s.du.resolved + ((g.later.map fun x => x.after.val).sum + 200) → exec m s = .refused .timeNotReached)
      ∧ (Brings m e g s s.du.pair → exec m s = .next { s with now := s.now + e, du := { s.du with resolved := s.now + e } })
      ∧ (Brings m e g s (toggle s.du.pair line) → s.rca.node ≠ .running → exec m s = .next { s with
        now := s.now + e
        du := { s.du with pair := toggle s.du.pair line, quarter := 0, resolved := s.now + e } })
      ∧ (∀ c, Brings m e g s (toggle s.du.pair line) → s.rca.node = .running → s.settings = some c →
        isForward c.direction s.du.pair line = true → s.du.quarter ≠ 3 → exec m s = .next { s with
          now := s.now + e
          du := { s.du with pair := toggle s.du.pair line, quarter := s.du.quarter + 1, resolved := s.now + e } })
      ∧ (∀ c, Brings m e g s (toggle s.du.pair line) → s.rca.node = .running → s.settings = some c →
        isForward c.direction s.du.pair line = false → s.du.quarter ≠ -3 → exec m s = .next { s with
          now := s.now + e
          du := { s.du with pair := toggle s.du.pair line, quarter := s.du.quarter - 1, resolved := s.now + e } })
      ∧ (∀ p q, toggle ⟨p, q⟩ .p = ⟨!p, q⟩ ∧ toggle ⟨p, q⟩ .q = ⟨p, !q⟩)
      ∧ (∀ pair d, phaseAfter pair ⟨line, []⟩ = toggle pair line ∧ phaseAfter pair ⟨line, [⟨d, line⟩]⟩ = pair
        ∧ ∀ other, other ≠ line → phaseAfter pair ⟨line, [⟨d, other⟩]⟩ = ⟨!pair.p, !pair.q⟩)
      ∧ (∀ pair, isForward .normal pair line = true ↔
          (pair, toggle pair line) ∈ [(⟨false, false⟩, ⟨true, false⟩), (⟨true, false⟩, ⟨true, true⟩),
            (⟨true, true⟩, ⟨false, true⟩), ((⟨false, true⟩ : OdoPair), (⟨false, false⟩ : OdoPair))])
      ∧ (∀ pair, isForward .reversed pair line = !isForward .normal pair line)

/-- A fourth quarter in RUNNING completes a count (R33, R36, R37, R39, R40): a forward count adds the pulse length and may
raise the GPI; where that passes the high-water index, the index rises with it and the close of the bin just left is posted
unless ten wait, which latches OVERSPEED; a reverse count may lower the GPI and posts nothing. -/
def Obligations.OdometerCounts : Prop :=
  ∀ (e : Nat) (g : EdgeGroup) (line : OdoLine) (m : Instr) (c : Settings) (s : State),
    Brings m e g s (toggle s.du.pair line) → s.rca.node = .running → s.settings = some c →
    let du : Du := { s.du with pair := toggle s.du.pair line, quarter := 0, resolved := s.now + e }
    (isForward c.direction s.du.pair line = true → s.du.quarter = 3 →
        (s.du.sub + c.pulseLength < c.stepLength → exec m s =
            .next { s with now := s.now + e, du := { du with sub := s.du.sub + c.pulseLength } })
          ∧ (c.stepLength ≤ s.du.sub + c.pulseLength → s.du.gpi < s.du.hw → s.du.gpi ≠ 2147483647 →
            exec m s = .next { s with
              now := s.now + e
              du := { du with sub := s.du.sub + c.pulseLength - c.stepLength, gpi := s.du.gpi + 1 } })
          ∧ (c.stepLength ≤ s.du.sub + c.pulseLength → s.du.gpi = s.du.hw → s.du.gpi ≠ 2147483647 →
            (s.tt.requests.countP Request.isClose < 10 → exec m s = .next { s with
                now := s.now + e
                du := { du with
                  sub := s.du.sub + c.pulseLength - c.stepLength, gpi := s.du.hw + 1, hw := s.du.hw + 1 }
                tt := { s.tt with requests := s.tt.requests ++ [.binClose s.du.hw] } })
              ∧ (10 ≤ s.tt.requests.countP Request.isClose → exec m s = .next (State.setLatch { s with
                now := s.now + e
                du := { du with
                  sub := s.du.sub + c.pulseLength - c.stepLength, gpi := s.du.hw + 1, hw := s.du.hw + 1 } } .overspeed))))
      ∧ (isForward c.direction s.du.pair line = false → s.du.quarter = -3 →
        (c.pulseLength ≤ s.du.sub → exec m s =
            .next { s with now := s.now + e, du := { du with sub := s.du.sub - c.pulseLength } })
          ∧ (s.du.sub < c.pulseLength → s.du.gpi ≠ -2147483648 → exec m s = .next { s with
            now := s.now + e
            du := { du with sub := s.du.sub + c.stepLength - c.pulseLength, gpi := s.du.gpi - 1 } }))

/-- A count that would carry the GPI beyond the signed 32-bit range is not taken: the sub-step accumulator, the GPI and the
high-water index keep their values and nothing is latched (R38); the quarter count has returned to 0 (log 16). -/
def Obligations.CountsAtTheEndsOfTheRange : Prop :=
  ∀ (e : Nat) (g : EdgeGroup) (line : OdoLine) (m : Instr) (c : Settings) (s : State),
    Brings m e g s (toggle s.du.pair line) → s.rca.node = .running → s.settings = some c →
    let t : State := { s with
      now := s.now + e, du := { s.du with pair := toggle s.du.pair line, quarter := 0, resolved := s.now + e } }
    (isForward c.direction s.du.pair line = true → s.du.quarter = 3 →
        c.stepLength ≤ s.du.sub + c.pulseLength → s.du.gpi = 2147483647 → s.du.hw = 2147483647 → exec m s = .next t)
      ∧ (isForward c.direction s.du.pair line = false → s.du.quarter = -3 →
        s.du.sub < c.pulseLength → s.du.gpi = -2147483648 → exec m s = .next t)

/-- A transition of both lines (R34): in RUNNING no count is taken, QUAD_ERROR is latched, the quarter count is 0 and the
reference is the new phase state; otherwise it updates the reference and latches nothing, and the quarter count is 0 (R42).
That either command brings the group of edges, the premise that its first edge is later than the resolution before it and its
last edge 200 ns before the command, and the instant kept as `resolved` are the model's reading of R32 (`Brings`, log 30). -/
def Obligations.IllegalTransition : Prop :=
  ∀ (e : Nat) (g : EdgeGroup) (m : Instr) (s : State), Brings m e g s ⟨!s.du.pair.p, !s.du.pair.q⟩ →
    let t : State := { s with
      now := s.now + e
      du := { s.du with pair := ⟨!s.du.pair.p, !s.du.pair.q⟩, quarter := 0, resolved := s.now + e } }
    (s.rca.node = .running → exec m s = .next (t.setLatch .quadError))
      ∧ (s.rca.node ≠ .running → exec m s = .next t)

/-! ## Chapter 4: the scan pass -/

/-- Greedy assignment (R59, R80): accepted pairs come from the candidates, in increasing order of key, no two share a track or
an other side, and a candidate passed over shares one with an accepted pair whose key is not greater than its own. The
candidates of a scan pass are the pairs of a track and a spot within its gates, in the order of distance, birth GPI, label,
spot x, place in the page (R57 to R59); those of an EDGE application are the pairs of an unlinked, unmatched track on the
neighbour's side and an entry within the link gates, in the order of distance, birth GPI, label, entry x, place in the
frame (R80). -/
def Obligations.GreedyAssignment : Prop :=
  (∀ cs : List Candidate,
    (∀ c ∈ assign cs, c ∈ cs)
      ∧ (assign cs).Pairwise (fun a b => lexLt b.key a.key = false ∧ a.track ≠ b.track ∧ a.other ≠ b.other)
      ∧ (∀ c ∈ cs, c ∉ assign cs →
          ∃ a ∈ assign cs, (a.track = c.track ∨ a.other = c.other) ∧ lexLt c.key a.key = false))
    ∧ (∀ (c : Settings) (ts : List Track) (spots : List CarSpot) (k : Candidate),
        k ∈ scanCandidates c ts spots ↔ ∃ u p, ts[k.track]? = some u ∧ spots[k.other]? = some p
          ∧ (p.cls = .strong ∨ p.cls = .weak ∧ u.state.isTentative = false)
          ∧ (p.x - u.lastX).natAbs ≤ min (c.xGate + 10 * u.missedBins) (2 * c.xGate)
          ∧ ((p.z : Int) - u.lastZ).natAbs ≤ c.zGate
          ∧ k.key = [((p.x - u.lastX).natAbs : Int), u.birth, u.label.origin, u.label.serial, p.x, k.other])
    ∧ (∀ (c : Settings) (side : Side) (m : Matching) (k : Candidate),
        k ∈ linkCandidates c side m ↔ ∃ u e, m.tracks[k.track]? = some u ∧ (e, k.other) ∈ m.passed
          ∧ u.link = none ∧ (∀ q ∈ m.matched, q.2 ≠ k.track) ∧ effectiveSide c u.lastX = some side
          ∧ (e.x - u.lastX).natAbs ≤ c.linkXGate ∧ ((e.z : Int) - u.lastZ).natAbs ≤ c.linkZGate
          ∧ k.key = [((e.x - u.lastX).natAbs : Int), u.birth, u.label.origin, u.label.serial, e.x, k.other])

/-- SCAN_PASS at the head of the list of an open table completes (R56): the request is taken, its page returns to FREE, and
nothing changes but tracks, serial counter, bin statistics and what records and latches touch; the records of the queue
stay, and new ones, of bins below the scan's, follow them: one for each older accumulator of a CONFIRMED or COASTING track, in
the order of the accepted pairs (R127). By the assignment of R59, each associated track takes its spot's position and changes
state (R60), and its spot is then offered to its accumulator at a moment of the pass (R61, R62: the five cases of an offer are
stated with SpotTakenByTrack); the pairs, those with a saturated and those with a WEAK spot are counted (R25). A TENTATIVE
track not associated counts a miss or is dropped (R63), any other stays as it was; then the STRONG spots left, in increasing
x, start tracks while entries are free, each with its first sample, else TABLE_FULL is latched (R64, R66). A backtracking scan
changes no statistic, no record and no frame, and a scan without spots only counts a miss against every tentative track (R61,
R63). That the absent count is born 0 is the model's choice (log 32). -/
def Obligations.ScanPass : Prop :=
  ∀ (e : Nat) (p : PageId) (rest : List Request) (c : Settings) (scan : Scan) (s : State),
    s.tt.requests = .scanPass p :: rest → s.tt.isOpen = true → s.settings = some c → s.siu.page p = .posted scan →
    let spots := scan.spots.map (carSpot c)
    let pairs := assign (scanCandidates c s.tt.tracks spots)
    let stays : Track × Nat → Bool := fun q => pairs.any (fun k => k.track == q.2) || match q.1.state with
      | .tentative _ miss => miss == 0
      | .confirmed | .coasting => true
    let left := sortBy (fun q : CarSpot × Nat => [q.1.x, (q.2 : Int)])
      (spots.zipIdx.filter fun q => q.1.cls == .strong && !pairs.any fun k => k.other == q.2)
    ∃ t : State, exec (.scanPass e) s = .next t
      ∧ t.pending = s.pending ∧ t.now = s.now + e ∧ t.du = s.du ∧ t.wau = s.wau
      ∧ t.siu = { s.siu.setPage p .free with
          associated := t.siu.associated, saturated := t.siu.saturated, weak := t.siu.weak
          settled := s.siu.settled || (decide (scan.gpi = scan.hw) && decide (scan.level = s.siu.level)) }
      ∧ t.tt = { s.tt with requests := rest, serving := none, tracks := t.tt.tracks, serial := t.tt.serial }
      ∧ t.rq = { s.rq with inFrame := t.rq.inFrame, queued := t.rq.queued }
      ∧ t.rlc = { s.rlc with tx := t.rlc.tx, edgeSlot := t.rlc.edgeSlot }
      ∧ t.rca = { s.rca with latches := t.rca.latches, clearMask := t.rca.clearMask, status := t.rca.status
                             counters := t.rca.counters, alert := t.rca.alert }
      ∧ t.rca.counters = { s.rca.counters with lostBins := t.rca.counters.lostBins, drainLoss := t.rca.counters.drainLoss }
      ∧ (∃ new, t.rq.inFrame ++ t.rq.queued = s.rq.inFrame ++ s.rq.queued ++ new
          ∧ (∀ q ∈ new, q.record.final = false ∧ q.record.gpi < scan.gpi ∧ q.entered = t.now)
          ∧ (new.map fun q => (q.record.label, q.record.gpi)).Sublist (pairs.filterMap fun k =>
              s.tt.tracks[k.track]?.bind fun u => (u.acc.filter fun a =>
                !u.state.isTentative && decide (a.bin < scan.gpi)).map fun a => (u.label, a.bin)))
      ∧ (∃ kept born, t.tt.tracks = kept ++ born
          ∧ kept.map (·.label) = (s.tt.tracks.zipIdx.filter stays).map (·.1.label)
          ∧ born.map (fun u => { u with label := ⟨0, 0⟩ }) = (left.take (8 - kept.length)).map (fun q => {
              label := ⟨0, 0⟩, birth := scan.gpi, state := .tentative 1 0, role := .owner, missedBins := 0, lastX := q.1.x
              lastZ := q.1.z, link := none, peerRole := none, peerThrough := none, absent := 0, former := none
              lastQueued := none, mark := none, contested := false, takenOver := false, held := []
              acc := if scan.gpi = scan.hw then some ⟨scan.gpi, 1, q.1.x, q.1.z, q.1.width.bind fun w =>
                s.wau.currentType.bind fun i => c.wireTypes[i]?.map fun w' => wearSample w' i w⟩ else none })
          ∧ (∀ u ∈ born, u.label.origin = s.rca.slot)
          ∧ (8 - kept.length < left.length → t.latched .tableFull = true)
          ∧ ∀ i u, s.tt.tracks[i]? = some u →
            (∀ k ∈ pairs, k.track = i → ∀ q, spots[k.other]? = some q →
                let moved : Track := { u with lastX := q.x, lastZ := q.z, missedBins := 0, state := match u.state with
                  | .tentative hits _ => if c.confirmHits ≤ hits + 1 then .confirmed else .tentative (hits + 1) 0
                  | .confirmed | .coasting => .confirmed }
                ∃ v ∈ kept, v.label = u.label ∧ v.birth = u.birth ∧ v.link = u.link ∧ v.lastX = q.x ∧ v.lastZ = q.z
                  ∧ v.missedBins = 0 ∧ v.state = moved.state ∧ Dealt s t (offerSpot c scan u.state q moved) v)
              ∧ ((∀ k ∈ pairs, k.track ≠ i) →
                (u.state.isTentative = false → u ∈ kept)
                  ∧ ∀ hits, u.state = .tentative hits 0 → { u with state := .tentative hits 1 } ∈ kept))
      ∧ (scan.gpi = scan.hw → s.siu.associated ≤ 65535 → t.siu.associated = min (s.siu.associated + pairs.length) 65535)
      ∧ (scan.gpi = scan.hw → s.siu.saturated ≤ 65535 → t.siu.saturated = min (s.siu.saturated
          + pairs.countP fun k => spots[k.other]?.any fun q => q.peak == 255) 65535)
      ∧ (scan.gpi = scan.hw → s.siu.weak ≤ 65535 → t.siu.weak = min (s.siu.weak
          + pairs.countP fun k => spots[k.other]?.any fun q => q.cls == .weak) 65535)
      ∧ (scan.gpi ≠ scan.hw → t.rq = s.rq ∧ t.rlc = s.rlc ∧ t.rca.counters = s.rca.counters
          ∧ t.siu.associated = s.siu.associated ∧ t.siu.saturated = s.siu.saturated ∧ t.siu.weak = s.siu.weak)
      ∧ (scan.spots = [] → t.rq = s.rq ∧ t.rlc = s.rlc ∧ t.rca = s.rca ∧ t.tt.serial = s.tt.serial
          ∧ t.tt.tracks = s.tt.tracks.filterMap fun u => match u.state with
            | .tentative hits miss => if miss = 0 then some { u with state := .tentative hits 1 } else none
            | .confirmed | .coasting => some u)

/-- One track and one spot within its gates (R57, R58, R60, R61, R25): the track takes the spot's position, a TENTATIVE track
gains a hit and is confirmed at the confirm count, a COASTING track is confirmed. In a scan that is not backtracking the
statistics rise and the sample is accumulated, with a wear sample where the spot is STRONG, has a width, and there is a
current type (R105). An accumulator of an older bin is first closed (R62, R127): cleared where the track was TENTATIVE before
the association, else made into the record of its bin, routed, with the release check; the sample then starts a fresh one.
The offer of a spot to an accumulator, in a pass of any number of tracks and spots, has these five cases: backtracking, empty,
the scan's bin, an older bin of a TENTATIVE track, and an older bin of any other (R61, R62). -/
def Obligations.SpotTakenByTrack : Prop :=
  (∀ (c : Settings) (scan : Scan) (before : TrackState) (q : CarSpot) (u : Track) (v : State),
    let wear : Option WearSample := (if q.cls = .strong then
        q.width.bind fun w => v.wau.currentType.bind fun i => c.wireTypes[i]?.map fun w' => wearSample w' i w
      else none)
    let fresh : Accumulator := ⟨scan.gpi, 1, q.x, q.z, wear⟩
    (scan.gpi ≠ scan.hw → offerSpot c scan before q u v = (u, v))
      ∧ (scan.gpi = scan.hw → u.acc = none → offerSpot c scan before q u v = ({ u with acc := some fresh }, v))
      ∧ (∀ a, scan.gpi = scan.hw → u.acc = some a → scan.gpi ≤ a.bin →
          let least : Option WearSample := match wear, a.minimum with
            | none, m => m
            | some w, none => some w
            | some w, some m => if w.residual < m.residual then some w else some m
          offerSpot c scan before q u v = ({ u with acc := some (if a.count < 255
            then ⟨a.bin, a.count + 1, a.sumX + q.x, a.sumZ + q.z, least⟩
            else ⟨a.bin, a.count, a.sumX, a.sumZ, least⟩) }, v))
      ∧ (∀ a, scan.gpi = scan.hw → u.acc = some a → a.bin < scan.gpi →
          let out := finishRecord c (fullRecord c false u.label a) { u with acc := none, missedBins := 0 } v
          (before.isTentative = true → offerSpot c scan before q u v = ({ u with acc := some fresh }, v))
            ∧ (before.isTentative = false →
              offerSpot c scan before q u v = ({ out.1 with acc := some fresh }, out.2))))
  ∧ ∀ (e : Nat) (p : PageId) (rest : List Request) (c : Settings) (scan : Scan) (spot : Spot) (u : Track) (s : State),
    s.tt.requests = .scanPass p :: rest → s.tt.isOpen = true → s.settings = some c → s.siu.page p = .posted scan →
    scan.spots = [spot] → s.tt.tracks = [u] →
    let q := carSpot c spot
    (q.cls = .strong ∨ q.cls = .weak ∧ u.state.isTentative = false) →
    (q.x - u.lastX).natAbs ≤ min (c.xGate + 10 * u.missedBins) (2 * c.xGate) →
    ((q.z : Int) - u.lastZ).natAbs ≤ c.zGate →
    let state : TrackState := match u.state with
      | .tentative hits _ => if c.confirmHits ≤ hits + 1 then .confirmed else .tentative (hits + 1) 0
      | .confirmed | .coasting => .confirmed
    let moved : Track := { u with lastX := q.x, lastZ := q.z, state := state, missedBins := 0 }
    let wear : Option WearSample := (if q.cls = .strong then
        spot.width.bind fun w => s.wau.currentType.bind fun i => c.wireTypes[i]?.map fun w' => wearSample w' i w
      else none)
    let associated := min (s.siu.associated + 1) 65535
    let saturated := if spot.peak = 255 then min (s.siu.saturated + 1) 65535 else s.siu.saturated
    let weak := if q.cls = .weak then min (s.siu.weak + 1) 65535 else s.siu.weak
    ∃ t : State, exec (.scanPass e) s = .next t ∧ t.tt.serial = s.tt.serial
      ∧ (scan.gpi ≠ scan.hw → t.tt.tracks = [moved] ∧ t.siu.associated = s.siu.associated)
      ∧ (scan.gpi = scan.hw → t.siu.associated = associated ∧ t.siu.saturated = saturated ∧ t.siu.weak = weak)
      ∧ (scan.gpi = scan.hw → (∀ a ∈ u.acc, scan.gpi ≤ a.bin) →
          let a := u.acc.getD ⟨scan.gpi, 0, 0, 0, none⟩
          let least : Option WearSample := match wear, a.minimum with
            | none, m => m
            | some w, none => some w
            | some w, some m => if w.residual < m.residual then some w else some m
          t.tt.tracks = [{ moved with acc := some (if a.count < 255
              then ⟨a.bin, a.count + 1, a.sumX + q.x, a.sumZ + q.z, least⟩
              else ⟨a.bin, a.count, a.sumX, a.sumZ, least⟩) }]
            ∧ t.rq = s.rq ∧ t.rlc = s.rlc ∧ t.rca = s.rca)
      ∧ (∀ a, scan.gpi = scan.hw → u.acc = some a → a.bin < scan.gpi →
          let fresh : Accumulator := ⟨scan.gpi, 1, q.x, q.z, wear⟩
          let out := finishRecord c (fullRecord c false u.label a) { moved with acc := none } { s with
            now := s.now + e
            siu := { s.siu with associated := associated, saturated := saturated, weak := weak }
            tt := { s.tt with requests := rest, serving := some 1 } }
          (u.state.isTentative = true →
              t.tt.tracks = [{ moved with acc := some fresh }] ∧ t.rq = s.rq ∧ t.rlc = s.rlc ∧ t.rca = s.rca)
            ∧ (u.state.isTentative = false →
              t.tt.tracks = [{ out.1 with acc := some fresh }] ∧ t.rq = out.2.rq ∧ t.rlc = out.2.rlc ∧ t.rca = out.2.rca))

/-- A STRONG spot outside every track's gates starts a TENTATIVE OWNER track where an entry is free (R64), with the first
serial from the counter on that no track bears under the own slot (R65); with no entry free it is discarded and TABLE_FULL
is latched (R66). The misses of the pass are counted first (R63). Its spot gives the accumulator its first sample, with a wear sample
where it has a width and there is a current type (R61, R105). That the absent count is born 0 is the model's choice (log 32). -/
def Obligations.BirthOfATrack : Prop :=
  ∀ (e : Nat) (p : PageId) (rest : List Request) (c : Settings) (scan : Scan) (spot : Spot) (s : State),
    s.tt.requests = .scanPass p :: rest → s.tt.isOpen = true → s.settings = some c → s.siu.page p = .posted scan →
    scan.spots = [spot] → (carSpot c spot).cls = .strong → s.tt.serial < 65536 →
    (∀ u ∈ s.tt.tracks, xGateOf c u.missedBins < ((carSpot c spot).x - u.lastX).natAbs
      ∨ c.zGate < (((carSpot c spot).z : Int) - u.lastZ).natAbs) →
    let q := carSpot c spot
    let kept := s.tt.tracks.filterMap fun u => match u.state with
      | .tentative hits miss => if miss = 0 then some { u with state := .tentative hits 1 } else none
      | .confirmed | .coasting => some u
    ∃ t : State, exec (.scanPass e) s = .next t ∧ t.siu.associated = s.siu.associated
      ∧ (8 ≤ kept.length → t.tt.tracks = kept ∧ t.tt.serial = s.tt.serial ∧ t.latched .tableFull = true)
      ∧ (kept.length < 8 → t.rca.latches = s.rca.latches ∧ ∃ k, k < 8
          ∧ (∀ v ∈ kept, v.label ≠ ⟨s.rca.slot, (s.tt.serial + k) % 65536⟩)
          ∧ (∀ j < k, ∃ v ∈ kept, v.label = ⟨s.rca.slot, (s.tt.serial + j) % 65536⟩)
          ∧ t.tt.serial = (s.tt.serial + k + 1) % 65536
          ∧ t.tt.tracks = kept ++ [{
              label := ⟨s.rca.slot, (s.tt.serial + k) % 65536⟩, birth := scan.gpi, state := .tentative 1 0, role := .owner
              missedBins := 0, lastX := q.x, lastZ := q.z, link := none, peerRole := none, peerThrough := none, absent := 0
              former := none, lastQueued := none, mark := none, contested := false, takenOver := false, held := []
              acc := if scan.gpi = scan.hw then some ⟨scan.gpi, 1, q.x, q.z, spot.width.bind fun w =>
                s.wau.currentType.bind fun i => c.wireTypes[i]?.map fun w' => wearSample w' i w⟩ else none }])

/-! ## Chapter 6: wear -/

/-- The residual computation (R106, R107, R108): the corrected width; NO_FLAT below 50; BEYOND where the chord term is 0 or
below; otherwise the integer root and a removed height that is the exact cap height rounded up to a whole unit. From 50 up the
residual is below the nominal height, and never above it (R109). -/
def Obligations.WearSample : Prop :=
  ∀ (w : WireType) (index width : Nat), 300 ≤ w.radius → w.radius ≤ 1000 → width ≤ 2000 →
    let c : Int := (width : Int) - w.bias
    let q : Int := 4 * (w.radius : Int) ^ 2 - c ^ 2
    let r := wearSample w index width
    (c < 50 → r = ⟨w.nominal, c.toNat, .noFlat, index⟩)
      ∧ (50 ≤ c → q ≤ 0 → r = ⟨w.nominal - w.radius, c.toNat, .beyond, index⟩)
      ∧ (50 ≤ c → 0 < q →
          ∃ s h : Nat, (s : Int) ^ 2 ≤ q ∧ q < ((s : Int) + 1) ^ 2
            ∧ (h : Int) = (2 * (w.radius : Int) - s + 1) / 2
            ∧ (h : Int) = ⌈(2 * (w.radius : ℝ) - Real.sqrt (q : ℝ)) / 2⌉
            ∧ 1 ≤ s ∧ s ≤ 2 * w.radius - 1 ∧ s ≤ 1999 ∧ q ≤ 3997500
            ∧ 1 ≤ h ∧ h ≤ w.radius ∧ r = ⟨w.nominal - h, c.toNat, .measured, index⟩)
      ∧ (50 ≤ c → 1 ≤ w.nominal → r.residual < w.nominal)
      ∧ r.residual ≤ w.nominal

/-! ## Chapter 7: records and closes -/

/-- The full record of an accumulator with samples (R111, R112, R116, R118, R119): the means are the sums over the count,
rounded to the nearest whole number with a half upward, the stagger held within the car frame; the wear fields and flags are
those of the minimum, the limit that of the minimum's own type; END is the final close's. The NO_SAMPLE record stands at the
track's last position and has no other flag of making but END (R117). A record made with WEAR_LIMIT or STAGGER_LIMIT latches
it (R112, R118). -/
def Obligations.FullRecord : Prop :=
  (∀ (c : Settings) (final : Bool) (l : Label) (a : Accumulator), 1 ≤ a.count →
    let r := fullRecord c final l a
    (∃ m : Int, 2 * a.count * m ≤ 2 * a.sumX + a.count ∧ 2 * a.sumX + a.count < 2 * a.count * (m + 1)
        ∧ r.stagger = max (-8000) (min m 8000))
      ∧ 2 * a.count * r.height ≤ 2 * a.sumZ + a.count ∧ 2 * a.sumZ + a.count < 2 * a.count * (r.height + 1)
      ∧ r.gpi = a.bin ∧ r.samples = a.count ∧ r.label = l ∧ r.noSample = false ∧ r.final = final
      ∧ r.gap = none ∧ r.mark = none ∧ r.contested = false ∧ r.takenOver = false
      ∧ r.wear = a.minimum.map (fun m => (m.residual, m.width))
      ∧ (r.noFlat = true ↔ ∃ m, a.minimum = some m ∧ m.cls = .noFlat)
      ∧ (r.beyond = true ↔ ∃ m, a.minimum = some m ∧ m.cls = .beyond)
      ∧ (r.wearLimit = true ↔ ∃ m w, a.minimum = some m ∧ c.wireTypes[m.type]? = some w ∧ m.residual < w.limit)
      ∧ (r.staggerLimit = true ↔ c.staggerLimit ≠ 0 ∧ (c.staggerLimit : Int) < |r.stagger|))
    ∧ (∀ (final : Bool) (k : Int) (u : Track), noSampleRecord final k u = {
        label := u.label, gpi := k, noSample := true, noFlat := false, beyond := false, wearLimit := false
        staggerLimit := false, contested := false, takenOver := false, final := final, stagger := u.lastX, height := u.lastZ
        samples := 0, wear := none, gap := none, mark := none })
    ∧ (∀ (r : Record) (s : State),
        let v := if r.wearLimit = true then s.setLatch .wearLimit else s
        s.latchRecord r = if r.staggerLimit = true then v.setLatch .staggerLimit else v)

/-- A record offered for entry (R121, R133): after the drain limit it is drain loss; one that the last queued GPI covers is
discarded without a trace; a full queue refuses it, which is counted and latched; otherwise it enters at the tail, with its
entry marks and the present time, and R129 is tested. After the drain limit is the model's reading (log 11). -/
def Obligations.RecordOffered : Prop :=
  ∀ (r : Record) (t : Track) (s : State),
    (s.rq.pastLimit = true → offer r t s = (t, { s with rca := { s.rca with counters := { s.rca.counters with
        drainLoss := min (s.rca.counters.drainLoss + 1) 65535 } } }))
      ∧ (s.rq.pastLimit = false → (∃ l, t.lastQueued = some l ∧ r.gpi ≤ l) → offer r t s = (t, s))
      ∧ (s.rq.pastLimit = false → (∀ l, t.lastQueued = some l → l < r.gpi) →
          64 ≤ s.rq.inFrame.length + s.rq.queued.length →
          ∃ s', offer r t s = (t, s') ∧ s'.latched .queueFull = true ∧ s'.rq = s.rq
            ∧ s'.rca.counters = { s.rca.counters with lostBins := min (s.rca.counters.lostBins + 1) 4294967295 })
      ∧ (s.rq.pastLimit = false → (∀ l, t.lastQueued = some l → l < r.gpi) →
          s.rq.inFrame.length + s.rq.queued.length < 64 →
          ∃ s', offer r t s = (t.afterEntry r, s')
            ∧ s' = testForm { s with rq := { s.rq with queued := s.rq.queued ++ [⟨t.entryOf r, s.now⟩] } }
            ∧ s'.rq.inFrame ++ s'.rq.queued = s.rq.inFrame ++ s.rq.queued ++ [⟨t.entryOf r, s.now⟩]
            ∧ s'.rca.counters = s.rca.counters ∧ (t.afterEntry r).lastQueued = some r.gpi)

/-- The marks a record takes at its entry (R122, R123): a gap count where the last queued GPI is present and exceeded by more
than one, held at 65,535; CONTESTED, TAKEN_OVER and the mark number of the track, which the entry clears; every other field
stays as it was made. -/
def Obligations.EntryMarks : Prop :=
  ∀ (r : Record) (t : Track),
    t.entryOf r = { r with
        label := t.label, contested := t.contested, takenOver := t.takenOver, mark := t.mark, gap := (t.entryOf r).gap }
      ∧ (t.lastQueued = none → (t.entryOf r).gap = none)
      ∧ (∀ l, t.lastQueued = some l → r.gpi ≤ l + 1 → (t.entryOf r).gap = none)
      ∧ (∀ l, t.lastQueued = some l → l + 1 < r.gpi → r.gpi - l - 1 ≤ 65535 →
          ∃ g, (t.entryOf r).gap = some g ∧ (g : Int) = r.gpi - l - 1)
      ∧ (∀ l, t.lastQueued = some l → 65535 < r.gpi - l - 1 → (t.entryOf r).gap = some 65535)
      ∧ t.afterEntry r = { t with lastQueued := some r.gpi, contested := false, takenOver := false, mark := none }

/-- Routing and the release check of a record just made (R89, R91, R112, R118, R120, R13): its latches are set; an OWNER's
record is offered, any other joins the hold list, which drops its oldest at four; then nothing changes further but, except
at the final close, the role: an OWNER linked to a neighbour whose
centre is known starts releasing from the next bin exactly when its preference exceeds the hysteresis and the neighbour was
not last seen releasing. -/
def Obligations.RoutingAndRelease : Prop :=
  ∀ (c : Settings) (r : Record) (t : Track) (s : State),
    (t.role = .owner → route r t s = offer r t s)
      ∧ (t.role ≠ .owner → route r t s =
          ({ t with held := if 4 ≤ t.held.length then t.held.drop 1 ++ [r] else t.held ++ [r] }, s))
      ∧ (finishRecord c r t s).2 = (route r t (s.latchRecord r)).2
      ∧ (finishRecord c r t s).1 = { (route r t (s.latchRecord r)).1 with role := (finishRecord c r t s).1.role }
      ∧ (r.final = true → (finishRecord c r t s).1.role = t.role)
      ∧ (t.role ≠ .owner → (finishRecord c r t s).1.role = t.role)
      ∧ (t.link = none → (finishRecord c r t s).1.role = t.role)
      ∧ (∀ side n, r.final = false → t.role = .owner → t.link = some side → s.tt.centre side = some n →
          ((c.hysteresis : Int) < |r.stagger - ownCentre c| - |r.stagger - n| ∧ t.peerRole ≠ some .releasing →
              (finishRecord c r t s).1.role = .releasing (r.gpi + 1))
            ∧ (¬((c.hysteresis : Int) < |r.stagger - ownCentre c| - |r.stagger - n| ∧ t.peerRole ≠ some .releasing) →
              (finishRecord c r t s).1.role = .owner))

/-- What a close, posted or final, does with the tracks (R67 to R71, R116, R117, R120, R125): it takes them one after another
in increasing label order, each after what the one before it did. A TENTATIVE accumulator is cleared; a CONFIRMED or COASTING
track without a sample is dropped at the field edge or beyond the coast limit, else coasts and makes its NO_SAMPLE record;
one with samples makes its full record and its missed-bin run is 0; the record is routed, with the release check. No track
is born, and each keeps its label, position and link. A close in RUNNING clears former labels afterwards (R126). -/
def Obligations.TracksAtAClose : Prop :=
  (∀ (e : Nat) (k : Int) (m : Instr) (final : Bool) (rest : List Request) (c : Settings) (s : State),
    (m = .binClose e ∧ final = false ∧ s.tt.requests = .binClose k :: rest
      ∨ m = .finalClose e ∧ final = true ∧ s.tt.requests = .finalClose k :: rest) →
    s.tt.isOpen = true → s.settings = some c →
    let sorted := sortBy (fun u => u.label.key) s.tt.tracks
    let out := closeTracks c k final sorted { s with
      now := s.now + e, tt := { s.tt with requests := rest, serving := some s.tt.tracks.length } }
    ∃ t : State, exec m s = .next t
      ∧ sorted.Perm s.tt.tracks ∧ sorted.Pairwise (fun u v => lexLt v.label.key u.label.key = false)
      ∧ t.tt.tracks = (if final = false ∧ s.rca.node = .running then out.1.map fun u => { u with former := none } else out.1)
      ∧ t.rq = out.2.rq ∧ t.rca.counters = out.2.rca.counters
      ∧ ((s.tt.tracks.map (·.label)).Nodup →
        (∀ v ∈ t.tt.tracks, ∃ u ∈ s.tt.tracks, v.label = u.label ∧ v.birth = u.birth ∧ v.lastX = u.lastX ∧ v.lastZ = u.lastZ
          ∧ v.link = u.link ∧ v.peerRole = u.peerRole ∧ v.peerThrough = u.peerThrough ∧ v.absent = u.absent)
        ∧ ∀ u ∈ s.tt.tracks,
          (u.state.isTentative = true → ∃ v ∈ t.tt.tracks, v.label = u.label ∧ v.state = u.state ∧ v.role = u.role
              ∧ v.acc = u.acc.filter fun a => decide (k < a.bin))
            ∧ (u.state.isTentative = false → u.acc = none → edgeDistance c u.lastX ≤ xGateOf c u.missedBins →
              ∀ v ∈ t.tt.tracks, v.label ≠ u.label)
            ∧ (u.state.isTentative = false → u.acc = none → c.coastLimit < u.missedBins + 1 →
              ∀ v ∈ t.tt.tracks, v.label ≠ u.label)
            ∧ (u.state.isTentative = false → u.acc = none → xGateOf c u.missedBins < edgeDistance c u.lastX →
              u.missedBins + 1 ≤ c.coastLimit →
              ∃ v ∈ t.tt.tracks, v.label = u.label ∧ v.state = .coasting ∧ v.missedBins = u.missedBins + 1 ∧ v.acc = none)
            ∧ (∀ a, u.state.isTentative = false → u.acc = some a → a.bin ≤ k →
              ∃ v ∈ t.tt.tracks, v.label = u.label ∧ v.state = u.state ∧ v.missedBins = 0 ∧ v.acc = none)
            ∧ (∀ a, u.acc = some a → k < a.bin →
              ∃ v ∈ t.tt.tracks, v.label = u.label ∧ v.state = u.state ∧ v.role = u.role ∧ v.acc = some a)))
    ∧ ∀ (c : Settings) (k : Int) (final : Bool) (u : Track) (us : List Track) (v : State),
      let first := closeTrack c k final u v
      let coast : Track := { u with missedBins := u.missedBins + 1, state := .coasting }
      closeTracks c k final [] v = ([], v)
        ∧ (first.1 = none → closeTracks c k final (u :: us) v = closeTracks c k final us first.2)
        ∧ (∀ u', first.1 = some u' → closeTracks c k final (u :: us) v =
            (u' :: (closeTracks c k final us first.2).1, (closeTracks c k final us first.2).2))
        ∧ (∀ a, u.acc = some a → k < a.bin → first = (some u, v))
        ∧ (u.acc = none → u.state.isTentative = true → first = (some u, v))
        ∧ (∀ a, u.acc = some a → a.bin ≤ k → u.state.isTentative = true → first = (some { u with acc := none }, v))
        ∧ (∀ a, u.acc = some a → a.bin ≤ k → u.state.isTentative = false →
            let out := finishRecord c (fullRecord c final u.label a) { u with acc := none, missedBins := 0 } v
            first = (some out.1, out.2))
        ∧ (u.acc = none → u.state.isTentative = false → edgeDistance c u.lastX ≤ xGateOf c u.missedBins → first = (none, v))
        ∧ (u.acc = none → u.state.isTentative = false → c.coastLimit < u.missedBins + 1 → first = (none, v))
        ∧ (u.acc = none → u.state.isTentative = false → xGateOf c u.missedBins < edgeDistance c u.lastX →
            u.missedBins + 1 ≤ c.coastLimit →
            let out := finishRecord c (noSampleRecord final k coast) coast v
            first = (some out.1, out.2))

/-- BIN_CLOSE at the head of the list of an open table completes (R125): the request is taken, and nothing changes but
tracks, exposure, the records' queue, the transmitter with the EDGE slot, and what latches and frames touch. -/
def Obligations.BinClose : Prop :=
  ∀ (e : Nat) (k : Int) (rest : List Request) (c : Settings) (s : State),
    s.tt.requests = .binClose k :: rest → s.tt.isOpen = true → s.settings = some c →
    ∃ t : State, exec (.binClose e) s = .next t
      ∧ t.pending = s.pending ∧ t.now = s.now + e ∧ t.du = s.du ∧ t.wau = s.wau
      ∧ t.siu = { s.siu with level := t.siu.level, drift := t.siu.drift, word := t.siu.word, wordDue := t.siu.wordDue
                             associated := 0, saturated := 0, weak := 0, settled := false }
      ∧ t.tt = { s.tt with requests := rest, serving := none, tracks := t.tt.tracks }
      ∧ t.rq = { s.rq with inFrame := t.rq.inFrame, queued := t.rq.queued }
      ∧ t.rlc = { s.rlc with tx := t.rlc.tx, edgeSlot := t.rlc.edgeSlot }
      ∧ t.rca = { s.rca with latches := t.rca.latches, clearMask := t.rca.clearMask, status := t.rca.status
                             counters := t.rca.counters, alert := t.rca.alert }
      ∧ t.rca.counters = { s.rca.counters with lostBins := t.rca.counters.lostBins, drainLoss := t.rca.counters.drainLoss }
      ∧ (∃ new, t.rq.inFrame ++ t.rq.queued = s.rq.inFrame ++ s.rq.queued ++ new ∧ ∀ q ∈ new,
          q.record.final = false ∧ q.record.gpi ≤ k ∧ q.entered = t.now)

/-- The report of a close (R76, R77, R126, R142, R145): served in RUNNING, BIN_CLOSE builds the CLOSE report of its bin, with
an entry for every track that is linked or has an effective side, in increasing x then label, and clears every former label.
With a frame in its cycle it puts the report in the EDGE slot, in place of any frame there; with a free transmitter and
nothing offered the report enters its attempt cycle at once, unless a GAUGE frame that formed at a record of this close did,
behind which it waits in the slot (log 10). In another state it builds none. -/
def Obligations.BinCloseReport : Prop :=
  ∀ (e : Nat) (k : Int) (rest : List Request) (c : Settings) (s : State),
    s.tt.requests = .binClose k :: rest → s.tt.isOpen = true → s.settings = some c →
    ∃ t : State, exec (.binClose e) s = .next t ∧ (s.rlc.tx ≠ .free → t.rlc.tx = s.rlc.tx)
      ∧ (s.rca.node ≠ .running → s.rlc.tx ≠ .free → t.rlc = s.rlc)
      ∧ (s.rca.node ≠ .running → s.rlc.tx = .free → s.rlc.edgeSlot = none → t.rlc.edgeSlot = none)
      ∧ (s.rca.node = .running → ∃ (ts : List Track) (es : List EdgeEntry),
          let frame := edgeFrame ⟨s.rca.slot, k, c.leftNeighbour.getD 255, c.rightNeighbour.getD 255, ownCentre c, false, es⟩
          (s.rlc.tx ≠ .free → t.rlc.edgeSlot = some frame)
          ∧ (s.rlc.tx = .free → s.rlc.edgeSlot = none → s.rca.status = none → s.rq.inFrame = [] →
              (t.rq.inFrame = [] → t.rlc.tx = .busy (.edge k) frame.bytes 0 .deferring ∧ t.rlc.edgeSlot = none)
                ∧ (t.rq.inFrame ≠ [] →
                  (∃ bytes, t.rlc.tx = .busy .gauge bytes 0 .deferring) ∧ t.rlc.edgeSlot = some frame))
          ∧ t.tt.tracks = ts.map (fun u => { u with former := none })
          ∧ (∀ v ∈ ts, ∃ u ∈ s.tt.tracks, v.label = u.label ∧ v.former = u.former)
          ∧ es.Pairwise (fun a b => a.x < b.x ∨ a.x = b.x ∧ lexLt b.label.key a.label.key = false)
          ∧ es.Perm (ts.filterMap fun u =>
              (match u.link with
                | some side => some side
                | none => effectiveSide c u.lastX).map fun side =>
                ⟨side, u.role, u.label, u.birth, u.lastX, u.lastZ, u.former⟩))

/-- The exposure decision of BIN_CLOSE and FINAL_CLOSE (R24, R26, R27): on a settled bin the first row that holds decides;
the level moves by at most one step; an unsettled bin leaves level and drift counter; a changed level is sent, after a word
still being sent; then the statistics are cleared. -/
def Obligations.ExposureDecision : Prop :=
  ∀ (e : Nat) (k : Int) (m : Instr) (rest : List Request) (c : Settings) (s : State),
    (m = .binClose e ∧ s.tt.requests = .binClose k :: rest ∨ m = .finalClose e ∧ s.tt.requests = .finalClose k :: rest) →
    s.tt.isOpen = true → s.settings = some c →
    ∃ t : State, exec m s = .next t
      ∧ (t.siu.associated = 0 ∧ t.siu.saturated = 0 ∧ t.siu.weak = 0 ∧ t.siu.settled = false)
      ∧ (s.siu.settled = false → t.siu.level = s.siu.level ∧ t.siu.drift = s.siu.drift)
      ∧ (s.siu.settled = true →
          (2 ≤ s.siu.associated ∧ s.siu.associated ≤ 2 * s.siu.saturated →
              t.siu.level = s.siu.level - 1 ∧ t.siu.drift = 0)
            ∧ (¬(2 ≤ s.siu.associated ∧ s.siu.associated ≤ 2 * s.siu.saturated) →
              (s.siu.associated < 2 * s.siu.weak → t.siu.level = min (s.siu.level + 1) 15 ∧ t.siu.drift = 0)
                ∧ (2 * s.siu.weak ≤ s.siu.associated → s.siu.associated ≠ 0 →
                  t.siu.level = s.siu.level ∧ t.siu.drift = 0)
                ∧ (2 * s.siu.weak ≤ s.siu.associated → s.siu.associated = 0 →
                  (∃ u ∈ t.tt.tracks, u.state.isTentative = false) →
                  t.siu.level = min (s.siu.level + 1) 15 ∧ t.siu.drift = 0)
                ∧ (2 * s.siu.weak ≤ s.siu.associated → s.siu.associated = 0 → t.tt.tracks ≠ [] →
                  (∀ u ∈ t.tt.tracks, u.state.isTentative = true) → t.siu.level = s.siu.level ∧ t.siu.drift = 0)
                ∧ (2 * s.siu.weak ≤ s.siu.associated → s.siu.associated = 0 → t.tt.tracks = [] → s.siu.drift ≠ 15 →
                  t.siu.level = s.siu.level ∧ t.siu.drift = s.siu.drift + 1)
                ∧ (2 * s.siu.weak ≤ s.siu.associated → s.siu.associated = 0 → t.tt.tracks = [] → s.siu.drift = 15 →
                  t.siu.drift = 0
                    ∧ t.siu.level = (if s.siu.level < c.exposureStart then s.siu.level + 1
                        else if c.exposureStart < s.siu.level then s.siu.level - 1 else s.siu.level))))
      ∧ (t.siu.level = s.siu.level → t.siu.word = s.siu.word ∧ t.siu.wordDue = s.siu.wordDue)
      ∧ (t.siu.level ≠ s.siu.level → s.siu.word = none → t.siu.word = some t.siu.level)
      ∧ (t.siu.level ≠ s.siu.level → ∀ w, s.siu.word = some w → t.siu.word = some w ∧ t.siu.wordDue = true)

/-- FINAL_CLOSE at the head of the list completes (R54, R119): the table becomes closed and what is left in its list is
removed unserved; every record that enters carries END; no track changes role; nothing else moves than a close moves. The
closing of the table is an event at which the end of the drain is tested: the state after the close goes through that test, as
DrainEnd states it. In DRAINING, with queue and EDGE slot empty and the transmitter free, the DRAINED STATUS enters its
attempt cycle and the drain timer stops (R160, R164). -/
def Obligations.FinalClose : Prop :=
  ∀ (e : Nat) (k : Int) (rest : List Request) (c : Settings) (s : State),
    s.tt.requests = .finalClose k :: rest → s.tt.isOpen = true → s.settings = some c →
    ∃ t : State, exec (.finalClose e) s = .next t
      ∧ t.pending = s.pending ∧ t.now = s.now + e ∧ t.du = s.du ∧ t.wau = s.wau
      ∧ t.siu = { s.siu with level := t.siu.level, drift := t.siu.drift, word := t.siu.word, wordDue := t.siu.wordDue
                             associated := 0, saturated := 0, weak := 0, settled := false }
      ∧ t.tt = { s.tt with isOpen := false, requests := [], serving := none, tracks := t.tt.tracks }
      ∧ t.rq = { s.rq with inFrame := t.rq.inFrame, queued := t.rq.queued }
      ∧ t.rlc = { s.rlc with tx := t.rlc.tx, edgeSlot := t.rlc.edgeSlot }
      ∧ t.rca = { s.rca with latches := t.rca.latches, clearMask := t.rca.clearMask, status := t.rca.status
                             counters := t.rca.counters, alert := t.rca.alert, drainTimer := t.rca.drainTimer }
      ∧ t.rca.counters = { s.rca.counters with lostBins := t.rca.counters.lostBins, drainLoss := t.rca.counters.drainLoss }
      ∧ (∃ new, t.rq.inFrame ++ t.rq.queued = s.rq.inFrame ++ s.rq.queued ++ new ∧ ∀ q ∈ new, q.record.final = true)
      ∧ (∀ v ∈ t.tt.tracks, ∃ u ∈ s.tt.tracks, v.label = u.label ∧ v.role = u.role ∧ v.link = u.link
          ∧ v.former = u.former ∧ v.lastX = u.lastX ∧ v.lastZ = u.lastZ)
      ∧ ∃ u : State, t = testDrainEnd u ∧ u.tt = t.tt ∧ u.rq = t.rq ∧ u.siu = t.siu
        ∧ u.rca = { s.rca with latches := u.rca.latches, clearMask := u.rca.clearMask, status := u.rca.status
                               counters := t.rca.counters, alert := t.rca.alert }
        ∧ u.rlc = { s.rlc with tx := u.rlc.tx, edgeSlot := u.rlc.edgeSlot }
        ∧ (t.rq.inFrame ++ t.rq.queued = s.rq.inFrame ++ s.rq.queued →
            u.rlc = s.rlc ∧ u.rca.status = s.rca.status ∧ u.rca.clearMask = s.rca.clearMask)
        ∧ (s.rca.node = .draining → s.rlc.edgeSlot = none → s.rlc.tx = .free → drainEndPending s = false →
            t.rq.inFrame = [] → t.rq.queued = [] →
            t.rca.drainTimer = none ∧ t.rca.status = none ∧ t.rca.clearMask = 0 ∧ t.rlc.edgeSlot = none ∧ ∃ d,
              t.rlc.tx = .busy (.status true)
                (frameProper d s.rca.slot .status (statusPayload (u.snapshot .drained))) 0 .deferring
              ∧ (∀ p, s.rca.status = some p → d = p.destination)
              ∧ (s.rca.status = none → ∀ r, s.rca.runSettings = some r → d = r.source))
        ∧ (s.rca.node ≠ .draining → t.rca.drainTimer = s.rca.drainTimer)

/-! ## Chapter 5: identity and ownership -/

/-- The winner rule (R83): the node whose slot is the label's origin wins, else the lower slot; two nodes with different slots
reach the same decision, and exactly one of them wins. -/
def Obligations.WinnerRule : Prop :=
  ∀ (own n : Nat) (l : Label), own ≠ n →
    (l.origin = own → wins own n l = true) ∧ (l.origin = n → wins own n l = false)
      ∧ (l.origin ≠ own → l.origin ≠ n → (wins own n l = true ↔ own < n))
      ∧ wins n own l = !wins own n l

/-- The role outcome of a matched track with its link and peer fields (R82, R84 to R87): the nine pairs of roles, each with
the winner rule where it calls for it. -/
def Obligations.RoleOutcomes : Prop :=
  ∀ (side : Side) (report : EdgeReport) (e : EdgeEntry) (t : Track) (s : State),
    let u : Track := { t with link := some side, absent := 0 }
    let win := wins s.rca.slot report.source t.label
    (t.role = .owner → e.role = .owner → win = true → settle side report e t s =
        ({ u with contested := true, peerRole := some .owner, peerThrough := some report.bin }, s.setLatch .contested))
      ∧ (t.role = .owner → e.role = .owner → win = false → settle side report e t s =
        ({ u with role := .shadow, held := [], peerRole := some .owner, peerThrough := some report.bin }, s))
      ∧ (t.role = .owner → e.role = .shadow → settle side report e t s = ({ u with peerRole := some .shadow }, s))
      ∧ (∀ j, t.role = .owner → e.role = .releasing j → settle side report e t s =
        ({ u with peerRole := some .releasing, peerThrough := some (j - 1) }, s))
      ∧ (t.role = .shadow → e.role = .owner → settle side report e t s =
        ({ u with peerRole := some .owner, peerThrough := some report.bin }, s))
      ∧ (∀ j, t.role = .shadow → e.role = .releasing j → settle side report e t s =
        ({ (takeOver (some j) u s).1 with peerRole := some .releasing, peerThrough := some (j - 1) }, (takeOver (some j) u s).2))
      ∧ (∀ g, t.role = .shadow → e.role = .shadow → win = true → t.peerThrough = some g → settle side report e t s =
        ({ (takeOver (some (g + 1)) u s).1 with peerRole := some .shadow }, (takeOver (some (g + 1)) u s).2))
      ∧ (t.role = .shadow → e.role = .shadow → win = false → settle side report e t s =
        ({ u with peerRole := some .shadow }, s))
      ∧ (∀ j, t.role = .releasing j → e.role = .owner → settle side report e t s =
        ({ u with role := .shadow, peerRole := some .owner, peerThrough := some report.bin }, s))
      ∧ (∀ j, t.role = .releasing j → e.role = .shadow → settle side report e t s =
        ({ u with peerRole := some .shadow }, s))
      ∧ (∀ j j', t.role = .releasing j → e.role = .releasing j' → win = true → settle side report e t s =
        ({ (takeOver (some (max j j')) u s).1 with peerRole := some .releasing, peerThrough := some (j' - 1) },
          (takeOver (some (max j j')) u s).2))
      ∧ (∀ j j', t.role = .releasing j → e.role = .releasing j' → win = false → settle side report e t s =
        ({ u with peerRole := some .releasing, peerThrough := some (j' - 1) }, s))

/-- A take-over (R92, R93): the track becomes OWNER with an empty hold list and a last queued GPI of at least f − 1; with
room in the queue exactly the held records from f on that are not covered yet are queued, in order, under the track's label,
the first of them TAKEN_OVER; without a starting bin nothing is queued. A link that dissolves (R88, R96) takes its peer fields
with it; a SHADOW or RELEASING track takes over from after peer-owner-through, else from its oldest held record, else without
a starting bin; an OWNER goes on. -/
def Obligations.TakeOver : Prop :=
  (∀ (f : Int) (t : Track) (s : State),
    takeOver none t s = ({ t with role := .owner, takenOver := true, held := [] }, s)
      ∧ (let out := takeOver (some f) t s
        out.1 = { t with role := .owner, held := [], lastQueued := out.1.lastQueued, contested := out.1.contested
                         takenOver := out.1.takenOver, mark := out.1.mark }
          ∧ (∃ l, out.1.lastQueued = some l ∧ f - 1 ≤ l)
          ∧ (s.rq.pastLimit = false → s.rq.inFrame.length + s.rq.queued.length + t.held.length ≤ 64 →
            t.held.Pairwise (fun a b => a.gpi < b.gpi) →
            ∃ new, out.2.rq.inFrame ++ out.2.rq.queued = s.rq.inFrame ++ s.rq.queued ++ new
              ∧ new.map (·.record.gpi) = (t.held.map (·.gpi)).filter
                  (fun g => decide (f ≤ g) && t.lastQueued.all fun l => decide (l < g))
              ∧ (∀ q ∈ new, q.record.label = t.label ∧ q.entered = s.now)
              ∧ (∀ q, new.head? = some q → q.record.takenOver = true)
              ∧ (new ≠ [] → out.1.takenOver = false) ∧ (new = [] → out.1.takenOver = true))))
    ∧ ∀ (t : Track) (s : State),
      let u : Track := { t with link := none, absent := 0, peerRole := none }
      let after (start : Option Int) : Track × State := ({ (takeOver start u s).1 with peerThrough := none }, (takeOver start u s).2)
      (t.role = .owner → dissolve t s = ({ u with peerThrough := none }, s))
        ∧ (∀ g, t.role ≠ .owner → t.peerThrough = some g → dissolve t s = after (some (g + 1)))
        ∧ (∀ r rs, t.role ≠ .owner → t.peerThrough = none → t.held = r :: rs → dissolve t s = after (some r.gpi))
        ∧ (t.role ≠ .owner → t.peerThrough = none → t.held = [] → dissolve t s = after none)

/-- EDGE_APPLICATION (R78, R12, R72): a header that does not name this node latches NEIGHBOUR_MISMATCH and ends it; a
heartbeat only sets the neighbour's centre, held within the car frame; a CLOSE report completes, changes no track's state,
position, run or accumulator, starts and drops none, gives a track no label but its own or one of the report, and leaves
every track linked to the other neighbour as it was; new records, all from hold lists, follow those of the queue. Of a CLOSE
report, with the entries on the side facing this node: the first entry with a track's label settles that track (R79, R82);
the first with its label as former label, its own label unborne, relabels and settles it (R77, R79); where no entry has a
borne label or former label, position matching pairs entries with unlinked tracks, a track adopts an older label, and is
settled, and the other unlinked tracks stay as they were (R80 to R82); a track linked to the sender that no entry names
counts an absence, and at the second its link dissolves (R88). -/
def Obligations.EdgeApplication : Prop :=
  ∀ (e : Nat) (side : Side) (report : EdgeReport) (rest : List Request) (c : Settings) (s : State),
    s.tt.requests = .edge side report :: rest → s.tt.isOpen = true → s.settings = some c →
    let names : Prop := match side with
      | .left => report.right = s.rca.slot
      | .right => report.left = s.rca.slot
    let centre := max (-8000) (min report.centre 8000)
    let facing := report.entries.zipIdx.filter fun q => q.1.side == opposite side
    let relabelled (x : EdgeEntry) (u : Track) : Track := { u with label := x.label, birth := x.birth, former := some u.label }
    (¬names → exec (.edgeApplication e) s = .next (State.setLatch { s with
        now := s.now + e, tt := { s.tt with requests := rest, serving := none } } .neighbourMismatch))
      ∧ (names → report.heartbeat = true → exec (.edgeApplication e) s = .next { s with
        now := s.now + e, tt := { s.tt.setCentre side centre with requests := rest, serving := none } })
      ∧ (names → report.heartbeat = false → ∃ t : State, exec (.edgeApplication e) s = .next t
        ∧ t.pending = s.pending ∧ t.now = s.now + e ∧ t.siu = s.siu ∧ t.du = s.du ∧ t.wau = s.wau
        ∧ t.tt = { s.tt.setCentre side centre with requests := rest, serving := none, tracks := t.tt.tracks }
        ∧ t.rq = { s.rq with inFrame := t.rq.inFrame, queued := t.rq.queued }
        ∧ t.rlc = { s.rlc with tx := t.rlc.tx, edgeSlot := t.rlc.edgeSlot }
        ∧ t.rca = { s.rca with latches := t.rca.latches, clearMask := t.rca.clearMask, status := t.rca.status
                               counters := t.rca.counters, alert := t.rca.alert }
        ∧ t.rca.counters = { s.rca.counters with lostBins := t.rca.counters.lostBins, drainLoss := t.rca.counters.drainLoss }
        ∧ (∃ new, t.rq.inFrame ++ t.rq.queued = s.rq.inFrame ++ s.rq.queued ++ new ∧ ∀ q ∈ new,
            q.entered = t.now ∧ ∃ u ∈ s.tt.tracks, ∃ r ∈ u.held, q.record.gpi = r.gpi)
        ∧ t.tt.tracks.length = s.tt.tracks.length
        ∧ ∀ (i : Nat) (u : Track), s.tt.tracks[i]? = some u → ∃ v, t.tt.tracks[i]? = some v
          ∧ v.state = u.state ∧ v.missedBins = u.missedBins ∧ v.lastX = u.lastX ∧ v.lastZ = u.lastZ ∧ v.acc = u.acc
          ∧ (v.label = u.label ∧ v.birth = u.birth ∧ v.former = u.former
            ∨ ∃ x ∈ report.entries, x.side = opposite side ∧ v.label = x.label ∧ v.birth = x.birth)
          ∧ (u.link = some (opposite side) → v = u)
          ∧ (∀ j x, (s.tt.tracks.map (·.label)).Nodup → u.link ≠ some (opposite side) → (x, j) ∈ facing →
            (∀ q ∈ facing, q.2 < j → q.1.label ≠ x.label ∧ q.1.label ≠ u.label ∧ q.1.former ≠ some u.label) →
            (x.label = u.label → Dealt s t (settle side report x u) v)
              ∧ (x.former = some u.label → (∀ w ∈ s.tt.tracks, w.label ≠ x.label) →
                Dealt s t (settle side report x (relabelled x u)) v))
          ∧ ((facing.map (·.1.label)).Nodup →
            (∀ q ∈ facing, ∀ w ∈ s.tt.tracks, q.1.label ≠ w.label ∧ q.1.former ≠ some w.label) →
            let pairs := assign (linkCandidates c side
              ⟨s.tt.tracks, [], facing.map fun q => ({ q.1 with x := max (-8000) (min q.1.x 8000) }, q.2)⟩)
            (∀ k ∈ pairs, k.track = i → ∀ x, report.entries[k.other]? = some x →
                let own := if lexLt [x.birth, x.label.origin, x.label.serial] [u.birth, u.label.origin, u.label.serial] = true
                  then relabelled x u else u
                Dealt s t (settle side report x own) v)
              ∧ ((∀ k ∈ pairs, k.track ≠ i) → u.link = none → v = u))
          ∧ (u.link = some side → (∀ q ∈ facing, q.1.label ≠ u.label ∧ q.1.former ≠ some u.label) →
            (u.absent = 0 → v = { u with absent := 1 })
              ∧ (1 ≤ u.absent → Dealt s t (dissolve u) v)))

/-- NEIGHBOUR_LOST_APPLICATION (R96): every track linked to that neighbour is unlinked and OWNER, with no peer fields and no
held record, as a link that dissolves leaves it; every other track stays as it was, the neighbour's centre is kept, and the
records it queues, all from hold lists, follow those of the queue. -/
def Obligations.NeighbourLostApplication : Prop :=
  ∀ (e : Nat) (side : Side) (rest : List Request) (c : Settings) (s : State),
    s.tt.requests = .neighbourLost side :: rest → s.tt.isOpen = true → s.settings = some c →
    ∃ t : State, exec (.neighbourLostApplication e) s = .next t
      ∧ t.pending = s.pending ∧ t.now = s.now + e ∧ t.siu = s.siu ∧ t.du = s.du ∧ t.wau = s.wau
      ∧ t.tt = { s.tt with requests := rest, serving := none, tracks := t.tt.tracks }
      ∧ t.rq = { s.rq with inFrame := t.rq.inFrame, queued := t.rq.queued }
      ∧ t.rlc = { s.rlc with tx := t.rlc.tx, edgeSlot := t.rlc.edgeSlot }
      ∧ t.rca = { s.rca with latches := t.rca.latches, clearMask := t.rca.clearMask, status := t.rca.status
                             counters := t.rca.counters, alert := t.rca.alert }
      ∧ t.rca.counters = { s.rca.counters with lostBins := t.rca.counters.lostBins, drainLoss := t.rca.counters.drainLoss }
      ∧ (∃ new, t.rq.inFrame ++ t.rq.queued = s.rq.inFrame ++ s.rq.queued ++ new ∧ ∀ q ∈ new,
          q.entered = t.now ∧ ∃ u ∈ s.tt.tracks, ∃ r ∈ u.held, q.record.gpi = r.gpi)
      ∧ t.tt.tracks.length = s.tt.tracks.length
      ∧ ∀ (i : Nat) (u : Track), s.tt.tracks[i]? = some u → ∃ v, t.tt.tracks[i]? = some v
        ∧ (u.link ≠ some side → v = u)
        ∧ (u.link = some side → Dealt s t (dissolve u) v)
        ∧ (u.link = some side → u.role = .owner →
            v = { u with link := none, absent := 0, peerRole := none, peerThrough := none })
        ∧ (u.link = some side → u.role ≠ .owner →
            v = { u with role := .owner, link := none, absent := 0, peerRole := none, peerThrough := none, held := []
                         lastQueued := v.lastQueued, contested := v.contested, takenOver := v.takenOver, mark := v.mark }
            ∧ (∀ g, u.peerThrough = some g → ∃ l, v.lastQueued = some l ∧ g ≤ l))

/-- MARK_APPLICATION (R104, R124): every track in the table takes the mark number, and a type index below the type count
becomes the current type; any other index is ignored. That this is so in DRAINING too is the model's reading of R103 beside
R104 and R54 (log 33). -/
def Obligations.MarkApplication : Prop :=
  ∀ (e number : Nat) (type : Option Nat) (rest : List Request) (c : Settings) (s : State),
    s.tt.requests = .mark number type :: rest → s.tt.isOpen = true → s.settings = some c →
    exec (.markApplication e) s = .next { s with
      now := s.now + e
      wau := ⟨match type with
        | some i => if i < c.wireTypes.length then some i else s.wau.currentType
        | none => s.wau.currentType⟩
      tt := { s.tt with
        requests := rest, serving := none, tracks := s.tt.tracks.map fun u => { u with mark := some number } } }

/-! ## Chapter 8: the roof link -/

/-- The transmit arbiter (R142 to R144, R165): a busy transmitter is left alone; a free one takes the EDGE frame, else the
pending STATUS, built from the snapshot at that moment, which then clears the latches that the clear mask names and empties
the mask, else the GAUGE frame of the records IN_FRAME; with none offered it stays free. -/
def Obligations.TransmitArbiter : Prop :=
  ∀ s : State,
    (s.rlc.tx ≠ .free → arbitrate s = s)
      ∧ (∀ f, s.rlc.tx = .free → s.rlc.edgeSlot = some f → arbitrate s =
        { s with rlc := { s.rlc with edgeSlot := none, tx := .busy (.edge f.bin) f.bytes 0 .deferring } })
      ∧ (∀ p, s.rlc.tx = .free → s.rlc.edgeSlot = none → s.rca.status = some p → arbitrate s = { s with
        rlc := { s.rlc with tx := .busy (.status p.drainEnd) (frameProper p.destination s.rca.slot .status (statusPayload
          { result := p.result, node := s.rca.node, slot := s.rca.slot
            sequence := match s.rca.pendingSettings with
              | some r => r.settings.sequence
              | none => 0
            latches := s.rca.latches, hw := s.du.hw, level := s.siu.level
            trackCount := s.tt.serving.getD s.tt.tracks.length
            leftLife := s.rlc.leftLife, rightLife := s.rlc.rightLife, counters := s.rca.counters })) 0 .deferring }
        rca := { s.rca with status := none, clearMask := 0, latches := s.rca.latches &&& ~~~s.rca.clearMask } })
      ∧ (∀ r, s.rlc.tx = .free → s.rlc.edgeSlot = none → s.rca.status = none → s.rca.runSettings = some r →
        s.rq.inFrame ≠ [] → arbitrate s = { s with
          rlc := { s.rlc with
            tx := .busy .gauge
              (frameProper r.source s.rca.slot .gauge (gaugePayload (s.rq.inFrame.map (·.record)))) 0 .deferring } })
      ∧ (s.rlc.tx = .free → s.rlc.edgeSlot = none → s.rca.status = none → s.rq.inFrame = [] → arbitrate s = s)

/-- The forming of a GAUGE frame (R129, R131, R133): with none in existence, no hold period and the drain limit not past, it
forms of the oldest 24 QUEUED records when they reach the drain threshold, when the oldest has reached the age limit, or in
DRAINING; otherwise nothing changes. -/
def Obligations.GaugeFrameForms : Prop :=
  ∀ (c : Settings) (s : State), s.settings = some c →
    let due := s.rq.inFrame = [] ∧ s.rq.hold = none ∧ s.rq.pastLimit = false ∧ s.rq.queued ≠ []
      ∧ (c.drainThreshold ≤ s.rq.queued.length ∨ (∃ q, s.rq.queued.head? = some q ∧ q.entered + c.ageLimit * 1000000 ≤ s.now)
        ∨ s.rca.node = .draining)
    (due → testForm s = arbitrate { s with
        rq := { s.rq with inFrame := s.rq.queued.take 24, queued := s.rq.queued.drop 24 } })
      ∧ (¬due → testForm s = s)

/-- The attempt cycle up to the jam (R137 to R139, R146, log 15): after an interframe gap of quiet a deferring frame begins its attempt, but a stale
EDGE frame is discarded and counted; a collision within the first 64 bytes begins the jam; a backoff that ends returns the
frame to deferral. An attempt while carrier is present and an event before its time are refused: the model's choice (logs 2
and 4). -/
def Obligations.AttemptCycle : Prop :=
  ∀ (e n : Nat) (source : FrameSource) (bytes : List Byte) (s : State),
    (s.rlc.tx = .busy source bytes n .deferring →
        (s.rlc.carrier = none → s.rlc.lastQuiet + 4800 ≤ s.now + e → (∀ bin, source = .edge bin → s.du.hw - 4 ≤ bin) →
          exec (.attemptBegin e) s = .next { s with
            now := s.now + e, rlc := { s.rlc with tx := .busy source bytes n (.transmitting (s.now + e)) } })
        ∧ (∀ bin, s.rlc.carrier = none → s.rlc.lastQuiet + 4800 ≤ s.now + e → source = .edge bin → bin < s.du.hw - 4 →
          exec (.attemptBegin e) s = .next (testDrainEnd { s with
            now := s.now + e
            rlc := { s.rlc with tx := .free }
            rca := { s.rca with counters := { s.rca.counters with
              abandonedFrames := min (s.rca.counters.abandonedFrames + 1) 65535 } } }))
        ∧ (s.rlc.carrier ≠ none → exec (.attemptBegin e) s = .refused .carrierPresent)
        ∧ (s.rlc.carrier = none → s.now + e < s.rlc.lastQuiet + 4800 →
          exec (.attemptBegin e) s = .refused .timeNotReached))
      ∧ (∀ since, s.rlc.tx = .busy source bytes n (.transmitting since) →
        (s.now + e ≤ since + 28800 → exec (.collision e) s = .next { s with
            now := s.now + e
            rlc := { s.rlc with
              carrier := some (s.rlc.carrier.getD ⟨s.now + e, false, false⟩)
              tx := .busy source bytes n (.jam (s.now + e + 1600)) } })
          ∧ (since + 28800 < s.now + e → exec (.collision e) s = .refused .timeNotReached))
      ∧ (∀ ends, s.rlc.tx = .busy source bytes n (.backingOff ends) →
        (ends ≤ s.now + e → exec (.backoffEnd e) s =
            .next { s with now := s.now + e, rlc := { s.rlc with tx := .busy source bytes n .deferring } })
          ∧ (s.now + e < ends → exec (.backoffEnd e) s = .refused .timeNotReached))

/-- JAM_END (R139, R140, R131, R133, R160): the n-th failed attempt below 16 is followed by a backoff of r slot times, r below
2 to the smaller of n and 10 (the draw is the model's, log 6), straight deferral for r = 0; the sixteenth abandons the
frame, which is counted and latched, and its source takes it back. -/
def Obligations.JamEnd : Prop :=
  ∀ (e draw n ends : Nat) (source : FrameSource) (bytes : List Byte) (s : State),
    s.rlc.tx = .busy source bytes n (.jam ends) → ends ≤ s.now + e →
    let r := draw % 2 ^ min (n + 1) 10
    let quiet := if s.rlc.carrier = none then s.now + e else s.rlc.lastQuiet
    let u : State := State.setLatch { s with
      now := s.now + e
      rlc := { s.rlc with tx := .free, lastQuiet := quiet }
      rca := { s.rca with counters := { s.rca.counters with
        abandonedFrames := min (s.rca.counters.abandonedFrames + 1) 65535 } } } .collisionLimit
    (n + 1 < 16 → exec (.jamEnd e draw) s = .next { s with
        now := s.now + e
        rlc := { s.rlc with
          lastQuiet := quiet
          tx := .busy source bytes (n + 1) (if r = 0 then .deferring else .backingOff (s.now + e + r * 25600)) } })
      ∧ (∀ bin, 15 ≤ n → source = .edge bin → exec (.jamEnd e draw) s = .next (testDrainEnd u))
      ∧ (15 ≤ n → source = .status false → exec (.jamEnd e draw) s = .next (testDrainEnd u))
      ∧ (15 ≤ n → source = .status true → exec (.jamEnd e draw) s =
        .next (testDrainEnd { u with rca := { u.rca with node := .ready, since := s.now + e } }))
      ∧ (15 ≤ n → source = .gauge → s.rq.pastLimit = false → exec (.jamEnd e draw) s = .next (testDrainEnd { u with
        rq := { s.rq with
          inFrame := [], queued := s.rq.inFrame ++ s.rq.queued, hold := some (s.now + e + 1000000) } }))
      ∧ (15 ≤ n → source = .gauge → s.rq.pastLimit = true → exec (.jamEnd e draw) s = .next (testDrainEnd { u with
        rq := { s.rq with inFrame := [] }
        rca := { u.rca with counters := { u.rca.counters with
          drainLoss := min (s.rca.counters.drainLoss + s.rq.inFrame.length) 65535 } } }))

/-- FRAME_SENT (R138, R131, R142, R147, R160): once preamble and frame have been sent at 400 ns a byte, the transmitter is
free and the source is told: an EDGE frame restarts the heartbeat in RUNNING, the drain-end STATUS makes the node READY, a
GAUGE frame frees its records and lets the next form; then the end of the drain is tested and the arbiter chooses. While it is being sent the node drives, 50 ns each, the bits of
seven bytes 55h, one byte D5h and the frame's bytes, each byte least significant bit first (R135). -/
def Obligations.FrameSent : Prop :=
  ∀ (e n since : Nat) (source : FrameSource) (bytes : List Byte) (s : State),
    s.rlc.tx = .busy source bytes n (.transmitting since) →
    (∀ i, since + 50 * i ≤ s.now → s.now < since + 50 * (i + 1) → s.drivenBit =
        if i < 56 then some ((0x55#8).getLsbD (i % 8)) else if i < 64 then some ((0xD5#8).getLsbD (i % 8))
        else bytes[(i - 64) / 8]?.map fun b => b.getLsbD (i % 8))
      ∧ (since + (8 + bytes.length) * 400 ≤ s.now + e →
    let u : State := { s with
      now := s.now + e
      rlc := { s.rlc with
        tx := .free, lastQuiet := if s.rlc.carrier = none then s.now + e else s.rlc.lastQuiet } }
    (∀ bin, source = .edge bin → s.rca.node = .running → exec (.frameSent e) s =
        .next (testDrainEnd { u with rlc := { u.rlc with heartbeat := some (s.now + e + 5000000) } }))
      ∧ (∀ bin, source = .edge bin → s.rca.node ≠ .running → exec (.frameSent e) s = .next (testDrainEnd u))
      ∧ (source = .status false → exec (.frameSent e) s = .next (testDrainEnd u))
      ∧ (source = .status true → exec (.frameSent e) s =
        .next (testDrainEnd { u with rca := { u.rca with node := .ready, since := s.now + e } }))
      ∧ (source = .gauge → exec (.frameSent e) s =
        .next (testDrainEnd (testForm { u with rq := { s.rq with inFrame := [] } }))))

/-- Carrier (R135, R137, R141, R149): CARRIER_APPEARS begins a spell, from which a reception may follow unless the node is
driving; within the first 64 bytes of its own frame it is a collision (log 15); MEDIUM_QUIET ends it; RECEPTION_BEGIN starts
a reception in it with what follows the first 16 bits that are eight bits of 55h and the eight of D5h as sent, and starts none
where its bits hold no such place (log 31); BUS_JAM, once, after more than 1,000 microseconds, ends any reception and bars the
rest of the spell. -/
def Obligations.Carrier : Prop :=
  ∀ (e : Nat) (s : State),
    (s.rlc.carrier = none → s.driving = false → exec (.carrierAppears e) s =
        .next { s with now := s.now + e, rlc := { s.rlc with carrier := some ⟨s.now + e, true, false⟩ } })
      ∧ (∀ source bytes n since, s.rlc.carrier = none → s.rlc.tx = .busy source bytes n (.transmitting since) →
        (s.now + e ≤ since + 28800 → exec (.carrierAppears e) s = .next { s with
            now := s.now + e
            rlc := { s.rlc with
              carrier := some ⟨s.now + e, false, false⟩, tx := .busy source bytes n (.jam (s.now + e + 1600)) } })
          ∧ (since + 28800 < s.now + e → exec (.carrierAppears e) s =
            .next { s with now := s.now + e, rlc := { s.rlc with carrier := some ⟨s.now + e, false, false⟩ } }))
      ∧ (∀ source bytes n ends, s.rlc.carrier = none → s.rlc.tx = .busy source bytes n (.jam ends) →
        exec (.carrierAppears e) s =
          .next { s with now := s.now + e, rlc := { s.rlc with carrier := some ⟨s.now + e, false, false⟩ } })
      ∧ (s.rlc.carrier ≠ none → s.rlc.reception = none → exec (.mediumQuiet e) s = .next { s with
          now := s.now + e
          rlc := { s.rlc with
            carrier := none, lastQuiet := if s.driving then s.rlc.lastQuiet else s.now + e } })
      ∧ (∀ spell bits, s.rlc.carrier = some spell → s.rlc.reception = none → spell.usable = true →
        exec (.receptionBegin ⟨e, bits⟩) s =
          .next { s with now := s.now + e, rlc := { s.rlc with reception := afterPreamble bits } })
      ∧ (∀ bits rest : List Bool,
        let found : List Bool := [true, false, true, false, true, false, true, false,
          true, false, true, false, true, false, true, true]
        afterPreamble bits = some rest ↔
          ∃ before, bits = before ++ found ++ rest ∧ ∀ n, n < before.length → ¬found <+: bits.drop n)
      ∧ (∀ spell, s.rlc.carrier = some spell → spell.jammed = false → spell.since + 1000000 < s.now + e →
        exec (.busJam e) s = .next (State.setLatch { s with
          now := s.now + e
          rlc := { s.rlc with carrier := some ⟨spell.since, false, true⟩, reception := none } } .busJam))

/-- The timers of the link and the record queue: HEARTBEAT_TIMER_EXPIRY restarts the timer and builds a heartbeat for the bin
below the high-water index unless an EDGE frame waits or is in its cycle (R147); RECORD_AGE_EXPIRY and HOLD_PERIOD_END test
R129 (R130, R131). None of the three takes effect before its time: it is refused, the model's choice (logs 2 and 4). -/
def Obligations.LinkTimers : Prop :=
  ∀ (e : Nat) (c : Settings) (s : State), s.settings = some c →
    (∀ ends, s.rlc.heartbeat = some ends → ends ≤ s.now + e →
        (s.rlc.edgeSlot = none → edgeInCycle s = false → exec (.heartbeatTimerExpiry e) s = .next (arbitrate { s with
            now := s.now + e
            rlc := { s.rlc with
              heartbeat := some (s.now + e + 5000000)
              edgeSlot := some (edgeFrame ⟨s.rca.slot, s.du.hw - 1, c.leftNeighbour.getD 255, c.rightNeighbour.getD 255,
                ownCentre c, true, []⟩) } }))
          ∧ (s.rlc.edgeSlot ≠ none ∨ edgeInCycle s = true → exec (.heartbeatTimerExpiry e) s =
            .next { s with now := s.now + e, rlc := { s.rlc with heartbeat := some (s.now + e + 5000000) } }))
      ∧ (∀ ends, s.rlc.heartbeat = some ends → s.now + e < ends → exec (.heartbeatTimerExpiry e) s = .refused .timeNotReached)
      ∧ (∀ q rest, s.rq.queued = q :: rest →
        (q.entered + c.ageLimit * 1000000 ≤ s.now + e → exec (.recordAgeExpiry e) s =
            .next (testForm { s with now := s.now + e }))
          ∧ (s.now + e < q.entered + c.ageLimit * 1000000 → exec (.recordAgeExpiry e) s = .refused .timeNotReached))
      ∧ (∀ ends, s.rq.hold = some ends →
        (ends ≤ s.now + e → exec (.holdPeriodEnd e) s =
            .next (testForm { s with now := s.now + e, rq := { s.rq with hold := none } }))
          ∧ (s.now + e < ends → exec (.holdPeriodEnd e) s = .refused .timeNotReached))

/-- FRAME_RECEIVED of what is not handed on (R149 to R152, R172): of the bits of the reception, those of RECEPTION_BEGIN and
then its own, the whole bytes count, each bit in its place, and trailing bits are ignored (log 31); under 64 bytes it is a fragment without effect; a reception
over 1,024 bytes, of a wrong CRC or a wrong length is a bad frame; a valid frame is a sign of life first, and then an unknown
kind is a bad frame, GAUGE and STATUS are ignored, and so are CONFIG, QUERY and MARK for another slot and EDGE from another
source than a neighbour in force. -/
def Obligations.FrameNotTaken : Prop :=
  ∀ (e : Nat) (heard bits : List Bool) (s : State), s.rlc.reception = some heard →
    let bytes := wholeBytes (heard ++ bits)
    let u : State := { s with
      now := s.now + e
      rlc := { s.rlc with
        carrier := none, reception := none, lastQuiet := if s.driving then s.rlc.lastQuiet else s.now + e } }
    let v := signOfLife (fieldAt bytes 1 1) u
    let kind := fieldAt bytes 2 1
    let foreign : Prop := fieldAt bytes 0 1 ≠ s.rca.slot ∧ fieldAt bytes 0 1 ≠ 15
    (bytes.length = (heard ++ bits).length / 8
        ∧ ∀ i b, bytes[i]? = some b → ∀ j, j < 8 → (heard ++ bits)[8 * i + j]? = some (b.getLsbD j))
      ∧ (bytes.length < 64 → exec (.frameReceived e bits) s = .next u)
      ∧ (64 ≤ bytes.length →
        (1024 < bytes.length ∨ crcMatches bytes = false ∨ bytes.length ≠ max 64 (fieldAt bytes 3 2 + 7)) →
        exec (.frameReceived e bits) s = .next { u with rca := { s.rca with counters := { s.rca.counters with
          badFrames := min (s.rca.counters.badFrames + 1) 4294967295 } } })
      ∧ (64 ≤ bytes.length → bytes.length ≤ 1024 → crcMatches bytes = true →
        bytes.length = max 64 (fieldAt bytes 3 2 + 7) →
        (kind = 0 ∨ 6 < kind → exec (.frameReceived e bits) s = .next { v with
            rca := { s.rca with counters := { s.rca.counters with
              badFrames := min (s.rca.counters.badFrames + 1) 4294967295 } } })
          ∧ (kind = 2 ∨ kind = 3 → exec (.frameReceived e bits) s = .next v)
          ∧ (kind = 4 ∨ kind = 5 ∨ kind = 6 → foreign → exec (.frameReceived e bits) s = .next v)
          ∧ (kind = 1 → s.sourceSide (fieldAt bytes 1 1) = none → exec (.frameReceived e bits) s = .next v))

/-- FRAME_RECEIVED of a valid EDGE or MARK frame that the filter takes (R53, R54, R152, R153, R177): a malformed payload is a
bad frame (of an EDGE payload EdgeReportRoundTrip states when it is malformed, case by case, and what is read of one that is
not); a well-formed one is posted while the table is open and fewer than four applications wait, lost and counted when
four wait, and without effect while the table is closed. -/
def Obligations.ApplicationReceived : Prop :=
  ∀ (e : Nat) (heard bits : List Bool) (s : State), s.rlc.reception = some heard →
    let bytes := wholeBytes (heard ++ bits)
    validReception bytes = true →
    let v := signOfLife (fieldAt bytes 1 1) (s.elapse e).carrierEnds
    let payload := (bytes.drop 5).take (fieldAt bytes 3 2)
    let out := exec (.frameReceived e bits) s
    let posts (r : Request) : Prop :=
      (s.tt.isOpen = true → s.tt.requests.countP Request.isApplication < 4 →
          out = .next { v with tt := { s.tt with requests := s.tt.requests ++ [r] } })
        ∧ (s.tt.isOpen = true → 4 ≤ s.tt.requests.countP Request.isApplication →
          out = .next { v with rca := { s.rca with counters := { s.rca.counters with
            droppedEdges := min (s.rca.counters.droppedEdges + 1) 65535 } } })
        ∧ (s.tt.isOpen = false → out = .next v)
    let bad : Prop := out = .next { v with rca := { s.rca with counters := { s.rca.counters with
      badFrames := min (s.rca.counters.badFrames + 1) 4294967295 } } }
    (∀ side, fieldAt bytes 2 1 = 1 → s.sourceSide (fieldAt bytes 1 1) = some side →
        (∀ report, parseEdge (fieldAt bytes 1 1) payload = some report → posts (.edge side report))
          ∧ (parseEdge (fieldAt bytes 1 1) payload = none → bad))
      ∧ (fieldAt bytes 2 1 = 6 → (fieldAt bytes 0 1 = s.rca.slot ∨ fieldAt bytes 0 1 = 15) →
        (payload.length = 3 → posts (.mark (fieldAt payload 0 2)
            (if fieldAt payload 2 1 = 255 then none else some (fieldAt payload 2 1))))
          ∧ (payload.length ≠ 3 → bad))

/-- FRAME_RECEIVED of a valid CONFIG or QUERY frame for this node (R162, R164, R178): a refused CONFIG latches CONFIG_REFUSED
and leaves the pending settings; an accepted one replaces them with its source, and makes an UNCONFIGURED node READY; a QUERY
of the right length adds its mask; each makes a STATUS pending, or updates the pending one, which is then offered. -/
def Obligations.ConfigAndQuery : Prop :=
  ∀ (e : Nat) (heard bits : List Bool) (s : State), s.rlc.reception = some heard →
    let bytes := wholeBytes (heard ++ bits)
    validReception bytes = true →
    (fieldAt bytes 0 1 = s.rca.slot ∨ fieldAt bytes 0 1 = 15) →
    let source := fieldAt bytes 1 1
    let v := signOfLife source (s.elapse e).carrierEnds
    let payload := (bytes.drop 5).take (fieldAt bytes 3 2)
    let out := exec (.frameReceived e bits) s
    let status (r : StatusResult) : Option PendingStatus := some ⟨r, source, drainEndPending s⟩
    (fieldAt bytes 2 1 = 4 →
        (∀ reason, judgeConfig s.rca.slot payload = .error reason → out = .next (arbitrate
            { v.setLatch .configRefused with rca := { (v.setLatch .configRefused).rca with status := status (.refused reason) } }))
          ∧ (∀ c, judgeConfig s.rca.slot payload = .ok c →
            (s.rca.node = .unconfigured → out = .next (arbitrate { v with rca := { s.rca with
                pendingSettings := some ⟨c, source⟩, node := .ready, since := s.now + e, status := status .accepted } }))
              ∧ (s.rca.node ≠ .unconfigured → out = .next (arbitrate { v with rca := { s.rca with
                pendingSettings := some ⟨c, source⟩, status := status .accepted } }))))
      ∧ (fieldAt bytes 2 1 = 5 →
        (payload.length = 2 → out = .next (arbitrate { v with rca := { s.rca with
            clearMask := s.rca.clearMask ||| BitVec.ofNat 13 (fieldAt payload 0 2), status := status .queried } }))
          ∧ (payload.length ≠ 2 → out = .next (arbitrate { v with rca := { s.rca with
            status := status (.refused .length) } })))

/-- The judgement of a CONFIG payload (R11, R44, R102, R162, R163, R176, R178): the checks in their order, the first that
fails giving the reason; a payload that passes gives the settings it carries, each tuning value held within its range; and
settings that pass satisfy every bound that the other rules rest on. -/
def Obligations.ConfigJudged : Prop :=
  ∀ (slot : Nat) (b : List Byte),
    let at8 : Nat → Nat := fun i => fieldAt b i 1
    let at16 : Nat → Nat := fun i => fieldAt b i 2
    let origin := signedAt b 2 2
    let left : Int := if at8 6 = 1 then origin else origin - at16 4
    let step := fieldAt b 26 4
    let pulse := fieldAt b 30 4
    let neighbour : Nat → Option Nat := fun n => if n ≤ 7 then some n else none
    judgeConfig slot b = (
        if b.length ≠ 79 then .error .length
        else if ¬((at8 6 = 1 ∨ at8 6 = 255) ∧ 1000 ≤ at16 4 ∧ at16 4 ≤ 7000 ∧ -8000 ≤ origin ∧ origin ≤ 8000
          ∧ -8000 ≤ left ∧ left + at16 4 ≤ 8000 ∧ at16 7 ≤ 30000) then .error .field
        else if at16 4 / 3 < at16 9 then .error .margin
        else if ¬((at8 11 ≤ 7 ∨ at8 11 = 255) ∧ (at8 12 ≤ 7 ∨ at8 12 = 255)
          ∧ (at8 11 = slot → at8 11 = 255) ∧ (at8 12 = slot → at8 12 = 255)
          ∧ (at8 11 = at8 12 → at8 11 = 255)) then .error .neighbour
        else if ¬(50000 ≤ step ∧ step ≤ 500000) then .error .step
        else if ¬(1 ≤ pulse ∧ pulse ≤ 65535 ∧ pulse < step) then .error .pulse
        else if 1 < at8 34 then .error .step
        else if ¬(1 ≤ at8 35 ∧ at8 35 ≤ 4 ∧ (∀ t < at8 35, 800 ≤ at16 (37 + 8 * t) ∧ at16 (37 + 8 * t) ≤ 2000
          ∧ 300 ≤ at16 (39 + 8 * t) ∧ at16 (39 + 8 * t) ≤ 1000) ∧ at8 36 < at8 35) then .error .type
        else .ok {
          sequence := at16 0, fieldOrigin := origin, fieldWidth := at16 4
          facing := if at8 6 = 1 then .plus else .minus
          heightOffset := at16 7, margin := at16 9
          leftNeighbour := neighbour (at8 11), rightNeighbour := neighbour (at8 12)
          xGate := max 10 (min (at16 13) 400), zGate := max 10 (min (at16 15) 1000)
          linkXGate := max 10 (min (at16 17) 400), linkZGate := max 10 (min (at16 19) 1000)
          confirmHits := max 2 (min (at8 21) 7), coastLimit := max 1 (min (at8 22) 15)
          openThreshold := max 1 (min (at8 23) 255)
          holdThreshold := max 1 (min (at8 24) (max 1 (min (at8 23) 255)))
          exposureStart := min (at8 25) 15, stepLength := step, pulseLength := pulse
          direction := if at8 34 = 0 then .normal else .reversed
          wireTypes := (List.range (at8 35)).map fun t => ⟨at16 (37 + 8 * t), at16 (39 + 8 * t),
            min (at16 (41 + 8 * t)) 200, min (at16 (43 + 8 * t)) (at16 (37 + 8 * t))⟩
          defaultType := at8 36, staggerLimit := min (at16 69) 8000
          drainThreshold := max 1 (min (at8 71) 24), ageLimit := max 1 (min (at8 72) 50)
          hysteresis := min (at16 73) 500, neighbourTimeout := max 5 (min (at8 75) 100)
          alertMask := BitVec.ofNat 16 (at16 76), alertPulse := max 1 (min (at8 78) 15) })
      ∧ ∀ c, judgeConfig slot b = .ok c → SettingsSound c ∧ 50000 ≤ c.stepLength ∧ c.pulseLength ≤ 65535
          ∧ -8000 ≤ c.fieldOrigin ∧ c.fieldOrigin ≤ 8000
          ∧ ∀ n, c.leftNeighbour = some n ∨ c.rightNeighbour = some n → n ≤ 7 ∧ n ≠ slot

/-- Liveness (R94, R95, R53): in RUNNING a sign of life makes a neighbour PRESENT and restarts its timer, in another state or
from another source it changes nothing; NEIGHBOUR_TIMER_EXPIRY makes the neighbour LOST, latches NEIGHBOUR_LOST, and posts an
application unless one waits or the table is closed; before the timer's end it is refused, the model's choice (logs 2 and
4). -/
def Obligations.Liveness : Prop :=
  ∀ (s : State),
    (∀ c source, s.settings = some c → s.rca.node = .running →
        (c.leftNeighbour = some source → signOfLife source s = { s with rlc := { s.rlc with
            leftLife := some ⟨.present, some (s.now + c.neighbourTimeout * 1000000)⟩ } })
          ∧ (c.leftNeighbour ≠ some source → c.rightNeighbour = some source → signOfLife source s = { s with rlc := { s.rlc with
            rightLife := some ⟨.present, some (s.now + c.neighbourTimeout * 1000000)⟩ } })
          ∧ (c.leftNeighbour ≠ some source → c.rightNeighbour ≠ some source → signOfLife source s = s))
      ∧ (∀ source, s.rca.node ≠ .running → signOfLife source s = s)
      ∧ (∀ e side state ends, s.rlc.life side = some ⟨state, some ends⟩ → ends ≤ s.now + e →
        let u : State := State.setLatch { s with
          now := s.now + e, rlc := s.rlc.setLife side (some ⟨.lost, none⟩) } .neighbourLost
        (s.tt.isOpen = true → .neighbourLost side ∉ s.tt.requests → exec (.neighbourTimerExpiry e side) s =
            .next { u with tt := { s.tt with requests := s.tt.requests ++ [.neighbourLost side] } })
          ∧ (s.tt.isOpen = false ∨ .neighbourLost side ∈ s.tt.requests → exec (.neighbourTimerExpiry e side) s = .next u))
      ∧ (∀ e side state ends, s.rlc.life side = some ⟨state, some ends⟩ → s.now + e < ends →
        exec (.neighbourTimerExpiry e side) s = .refused .timeNotReached)

/-! ## Chapter 9: run control -/

/-- RUN_START (R157, R158 with R29, R46, R51, R97, R103, R128, R155): in READY for at least 100 microseconds a run starts with the
pending settings; every block takes its run state, latches, clear mask, a pending STATUS and a frame in its cycle stay. In
another state, or too soon, the spell has no effect. -/
def Obligations.RunStart : Prop :=
  ∀ (e : Nat) (s : State),
    (∀ r, s.rca.node = .ready → s.rca.since + 100000 ≤ s.now + e → s.rca.pendingSettings = some r →
      ∃ t : State, exec (.runStart e) s = .next t
        ∧ t.pending = s.pending ∧ t.now = s.now + e
        ∧ t.siu = { s.siu with
            pageA := if s.siu.pageA = .filling then .filling else .free
            pageB := if s.siu.pageB = .filling then .filling else .free
            continuity := none, level := r.settings.exposureStart, drift := 0
            associated := 0, saturated := 0, weak := 0, settled := false
            word := some (s.siu.word.getD r.settings.exposureStart)
            wordDue := s.siu.wordDue || s.siu.word.isSome }
        ∧ t.du = ⟨s.du.pair, 0, 0, 0, 0, s.du.resolved⟩
        ∧ t.tt = ⟨true, 0, [], [], none, none, none⟩
        ∧ t.wau.currentType = some r.settings.defaultType
        ∧ t.rq = ⟨[], [], none, false⟩
        ∧ t.rlc = { s.rlc with
            edgeSlot := none
            heartbeat := some (t.now + 5000000)
            leftLife := r.settings.leftNeighbour.map fun _ => ⟨.unheard, some (t.now + r.settings.neighbourTimeout * 1000000)⟩
            rightLife := r.settings.rightNeighbour.map fun _ => ⟨.unheard, some (t.now + r.settings.neighbourTimeout * 1000000)⟩ }
        ∧ t.rca = { s.rca with
            node := .running, since := t.now, runSettings := some r, counters := ⟨0, 0, 0, 0, 0, 0, 0⟩ }
        ∧ t.runLineHeld = false)
      ∧ (s.rca.node ≠ .ready ∨ s.now + e < s.rca.since + 100000 →
        exec (.runStart e) s = .next { s with now := s.now + e })

/-- ENTER_DRAINING (R157, R159, R43, R97, R132, R147): in RUNNING for at least 100 microseconds the node becomes DRAINING and holds the
line, posts the final close of the high-water index, starts the drain timer, drops the partial cycle, stops heartbeat and
neighbour timers, and tests R129. In another state the spell has no effect; that one too soon after the run start has none
either is the model's reading (log 9). -/
def Obligations.EnterDraining : Prop :=
  ∀ (e : Nat) (s : State),
    (s.rca.node = .running → s.rca.since + 100000 ≤ s.now + e → exec (.enterDraining e) s = .next (testForm { s with
        now := s.now + e
        du := { s.du with quarter := 0 }
        tt := { s.tt with requests := s.tt.requests ++ [.finalClose s.du.hw] }
        rlc := { s.rlc with
          heartbeat := none
          leftLife := s.rlc.leftLife.map fun l => ⟨l.state, none⟩
          rightLife := s.rlc.rightLife.map fun l => ⟨l.state, none⟩ }
        rca := { s.rca with
          node := .draining, since := s.now + e, drainTimer := some (s.now + e + 1000000000) } }))
      ∧ (s.rca.node ≠ .running ∨ s.now + e < s.rca.since + 100000 →
        exec (.enterDraining e) s = .next { s with now := s.now + e })
      ∧ (s.rca.node = .draining → s.runLineHeld = true)

/-- The end of a drain (R160, R164) and DRAIN_LIMIT (R133): with the table closed, the queue and the EDGE slot empty and no
frame in its cycle a DRAINING node builds a DRAINED STATUS, for the destination of a pending one or else the recording
station, and stops the drain timer; at the drain limit every QUEUED record is discarded and counted first. DRAIN_LIMIT before
the timer's end is refused, the model's choice (logs 2 and 4). -/
def Obligations.DrainEnd : Prop :=
  ∀ s : State,
    (∀ d, s.rca.node = .draining → s.tt.isOpen = false → s.rq.inFrame = [] → s.rq.queued = [] → s.rlc.edgeSlot = none →
        s.rlc.tx = .free → drainEndPending s = false →
        (∀ p, s.rca.status = some p → p.destination = d) →
        (s.rca.status = none → ∃ r, s.rca.runSettings = some r ∧ r.source = d) →
        testDrainEnd s = { s with
          rlc := { s.rlc with
            tx := .busy (.status true)
              (frameProper d s.rca.slot .status (statusPayload (s.snapshot .drained))) 0 .deferring }
          rca := { s.rca with
            status := none, drainTimer := none, clearMask := 0, latches := s.rca.latches &&& ~~~s.rca.clearMask } })
      ∧ (s.rca.node ≠ .draining ∨ s.tt.isOpen = true ∨ s.rq.inFrame ≠ [] ∨ s.rq.queued ≠ [] ∨ s.rlc.edgeSlot ≠ none
          ∨ s.rlc.tx ≠ .free → testDrainEnd s = arbitrate s)
      ∧ (∀ e ends, s.rca.drainTimer = some ends → ends ≤ s.now + e → exec (.drainLimit e) s = .next (testDrainEnd { s with
          now := s.now + e
          rq := { s.rq with queued := [], pastLimit := true }
          rca := { s.rca with
            drainTimer := none
            counters := { s.rca.counters with
              drainLoss := min (s.rca.counters.drainLoss + s.rq.queued.length) 65535 } } }))
      ∧ (∀ e ends, s.rca.drainTimer = some ends → s.now + e < ends → exec (.drainLimit e) s = .refused .timeNotReached)

/-! ## Chapter 10: frames -/

/-- A frame that the node builds is as long as R136 says, has its header fields and payload at the offsets of R171, passes the
receiver's own checks (R150), and is read back part by part: no bit of its header or payload is lost. Multi-byte fields are
least significant byte first (R169). The CRC is that of R136: for each bit in the order of its sending, least significant bit
of each byte first, the register, all ones at the start, is shifted by one, and where the bit that leaves it differs from the
bit sent, the polynomial x^16 + x^12 + x^5 + 1 is added; nothing is inverted. That the register stands lowest bit first,
8408h, is the model's reading (log 7). The last two bytes of a frame are its CRC, and a reception is valid exactly when it has
64 to 1,024 bytes, its last two bytes are the CRC of the others, and its length is the one its header calls for. A GAUGE
payload is the record count and the records in order, each with its fields at the offsets of R174, the optional ones one
after another; a STATUS payload has its fields at the offsets of R175. -/
def Obligations.FrameRoundTrip : Prop :=
  (∀ (destination source : Nat) (kind : FrameKind) (payload : List Byte), destination < 256 → source < 256 →
    payload.length ≤ 1017 →
    let b := frameProper destination source kind payload
    b.length = max 64 (payload.length + 7) ∧ validReception b = true
      ∧ parseFrame b = ⟨destination, source, kind.code, payload⟩ ∧ frameKind kind.code = some kind
      ∧ kind.code = (match kind with
        | .edge => 1
        | .gauge => 2
        | .status => 3
        | .config => 4
        | .query => 5
        | .mark => 6)
      ∧ fieldAt b 0 1 = destination ∧ fieldAt b 1 1 = source ∧ fieldAt b 2 1 = kind.code
      ∧ fieldAt b 3 2 = payload.length ∧ (b.drop 5).take payload.length = payload
      ∧ (∀ i, payload.length + 5 ≤ i → i + 2 < b.length → b[i]? = some 0#8)
      ∧ fieldAt b (b.length - 2) 2 = (crc (b.take (b.length - 2))).toNat)
    ∧ (∀ b : List Byte,
        (∀ i n, fieldAt b i n = ((List.range n).map fun j => (b[i + j]?.getD 0#8).toNat * 256 ^ j).sum)
          ∧ (∀ i n, 1 ≤ n → signedAt b i n =
              if fieldAt b i n < 2 ^ (8 * n - 1) then (fieldAt b i n : Int) else fieldAt b i n - 2 ^ (8 * n))
          ∧ crc b = (b.flatMap fun x => (List.range 8).map x.getLsbD).foldl (fun (r : BitVec 16) bit =>
              if r.getLsbD 0 = bit then r >>> 1 else (r >>> 1) ^^^ 0x8408#16) 0xFFFF#16
          ∧ (crcMatches b = true ↔ (crc (b.take (b.length - 2))).toNat = fieldAt b (b.length - 2) 2)
          ∧ (validReception b = true ↔ 64 ≤ b.length ∧ b.length ≤ 1024 ∧ crcMatches b = true
              ∧ b.length = max 64 (fieldAt b 3 2 + 7)))
    ∧ (∀ rs : List Record, rs.length ≤ 255 →
        fieldAt (gaugePayload rs) 0 1 = rs.length ∧ (gaugePayload rs).drop 1 = rs.flatMap recordBytes)
    ∧ (∀ (types : List WireType) (r : Record), RecordSound types r →
        let b := recordBytes r
        let gapAt := if r.wear.isSome then 18 else 14
        let markAt := if r.gap.isSome then gapAt + 2 else gapAt
        b.length = (if r.mark.isSome then markAt + 2 else markAt)
          ∧ fieldAt b 0 1 = r.label.origin ∧ fieldAt b 1 2 = r.label.serial ∧ signedAt b 3 4 = r.gpi
          ∧ (List.range 16).map (fieldAt b 7 2).testBit = [r.noSample, r.noFlat, r.beyond, r.wearLimit, r.staggerLimit,
              r.contested, r.takenOver, r.gap.isSome, r.mark.isSome, r.final, r.wear.isSome, false, false, false, false, false]
          ∧ signedAt b 9 2 = r.stagger ∧ fieldAt b 11 2 = r.height ∧ fieldAt b 13 1 = r.samples
          ∧ (∀ w, r.wear = some w → fieldAt b 14 2 = w.1 ∧ fieldAt b 16 2 = w.2)
          ∧ (∀ g, r.gap = some g → fieldAt b gapAt 2 = g) ∧ (∀ n, r.mark = some n → fieldAt b markAt 2 = n))
    ∧ ∀ r : StatusReport, r.slot ≤ 7 → r.sequence ≤ 65535 → GpiSound r.hw → r.level ≤ 15 → r.trackCount ≤ 8 →
        r.counters.scansTaken ≤ 4294967295 → r.counters.skippedScans ≤ 4294967295 → r.counters.lostBins ≤ 4294967295 →
        r.counters.abandonedFrames ≤ 65535 → r.counters.badFrames ≤ 4294967295 → r.counters.droppedEdges ≤ 65535 →
        r.counters.drainLoss ≤ 65535 →
        let b := statusPayload r
        let life : Option Machine.Liveness → Nat := fun
          | none => 0
          | some ⟨.unheard, _⟩ => 1
          | some ⟨.present, _⟩ => 2
          | some ⟨.lost, _⟩ => 3
        b.length = 38
          ∧ (fieldAt b 0 1, fieldAt b 1 1) = (match r.result with
            | .accepted => (0, 0)
            | .refused .length => (1, 1)
            | .refused .field => (1, 2)
            | .refused .margin => (1, 3)
            | .refused .neighbour => (1, 4)
            | .refused .step => (1, 5)
            | .refused .pulse => (1, 6)
            | .refused .type => (1, 7)
            | .queried => (2, 0)
            | .drained => (3, 0))
          ∧ fieldAt b 2 1 = (match r.node with
            | .unconfigured => 0
            | .ready => 1
            | .running => 2
            | .draining => 3)
          ∧ fieldAt b 3 1 = r.slot ∧ fieldAt b 4 2 = r.sequence ∧ fieldAt b 6 2 = r.latches.toNat ∧ signedAt b 8 4 = r.hw
          ∧ fieldAt b 12 1 = r.level ∧ fieldAt b 13 1 = r.trackCount ∧ fieldAt b 14 1 = life r.leftLife
          ∧ fieldAt b 15 1 = life r.rightLife ∧ fieldAt b 16 4 = r.counters.scansTaken
          ∧ fieldAt b 20 4 = r.counters.skippedScans ∧ fieldAt b 24 4 = r.counters.lostBins
          ∧ fieldAt b 28 2 = r.counters.abandonedFrames ∧ fieldAt b 30 4 = r.counters.badFrames
          ∧ fieldAt b 34 2 = r.counters.droppedEdges ∧ fieldAt b 36 2 = r.counters.drainLoss

/-- An EDGE report within the ranges of R173 is read back whole from the payload the node builds for it (R76, R172, R173,
R177), and its frame is that payload in a frame to slot 15 from the node's own slot, which a receiver takes as valid and
reads back (R145, R172); an absent former label is sent with serial 0 (R173). A payload is well formed exactly when R177 says
so: at least 9 bytes, a count of at most 8, bits 4 to 6 of offset 8 at 0, a HEARTBEAT with no entry, and after the header as
many entries as the count says, of 16 bytes or 20 where RELEASING, which fill it to its last byte, each with a side code of
0 or 1, a role code of at most 2, a label origin of at most 7, and a former origin of at most 7 or FFh; what is read of it
stands at the offsets of R173. Any other payload is malformed, and nothing is read of it. -/
def Obligations.EdgeReportRoundTrip : Prop :=
  (∀ (source : Nat) (b : List Byte) (r : EdgeReport),
    let info := fieldAt b 8 1
    parseEdge source b = some r ↔
      9 ≤ b.length ∧ info % 16 ≤ 8 ∧ info / 16 % 8 = 0 ∧ (128 ≤ info → info % 16 = 0)
        ∧ ∃ parts : List (List Byte), b.drop 9 = parts.flatten ∧ parts.length = info % 16
          ∧ (∀ q ∈ parts, fieldAt q 0 1 ≤ 1 ∧ fieldAt q 1 1 ≤ 2 ∧ fieldAt q 2 1 ≤ 7
            ∧ (fieldAt q 13 1 ≤ 7 ∨ fieldAt q 13 1 = 255) ∧ q.length = if fieldAt q 1 1 = 2 then 20 else 16)
          ∧ r = {
              source := source, bin := signedAt b 0 4, left := fieldAt b 4 1, right := fieldAt b 5 1
              centre := signedAt b 6 2, heartbeat := decide (128 ≤ info)
              entries := parts.map fun q => {
                side := if fieldAt q 0 1 = 0 then .left else .right
                role := if fieldAt q 1 1 = 0 then .owner else if fieldAt q 1 1 = 1 then .shadow
                  else .releasing (signedAt q 16 4)
                label := ⟨fieldAt q 2 1, fieldAt q 3 2⟩, birth := signedAt q 5 4, x := signedAt q 9 2, z := fieldAt q 11 2
                former := if fieldAt q 13 1 = 255 then none else some ⟨fieldAt q 13 1, fieldAt q 14 2⟩ } })
  ∧ (∀ r : EdgeReport, (edgeFrame r).bin = r.bin ∧ (edgeFrame r).bytes = frameProper 15 r.source .edge (edgePayload r)
      ∧ (edgePayload r).drop 9 = r.entries.flatMap entryBytes
      ∧ (∀ e : EdgeEntry, e.former = none → fieldAt (entryBytes e) 13 1 = 255 ∧ fieldAt (entryBytes e) 14 2 = 0)
      ∧ (r.source ≤ 255 → r.entries.length ≤ 8 →
        validReception (edgeFrame r).bytes = true
          ∧ parseFrame (edgeFrame r).bytes = ⟨15, r.source, 1, edgePayload r⟩))
  ∧ ∀ r : EdgeReport,
    -2147483648 ≤ r.bin → r.bin ≤ 2147483647 → r.left ≤ 255 → r.right ≤ 255 → -32768 ≤ r.centre → r.centre ≤ 32767 →
    r.entries.length ≤ 8 → (r.heartbeat = true → r.entries = []) →
    (∀ e ∈ r.entries, e.label.origin ≤ 7 ∧ e.label.serial ≤ 65535 ∧ -2147483648 ≤ e.birth ∧ e.birth ≤ 2147483647
      ∧ -32768 ≤ e.x ∧ e.x ≤ 32767 ∧ e.z ≤ 65535 ∧ (∀ l ∈ e.former, l.origin ≤ 7 ∧ l.serial ≤ 65535)
      ∧ ∀ j, e.role = .releasing j → -2147483648 ≤ j ∧ j ≤ 2147483647) →
    parseEdge r.source (edgePayload r) = some r

/-! ## Laws that every step keeps -/

/-- At most eight tracks, no two with one label (R48), after every step from any state where that holds. -/
def Obligations.TableLaw : Prop := ∀ s t : State, TableSound s → step s = .next t → TableSound t

/-- The queue holds at most 64 records, at most 24 IN_FRAME (R128, R129), and the request list at most ten closes and four
applications waiting (R40, R53), after every step from any state where that holds. -/
def Obligations.CapacityLaw : Prop :=
  ∀ s t : State, QueueSound s → PlacesSound s → step s = .next t → QueueSound t ∧ PlacesSound t

/-- SHADOW and RELEASING tracks are linked, an OWNER holds no record, at most four are held, peer fields go with the link
(R48, R75, R85, R87, R91), for every track, after every step from any state where that holds. The hold lists are in increasing
GPI order, because bins are dealt with in increasing order (R47, R55, R91), after every step from any state where that holds
and pages, closes and request list agree. -/
def Obligations.OwnershipLaw : Prop :=
  (∀ s t : State, (∀ u ∈ s.tt.tracks, OwnershipSound u) → step s = .next t → ∀ u ∈ t.tt.tracks, OwnershipSound u)
    ∧ ∀ s t : State, PagesSound s → ClosesSound s → OrderSound s → step s = .next t → OrderSound t

/-- The settings stay sound and present where the node state needs them (R156, R158, R162, R163), timers run only in the node
state that their rules name, and a drain-end STATUS is in its cycle only in DRAINING (R97, R147, R159, R160), after every
step from any state where that holds. -/
def Obligations.RunControlLaw : Prop :=
  ∀ s t : State, RunSound s → TimersSound s → step s = .next t → RunSound t ∧ TimersSound t

/-- The sub-step stays below the step length, the GPI moves by at most one and never above the high-water index, which never
falls but at a run start or a reset, and the closes waiting name increasing bins below it (R33, R35, R38, R39, R47), after
every step from any state with these laws. -/
def Obligations.PositionLaw : Prop :=
  ∀ s t : State, RunSound s → PositionSound s → ClosesSound s → step s = .next t →
    PositionSound t ∧ ClosesSound t
      ∧ (s.du.hw ≤ t.du.hw ∧ (t.du.gpi - s.du.gpi).natAbs ≤ 1 ∧ t.du.hw - s.du.hw ≤ 1
        ∨ t.du.gpi = 0 ∧ t.du.hw = 0 ∧ (t.rca.node = .unconfigured ∨ s.rca.node = .ready ∧ t.rca.node = .running))

/-- The exposure level stays within 0 to 15, moves by at most one step but at a run start or a reset (R24, R27), and the
statistics stay within their width (R25), after every step from any state with these laws. -/
def Obligations.ExposureLaw : Prop :=
  ∀ s t : State, RunSound s → ExposureSound s → step s = .next t →
    ExposureSound t
      ∧ (t.siu.level ≤ s.siu.level + 1 ∧ s.siu.level ≤ t.siu.level + 1
        ∨ t.siu.level = 0 ∧ t.rca.node = .unconfigured
        ∨ s.rca.node = .ready ∧ t.rca.node = .running
          ∧ ∃ r, t.rca.runSettings = some r ∧ t.siu.level = r.settings.exposureStart)

/-- No frame makes more than sixteen attempts (R140), and a free transmitter means that nothing is offered (R142), after every
step from any state where that holds. -/
def Obligations.TransmitterLaw : Prop := ∀ s t : State, TransmitterSound s → step s = .next t → TransmitterSound t

/-- Every record queued or held, every track and every accumulator lies within its ranges (R1, R48, R50, R115): positions,
heights up to 45,000, face widths up to 2,000, sums, labels, GPIs, gap counts, mark numbers, and a residual within the nominal
height of its type (R109). With them the posted scans stay screened (R18), and GPI, slot, serial counter and what requests
carry stay within range (R38, R48, R173). All this after every step from any state where it holds and the settings are sound. -/
def Obligations.RecordsLaw : Prop := ∀ s t : State, RunSound s → RecordsSound s → step s = .next t → RecordsSound t

/-- Pages, port and request list agree (R15, R21, R22, R52, R54): a page is POSTED exactly while its one scan pass waits, after
every step from any state where that holds. -/
def Obligations.PagesLaw : Prop := ∀ s t : State, PagesSound s → step s = .next t → PagesSound t
end

