-- ==== Sys2Proof/Laws/Arithmetic.lean ====
section
/-! SUPPORT. What the arithmetic of the node can give: the root (R108), positions (R4), means (R116), bytes (R169). -/

namespace Sys2Proof.Machine

theorem rootFrom_bounds (k r q : Nat) (h : r * r ≤ q) (h' : q < (r + 2 ^ k) * (r + 2 ^ k)) :
    rootFrom k r q * rootFrom k r q ≤ q ∧ q < (rootFrom k r q + 1) * (rootFrom k r q + 1) := by
  induction k generalizing r with
  | zero => exact ⟨h, h'⟩
  | succ k ih =>
    unfold rootFrom
    split
    · rename_i hle
      refine ih _ hle ?_
      have : r + 2 ^ k + 2 ^ k = r + 2 ^ (k + 1) := by omega
      rw [this]; exact h'
    · rename_i hgt
      exact ih r h (by omega)

/-- The integer root of a chord term is its exact integer square root (R108). -/
theorem integerRoot_bounds (q : Nat) (h : q < 2 ^ 22) :
    integerRoot q * integerRoot q ≤ q ∧ q < (integerRoot q + 1) * (integerRoot q + 1) :=
  rootFrom_bounds 11 0 q (by omega) (by norm_num; omega)

theorem clampX_range (x : Int) : -8000 ≤ clampX x ∧ clampX x ≤ 8000 := by unfold clampX; omega

theorem clampX_id {x : Int} (h : -8000 ≤ x) (h' : x ≤ 8000) : clampX x = x := by unfold clampX; omega

theorem carX_range (c : Settings) (n : Nat) : -8000 ≤ carX c n ∧ carX c n ≤ 8000 := by
  unfold carX; split <;> exact clampX_range _

theorem raise_le (limit n d : Nat) : raise limit n d ≤ limit := Nat.min_le_right _ _

theorem clampNat_range {low high : Nat} (h : low ≤ high) (v : Nat) :
    low ≤ clampNat low high v ∧ clampNat low high v ≤ high := by unfold clampNat; omega

@[simp] theorem leBytes_length (n v : Nat) : (leBytes n v).length = n := by
  induction n generalizing v with
  | zero => rfl
  | succ n ih => simp [leBytes, ih]

@[simp] theorem leIntBytes_length (n : Nat) (v : Int) : (leIntBytes n v).length = n := leBytes_length _ _

/-- Reading back what was laid out gives the number, where it fits (R169). -/
theorem readLe_leBytes (n v : Nat) (h : v < 256 ^ n) : readLe (leBytes n v) = v := by
  induction n generalizing v with
  | zero => simp [leBytes, readLe]; omega
  | succ n ih =>
    have hd : v / 256 < 256 ^ n := by
      rw [Nat.div_lt_iff_lt_mul (by norm_num)]; rw [pow_succ] at h; exact h
    simp only [leBytes, readLe, ih _ hd, BitVec.toNat_ofNat]
    omega

theorem fieldAt_drop (bytes : List Byte) (k offset n : Nat) : fieldAt (bytes.drop k) offset n = fieldAt bytes (k + offset) n := by
  simp [fieldAt, List.drop_drop]

/-- Spot i of a message lies at its offset among the spot bytes (R170). -/
theorem decodeSpots_eq (n : Nat) (bytes : List Byte) : decodeSpots n bytes = (List.range n).map fun i =>
    { headX := fieldAt bytes (7 * i) 2
      headZ := fieldAt bytes (2 + 7 * i) 2
      width := if fieldAt bytes (4 + 7 * i) 2 = 65535 then none else some (fieldAt bytes (4 + 7 * i) 2)
      peak := fieldAt bytes (6 + 7 * i) 1 } := by
  induction n generalizing bytes with
  | zero => rfl
  | succ n ih =>
    rw [decodeSpots, ih, List.range_succ_eq_map]
    simp only [List.map_cons, List.map_map, fieldAt_drop]
    refine congrArg₂ _ rfl (List.map_congr_left fun i _ => ?_)
    have h (k : Nat) : 7 + (k + 7 * i) = k + 7 * i.succ := by omega
    have h0 : 7 + 7 * i = 7 * i.succ := by omega
    simp only [Function.comp, h, h0]

/-- A frame proper is the larger of 64 and its payload plus seven bytes long (R136). -/
@[simp] theorem frameProper_length (d s : Nat) (k : FrameKind) (p : List Byte) :
    (frameProper d s k p).length = properLength p.length := by
  simp only [frameProper, frameBody, List.length_append, leBytes_length, List.length_replicate, properLength]
  omega

@[simp] theorem preamble_length : preamble.length = 8 := rfl

/-- A frame and its preamble take 400 ns a byte (R135). -/
theorem frameTime_eq (bytes : List Byte) : frameTime bytes = (8 + bytes.length) * 400 := by
  simp [frameTime, byteTime, bitTime]

/-- Bit `i` of what is sent is bit `i mod 8` of byte `i / 8`: least significant bit first (R135). -/
theorem sentBits_getElem? (bytes : List Byte) (i : Nat) :
    (sentBits bytes)[i]? = bytes[i / 8]?.map fun b => b.getLsbD (i % 8) := by
  induction bytes generalizing i with
  | nil => simp [sentBits]
  | cons b bs ih =>
    have hs : sentBits (b :: bs) = (List.range 8).map b.getLsbD ++ sentBits bs := rfl
    rw [hs]
    by_cases h : i < 8
    · rw [List.getElem?_append_left (by simpa using h)]
      simp [h, Nat.div_eq_of_lt h, Nat.mod_eq_of_lt h]
    · rw [List.getElem?_append_right (by simp; omega)]
      have h1 : i / 8 = (i - 8) / 8 + 1 := by omega
      have h2 : i % 8 = (i - 8) % 8 := by omega
      simp [ih, h1, h2]

/-- What was sent is received: the whole bytes of the bits of bytes, with fewer than eight bits after them, are those bytes
(R135, R149). -/
theorem wholeBytes_sentBits (bytes : List Byte) (tail : List Bool) (h : tail.length < 8) :
    wholeBytes (sentBits bytes ++ tail) = bytes := by
  induction bytes with
  | nil =>
    rcases tail with _ | ⟨_, _ | ⟨_, _ | ⟨_, _ | ⟨_, _ | ⟨_, _ | ⟨_, _ | ⟨_, _ | ⟨_, l⟩⟩⟩⟩⟩⟩⟩⟩ <;>
      first | rfl | (simp only [List.length_cons] at h; omega)
  | cons b bs ih =>
    have hs : wholeBytes (sentBits (b :: bs) ++ tail) = BitVec.ofBoolListLE ((List.range 8).map b.getLsbD)
      :: wholeBytes (sentBits bs ++ tail) := rfl
    rw [hs, ih]
    refine congrArg (· :: bs) (BitVec.eq_of_getLsbD_eq fun i hi => ?_)
    exact BitVec.getLsbD_ofBoolListLE.trans (by simp at hi; simp [hi]; rfl)

/-- The bits of a frame fill its time (R135). -/
theorem frameSignal_length (bytes : List Byte) : (frameSignal bytes).length * bitTime = frameTime bytes := by
  have h : ∀ l : List Byte, (sentBits l).length = 8 * l.length := by
    intro l
    induction l with
    | nil => rfl
    | cons b bs ih => simp only [sentBits, List.flatMap_cons, List.length_append] at *; simp [ih]; omega
  simp [frameSignal, h, frameTime, byteTime, bitTime]; omega

end Sys2Proof.Machine
end

