-- ==== Sys2Proof/Laws/Order.lean ====
section
/-! SUPPORT. What the ordering and the greedy assignment can do (R59, R80). -/

namespace Sys2Proof.Machine

variable {α : Type}

theorem insertBy_perm (key : α → List Int) (x : α) (l : List α) : (insertBy key x l).Perm (x :: l) := by
  induction l with
  | nil => exact List.Perm.refl _
  | cons y ys ih =>
    unfold insertBy
    split
    · exact (ih.cons y).trans (List.Perm.swap x y ys)
    · exact List.Perm.refl _

/-- Sorting only changes the order. -/
theorem sortBy_perm (key : α → List Int) (l : List α) : (sortBy key l).Perm l := by
  induction l with
  | nil => exact List.Perm.refl _
  | cons x xs ih => exact (insertBy_perm key x _).trans (ih.cons x)

@[simp] theorem sortBy_length (key : α → List Int) (l : List α) : (sortBy key l).length = l.length :=
  (sortBy_perm key l).length_eq

@[simp] theorem mem_sortBy (key : α → List Int) (l : List α) (x : α) : x ∈ sortBy key l ↔ x ∈ l :=
  (sortBy_perm key l).mem_iff

theorem lexLt_irrefl (a : List Int) : lexLt a a = false := by
  induction a with
  | nil => rfl
  | cons x xs ih => simp [lexLt, ih]

theorem lexLt_trans {a b c : List Int} (h : lexLt a b = true) (h' : lexLt b c = true) : lexLt a c = true := by
  induction a generalizing b c with
  | nil =>
    cases b with
    | nil => simp [lexLt] at h
    | cons y ys =>
      cases c with
      | nil => simp [lexLt] at h'
      | cons z zs => rfl
  | cons x xs ih =>
    cases b with
    | nil => simp [lexLt] at h
    | cons y ys =>
      cases c with
      | nil => simp [lexLt] at h'
      | cons z zs =>
        simp only [lexLt] at h h' ⊢
        split at h
        · split at h'
          · rw [if_pos (by omega)]
          · split at h'
            · cases h'
            · rw [if_pos (by omega)]
        · split at h
          · cases h
          · split at h'
            · rw [if_pos (by omega)]
            · split at h'
              · cases h'
              · rw [if_neg (by omega), if_neg (by omega)]
                exact ih h h'

theorem lexLt_total {a b : List Int} (h : lexLt a b = false) (h' : lexLt b a = false) : a = b := by
  induction a generalizing b with
  | nil => cases b <;> simp_all [lexLt]
  | cons x xs ih =>
    cases b with
    | nil => simp [lexLt] at h'
    | cons y ys =>
      simp only [lexLt] at h h'
      split at h
      · cases h
      · split at h
        · rw [if_pos (by assumption)] at h'; cases h'
        · rw [if_neg (by assumption), if_neg (by assumption)] at h'
          rw [ih h h', show x = y by omega]

theorem lexLt_asymm {a b : List Int} (h : lexLt a b = true) : lexLt b a = false := by
  cases hb : lexLt b a with
  | false => rfl
  | true => have := lexLt_trans h hb; rw [lexLt_irrefl] at this; cases this

/-- "Not lower than" is what sorting establishes between neighbours and beyond. -/
theorem sortBy_sorted (key : α → List Int) (l : List α) :
    (sortBy key l).Pairwise fun x y => lexLt (key y) (key x) = false := by
  induction l with
  | nil => exact List.Pairwise.nil
  | cons x xs ih =>
    show (insertBy key x (sortBy key xs)).Pairwise _
    generalize sortBy key xs = ys at ih
    induction ys with
    | nil => exact List.pairwise_singleton _ _
    | cons y ys ihy =>
      obtain ⟨hy, hys⟩ := List.pairwise_cons.1 ih
      unfold insertBy
      split
      · rename_i hlt
        refine List.pairwise_cons.2 ⟨fun z hz => ?_, ihy hys⟩
        rcases List.mem_cons.1 ((insertBy_perm key x ys).mem_iff.1 hz) with rfl | hz
        · exact lexLt_asymm hlt
        · exact hy z hz
      · rename_i hnlt
        have hxy : lexLt (key y) (key x) = false := by simpa using hnlt
        refine List.pairwise_cons.2 ⟨fun z hz => ?_, ih⟩
        rcases List.mem_cons.1 hz with rfl | hz
        · exact hxy
        · cases hzx : lexLt (key z) (key x) with
          | false => rfl
          | true =>
            exfalso
            cases hxy' : lexLt (key x) (key y) with
            | true => have := lexLt_trans hzx hxy'; rw [hy z hz] at this; cases this
            | false => rw [lexLt_total hxy' hxy] at hzx; rw [hy z hz] at hzx; cases hzx

/-- The greedy assignment accepts candidates of its list only. -/
theorem greedy_sublist (cs : List Candidate) (ts os : List Nat) : (greedy cs ts os).Sublist cs := by
  induction cs generalizing ts os with
  | nil => exact List.Sublist.refl _
  | cons c cs ih =>
    unfold greedy
    split
    · exact (ih _ _).cons c
    · exact (ih _ _).cons_cons c

theorem greedy_fresh (cs : List Candidate) (ts os : List Nat) :
    ∀ c ∈ greedy cs ts os, c.track ∉ ts ∧ c.other ∉ os := by
  induction cs generalizing ts os with
  | nil => intro c hc; cases hc
  | cons c cs ih =>
    intro d hd
    unfold greedy at hd
    split at hd
    · exact ih _ _ d hd
    · rename_i h
      simp only [Bool.or_eq_true, List.contains_iff_mem, not_or] at h
      rcases List.mem_cons.1 hd with rfl | hd
      · exact h
      · have := ih _ _ d hd
        exact ⟨fun hm => this.1 (List.mem_cons_of_mem _ hm), fun hm => this.2 (List.mem_cons_of_mem _ hm)⟩

/-- No two accepted pairs share a track or a spot (R59, R80). -/
theorem greedy_disjoint (cs : List Candidate) (ts os : List Nat) :
    (greedy cs ts os).Pairwise fun c d => c.track ≠ d.track ∧ c.other ≠ d.other := by
  induction cs generalizing ts os with
  | nil => exact List.Pairwise.nil
  | cons c cs ih =>
    unfold greedy
    split
    · exact ih _ _
    · refine List.pairwise_cons.2 ⟨fun d hd => ?_, ih _ _⟩
      have := greedy_fresh cs _ _ d hd
      exact ⟨fun e => this.1 (by simp [e]), fun e => this.2 (by simp [e])⟩

end Sys2Proof.Machine
end

