-- ==== Sys2Proof/Laws/State.lean ====
section
/-! SUPPORT. One lemma per field for each update of State, true by rfl. -/

namespace Sys2Proof.Machine

/-! ### elapse -/

@[simp] theorem State.elapse_pending (s : State) (n : Nat) : (s.elapse n).pending = s.pending := rfl
@[simp] theorem State.elapse_now (s : State) (n : Nat) : (s.elapse n).now = s.now + n := rfl
@[simp] theorem State.elapse_siu (s : State) (n : Nat) : (s.elapse n).siu = s.siu := rfl
@[simp] theorem State.elapse_du (s : State) (n : Nat) : (s.elapse n).du = s.du := rfl
@[simp] theorem State.elapse_tt (s : State) (n : Nat) : (s.elapse n).tt = s.tt := rfl
@[simp] theorem State.elapse_wau (s : State) (n : Nat) : (s.elapse n).wau = s.wau := rfl
@[simp] theorem State.elapse_rq (s : State) (n : Nat) : (s.elapse n).rq = s.rq := rfl
@[simp] theorem State.elapse_rlc (s : State) (n : Nat) : (s.elapse n).rlc = s.rlc := rfl
@[simp] theorem State.elapse_rca (s : State) (n : Nat) : (s.elapse n).rca = s.rca := rfl

/-! ### withSiu -/

@[simp] theorem State.withSiu_pending (s : State) (x : Siu) : (s.withSiu x).pending = s.pending := rfl
@[simp] theorem State.withSiu_now (s : State) (x : Siu) : (s.withSiu x).now = s.now := rfl
@[simp] theorem State.withSiu_siu (s : State) (x : Siu) : (s.withSiu x).siu = x := rfl
@[simp] theorem State.withSiu_du (s : State) (x : Siu) : (s.withSiu x).du = s.du := rfl
@[simp] theorem State.withSiu_tt (s : State) (x : Siu) : (s.withSiu x).tt = s.tt := rfl
@[simp] theorem State.withSiu_wau (s : State) (x : Siu) : (s.withSiu x).wau = s.wau := rfl
@[simp] theorem State.withSiu_rq (s : State) (x : Siu) : (s.withSiu x).rq = s.rq := rfl
@[simp] theorem State.withSiu_rlc (s : State) (x : Siu) : (s.withSiu x).rlc = s.rlc := rfl
@[simp] theorem State.withSiu_rca (s : State) (x : Siu) : (s.withSiu x).rca = s.rca := rfl

/-! ### withDu -/

@[simp] theorem State.withDu_pending (s : State) (x : Du) : (s.withDu x).pending = s.pending := rfl
@[simp] theorem State.withDu_now (s : State) (x : Du) : (s.withDu x).now = s.now := rfl
@[simp] theorem State.withDu_siu (s : State) (x : Du) : (s.withDu x).siu = s.siu := rfl
@[simp] theorem State.withDu_du (s : State) (x : Du) : (s.withDu x).du = x := rfl
@[simp] theorem State.withDu_tt (s : State) (x : Du) : (s.withDu x).tt = s.tt := rfl
@[simp] theorem State.withDu_wau (s : State) (x : Du) : (s.withDu x).wau = s.wau := rfl
@[simp] theorem State.withDu_rq (s : State) (x : Du) : (s.withDu x).rq = s.rq := rfl
@[simp] theorem State.withDu_rlc (s : State) (x : Du) : (s.withDu x).rlc = s.rlc := rfl
@[simp] theorem State.withDu_rca (s : State) (x : Du) : (s.withDu x).rca = s.rca := rfl

/-! ### withTt -/

@[simp] theorem State.withTt_pending (s : State) (x : Tt) : (s.withTt x).pending = s.pending := rfl
@[simp] theorem State.withTt_now (s : State) (x : Tt) : (s.withTt x).now = s.now := rfl
@[simp] theorem State.withTt_siu (s : State) (x : Tt) : (s.withTt x).siu = s.siu := rfl
@[simp] theorem State.withTt_du (s : State) (x : Tt) : (s.withTt x).du = s.du := rfl
@[simp] theorem State.withTt_tt (s : State) (x : Tt) : (s.withTt x).tt = x := rfl
@[simp] theorem State.withTt_wau (s : State) (x : Tt) : (s.withTt x).wau = s.wau := rfl
@[simp] theorem State.withTt_rq (s : State) (x : Tt) : (s.withTt x).rq = s.rq := rfl
@[simp] theorem State.withTt_rlc (s : State) (x : Tt) : (s.withTt x).rlc = s.rlc := rfl
@[simp] theorem State.withTt_rca (s : State) (x : Tt) : (s.withTt x).rca = s.rca := rfl

/-! ### withWau -/

@[simp] theorem State.withWau_pending (s : State) (x : Wau) : (s.withWau x).pending = s.pending := rfl
@[simp] theorem State.withWau_now (s : State) (x : Wau) : (s.withWau x).now = s.now := rfl
@[simp] theorem State.withWau_siu (s : State) (x : Wau) : (s.withWau x).siu = s.siu := rfl
@[simp] theorem State.withWau_du (s : State) (x : Wau) : (s.withWau x).du = s.du := rfl
@[simp] theorem State.withWau_tt (s : State) (x : Wau) : (s.withWau x).tt = s.tt := rfl
@[simp] theorem State.withWau_wau (s : State) (x : Wau) : (s.withWau x).wau = x := rfl
@[simp] theorem State.withWau_rq (s : State) (x : Wau) : (s.withWau x).rq = s.rq := rfl
@[simp] theorem State.withWau_rlc (s : State) (x : Wau) : (s.withWau x).rlc = s.rlc := rfl
@[simp] theorem State.withWau_rca (s : State) (x : Wau) : (s.withWau x).rca = s.rca := rfl

/-! ### withRq -/

@[simp] theorem State.withRq_pending (s : State) (x : Rq) : (s.withRq x).pending = s.pending := rfl
@[simp] theorem State.withRq_now (s : State) (x : Rq) : (s.withRq x).now = s.now := rfl
@[simp] theorem State.withRq_siu (s : State) (x : Rq) : (s.withRq x).siu = s.siu := rfl
@[simp] theorem State.withRq_du (s : State) (x : Rq) : (s.withRq x).du = s.du := rfl
@[simp] theorem State.withRq_tt (s : State) (x : Rq) : (s.withRq x).tt = s.tt := rfl
@[simp] theorem State.withRq_wau (s : State) (x : Rq) : (s.withRq x).wau = s.wau := rfl
@[simp] theorem State.withRq_rq (s : State) (x : Rq) : (s.withRq x).rq = x := rfl
@[simp] theorem State.withRq_rlc (s : State) (x : Rq) : (s.withRq x).rlc = s.rlc := rfl
@[simp] theorem State.withRq_rca (s : State) (x : Rq) : (s.withRq x).rca = s.rca := rfl

/-! ### withRlc -/

@[simp] theorem State.withRlc_pending (s : State) (x : Rlc) : (s.withRlc x).pending = s.pending := rfl
@[simp] theorem State.withRlc_now (s : State) (x : Rlc) : (s.withRlc x).now = s.now := rfl
@[simp] theorem State.withRlc_siu (s : State) (x : Rlc) : (s.withRlc x).siu = s.siu := rfl
@[simp] theorem State.withRlc_du (s : State) (x : Rlc) : (s.withRlc x).du = s.du := rfl
@[simp] theorem State.withRlc_tt (s : State) (x : Rlc) : (s.withRlc x).tt = s.tt := rfl
@[simp] theorem State.withRlc_wau (s : State) (x : Rlc) : (s.withRlc x).wau = s.wau := rfl
@[simp] theorem State.withRlc_rq (s : State) (x : Rlc) : (s.withRlc x).rq = s.rq := rfl
@[simp] theorem State.withRlc_rlc (s : State) (x : Rlc) : (s.withRlc x).rlc = x := rfl
@[simp] theorem State.withRlc_rca (s : State) (x : Rlc) : (s.withRlc x).rca = s.rca := rfl

/-! ### withRca -/

@[simp] theorem State.withRca_pending (s : State) (x : Rca) : (s.withRca x).pending = s.pending := rfl
@[simp] theorem State.withRca_now (s : State) (x : Rca) : (s.withRca x).now = s.now := rfl
@[simp] theorem State.withRca_siu (s : State) (x : Rca) : (s.withRca x).siu = s.siu := rfl
@[simp] theorem State.withRca_du (s : State) (x : Rca) : (s.withRca x).du = s.du := rfl
@[simp] theorem State.withRca_tt (s : State) (x : Rca) : (s.withRca x).tt = s.tt := rfl
@[simp] theorem State.withRca_wau (s : State) (x : Rca) : (s.withRca x).wau = s.wau := rfl
@[simp] theorem State.withRca_rq (s : State) (x : Rca) : (s.withRca x).rq = s.rq := rfl
@[simp] theorem State.withRca_rlc (s : State) (x : Rca) : (s.withRca x).rlc = s.rlc := rfl
@[simp] theorem State.withRca_rca (s : State) (x : Rca) : (s.withRca x).rca = x := rfl

/-! ### withTracks -/

@[simp] theorem State.withTracks_pending (s : State) (ts : List Track) : (s.withTracks ts).pending = s.pending := rfl
@[simp] theorem State.withTracks_now (s : State) (ts : List Track) : (s.withTracks ts).now = s.now := rfl
@[simp] theorem State.withTracks_siu (s : State) (ts : List Track) : (s.withTracks ts).siu = s.siu := rfl
@[simp] theorem State.withTracks_du (s : State) (ts : List Track) : (s.withTracks ts).du = s.du := rfl
@[simp] theorem State.withTracks_tt (s : State) (ts : List Track) : (s.withTracks ts).tt = { s.tt with tracks := ts } := rfl
@[simp] theorem State.withTracks_wau (s : State) (ts : List Track) : (s.withTracks ts).wau = s.wau := rfl
@[simp] theorem State.withTracks_rq (s : State) (ts : List Track) : (s.withTracks ts).rq = s.rq := rfl
@[simp] theorem State.withTracks_rlc (s : State) (ts : List Track) : (s.withTracks ts).rlc = s.rlc := rfl
@[simp] theorem State.withTracks_rca (s : State) (ts : List Track) : (s.withTracks ts).rca = s.rca := rfl

/-! ### post -/

@[simp] theorem State.post_pending (s : State) (r : Request) : (s.post r).pending = s.pending := rfl
@[simp] theorem State.post_now (s : State) (r : Request) : (s.post r).now = s.now := rfl
@[simp] theorem State.post_siu (s : State) (r : Request) : (s.post r).siu = s.siu := rfl
@[simp] theorem State.post_du (s : State) (r : Request) : (s.post r).du = s.du := rfl
@[simp] theorem State.post_tt (s : State) (r : Request) : (s.post r).tt = { s.tt with requests := s.tt.requests ++ [r] } := rfl
@[simp] theorem State.post_wau (s : State) (r : Request) : (s.post r).wau = s.wau := rfl
@[simp] theorem State.post_rq (s : State) (r : Request) : (s.post r).rq = s.rq := rfl
@[simp] theorem State.post_rlc (s : State) (r : Request) : (s.post r).rlc = s.rlc := rfl
@[simp] theorem State.post_rca (s : State) (r : Request) : (s.post r).rca = s.rca := rfl

/-! ### withCounters -/

@[simp] theorem State.withCounters_pending (s : State) (c : Counters) : (s.withCounters c).pending = s.pending := rfl
@[simp] theorem State.withCounters_now (s : State) (c : Counters) : (s.withCounters c).now = s.now := rfl
@[simp] theorem State.withCounters_siu (s : State) (c : Counters) : (s.withCounters c).siu = s.siu := rfl
@[simp] theorem State.withCounters_du (s : State) (c : Counters) : (s.withCounters c).du = s.du := rfl
@[simp] theorem State.withCounters_tt (s : State) (c : Counters) : (s.withCounters c).tt = s.tt := rfl
@[simp] theorem State.withCounters_wau (s : State) (c : Counters) : (s.withCounters c).wau = s.wau := rfl
@[simp] theorem State.withCounters_rq (s : State) (c : Counters) : (s.withCounters c).rq = s.rq := rfl
@[simp] theorem State.withCounters_rlc (s : State) (c : Counters) : (s.withCounters c).rlc = s.rlc := rfl
@[simp] theorem State.withCounters_rca (s : State) (c : Counters) : (s.withCounters c).rca = { s.rca with counters := c } := rfl

/-! ### withTx -/

@[simp] theorem State.withTx_pending (s : State) (t : Transmitter) : (s.withTx t).pending = s.pending := rfl
@[simp] theorem State.withTx_now (s : State) (t : Transmitter) : (s.withTx t).now = s.now := rfl
@[simp] theorem State.withTx_siu (s : State) (t : Transmitter) : (s.withTx t).siu = s.siu := rfl
@[simp] theorem State.withTx_du (s : State) (t : Transmitter) : (s.withTx t).du = s.du := rfl
@[simp] theorem State.withTx_tt (s : State) (t : Transmitter) : (s.withTx t).tt = s.tt := rfl
@[simp] theorem State.withTx_wau (s : State) (t : Transmitter) : (s.withTx t).wau = s.wau := rfl
@[simp] theorem State.withTx_rq (s : State) (t : Transmitter) : (s.withTx t).rq = s.rq := rfl
@[simp] theorem State.withTx_rlc (s : State) (t : Transmitter) : (s.withTx t).rlc = { s.rlc with tx := t } := rfl
@[simp] theorem State.withTx_rca (s : State) (t : Transmitter) : (s.withTx t).rca = s.rca := rfl

/-! ### enterCycle -/

@[simp] theorem State.enterCycle_pending (s : State) (f : FrameSource) (b : List Byte) : (s.enterCycle f b).pending = s.pending := rfl
@[simp] theorem State.enterCycle_now (s : State) (f : FrameSource) (b : List Byte) : (s.enterCycle f b).now = s.now := rfl
@[simp] theorem State.enterCycle_siu (s : State) (f : FrameSource) (b : List Byte) : (s.enterCycle f b).siu = s.siu := rfl
@[simp] theorem State.enterCycle_du (s : State) (f : FrameSource) (b : List Byte) : (s.enterCycle f b).du = s.du := rfl
@[simp] theorem State.enterCycle_tt (s : State) (f : FrameSource) (b : List Byte) : (s.enterCycle f b).tt = s.tt := rfl
@[simp] theorem State.enterCycle_wau (s : State) (f : FrameSource) (b : List Byte) : (s.enterCycle f b).wau = s.wau := rfl
@[simp] theorem State.enterCycle_rq (s : State) (f : FrameSource) (b : List Byte) : (s.enterCycle f b).rq = s.rq := rfl
@[simp] theorem State.enterCycle_rlc (s : State) (f : FrameSource) (b : List Byte) : (s.enterCycle f b).rlc = { s.rlc with tx := .busy f b 0 .deferring } := rfl
@[simp] theorem State.enterCycle_rca (s : State) (f : FrameSource) (b : List Byte) : (s.enterCycle f b).rca = s.rca := rfl

/-! ### setLatch -/

@[simp] theorem State.setLatch_pending (s : State) (l : Latch) : (s.setLatch l).pending = s.pending := rfl
@[simp] theorem State.setLatch_now (s : State) (l : Latch) : (s.setLatch l).now = s.now := rfl
@[simp] theorem State.setLatch_siu (s : State) (l : Latch) : (s.setLatch l).siu = s.siu := rfl
@[simp] theorem State.setLatch_du (s : State) (l : Latch) : (s.setLatch l).du = s.du := rfl
@[simp] theorem State.setLatch_tt (s : State) (l : Latch) : (s.setLatch l).tt = s.tt := rfl
@[simp] theorem State.setLatch_wau (s : State) (l : Latch) : (s.setLatch l).wau = s.wau := rfl
@[simp] theorem State.setLatch_rq (s : State) (l : Latch) : (s.setLatch l).rq = s.rq := rfl
@[simp] theorem State.setLatch_rlc (s : State) (l : Latch) : (s.setLatch l).rlc = s.rlc := rfl
@[simp] theorem State.setLatch_rca (s : State) (l : Latch) : (s.setLatch l).rca = { s.rca with latches := s.rca.latches ||| BitVec.twoPow 13 l.position, alert := alertAfter s l } := rfl

/-! ### enterNode -/

@[simp] theorem State.enterNode_pending (s : State) (n : NodeState) : (s.enterNode n).pending = s.pending := rfl
@[simp] theorem State.enterNode_now (s : State) (n : NodeState) : (s.enterNode n).now = s.now := rfl
@[simp] theorem State.enterNode_siu (s : State) (n : NodeState) : (s.enterNode n).siu = s.siu := rfl
@[simp] theorem State.enterNode_du (s : State) (n : NodeState) : (s.enterNode n).du = s.du := rfl
@[simp] theorem State.enterNode_tt (s : State) (n : NodeState) : (s.enterNode n).tt = s.tt := rfl
@[simp] theorem State.enterNode_wau (s : State) (n : NodeState) : (s.enterNode n).wau = s.wau := rfl
@[simp] theorem State.enterNode_rq (s : State) (n : NodeState) : (s.enterNode n).rq = s.rq := rfl
@[simp] theorem State.enterNode_rlc (s : State) (n : NodeState) : (s.enterNode n).rlc = s.rlc := rfl
@[simp] theorem State.enterNode_rca (s : State) (n : NodeState) : (s.enterNode n).rca = { s.rca with node := n, since := s.now } := rfl

/-! ### portIdle -/

@[simp] theorem State.portIdle_pending (s : State) : (s.portIdle).pending = s.pending := rfl
@[simp] theorem State.portIdle_now (s : State) : (s.portIdle).now = s.now := rfl
@[simp] theorem State.portIdle_siu (s : State) : (s.portIdle).siu = { s.siu with port := .idle } := rfl
@[simp] theorem State.portIdle_du (s : State) : (s.portIdle).du = s.du := rfl
@[simp] theorem State.portIdle_tt (s : State) : (s.portIdle).tt = s.tt := rfl
@[simp] theorem State.portIdle_wau (s : State) : (s.portIdle).wau = s.wau := rfl
@[simp] theorem State.portIdle_rq (s : State) : (s.portIdle).rq = s.rq := rfl
@[simp] theorem State.portIdle_rlc (s : State) : (s.portIdle).rlc = s.rlc := rfl
@[simp] theorem State.portIdle_rca (s : State) : (s.portIdle).rca = s.rca := rfl

/-! ### served -/

@[simp] theorem State.served_pending (s : State) : (s.served).pending = s.pending := rfl
@[simp] theorem State.served_now (s : State) : (s.served).now = s.now := rfl
@[simp] theorem State.served_siu (s : State) : (s.served).siu = s.siu := rfl
@[simp] theorem State.served_du (s : State) : (s.served).du = s.du := rfl
@[simp] theorem State.served_tt (s : State) : (s.served).tt = { s.tt with serving := none } := rfl
@[simp] theorem State.served_wau (s : State) : (s.served).wau = s.wau := rfl
@[simp] theorem State.served_rq (s : State) : (s.served).rq = s.rq := rfl
@[simp] theorem State.served_rlc (s : State) : (s.served).rlc = s.rlc := rfl
@[simp] theorem State.served_rca (s : State) : (s.served).rca = s.rca := rfl

/-! ### closeTable -/

@[simp] theorem State.closeTable_pending (s : State) : (s.closeTable).pending = s.pending := rfl
@[simp] theorem State.closeTable_now (s : State) : (s.closeTable).now = s.now := rfl
@[simp] theorem State.closeTable_siu (s : State) : (s.closeTable).siu = s.siu := rfl
@[simp] theorem State.closeTable_du (s : State) : (s.closeTable).du = s.du := rfl
@[simp] theorem State.closeTable_tt (s : State) : (s.closeTable).tt = { s.tt with isOpen := false, requests := [] } := rfl
@[simp] theorem State.closeTable_wau (s : State) : (s.closeTable).wau = s.wau := rfl
@[simp] theorem State.closeTable_rq (s : State) : (s.closeTable).rq = s.rq := rfl
@[simp] theorem State.closeTable_rlc (s : State) : (s.closeTable).rlc = s.rlc := rfl
@[simp] theorem State.closeTable_rca (s : State) : (s.closeTable).rca = s.rca := rfl

/-! ### enqueue -/

@[simp] theorem State.enqueue_pending (s : State) (r : Record) : (s.enqueue r).pending = s.pending := rfl
@[simp] theorem State.enqueue_now (s : State) (r : Record) : (s.enqueue r).now = s.now := rfl
@[simp] theorem State.enqueue_siu (s : State) (r : Record) : (s.enqueue r).siu = s.siu := rfl
@[simp] theorem State.enqueue_du (s : State) (r : Record) : (s.enqueue r).du = s.du := rfl
@[simp] theorem State.enqueue_tt (s : State) (r : Record) : (s.enqueue r).tt = s.tt := rfl
@[simp] theorem State.enqueue_wau (s : State) (r : Record) : (s.enqueue r).wau = s.wau := rfl
@[simp] theorem State.enqueue_rq (s : State) (r : Record) : (s.enqueue r).rq = { s.rq with queued := s.rq.queued ++ [⟨r, s.now⟩] } := rfl
@[simp] theorem State.enqueue_rlc (s : State) (r : Record) : (s.enqueue r).rlc = s.rlc := rfl
@[simp] theorem State.enqueue_rca (s : State) (r : Record) : (s.enqueue r).rca = s.rca := rfl

/-! ### countDrainLoss -/

@[simp] theorem State.countDrainLoss_pending (s : State) (n : Nat) : (s.countDrainLoss n).pending = s.pending := rfl
@[simp] theorem State.countDrainLoss_now (s : State) (n : Nat) : (s.countDrainLoss n).now = s.now := rfl
@[simp] theorem State.countDrainLoss_siu (s : State) (n : Nat) : (s.countDrainLoss n).siu = s.siu := rfl
@[simp] theorem State.countDrainLoss_du (s : State) (n : Nat) : (s.countDrainLoss n).du = s.du := rfl
@[simp] theorem State.countDrainLoss_tt (s : State) (n : Nat) : (s.countDrainLoss n).tt = s.tt := rfl
@[simp] theorem State.countDrainLoss_wau (s : State) (n : Nat) : (s.countDrainLoss n).wau = s.wau := rfl
@[simp] theorem State.countDrainLoss_rq (s : State) (n : Nat) : (s.countDrainLoss n).rq = s.rq := rfl
@[simp] theorem State.countDrainLoss_rlc (s : State) (n : Nat) : (s.countDrainLoss n).rlc = s.rlc := rfl
@[simp] theorem State.countDrainLoss_rca (s : State) (n : Nat) : (s.countDrainLoss n).rca = { s.rca with counters := { s.rca.counters with drainLoss := raise max16 s.rca.counters.drainLoss n } } := rfl

/-! ### refuseRecord -/

@[simp] theorem State.refuseRecord_pending (s : State) : (s.refuseRecord).pending = s.pending := rfl
@[simp] theorem State.refuseRecord_now (s : State) : (s.refuseRecord).now = s.now := rfl
@[simp] theorem State.refuseRecord_siu (s : State) : (s.refuseRecord).siu = s.siu := rfl
@[simp] theorem State.refuseRecord_du (s : State) : (s.refuseRecord).du = s.du := rfl
@[simp] theorem State.refuseRecord_tt (s : State) : (s.refuseRecord).tt = s.tt := rfl
@[simp] theorem State.refuseRecord_wau (s : State) : (s.refuseRecord).wau = s.wau := rfl
@[simp] theorem State.refuseRecord_rq (s : State) : (s.refuseRecord).rq = s.rq := rfl
@[simp] theorem State.refuseRecord_rlc (s : State) : (s.refuseRecord).rlc = s.rlc := rfl

/-! ### settleBy -/

@[simp] theorem State.settleBy_pending (s : State) (scan : Scan) : (s.settleBy scan).pending = s.pending := rfl
@[simp] theorem State.settleBy_now (s : State) (scan : Scan) : (s.settleBy scan).now = s.now := rfl
@[simp] theorem State.settleBy_du (s : State) (scan : Scan) : (s.settleBy scan).du = s.du := rfl
@[simp] theorem State.settleBy_tt (s : State) (scan : Scan) : (s.settleBy scan).tt = s.tt := rfl
@[simp] theorem State.settleBy_wau (s : State) (scan : Scan) : (s.settleBy scan).wau = s.wau := rfl
@[simp] theorem State.settleBy_rq (s : State) (scan : Scan) : (s.settleBy scan).rq = s.rq := rfl
@[simp] theorem State.settleBy_rlc (s : State) (scan : Scan) : (s.settleBy scan).rlc = s.rlc := rfl
@[simp] theorem State.settleBy_rca (s : State) (scan : Scan) : (s.settleBy scan).rca = s.rca := rfl

/-! ### countSpot -/

@[simp] theorem State.countSpot_pending (s : State) (scan : Scan) (p : CarSpot) : (s.countSpot scan p).pending = s.pending := rfl
@[simp] theorem State.countSpot_now (s : State) (scan : Scan) (p : CarSpot) : (s.countSpot scan p).now = s.now := rfl
@[simp] theorem State.countSpot_du (s : State) (scan : Scan) (p : CarSpot) : (s.countSpot scan p).du = s.du := rfl
@[simp] theorem State.countSpot_tt (s : State) (scan : Scan) (p : CarSpot) : (s.countSpot scan p).tt = s.tt := rfl
@[simp] theorem State.countSpot_wau (s : State) (scan : Scan) (p : CarSpot) : (s.countSpot scan p).wau = s.wau := rfl
@[simp] theorem State.countSpot_rq (s : State) (scan : Scan) (p : CarSpot) : (s.countSpot scan p).rq = s.rq := rfl
@[simp] theorem State.countSpot_rlc (s : State) (scan : Scan) (p : CarSpot) : (s.countSpot scan p).rlc = s.rlc := rfl
@[simp] theorem State.countSpot_rca (s : State) (scan : Scan) (p : CarSpot) : (s.countSpot scan p).rca = s.rca := rfl

end Sys2Proof.Machine
end

