-- ==== Sys2Proof/Laws/Queue.lean ====
section
/-! SUPPORT. What offering a record, forming a GAUGE frame and the arbiter's choice can touch and what they leave
(R120 to R123, R129, R142, R165), said once as a footprint that every shared operation of the closes, the scan pass and the
applications stays within. -/

namespace Sys2Proof.Machine

/-- `s'` differs from `s` at most in: the records of the RQ, which gain some at the tail, each with the property `P`; the
transmitter, the EDGE slot, the latches, the clear mask, the pending STATUS, two counters and the alert pulse; and it keeps
the laws of the queue and of the transmitter. -/
structure QueueFootprint (P : QueuedRecord → Prop) (s s' : State) : Prop where
  pending : s'.pending = s.pending
  now : s'.now = s.now
  siu : s'.siu = s.siu
  du : s'.du = s.du
  tt : s'.tt = s.tt
  wau : s'.wau = s.wau
  hold : s'.rq.hold = s.rq.hold
  pastLimit : s'.rq.pastLimit = s.rq.pastLimit
  carrier : s'.rlc.carrier = s.rlc.carrier
  reception : s'.rlc.reception = s.rlc.reception
  lastQuiet : s'.rlc.lastQuiet = s.rlc.lastQuiet
  heartbeat : s'.rlc.heartbeat = s.rlc.heartbeat
  leftLife : s'.rlc.leftLife = s.rlc.leftLife
  rightLife : s'.rlc.rightLife = s.rlc.rightLife
  node : s'.rca.node = s.rca.node
  since : s'.rca.since = s.rca.since
  slot : s'.rca.slot = s.rca.slot
  pendingSettings : s'.rca.pendingSettings = s.rca.pendingSettings
  runSettings : s'.rca.runSettings = s.rca.runSettings
  drainTimer : s'.rca.drainTimer = s.rca.drainTimer
  counters : s'.rca.counters =
    { s.rca.counters with lostBins := s'.rca.counters.lostBins, drainLoss := s'.rca.counters.drainLoss }
  records : ∃ new, s'.rq.records = s.rq.records ++ new ∧ ∀ q ∈ new, P q
  capacity : QueueSound s → QueueSound s'
  transmitter : TransmitterSound s → TransmitterSound s'
  drainEnd : drainEndPending s = false → drainEndPending s' = false
    ∧ ∀ b n p, s'.rlc.tx = .busy (.status true) b n p → s.rlc.tx = .busy (.status true) b n p
  busy : s.rlc.tx ≠ .free → s'.rlc.tx = s.rlc.tx ∧ s'.rlc.edgeSlot = s.rlc.edgeSlot

variable {P : QueuedRecord → Prop} {a b c s s' : State}

theorem QueueFootprint.refl (P : QueuedRecord → Prop) (s : State) : QueueFootprint P s s := by
  constructor <;> first | rfl | exact id | exact ⟨[], by simp, by simp⟩ | exact fun h => ⟨h, fun _ _ _ h => h⟩ | exact fun _ => ⟨rfl, rfl⟩

theorem QueueFootprint.trans (h : QueueFootprint P a b) (h' : QueueFootprint P b c) : QueueFootprint P a c := by
  constructor
  · exact h'.pending.trans h.pending
  · exact h'.now.trans h.now
  · exact h'.siu.trans h.siu
  · exact h'.du.trans h.du
  · exact h'.tt.trans h.tt
  · exact h'.wau.trans h.wau
  · exact h'.hold.trans h.hold
  · exact h'.pastLimit.trans h.pastLimit
  · exact h'.carrier.trans h.carrier
  · exact h'.reception.trans h.reception
  · exact h'.lastQuiet.trans h.lastQuiet
  · exact h'.heartbeat.trans h.heartbeat
  · exact h'.leftLife.trans h.leftLife
  · exact h'.rightLife.trans h.rightLife
  · exact h'.node.trans h.node
  · exact h'.since.trans h.since
  · exact h'.slot.trans h.slot
  · exact h'.pendingSettings.trans h.pendingSettings
  · exact h'.runSettings.trans h.runSettings
  · exact h'.drainTimer.trans h.drainTimer
  · rw [h'.counters, h.counters]
  · obtain ⟨n, e, p⟩ := h.records
    obtain ⟨n', e', p'⟩ := h'.records
    exact ⟨n ++ n', by rw [e', e, List.append_assoc], by simpa [or_imp, forall_and] using ⟨p, p'⟩⟩
  · exact h'.capacity ∘ h.capacity
  · exact h'.transmitter ∘ h.transmitter
  · intro hd
    obtain ⟨h1, h2⟩ := h.drainEnd hd
    obtain ⟨h3, h4⟩ := h'.drainEnd h1
    exact ⟨h3, fun b n p e => h2 _ _ _ (h4 _ _ _ e)⟩
  · intro hb
    obtain ⟨h1, h2⟩ := h.busy hb
    obtain ⟨h3, h4⟩ := h'.busy (by rw [h1]; exact hb)
    exact ⟨h3.trans h1, h4.trans h2⟩

theorem QueueFootprint.mono {Q : QueuedRecord → Prop} (hPQ : ∀ q, P q → Q q) (h : QueueFootprint P s s') :
    QueueFootprint Q s s' :=
  { h with records := by obtain ⟨n, e, p⟩ := h.records; exact ⟨n, e, fun q hq => hPQ q (p q hq)⟩ }

theorem QueueFootprint.settings (h : QueueFootprint P s s') : s'.settings = s.settings := by
  unfold State.settings; rw [h.runSettings]

/-- A change of latches, alert pulse and the two counters alone. -/
theorem rca_footprint (P : QueuedRecord → Prop) (s : State) (l : BitVec 13) (al : Option Nat) (lost drain : Nat) :
    QueueFootprint P s (s.withRca { s.rca with
      latches := l, alert := al, counters := { s.rca.counters with lostBins := lost, drainLoss := drain } }) := by
  constructor <;> first | rfl | exact id | exact ⟨[], by simp, by simp⟩ | exact fun h => ⟨h, fun _ _ _ h => h⟩ | exact fun _ => ⟨rfl, rfl⟩

theorem setLatch_footprint (P : QueuedRecord → Prop) (s : State) (l : Latch) : QueueFootprint P s (s.setLatch l) :=
  rca_footprint P s _ _ s.rca.counters.lostBins s.rca.counters.drainLoss

theorem latchIf_footprint (P : QueuedRecord → Prop) (s : State) (b : Bool) (l : Latch) :
    QueueFootprint P s (s.latchIf b l) := by
  cases b
  · exact .refl P s
  · exact setLatch_footprint P s l

/-- The arbiter does one of four things: nothing, or one of its three choices in their order of priority (R142). -/
theorem arbitrate_cases (s : State) :
    (arbitrate s = s ∧ (s.rlc.tx = .free → s.rlc.edgeSlot = none ∧ s.rca.status = none
        ∧ (s.rca.runSettings = none ∨ s.rq.inFrame = [])))
    ∨ (∃ e, s.rlc.tx = .free ∧ s.rlc.edgeSlot = some e
        ∧ arbitrate s = (s.withRlc { s.rlc with edgeSlot := none }).enterCycle (.edge e.bin) e.bytes)
    ∨ (∃ p, s.rlc.tx = .free ∧ s.rlc.edgeSlot = none ∧ s.rca.status = some p ∧ arbitrate s = s.chooseStatus p)
    ∨ (∃ r, s.rlc.tx = .free ∧ s.rlc.edgeSlot = none ∧ s.rca.status = none ∧ s.rca.runSettings = some r
        ∧ s.rq.inFrame ≠ [] ∧ arbitrate s = s.enterCycle .gauge (s.gaugeBytes r.source)) := by
  unfold arbitrate
  split
  · rename_i h; exact .inl ⟨rfl, by simp [h]⟩
  · rename_i hf
    split
    · exact .inr (.inl ⟨_, hf, by assumption, rfl⟩)
    · exact .inr (.inr (.inl ⟨_, hf, by assumption, by assumption, rfl⟩))
    · rename_i he hp hr
      cases hq : s.rq.inFrame with
      | nil => exact .inl ⟨by simp, fun _ => ⟨he, hp, .inr rfl⟩⟩
      | cons q qs => exact .inr (.inr (.inr ⟨_, hf, he, hp, hr, by simp, by simp⟩))
    · rename_i he hp hr; exact .inl ⟨rfl, fun _ => ⟨he, hp, .inl hr⟩⟩

theorem arbitrate_footprint (P : QueuedRecord → Prop) (s : State) : QueueFootprint P s (arbitrate s) := by
  obtain ⟨h, -⟩ | ⟨e, hf, he, h⟩ | ⟨p, hf, he, hp, h⟩ | ⟨r, hf, he, hp, hr, hi, h⟩ := arbitrate_cases s <;> rw [h]
  · exact .refl P s
  all_goals
    constructor <;>
      first
        | rfl
        | exact id
        | exact ⟨[], by simp [Rq.records, State.enterCycle, State.chooseStatus, State.withTx], by simp⟩
        | exact fun h => absurd hf h
        | (intro h
           first
             | exact ⟨by simp [State.enterCycle, State.withTx, State.withRlc, State.chooseStatus, State.withRca], h.2⟩
             | exact ⟨h, by simp [State.enterCycle, State.withTx, State.withRlc]⟩
             | exact ⟨rfl, by
                 simp only [drainEndPending, hp, Option.map_some, Option.getD_some] at h
                 simp [State.enterCycle, State.withTx, State.withRlc, State.chooseStatus, h]⟩)

@[simp] theorem arbitrate_rq (s : State) : (arbitrate s).rq = s.rq := by
  obtain ⟨h, -⟩ | ⟨e, -, -, h⟩ | ⟨p, -, -, -, h⟩ | ⟨r, -, -, -, -, -, h⟩ := arbitrate_cases s <;> rw [h] <;> rfl

@[simp] theorem arbitrate_counters (s : State) : (arbitrate s).rca.counters = s.rca.counters := by
  obtain ⟨h, -⟩ | ⟨e, -, -, h⟩ | ⟨p, -, -, -, h⟩ | ⟨r, -, -, -, -, -, h⟩ := arbitrate_cases s <;> rw [h] <;> rfl

@[simp] theorem arbitrate_alert (s : State) : (arbitrate s).rca.alert = s.rca.alert := by
  obtain ⟨h, -⟩ | ⟨e, -, -, h⟩ | ⟨p, -, -, -, h⟩ | ⟨r, -, -, -, -, -, h⟩ := arbitrate_cases s <;> rw [h] <;> rfl

/-- The arbiter leaves a busy transmitter alone: a frame in its cycle is never preempted (R142). -/
theorem arbitrate_busy {s : State} (h : s.rlc.tx ≠ .free) : arbitrate s = s := by
  unfold arbitrate
  split
  · rfl
  · rename_i hf; exact absurd hf h

/-- After the arbiter has decided, the law of the transmitter holds whatever was offered (R142). -/
theorem arbitrate_transmitter {s : State} (hb : ∀ b n k p, s.rlc.tx = .busy b n k p → k < 16)
    (hr : s.rq.inFrame ≠ [] → s.rca.runSettings ≠ none) : TransmitterSound (arbitrate s) := by
  obtain ⟨h, h'⟩ | ⟨e, -, -, h⟩ | ⟨p, -, -, -, h⟩ | ⟨r, -, -, -, -, -, h⟩ := arbitrate_cases s
  · rw [h]
    refine ⟨?_, hr⟩
    split
    · rename_i hf
      obtain ⟨h1, h2, h3⟩ := h' hf
      refine ⟨h1, h2, ?_⟩
      rcases h3 with h3 | h3
      · by_contra hne; exact hr hne h3
      · exact h3
    · rename_i hf; exact hb _ _ _ _ hf
  all_goals rw [h]; exact ⟨by simp [State.enterCycle, State.withTx, State.withRlc, State.chooseStatus, State.withRca], hr⟩

theorem canForm_inFrame {s : State} (h : canForm s = true) : s.rq.inFrame = [] := by
  unfold canForm at h
  split at h
  · simp only [Bool.and_eq_true, List.isEmpty_iff] at h
    exact h.1.1.1
  · cases h

/-- R129 is tested: nothing, or the oldest QUEUED records, up to 24, become IN_FRAME and the arbiter decides. -/
theorem testForm_cases (s : State) :
    testForm s = s
    ∨ (canForm s = true ∧ testForm s = arbitrate (s.withRq { s.rq with
        inFrame := s.rq.queued.take 24, queued := s.rq.queued.drop 24 })) := by
  unfold testForm
  split
  · exact .inr ⟨by assumption, rfl⟩
  · exact .inl rfl

/-- No record is lost, gained or moved past another by the test of R129 (R128). -/
@[simp] theorem testForm_records (s : State) : (testForm s).rq.records = s.rq.records := by
  obtain h | ⟨hc, h⟩ := testForm_cases s <;> rw [h]
  simp [Rq.records, canForm_inFrame hc]

theorem canForm_settings {s : State} (h : canForm s = true) : s.rca.runSettings ≠ none := by
  unfold canForm State.settings at h
  split at h
  · rename_i hs; intro h0; simp [h0] at hs
  · cases h

theorem testForm_footprint (P : QueuedRecord → Prop) (s : State) : QueueFootprint P s (testForm s) := by
  have hrec := testForm_records s
  obtain h | ⟨hc, h⟩ := testForm_cases s <;> rw [h]
  · exact .refl P s
  · have hi := canForm_inFrame hc
    have hset := canForm_settings hc
    have hA := arbitrate_footprint P (s.withRq { s.rq with inFrame := s.rq.queued.take 24, queued := s.rq.queued.drop 24 })
    rw [h] at hrec
    exact
      { hA with
        records := ⟨[], by rw [hrec]; simp, by simp⟩
        capacity := fun hq => by
          simp only [QueueSound, arbitrate_rq, State.withRq_rq, hi, List.length_nil, List.length_take, List.length_drop] at hq ⊢
          omega
        transmitter := fun ht => arbitrate_transmitter
          (fun b n k p e => by
            have h1 := ht.1
            simp only [State.withRq_rlc] at e
            rw [e] at h1; exact h1)
          (fun _ => hset) }

/-- What an offer can do (R121, R133): drain loss, a covered record dropped, a refusal, or an entry. -/
theorem offer_cases (r : Record) (t : Track) (s : State) :
    (s.rq.pastLimit = true ∧ offer r t s = (t, s.countDrainLoss 1))
    ∨ (s.rq.pastLimit = false ∧ t.covers r = true ∧ offer r t s = (t, s))
    ∨ (s.rq.pastLimit = false ∧ t.covers r = false ∧ 64 ≤ s.rq.count ∧ offer r t s = (t, s.refuseRecord))
    ∨ (s.rq.pastLimit = false ∧ t.covers r = false ∧ s.rq.count < 64
        ∧ offer r t s = (t.afterEntry r, testForm (s.enqueue (t.entryOf r)))) := by
  unfold offer Config.queuePlaces
  cases hp : s.rq.pastLimit
  · cases hc : t.covers r
    · by_cases hn : 64 ≤ s.rq.count
      · exact .inr (.inr (.inl ⟨rfl, rfl, hn, by simp [hn]⟩))
      · exact .inr (.inr (.inr ⟨rfl, rfl, by omega, by simp [hn]⟩))
    · exact .inr (.inl ⟨rfl, rfl, by simp⟩)
  · exact .inl ⟨rfl, by simp⟩

theorem enqueue_footprint {P : QueuedRecord → Prop} {r : Record} {s : State} (h : P ⟨r, s.now⟩) (hc : s.rq.count < 64) :
    QueueFootprint P s (s.enqueue r) := by
  constructor <;>
    first
      | rfl
      | exact id
      | exact ⟨[⟨r, s.now⟩], by simp [Rq.records, State.enqueue], by simpa using h⟩
      | exact fun h => ⟨h, fun _ _ _ h => h⟩
      | exact fun _ => ⟨rfl, rfl⟩
      | (intro hq; simp only [QueueSound, Rq.count, State.enqueue, State.withRq_rq, List.length_append, List.length_singleton] at *
         omega)

theorem offer_footprint {P : QueuedRecord → Prop} (r : Record) (t : Track) (s : State) (h : P ⟨t.entryOf r, s.now⟩) :
    QueueFootprint P s (offer r t s).2 := by
  obtain ⟨-, e⟩ | ⟨-, -, e⟩ | ⟨-, -, -, e⟩ | ⟨-, -, hc, e⟩ := offer_cases r t s <;> rw [e]
  · exact rca_footprint P s s.rca.latches s.rca.alert s.rca.counters.lostBins _
  · exact .refl P s
  · exact (setLatch_footprint P s .queueFull).trans
      (rca_footprint P (s.setLatch .queueFull) _ _ _ s.rca.counters.drainLoss)
  · exact (enqueue_footprint h hc).trans (testForm_footprint P _)

/-- An offer changes a track at most in its last queued GPI and its entry marks (R121, R123). -/
theorem offer_track (r : Record) (t : Track) (s : State) : (offer r t s).1 = t ∨ (offer r t s).1 = t.afterEntry r := by
  obtain ⟨-, h⟩ | ⟨-, -, h⟩ | ⟨-, -, -, h⟩ | ⟨-, -, -, h⟩ := offer_cases r t s <;> simp [h]

/-- A property of tracks that entries keep is kept by offering several records. -/
theorem offerAll_track {Q : Track → Prop} (hQ : ∀ t r, Q t → Q (t.afterEntry r)) (rs : List Record) (t : Track)
    (s : State) (h : Q t) : Q (offerAll rs t s).1 := by
  induction rs generalizing t s with
  | nil => exact h
  | cons r rs ih =>
    refine ih _ _ ?_
    rcases offer_track r t s with e | e <;> rw [e]
    · exact h
    · exact hQ t r h

/-- Offering several records of one track: `Q` is what the track keeps and what the property of the entries rests on. -/
theorem offerAll_footprint {P : QueuedRecord → Prop} {Q : Track → Prop} (now : Nat)
    (hQ : ∀ t r, Q t → Q (t.afterEntry r)) (rs : List Record) (t : Track) (s : State) (hn : s.now = now)
    (h : Q t) (hP : ∀ t r, Q t → r ∈ rs → P ⟨t.entryOf r, now⟩) : QueueFootprint P s (offerAll rs t s).2 := by
  induction rs generalizing t s with
  | nil => exact .refl P s
  | cons r rs ih =>
    have h1 := offer_footprint (P := P) r t s (by rw [hn]; exact hP t r h (by simp))
    refine h1.trans (ih _ _ (h1.now.trans hn) ?_ fun t r' ht hr => hP t r' ht (by simp [hr]))
    rcases offer_track r t s with e | e <;> rw [e]
    · exact h
    · exact hQ t r h

/-- Routing changes a track by an entry or by a held record (R120). -/
theorem route_track (r : Record) (t : Track) (s : State) :
    (route r t s).1 = t ∨ (t.role = .owner ∧ (route r t s).1 = t.afterEntry r)
      ∨ (t.role ≠ .owner ∧ (route r t s).1 = { t with held := holdRecord t.held r }) := by
  cases hr : t.role with
  | owner =>
    have : route r t s = offer r t s := by simp [route, hr]
    rw [this]
    rcases offer_track r t s with e | e
    · exact .inl e
    · exact .inr (.inl ⟨rfl, e⟩)
  | shadow => exact .inr (.inr ⟨by simp, by simp [route, hr]⟩)
  | releasing j => exact .inr (.inr ⟨by simp, by simp [route, hr]⟩)

theorem route_footprint {P : QueuedRecord → Prop} (r : Record) (t : Track) (s : State)
    (h : t.role = .owner → P ⟨t.entryOf r, s.now⟩) : QueueFootprint P s (route r t s).2 := by
  unfold route
  split
  · rename_i hr; exact offer_footprint r t s (h hr)
  · exact .refl P s
  · exact .refl P s

/-- A hold list never exceeds four records (R91). -/
theorem holdRecord_length (held : List Record) (r : Record) (h : held.length ≤ 4) : (holdRecord held r).length ≤ 4 := by
  unfold holdRecord Config.holdPlaces
  split
  · simp; omega
  · simp; omega

theorem mem_holdRecord {held : List Record} {r x : Record} (h : x ∈ holdRecord held r) : x ∈ held ∨ x = r := by
  unfold holdRecord at h
  split at h
  · rcases List.mem_append.1 h with h | h
    · exact .inl (List.drop_subset _ _ h)
    · exact .inr (by simpa using h)
  · simpa using h

/-- R160 is tested: the arbiter decides, after the drain-end STATUS became pending where the drain is done. -/
theorem testDrainEnd_cases (s : State) :
    testDrainEnd s = arbitrate s
    ∨ (∃ d, drainDestination s = some d ∧ drainDone s = true
        ∧ testDrainEnd s = arbitrate (s.withRca { s.rca with status := some ⟨.drained, d, true⟩, drainTimer := none })) := by
  unfold testDrainEnd
  split
  · rename_i d hd
    split
    · exact .inr ⟨d, hd, by assumption, rfl⟩
    · exact .inl rfl
  · exact .inl rfl

@[simp] theorem testDrainEnd_rq (s : State) : (testDrainEnd s).rq = s.rq := by
  obtain h | ⟨d, -, -, h⟩ := testDrainEnd_cases s <;> rw [h] <;> simp

@[simp] theorem testDrainEnd_tt (s : State) : (testDrainEnd s).tt = s.tt := by
  obtain h | ⟨d, -, -, h⟩ := testDrainEnd_cases s <;> rw [h]
  · exact (arbitrate_footprint (fun _ => True) s).tt
  · exact (arbitrate_footprint (fun _ => True) _).tt

@[simp] theorem testDrainEnd_siu (s : State) : (testDrainEnd s).siu = s.siu := by
  obtain h | ⟨d, -, -, h⟩ := testDrainEnd_cases s <;> rw [h]
  · exact (arbitrate_footprint (fun _ => True) s).siu
  · exact (arbitrate_footprint (fun _ => True) _).siu

@[simp] theorem testDrainEnd_du (s : State) : (testDrainEnd s).du = s.du := by
  obtain h | ⟨d, -, -, h⟩ := testDrainEnd_cases s <;> rw [h]
  · exact (arbitrate_footprint (fun _ => True) s).du
  · exact (arbitrate_footprint (fun _ => True) _).du

/-- Everything but the transmitter, the EDGE slot, latches, clear mask, pending STATUS and drain timer stays. -/
theorem testDrainEnd_frame (s : State) :
    testDrainEnd s = { s with
      rlc := { s.rlc with tx := (testDrainEnd s).rlc.tx, edgeSlot := (testDrainEnd s).rlc.edgeSlot }
      rca := { s.rca with
        latches := (testDrainEnd s).rca.latches, clearMask := (testDrainEnd s).rca.clearMask
        status := (testDrainEnd s).rca.status, drainTimer := (testDrainEnd s).rca.drainTimer } } := by
  obtain h | ⟨d, -, -, h⟩ := testDrainEnd_cases s <;> rw [h]
  · obtain ⟨h, -⟩ | ⟨e, -, -, h⟩ | ⟨p, -, -, -, h⟩ | ⟨r, -, -, -, -, -, h⟩ := arbitrate_cases s <;> rw [h] <;> rfl
  · obtain ⟨h, -⟩ | ⟨e, -, -, h⟩ | ⟨p, -, -, -, h⟩ | ⟨r, -, -, -, -, -, h⟩ := arbitrate_cases
      (s.withRca { s.rca with status := some ⟨.drained, d, true⟩, drainTimer := none }) <;> rw [h] <;> rfl

end Sys2Proof.Machine
end

