-- ==== Sys2Proof/Laws/Service.lean ====
section
/-! SUPPORT. What the service of a request, the making of a record, a close and a take-over can do, each said once. -/

namespace Sys2Proof.Machine

variable {P : QueuedRecord → Prop}

/-- A served request was the oldest of an open table with settings in force (R52, R54). -/
theorem serveNext_next {s t : State} {f : Settings → Request → State → Option Result} (h : serveNext s f = .next t) :
    ∃ r rest c, s.tt.requests = r :: rest ∧ s.tt.isOpen = true ∧ s.settings = some c
      ∧ f c r (s.withTt { s.tt with requests := rest, serving := some s.tt.tracks.length }) = some (.next t) := by
  unfold serveNext at h
  split at h
  · cases h
  · rename_i r rest hr
    split at h
    · rename_i ho
      split at h
      · rename_i c hc
        refine ⟨r, rest, c, hr, ho, hc, ?_⟩
        cases hf : f c r (s.withTt { s.tt with requests := rest, serving := some s.tt.tracks.length }) with
        | none => rw [hf] at h; cases h
        | some o => rw [hf] at h; exact congrArg some h
      · cases h
    · cases h

/-- An expiry that answers a next state found its timer running and at its end (log 2). -/
theorem onExpiry_next {s t : State} {timer : Option Nat} {go : Result} (h : onExpiry s timer go = .next t) :
    ∃ ends, timer = some ends ∧ ends ≤ s.now ∧ go = .next t := by
  unfold onExpiry at h
  split at h
  · cases h
  · split at h
    · exact ⟨_, rfl, by assumption, h⟩
    · cases h

theorem latchRecord_footprint (P : QueuedRecord → Prop) (s : State) (r : Record) : QueueFootprint P s (s.latchRecord r) :=
  (latchIf_footprint P s _ _).trans (latchIf_footprint P _ _ _)

/-- The release check changes at most the role, of a linked OWNER, to RELEASING from the bin after the record's (R89). -/
theorem releaseCheck_track (c : Settings) (u : Tt) (t : Track) (r : Record) :
    releaseCheck c u t r = t
    ∨ (t.role = .owner ∧ t.link ≠ none ∧ releaseCheck c u t r = { t with role := .releasing (r.gpi + 1) }) := by
  unfold releaseCheck
  split
  · rename_i h
    refine .inr ?_
    unfold releases at h
    split at h
    · rename_i hr hl
      exact ⟨hr, by simp [hl], rfl⟩
    · cases h
  · exact .inl rfl

theorem finishRecord_footprint {r : Record} {t : Track} {s : State} (c : Settings)
    (h : t.role = .owner → P ⟨t.entryOf r, s.now⟩) : QueueFootprint P s (finishRecord c r t s).2 := by
  have hl := latchRecord_footprint P s r
  have hf := hl.trans (route_footprint r t (s.latchRecord r) (by rw [hl.now]; exact h))
  unfold finishRecord
  simp only
  split <;> exact hf

/-- What the making of a record does to its track: an entry or a held record, then perhaps the start of a release. -/
theorem finishRecord_track (c : Settings) (r : Record) (t : Track) (s : State) :
    ∃ u, (u = t ∨ t.role = .owner ∧ u = t.afterEntry r ∨ t.role ≠ .owner ∧ u = { t with held := holdRecord t.held r })
      ∧ ((finishRecord c r t s).1 = u
        ∨ r.final = false ∧ u.role = .owner ∧ u.link ≠ none
          ∧ (finishRecord c r t s).1 = { u with role := .releasing (r.gpi + 1) }) := by
  refine ⟨(route r t (s.latchRecord r)).1, route_track r t _, ?_⟩
  unfold finishRecord
  simp only
  split
  · exact .inl rfl
  · rename_i hf
    rcases releaseCheck_track c s.tt (route r t (s.latchRecord r)).1 r with e | ⟨h1, h2, e⟩
    · exact .inl e
    · exact .inr ⟨by simpa using hf, h1, h2, e⟩

theorem closeAccumulator_footprint {a : Accumulator} {t : Track} {s : State} (c : Settings) (final : Bool) (st : TrackState)
    (h : t.role = .owner → st.isTentative = false → P ⟨t.entryOf (fullRecord c final t.label a), s.now⟩) :
    QueueFootprint P s (closeAccumulator c final st a t s).2 := by
  unfold closeAccumulator
  split
  · exact .refl P s
  · rename_i ht
    exact finishRecord_footprint c fun hr => h hr (by simpa using ht)

theorem closeTrack_footprint {t : Track} {s : State} (c : Settings) (k : Int) (final : Bool)
    (h : ∀ a, t.acc = some a → a.bin ≤ k → P ⟨t.entryOf (fullRecord c final t.label a), s.now⟩)
    (h' : P ⟨t.entryOf (noSampleRecord final k t), s.now⟩) :
    QueueFootprint P s (closeTrack c k final t s).2 := by
  unfold closeTrack
  split
  · rename_i a ha
    split
    · exact closeAccumulator_footprint c final _ fun _ _ => h a ha (by assumption)
    · exact .refl P s
  · split
    · exact .refl P s
    · unfold closeUnseen
      split
      · exact .refl P s
      · split
        · exact .refl P s
        · exact finishRecord_footprint c fun _ => h'

theorem closeTracks_footprint {s : State} (c : Settings) (k : Int) (final : Bool) (ts : List Track)
    (h : ∀ t ∈ ts, (∀ a, t.acc = some a → a.bin ≤ k → P ⟨t.entryOf (fullRecord c final t.label a), s.now⟩)
      ∧ P ⟨t.entryOf (noSampleRecord final k t), s.now⟩) :
    QueueFootprint P s (closeTracks c k final ts s).2 := by
  induction ts generalizing s with
  | nil => exact .refl P s
  | cons t ts ih =>
    have h1 := closeTrack_footprint c k final (h t (by simp)).1 (h t (by simp)).2
    exact h1.trans (ih fun u hu => by rw [h1.now]; exact h u (by simp [hu]))

/-- A take-over leaves the track OWNER with an empty hold list; link, label and what is not an entry mark stay (R92). -/
theorem takeOver_track (start : Option Int) (t : Track) (s : State) :
    (takeOver start t s).1 = { t with
      role := .owner, held := [], lastQueued := (takeOver start t s).1.lastQueued
      contested := (takeOver start t s).1.contested, takenOver := (takeOver start t s).1.takenOver
      mark := (takeOver start t s).1.mark } := by
  unfold takeOver
  split
  · exact offerAll_track (Q := fun u => u = { t with
      role := .owner, held := [], lastQueued := u.lastQueued, contested := u.contested, takenOver := u.takenOver
      mark := u.mark }) (fun u r h => by
        have e : u.afterEntry r = { u with lastQueued := some r.gpi, contested := false, takenOver := false, mark := none } := rfl
        rw [e]
        rw [h]) _ _ _ rfl
  · rfl

theorem takeOver_footprint {t : Track} {s : State} (start : Option Int)
    (h : ∀ (u : Track) (r : Record), u.label = t.label → r ∈ t.held → P ⟨u.entryOf r, s.now⟩) :
    QueueFootprint P s (takeOver start t s).2 := by
  unfold takeOver
  split
  · exact offerAll_footprint (Q := fun u => u.label = t.label) s.now (fun _ _ e => e) _ _ _ rfl rfl
      fun u r hu hr => h u r hu (List.mem_of_mem_filter hr)
  · exact .refl P s

/-- A dissolved link leaves the track unlinked and OWNER, with its label and no peer fields (R88, R96). -/
theorem dissolve_track (t : Track) (s : State) :
    (t.role = .owner → (dissolve t s).1 = { t with link := none, absent := 0, peerRole := none, peerThrough := none })
    ∧ (t.role ≠ .owner → (dissolve t s).1 = { t with
        role := .owner, held := [], link := none, absent := 0, peerRole := none, peerThrough := none
        lastQueued := (dissolve t s).1.lastQueued, contested := (dissolve t s).1.contested
        takenOver := (dissolve t s).1.takenOver, mark := (dissolve t s).1.mark }) := by
  have h := takeOver_track (takeOverStart t) { t with link := none, absent := 0, peerRole := none } s
  constructor
  · intro hr; simp [dissolve, hr]
  · intro hr
    have e : (dissolve t s).1 = { (takeOver (takeOverStart t) { t with link := none, absent := 0, peerRole := none } s).1
        with peerThrough := none } := by
      unfold dissolve
      split
      · rename_i h'; exact absurd h' hr
      · rfl
      · rfl
    rw [e, h]

theorem dissolve_footprint {t : Track} {s : State} (h : ∀ (u : Track) (r : Record), u.label = t.label → r ∈ t.held → P ⟨u.entryOf r, s.now⟩) :
    QueueFootprint P s (dissolve t s).2 := by
  unfold dissolve
  simp only
  split
  · exact .refl P s
  · exact takeOver_footprint _ h
  · exact takeOver_footprint _ h

theorem roleOutcome_footprint {t : Track} {s : State} (n : Nat) (e : EdgeEntry)
    (h : ∀ (u : Track) (r : Record), u.label = t.label → r ∈ t.held → P ⟨u.entryOf r, s.now⟩) :
    QueueFootprint P s (roleOutcome n e t s).2 := by
  unfold roleOutcome
  simp only
  split
  · split
    · exact setLatch_footprint P _ _
    · exact .refl P s
  · exact .refl P s
  · exact .refl P s
  · exact .refl P s
  · exact takeOver_footprint _ h
  · split
    · exact takeOver_footprint _ h
    · exact .refl P s
  · exact .refl P s
  · exact .refl P s
  · split
    · exact takeOver_footprint _ h
    · exact .refl P s

theorem settle_footprint {t : Track} {s : State} (side : Side) (r : EdgeReport) (e : EdgeEntry)
    (h : ∀ (u : Track) (r : Record), u.label = t.label → r ∈ t.held → P ⟨u.entryOf r, s.now⟩) :
    QueueFootprint P s (settle side r e t s).2 := roleOutcome_footprint _ _ h

theorem countAbsence_footprint {t : Track} {s : State} (h : ∀ (u : Track) (r : Record), u.label = t.label → r ∈ t.held → P ⟨u.entryOf r, s.now⟩) :
    QueueFootprint P s (countAbsence t s).2 := by
  unfold countAbsence
  split
  · exact dissolve_footprint h
  · exact .refl P s

/-- The fields of a track that applications keep (R72), with its label. -/
structure Kept (t u : Track) : Prop where
  label : u.label = t.label
  birth : u.birth = t.birth
  state : u.state = t.state
  missedBins : u.missedBins = t.missedBins
  lastX : u.lastX = t.lastX
  lastZ : u.lastZ = t.lastZ
  acc : u.acc = t.acc
  former : u.former = t.former

theorem Kept.refl (t : Track) : Kept t t := by constructor <;> rfl

theorem Kept.trans {t u v : Track} (h : Kept t u) (h' : Kept u v) : Kept t v := by
  constructor
  · exact h'.label.trans h.label
  · exact h'.birth.trans h.birth
  · exact h'.state.trans h.state
  · exact h'.missedBins.trans h.missedBins
  · exact h'.lastX.trans h.lastX
  · exact h'.lastZ.trans h.lastZ
  · exact h'.acc.trans h.acc
  · exact h'.former.trans h.former

theorem takeOver_kept (start : Option Int) (t : Track) (s : State) : Kept t (takeOver start t s).1 := by
  have h := takeOver_track start t s
  constructor <;> rw [h]

theorem dissolve_kept (t : Track) (s : State) : Kept t (dissolve t s).1 := by
  obtain ⟨h1, h2⟩ := dissolve_track t s
  by_cases hr : t.role = .owner
  · rw [h1 hr]; constructor <;> rfl
  · have h := h2 hr; constructor <;> rw [h]

theorem countAbsence_kept (t : Track) (s : State) : Kept t (countAbsence t s).1 := by
  unfold countAbsence
  split
  · exact dissolve_kept t s
  · constructor <;> rfl

theorem roleOutcome_kept (n : Nat) (e : EdgeEntry) (t : Track) (s : State) : Kept t (roleOutcome n e t s).1 := by
  unfold roleOutcome
  simp only
  split
  · split <;> constructor <;> rfl
  · exact .refl t
  · exact .refl t
  · exact .refl t
  · exact takeOver_kept _ _ _
  · split
    · exact takeOver_kept _ _ _
    · exact .refl t
  · constructor <;> rfl
  · exact .refl t
  · split
    · exact takeOver_kept _ _ _
    · exact .refl t

theorem settle_kept (side : Side) (r : EdgeReport) (e : EdgeEntry) (t : Track) (s : State) :
    Kept t (settle side r e t s).1 := by
  have h := roleOutcome_kept r.source e { t with link := some side, absent := 0 } s
  unfold settle Track.peerFrom
  constructor
  · exact h.label
  · exact h.birth
  · exact h.state
  · exact h.missedBins
  · exact h.lastX
  · exact h.lastZ
  · exact h.acc
  · exact h.former

end Sys2Proof.Machine
end

