-- ==== Sys2Proof/Laws/Tracks.lean ====
section
/-! SUPPORT. What the services of the track table do to the table as a whole: applications (R78, R96), closes (R125) and
the scan pass (R56), each with the footprint it stays within. -/

namespace Sys2Proof.Machine

variable {P : QueuedRecord → Prop} {a b c s s' : State}

/-! ## Tables -/

/-- Putting the same table into both states keeps a footprint. -/
theorem QueueFootprint.withTt (h : QueueFootprint P s s') (x : Tt) : QueueFootprint P (s.withTt x) (s'.withTt x) :=
  { h with tt := rfl, capacity := h.capacity, transmitter := h.transmitter, drainEnd := h.drainEnd }

/-- `s'` differs from `s` at most within the footprint of the queue, and in its tracks. -/
def TracksFootprint (P : QueuedRecord → Prop) (s s' : State) : Prop :=
  QueueFootprint P s (s'.withTt s.tt) ∧ s'.tt = { s.tt with tracks := s'.tt.tracks }

theorem TracksFootprint.refl (P : QueuedRecord → Prop) (s : State) : TracksFootprint P s s := ⟨.refl P s, rfl⟩

theorem TracksFootprint.trans (h : TracksFootprint P a b) (h' : TracksFootprint P b c) : TracksFootprint P a c :=
  ⟨h.1.trans (h'.1.withTt a.tt), by rw [h'.2, h.2]⟩

theorem QueueFootprint.tracks (h : QueueFootprint P s s') : TracksFootprint P s s' :=
  ⟨by have := h.withTt s.tt; exact this, by rw [h.tt]⟩

theorem withTracks_footprint (P : QueuedRecord → Prop) (s : State) (ts : List Track) :
    TracksFootprint P s (s.withTracks ts) := ⟨.refl P s, rfl⟩

/-- A step within the queue's footprint, then new tracks. -/
theorem QueueFootprint.withTracks (h : QueueFootprint P s s') (ts : List Track) : TracksFootprint P s (s'.withTracks ts) :=
  h.tracks.trans (withTracks_footprint P s' ts)

theorem TracksFootprint.now (h : TracksFootprint P s s') : s'.now = s.now := h.1.now

/-! ## Applications -/

/-- An operation on one track keeps the others (R78, R96). -/
theorem updateTrack_spec {s : State} {i : Nat} {f : Track → State → Track × State}
    (hf : ∀ t, s.tt.tracks[i]? = some t → QueueFootprint P s (f t s).2) :
    TracksFootprint P s (s.updateTrack i f)
      ∧ (s.updateTrack i f).tt.tracks.length = s.tt.tracks.length
      ∧ ∀ j, (s.updateTrack i f).tt.tracks[j]? =
          if j = i then (s.tt.tracks[i]?).map (fun t => (f t s).1) else s.tt.tracks[j]? := by
  unfold State.updateTrack
  cases h : s.tt.tracks[i]? with
  | none =>
    refine ⟨.refl P s, rfl, fun j => ?_⟩
    by_cases e : j = i
    · subst e; simp [h]
    · simp [e]
  | some t =>
    have hq := hf t h
    refine ⟨hq.withTracks _, by simp [State.withTracks, hq.tt], fun j => ?_⟩
    simp only [State.withTracks, State.withTt_tt, List.getElem?_set, hq.tt]
    by_cases e : i = j
    · subst e; simp [(List.getElem?_eq_some_iff.1 h).1]
    · simp [e, Ne.symm e]

/-- Operations on several tracks, one after another: `R` relates a track before to the track after. -/
theorem foldl_updateTrack {α : Type} {R : Track → Track → Prop} {I : Track → Prop} (hr : ∀ t, R t t)
    (ht : ∀ t u v, R t u → R u v → R t v)
    (place : α → Nat) (op : α → Track → State → Track × State) (xs : List α) (s : State)
    (hI : ∀ t ∈ s.tt.tracks, I t)
    (hf : ∀ x ∈ xs, ∀ t s', s'.now = s.now → s'.rca.slot = s.rca.slot → I t →
      QueueFootprint P s' (op x t s').2 ∧ R t (op x t s').1 ∧ I (op x t s').1) :
    TracksFootprint P s (xs.foldl (fun s x => s.updateTrack (place x) (op x)) s)
      ∧ (xs.foldl (fun s x => s.updateTrack (place x) (op x)) s).tt.tracks.length = s.tt.tracks.length
      ∧ (∀ t ∈ (xs.foldl (fun s x => s.updateTrack (place x) (op x)) s).tt.tracks, I t)
      ∧ ∀ j : Nat, ∀ t, s.tt.tracks[j]? = some t →
          ∃ u, (xs.foldl (fun s x => s.updateTrack (place x) (op x)) s).tt.tracks[j]? = some u ∧ R t u
            ∧ ((∀ x ∈ xs, place x ≠ j) → u = t) := by
  induction xs generalizing s with
  | nil => exact ⟨.refl P s, rfl, hI, fun j t h => ⟨t, h, hr t, fun _ => rfl⟩⟩
  | cons x xs ih =>
    obtain ⟨h1, h2, h3⟩ := updateTrack_spec (P := P) (s := s) (i := place x) (f := op x)
      (fun t h => (hf x (by simp) t s rfl rfl (hI t (List.mem_of_getElem? h))).1)
    have hslot : (s.updateTrack (place x) (op x)).rca.slot = s.rca.slot := h1.1.slot
    have hI' : ∀ t ∈ (s.updateTrack (place x) (op x)).tt.tracks, I t := by
      intro t hm
      obtain ⟨j, hj⟩ := List.mem_iff_getElem?.1 hm
      rw [h3] at hj
      split at hj
      · cases hp : s.tt.tracks[place x]? with
        | none => rw [hp] at hj; cases hj
        | some u =>
          rw [hp] at hj
          obtain rfl := by simpa using hj
          exact (hf x (by simp) u s rfl rfl (hI u (List.mem_of_getElem? hp))).2.2
      · exact hI t (List.mem_of_getElem? hj)
    obtain ⟨i1, i2, i3, i4⟩ := ih (s.updateTrack (place x) (op x)) hI'
      (fun y hy t s' e1 e2 ht => hf y (by simp [hy]) t s' (e1.trans h1.now) (e2.trans hslot) ht)
    refine ⟨h1.trans i1, i2.trans h2, i3, fun j t h => ?_⟩
    by_cases e : j = place x
    · have h5 := h3 j
      subst e
      rw [if_pos rfl, h, Option.map_some] at h5
      obtain ⟨u, h6, h7, -⟩ := i4 _ _ h5
      refine ⟨u, h6, ht _ _ _ (hf x (by simp) t s rfl rfl (hI t (List.mem_of_getElem? h))).2.1 h7, fun hne => ?_⟩
      exact absurd rfl (hne x (by simp))
    · have h5 := h3 j
      rw [if_neg e, h] at h5
      obtain ⟨u, h6, h7, h8⟩ := i4 j _ h5
      exact ⟨u, h6, h7, fun hne => h8 fun y hy => hne y (by simp [hy])⟩

/-! ## Label matching (R79 to R81) -/

/-- A track keeps all but label, birth and former label, or takes those of a considered entry. -/
def Relabelled (es : List EdgeEntry) (t u : Track) : Prop :=
  u = t ∨ ∃ e ∈ es, u = { t with label := e.label, birth := e.birth, former := u.former }

/-- The standing facts of the matching phases: the tracks are those of the table, some relabelled by considered entries;
labels stay different; a track linked to the other neighbour is never touched. -/
structure MatchingSound (side : Side) (es : List (EdgeEntry × Nat)) (ts : List Track) (m : Matching) : Prop where
  length : m.tracks.length = ts.length
  relabelled : ∀ (i : Nat) (t : Track), ts[i]? = some t → ∃ u, m.tracks[i]? = some u ∧ Relabelled (es.map (·.1)) t u
  nodup : (ts.map (·.label)).Nodup → (m.tracks.map (·.label)).Nodup
  apart : ∀ (i : Nat) (t : Track), ts[i]? = some t → t.link = some (opposite side) → m.tracks[i]? = some t ∧ ∀ p ∈ m.matched, p.2 ≠ i
  passed : ∀ p ∈ m.passed, p ∈ es

theorem Relabelled.relabel {es : List EdgeEntry} {t u : Track} (h : Relabelled es t u) {e : EdgeEntry} (he : e ∈ es) :
    Relabelled es t (u.relabel e) := by
  refine .inr ⟨e, he, ?_⟩
  rcases h with rfl | ⟨e', -, h⟩
  · rfl
  · unfold Track.relabel; rw [h]

/-- Relabelling one track with a label that no track bears keeps the labels different. -/
theorem nodup_modify {ts : List Track} (h : (ts.map (·.label)).Nodup) (e : EdgeEntry) (i : Nat)
    (hb : ∀ t ∈ ts, t.label ≠ e.label) : ((ts.modify i (Track.relabel e)).map (·.label)).Nodup := by
  induction ts generalizing i with
  | nil => simp
  | cons t ts ih =>
    simp only [List.map_cons, List.nodup_cons, List.mem_map, not_exists, not_and] at h
    cases i with
    | zero =>
      simp only [List.modify_zero_cons, List.map_cons, List.nodup_cons, List.mem_map, not_exists, not_and]
      exact ⟨fun x hx => hb x (by simp [hx]), h.2⟩
    | succ i =>
      simp only [List.modify_succ_cons, List.map_cons, List.nodup_cons, List.mem_map, not_exists, not_and]
      refine ⟨fun x hx e' => ?_, ih h.2 i fun u hu => hb u (by simp [hu])⟩
      obtain ⟨j, hj⟩ := List.mem_iff_getElem?.1 hx
      rw [List.getElem?_modify] at hj
      cases hq : ts[j]? with
      | none => rw [hq] at hj; simp at hj
      | some u =>
        rw [hq] at hj
        have hu := List.mem_of_getElem? hq
        split at hj
        · obtain rfl := by simpa using hj
          exact hb t (by simp) (by simpa [Track.relabel] using e'.symm)
        · obtain rfl := by simpa using hj
          exact h.1 _ hu e'

theorem bearer_none {l : Label} {ts : List Track} (h : bearer l ts = none) : ∀ t ∈ ts, t.label ≠ l := by
  intro t ht e
  unfold bearer at h
  rw [List.findIdx?_eq_none_iff] at h
  simpa [e] using h t ht

theorem borne_false {l : Label} {ts : List Track} (h : borne l ts = false) : ∀ t ∈ ts, t.label ≠ l := by
  intro t ht e
  unfold borne at h
  rw [List.any_eq_false] at h
  simpa [e] using h t ht

/-- Relabelling at a place the matching may touch keeps its standing facts. -/
theorem MatchingSound.relabel {side : Side} {es : List (EdgeEntry × Nat)} {ts : List Track} {m : Matching}
    (h : MatchingSound side es ts m) {e : EdgeEntry} (he : e ∈ es.map (·.1)) {i : Nat} (j : Nat)
    (hb : ∀ t ∈ m.tracks, t.label ≠ e.label) (hl : ∀ t, m.tracks[i]? = some t → t.link ≠ some (opposite side)) :
    MatchingSound side es ts { m with tracks := m.tracks.modify i (Track.relabel e), matched := m.matched ++ [(j, i)] } := by
  constructor
  · simpa using h.length
  · intro k t ht
    obtain ⟨u, hu, hr⟩ := h.relabelled k t ht
    simp only [List.getElem?_modify, hu]
    split
    · exact ⟨_, rfl, hr.relabel he⟩
    · exact ⟨_, rfl, hr⟩
  · intro hn
    exact nodup_modify (h.nodup hn) e i hb
  · intro k t ht hk
    obtain ⟨h1, h2⟩ := h.apart k t ht hk
    have hne : i ≠ k := by rintro rfl; exact hl t h1 hk
    simp only [List.getElem?_modify, h1, if_neg hne]
    refine ⟨rfl, fun p hp => ?_⟩
    rcases List.mem_append.1 hp with hp | hp
    · exact h2 p hp
    · obtain rfl := by simpa using hp
      exact hne
  · exact h.passed

/-- Matching a place the matching may touch keeps its standing facts. -/
theorem MatchingSound.matchAt {side : Side} {es : List (EdgeEntry × Nat)} {ts : List Track} {m : Matching}
    (h : MatchingSound side es ts m) {i : Nat} (j : Nat)
    (hl : ∀ t, m.tracks[i]? = some t → t.link ≠ some (opposite side)) :
    MatchingSound side es ts { m with matched := m.matched ++ [(j, i)] } := by
  refine ⟨h.length, h.relabelled, h.nodup, fun k t ht hk => ?_, h.passed⟩
  obtain ⟨h1, h2⟩ := h.apart k t ht hk
  refine ⟨h1, fun p hp => ?_⟩
  rcases List.mem_append.1 hp with hp | hp
  · exact h2 p hp
  · obtain rfl := by simpa using hp
    rintro rfl; exact hl t h1 hk

theorem mayMatch_link {side : Side} {m : Matching} {i : Nat} (h : mayMatch side m i = true) :
    ∀ t, m.tracks[i]? = some t → t.link ≠ some (opposite side) := by
  intro t ht
  unfold mayMatch at h
  rw [ht] at h
  simp only [Bool.and_eq_true, bne_iff_ne, ne_eq] at h
  exact h.1

theorem matchLabel_sound {side : Side} {es : List (EdgeEntry × Nat)} {ts : List Track} {m : Matching}
    (h : MatchingSound side es ts m) {e : EdgeEntry × Nat} (he : e ∈ es) :
    MatchingSound side es ts (matchLabel side m e) := by
  unfold matchLabel
  split
  · split
    · rename_i i _ hm; exact h.matchAt _ (mayMatch_link hm)
    · exact h
  · rename_i hb
    split
    · split
      · rename_i i _ hm
        exact h.relabel (List.mem_map_of_mem he) _ (bearer_none hb) (mayMatch_link hm)
      · exact h
    · exact ⟨h.length, h.relabelled, h.nodup, h.apart, by
        intro p hp
        rcases List.mem_append.1 hp with hp | hp
        · exact h.passed p hp
        · obtain rfl := by simpa using hp
          exact he⟩

theorem matchLabels_sound {side : Side} {es : List (EdgeEntry × Nat)} {ts : List Track} (xs : List (EdgeEntry × Nat))
    (m : Matching) (h : MatchingSound side es ts m) (hx : ∀ x ∈ xs, x ∈ es) :
    MatchingSound side es ts (xs.foldl (matchLabel side) m) := by
  induction xs generalizing m with
  | nil => exact h
  | cons x xs ih => exact ih _ (matchLabel_sound h (hx x (by simp))) fun y hy => hx y (by simp [hy])

/-- A candidate pair of R80 is a passed entry and an unlinked track. -/
theorem linkCandidates_spec {c : Settings} {side : Side} {m : Matching} {k : Candidate} (h : k ∈ linkCandidates c side m) :
    (∃ t, m.tracks[k.track]? = some t ∧ t.link = none) ∧ ∃ e, (e, k.other) ∈ m.passed := by
  unfold linkCandidates at h
  rw [List.mem_flatMap] at h
  obtain ⟨⟨t, i⟩, hti, h⟩ := h
  rw [List.mem_map] at h
  obtain ⟨⟨e, j⟩, hej, rfl⟩ := h
  rw [List.mem_filter] at hej
  refine ⟨⟨t, ?_, ?_⟩, e, hej.1⟩
  · exact List.mk_mem_zipIdx_iff_getElem?.1 hti
  · have := hej.2
    simp only [isLinkCandidate, Bool.and_eq_true, Option.isNone_iff_eq_none] at this
    exact this.1.1.1.1

theorem considered_spec {side : Side} {entries : List EdgeEntry} {p : EdgeEntry × Nat} (h : p ∈ considered side entries) :
    entries[p.2]? = some p.1 ∧ p.1 ∈ entries ∧ p.1.side = opposite side := by
  obtain ⟨e, j⟩ := p
  unfold considered at h
  rw [List.mem_filter] at h
  have h1 := List.mk_mem_zipIdx_iff_getElem?.1 h.1
  exact ⟨h1, List.mem_of_getElem? h1, by simpa using h.2⟩

theorem Relabelled.link {es : List EdgeEntry} {t u : Track} (h : Relabelled es t u) : u.link = t.link := by
  rcases h with rfl | ⟨e, -, h⟩
  · rfl
  · rw [h]

/-- A place of the matching that holds an unlinked track was unlinked in the table. -/
theorem MatchingSound.unlinked {side : Side} {es : List (EdgeEntry × Nat)} {ts : List Track} {m m' : Matching}
    (h : MatchingSound side es ts m) (h' : MatchingSound side es ts m') {i : Nat} {t u : Track} (ht : m.tracks[i]? = some t)
    (hl : t.link = none) (hu : m'.tracks[i]? = some u) : u.link = none := by
  have hi : i < ts.length := by
    rw [← h.length]; exact (List.getElem?_eq_some_iff.1 ht).1
  obtain ⟨v, hv⟩ : ∃ v, ts[i]? = some v := ⟨_, List.getElem?_eq_getElem hi⟩
  obtain ⟨t', ht', hr⟩ := h.relabelled i v hv
  obtain ⟨u', hu', hr'⟩ := h'.relabelled i v hv
  obtain rfl : t = t' := by rw [ht] at ht'; exact Option.some.inj ht'
  obtain rfl : u = u' := by rw [hu] at hu'; exact Option.some.inj hu'
  rw [hr'.link, ← hr.link, hl]

theorem adopt_sound {side : Side} {entries : List EdgeEntry} {ts : List Track} {m m' : Matching}
    (h : MatchingSound side (considered side entries) ts m) (h' : MatchingSound side (considered side entries) ts m')
    {p : Nat × Nat} (hp : (∃ t, m.tracks[p.2]? = some t ∧ t.link = none) ∧ ∃ e, (e, p.1) ∈ m.passed) :
    MatchingSound side (considered side entries) ts (adopt entries m' p) := by
  obtain ⟨⟨t, ht, hl⟩, e, he⟩ := hp
  have hc := h.passed _ he
  have hun : ∀ u, m'.tracks[p.2]? = some u → u.link ≠ some (opposite side) := by
    intro u hu e'
    rw [h.unlinked h' ht hl hu] at e'
    cases e'
  unfold adopt
  split
  · rename_i e0 t0 he0 ht0
    obtain rfl : e0 = e := by
      have := (considered_spec hc).1
      simp only at this
      rw [this] at he0; exact (Option.some.inj he0).symm
    split
    · split
      · exact h'
      · rename_i hb
        exact h'.relabel (List.mem_map.2 ⟨_, hc, rfl⟩) p.1 (borne_false (by simpa using hb)) hun
    · exact h'.matchAt p.1 hun
  · exact h'

theorem adopts_sound {side : Side} {entries : List EdgeEntry} {ts : List Track} {m : Matching}
    (h : MatchingSound side (considered side entries) ts m) (ps : List (Nat × Nat)) (m' : Matching)
    (h' : MatchingSound side (considered side entries) ts m')
    (hp : ∀ p ∈ ps, (∃ t, m.tracks[p.2]? = some t ∧ t.link = none) ∧ ∃ e, (e, p.1) ∈ m.passed) :
    MatchingSound side (considered side entries) ts (ps.foldl (adopt entries) m') := by
  induction ps generalizing m' with
  | nil => exact h'
  | cons p ps ih => exact ih _ (adopt_sound h h' (hp p (by simp))) fun q hq => hp q (by simp [hq])

/-- Phases 1 to 3 of an application keep the standing facts of the matching (R78 to R81). -/
theorem matchEntries_sound (c : Settings) (side : Side) (entries : List EdgeEntry) (ts : List Track) :
    MatchingSound side (considered side entries) ts (matchEntries c side entries ts) := by
  have h0 : MatchingSound side (considered side entries) ts { tracks := ts, matched := [], passed := [] } :=
    ⟨rfl, fun i t h => ⟨t, h, .inl rfl⟩, id, fun i t h _ => ⟨h, by simp⟩, by simp⟩
  have h1 := matchLabels_sound (considered side entries) _ h0 fun x hx => hx
  refine adopts_sound h1 _ _ h1 fun p hp => ?_
  simp only [inFrameOrder, mem_sortBy, List.mem_map] at hp
  obtain ⟨k, hk, rfl⟩ := hp
  have hk' : k ∈ linkCandidates c side ((considered side entries).foldl (matchLabel side)
      { tracks := ts, matched := [], passed := [] }) := by
    have := (greedy_sublist _ _ _).subset hk
    simpa [mem_sortBy] using this
  exact linkCandidates_spec hk'

/-! ## The application as a whole (R78) -/

/-- What settling one match does (R82): within the footprint of the queue, and keeping what applications keep. -/
theorem settlePair_eq (side : Side) (r : EdgeReport) (s : State) (p : Nat × Nat) :
    settlePair side r s p = s.updateTrack p.2 (fun t s =>
      match r.entries[p.1]? with
      | some e => settle side r e t s
      | none => (t, s)) := by
  unfold settlePair
  cases h : r.entries[p.1]? with
  | some e => rfl
  | none =>
    simp only [State.updateTrack]
    cases ht : s.tt.tracks[p.2]? with
    | none => rfl
    | some t =>
      obtain ⟨hi, rfl⟩ := List.getElem?_eq_some_iff.1 ht
      simp only [State.withTracks, List.set_getElem_self]
      rfl

theorem mem_linkedPlaces {side : Side} {ts : List Track} {i : Nat} (h : i ∈ linkedPlaces side ts) :
    ∃ t, ts[i]? = some t ∧ t.link = some side := by
  unfold linkedPlaces at h
  simp only [List.mem_map, mem_sortBy, List.mem_filter] at h
  obtain ⟨⟨t, j⟩, ⟨h1, h2⟩, rfl⟩ := h
  exact ⟨t, List.mk_mem_zipIdx_iff_getElem?.1 h1, by simpa using h2⟩

theorem linkedPlaces_mem {side : Side} {ts : List Track} {i : Nat} {t : Track} (h : ts[i]? = some t) (hl : t.link = some side) :
    i ∈ linkedPlaces side ts := by
  unfold linkedPlaces
  simp only [List.mem_map, mem_sortBy, List.mem_filter]
  exact ⟨(t, i), ⟨List.mk_mem_zipIdx_iff_getElem?.2 h, by simp [hl]⟩, rfl⟩

/-- Phase 4 over all matches (R82). -/
theorem settlePairs_spec (side : Side) (r : EdgeReport) (ps : List (Nat × Nat)) (s : State) {I : Track → Prop}
    (hI : ∀ t ∈ s.tt.tracks, I t)
    (hset : ∀ e t s', s'.now = s.now → I t →
      QueueFootprint P s' (settle side r e t s').2 ∧ I (settle side r e t s').1) :
    TracksFootprint P s (ps.foldl (settlePair side r) s)
      ∧ (ps.foldl (settlePair side r) s).tt.tracks.length = s.tt.tracks.length
      ∧ (∀ t ∈ (ps.foldl (settlePair side r) s).tt.tracks, I t)
      ∧ ∀ (j : Nat) (t : Track), s.tt.tracks[j]? = some t →
          ∃ u, (ps.foldl (settlePair side r) s).tt.tracks[j]? = some u ∧ Kept t u ∧ ((∀ x ∈ ps, x.2 ≠ j) → u = t) := by
  have e1 : settlePair side r = fun s p => s.updateTrack p.2 (fun t s =>
        match r.entries[p.1]? with
        | some e => settle side r e t s
        | none => (t, s)) := by
    funext s p
    exact settlePair_eq side r s p
  rw [e1]
  exact foldl_updateTrack (P := P) (R := Kept) (I := I) Kept.refl (fun _ _ _ => Kept.trans)
    (fun p : Nat × Nat => p.2) (fun p t s => match r.entries[p.1]? with
      | some e => settle side r e t s
      | none => (t, s)) ps s hI
    (by
      intro p _ t s' hn _ ht
      cases r.entries[p.1]? with
      | none => exact ⟨.refl P s', .refl t, ht⟩
      | some e => exact ⟨(hset e t s' hn ht).1, settle_kept side r e t s', (hset e t s' hn ht).2⟩)

/-- Phase 5 (R88); a track with another link is left alone. -/
theorem countAbsences_spec (side : Side) (matched : List (Nat × Nat)) (s : State) {I : Track → Prop}
    (hI : ∀ t ∈ s.tt.tracks, I t)
    (habs : ∀ t s', s'.now = s.now → I t →
      QueueFootprint P s' (countAbsence t s').2 ∧ I (countAbsence t s').1) :
    TracksFootprint P s (countAbsences side matched s)
      ∧ (countAbsences side matched s).tt.tracks.length = s.tt.tracks.length
      ∧ (∀ t ∈ (countAbsences side matched s).tt.tracks, I t)
      ∧ ∀ (j : Nat) (t : Track), s.tt.tracks[j]? = some t →
          ∃ u, (countAbsences side matched s).tt.tracks[j]? = some u ∧ Kept t u ∧ (t.link ≠ some side → u = t) := by
  obtain ⟨g1, g2, g3, g4⟩ := foldl_updateTrack (P := P) (R := Kept) (I := I) Kept.refl (fun _ _ _ => Kept.trans)
    (fun i : Nat => i) (fun _ t s => countAbsence t s)
    ((linkedPlaces side s.tt.tracks).filter fun i => !(matched.any fun p => p.2 == i)) s hI
    (fun i _ t s' hn _ ht => ⟨(habs t s' hn ht).1, countAbsence_kept t s', (habs t s' hn ht).2⟩)
  refine ⟨g1, g2, g3, fun j t ht => ?_⟩
  obtain ⟨u, hu, hk, hu'⟩ := g4 j t ht
  refine ⟨u, hu, hk, fun hl => hu' fun i hi => ?_⟩
  rintro rfl
  obtain ⟨y, hy, hl'⟩ := mem_linkedPlaces (List.mem_filter.1 hi).1
  obtain rfl : y = t := Option.some.inj (hy.symm.trans ht)
  exact hl hl'

/-- A CLOSE report applied after the matching `m` (R78): the tracks stay in their places with what applications keep, labels
stay different, a track linked to the other neighbour stays as it was, and `I` is a property of tracks that each phase
keeps. -/
theorem applyMatching_spec {c : Settings} {side : Side} {r : EdgeReport} {s x t : State} {m : Matching} {I : Track → Prop}
    (hI : ∀ t ∈ s.tt.tracks, I t)
    (hrel : ∀ t u, Relabelled r.entries t u → I t → I u)
    (hset : ∀ e t s', s'.now = s.now → I t →
      QueueFootprint P s' (settle side r e t s').2 ∧ I (settle side r e t s').1)
    (habs : ∀ t s', s'.now = s.now → I t →
      QueueFootprint P s' (countAbsence t s').2 ∧ I (countAbsence t s').1)
    (em : m = matchEntries c side r.entries s.tt.tracks)
    (ex : x = (inFrameOrder m.matched).foldl (settlePair side r) (s.withTracks m.tracks))
    (et : t = countAbsences side m.matched x) :
    TracksFootprint P s t ∧ t.tt.tracks.length = s.tt.tracks.length ∧ (∀ u ∈ t.tt.tracks, I u)
      ∧ ((s.tt.tracks.map (·.label)).Nodup → (t.tt.tracks.map (·.label)).Nodup)
      ∧ ∀ (i : Nat) (u : Track), s.tt.tracks[i]? = some u → ∃ w v, t.tt.tracks[i]? = some v
        ∧ Relabelled ((considered side r.entries).map (·.1)) u w ∧ Kept w v ∧ (u.link = some (opposite side) → v = u) := by
  have hm := matchEntries_sound c side r.entries s.tt.tracks
  rw [← em] at hm
  have hIm : ∀ t ∈ m.tracks, I t := by
    intro t ht
    obtain ⟨i, hi⟩ := List.mem_iff_getElem?.1 ht
    have hlt : i < s.tt.tracks.length := by rw [← hm.length]; exact (List.getElem?_eq_some_iff.1 hi).1
    obtain ⟨u, hu, hr⟩ := hm.relabelled i _ (List.getElem?_eq_getElem hlt)
    obtain rfl : t = u := Option.some.inj (hi.symm.trans hu)
    refine hrel _ _ ?_ (hI _ (List.getElem_mem hlt))
    rcases hr with h | ⟨e, he, h⟩
    · exact .inl h
    · obtain ⟨p, hp, rfl⟩ := List.mem_map.1 he
      exact .inr ⟨_, (considered_spec hp).2.1, h⟩
  obtain ⟨f1, f2, f3, f4⟩ := settlePairs_spec (P := P) side r (inFrameOrder m.matched) (s.withTracks m.tracks) (I := I)
    hIm hset
  rw [← ex] at f1 f2 f3 f4
  obtain ⟨g1, g2, g3, g4⟩ := countAbsences_spec (P := P) side m.matched x (I := I) f3
    (fun t s' hn => habs t s' (hn.trans f1.now))
  rw [← et] at g1 g2 g3 g4
  have hlen : t.tt.tracks.length = s.tt.tracks.length := g2.trans (f2.trans hm.length)
  have hall : ∀ (i : Nat) (u : Track), s.tt.tracks[i]? = some u → ∃ w v, t.tt.tracks[i]? = some v
        ∧ m.tracks[i]? = some w ∧ Relabelled ((considered side r.entries).map (·.1)) u w ∧ Kept w v
        ∧ (u.link = some (opposite side) → v = u) := by
    intro i u hu
    obtain ⟨w, hw, hr⟩ := hm.relabelled i u hu
    obtain ⟨x, hx, hk, hx'⟩ := f4 i w hw
    obtain ⟨v, hv, hk', hv'⟩ := g4 i x hx
    refine ⟨w, v, hv, hw, hr, hk.trans hk', fun hl => ?_⟩
    obtain ⟨h1, h2⟩ := hm.apart i u hu hl
    obtain rfl : u = w := Option.some.inj (h1.symm.trans hw)
    have hxu := hx' fun p hp => by
      simp only [inFrameOrder, mem_sortBy] at hp
      exact h2 p hp
    subst hxu
    exact hv' (by rw [hl]; cases side <;> simp [opposite])
  refine ⟨((withTracks_footprint P s m.tracks).trans f1).trans g1, hlen, g3, fun hn => ?_, fun i u hu => ?_⟩
  · have e2 : t.tt.tracks.map (·.label) = m.tracks.map (·.label) := by
      apply List.ext_getElem?
      intro i
      simp only [List.getElem?_map]
      cases hi : s.tt.tracks[i]? with
      | none =>
        rw [List.getElem?_eq_none_iff] at hi
        rw [List.getElem?_eq_none_iff.2 (by omega), List.getElem?_eq_none_iff.2 (by rw [hm.length]; exact hi)]
      | some u =>
        obtain ⟨w, v, hv, hw, -, hk, -⟩ := hall i u hi
        rw [hv, hw]
        simp [hk.label]
    rw [e2]
    exact hm.nodup hn
  · obtain ⟨w, v, hv, -, hr, hk, hl⟩ := hall i u hu
    exact ⟨w, v, hv, hr, hk, hl⟩

end Sys2Proof.Machine
end

