-- ==== Sys2Proof/Laws/Closes.lean ====
section
/-! SUPPORT. What a close does with the tracks (R67 to R71) and what its three parts touch (R125). -/

namespace Sys2Proof.Machine

variable {P : QueuedRecord → Prop}

/-- A track after a record was made from it at a close: it keeps everything but hold list, entry marks and last queued GPI,
and perhaps starts releasing (R120, R89). -/
structure AfterRecord (t v : Track) : Prop where
  label : v.label = t.label
  birth : v.birth = t.birth
  state : v.state = t.state
  missedBins : v.missedBins = t.missedBins
  lastX : v.lastX = t.lastX
  lastZ : v.lastZ = t.lastZ
  link : v.link = t.link
  peerRole : v.peerRole = t.peerRole
  peerThrough : v.peerThrough = t.peerThrough
  absent : v.absent = t.absent
  former : v.former = t.former
  acc : v.acc = t.acc

theorem finishRecord_after (c : Settings) (r : Record) (t : Track) (s : State) :
    AfterRecord t (finishRecord c r t s).1 ∧ (r.final = true → (finishRecord c r t s).1.role = t.role) := by
  obtain ⟨u, hu, h⟩ := finishRecord_track c r t s
  have hk : AfterRecord t u ∧ u.role = t.role := by
    rcases hu with rfl | ⟨-, rfl⟩ | ⟨-, rfl⟩ <;> exact ⟨by constructor <;> rfl, rfl⟩
  rcases h with h | ⟨hf, -, -, h⟩ <;> rw [h]
  · exact ⟨hk.1, fun _ => hk.2⟩
  · exact ⟨⟨hk.1.label, hk.1.birth, hk.1.state, hk.1.missedBins, hk.1.lastX, hk.1.lastZ, hk.1.link, hk.1.peerRole,
      hk.1.peerThrough, hk.1.absent, hk.1.former, hk.1.acc⟩, fun h' => by rw [hf] at h'; cases h'⟩

/-- The five things a close can do with a track (R67 to R70). -/
theorem closeTrack_cases (c : Settings) (k : Int) (final : Bool) (t : Track) (s : State) :
    (∃ a, t.acc = some a ∧ k < a.bin ∧ (closeTrack c k final t s).1 = some t)
    ∨ (∃ a, t.acc = some a ∧ a.bin ≤ k ∧ t.state.isTentative = true ∧ (closeTrack c k final t s).1 = some { t with acc := none })
    ∨ (∃ a, t.acc = some a ∧ a.bin ≤ k ∧ t.state.isTentative = false ∧ (closeTrack c k final t s).1
        = some (finishRecord c (fullRecord c final t.label a) { t with acc := none, missedBins := 0 } s).1)
    ∨ (t.acc = none ∧ t.state.isTentative = true ∧ (closeTrack c k final t s).1 = some t)
    ∨ (t.acc = none ∧ t.state.isTentative = false
        ∧ (edgeDistance c t.lastX ≤ xGateOf c t.missedBins ∨ c.coastLimit < t.missedBins + 1)
        ∧ (closeTrack c k final t s).1 = none)
    ∨ (t.acc = none ∧ t.state.isTentative = false ∧ xGateOf c t.missedBins < edgeDistance c t.lastX
        ∧ t.missedBins + 1 ≤ c.coastLimit
        ∧ ∃ r : Record, r.final = final ∧ (closeTrack c k final t s).1
          = some (finishRecord c r { t with missedBins := t.missedBins + 1, state := .coasting } s).1) := by
  unfold closeTrack
  cases ha : t.acc with
  | some a =>
    by_cases hk : a.bin ≤ k
    · cases ht : t.state.isTentative with
      | true => exact .inr (.inl ⟨a, rfl, hk, rfl, by simp [hk, closeAccumulator, ht]⟩)
      | false => exact .inr (.inr (.inl ⟨a, rfl, hk, rfl, by simp [hk, closeAccumulator, ht]⟩))
    · exact .inl ⟨a, rfl, by omega, by simp [hk]⟩
  | none =>
    cases ht : t.state.isTentative with
    | true => exact .inr (.inr (.inr (.inl ⟨rfl, rfl, by simp⟩)))
    | false =>
      simp only [Bool.false_eq_true, if_false]
      unfold closeUnseen
      by_cases h1 : edgeDistance c t.lastX ≤ xGateOf c t.missedBins
      · exact .inr (.inr (.inr (.inr (.inl ⟨trivial, trivial, .inl h1, by simp [h1]⟩))))
      · by_cases h2 : c.coastLimit < t.missedBins + 1
        · exact .inr (.inr (.inr (.inr (.inl ⟨trivial, trivial, .inr h2, by simp [h1, h2]⟩))))
        · refine .inr (.inr (.inr (.inr (.inr ⟨trivial, trivial, by omega, by omega, ?_⟩))))
          exact ⟨noSampleRecord final k { t with missedBins := t.missedBins + 1, state := .coasting }, rfl, by simp [h1, h2, ha]⟩

/-- The tracks after a close, each from one before it; what each became is `closeTrack` of it, and the labels stay in their
order (R125). -/
theorem closeTracks_spec (c : Settings) (k : Int) (final : Bool) (ts : List Track) (s : State) :
    (∀ v ∈ (closeTracks c k final ts s).1, ∃ t ∈ ts, ∃ s', QueueFootprint (fun _ => True) s s'
        ∧ (closeTrack c k final t s').1 = some v)
    ∧ (∀ t ∈ ts, ∃ s', QueueFootprint (fun _ => True) s s' ∧ ((closeTrack c k final t s').1 = none
        ∨ ∃ v ∈ (closeTracks c k final ts s).1, (closeTrack c k final t s').1 = some v))
    ∧ ((closeTracks c k final ts s).1.map (·.label)).Sublist (ts.map (·.label)) := by
  induction ts generalizing s with
  | nil => exact ⟨by simp [closeTracks], by simp, by simp [closeTracks]⟩
  | cons t ts ih =>
    obtain ⟨i1, i2, i3⟩ := ih (closeTrack c k final t s).2
    have hq : QueueFootprint (fun _ => True) s (closeTrack c k final t s).2 :=
      closeTrack_footprint c k final (fun _ _ _ => trivial) trivial
    refine ⟨fun v hv => ?_, fun u hu => ?_, ?_⟩
    · simp only [closeTracks, List.mem_append, Option.mem_toList] at hv
      rcases hv with hv | hv
      · exact ⟨t, by simp, s, .refl _ s, hv⟩
      · obtain ⟨u, hu, s', h1, h2⟩ := i1 v hv
        exact ⟨u, by simp [hu], s', hq.trans h1, h2⟩
    · rcases List.mem_cons.1 hu with rfl | hu
      · refine ⟨s, .refl _ s, ?_⟩
        cases h : (closeTrack c k final u s).1 with
        | none => exact .inl rfl
        | some v => exact .inr ⟨v, by simp [closeTracks, h], rfl⟩
      · obtain ⟨s', h1, h2⟩ := i2 u hu
        refine ⟨s', hq.trans h1, h2.imp id ?_⟩
        rintro ⟨v, hv, e⟩
        exact ⟨v, by simp [closeTracks, hv], e⟩
    · simp only [closeTracks, List.map_append, List.map_cons]
      cases h : (closeTrack c k final t s).1 with
      | none => exact i3.trans (List.sublist_cons_self _ _)
      | some v =>
        have : v.label = t.label := by
          obtain ⟨a, -, -, e⟩ | ⟨a, -, -, -, e⟩ | ⟨a, -, -, -, e⟩ | ⟨-, -, e⟩ | ⟨-, -, -, e⟩ | ⟨-, -, -, -, r, -, e⟩ :=
            closeTrack_cases c k final t s <;> rw [h] at e
          · cases e; rfl
          · cases e; rfl
          · cases e; exact (finishRecord_after c _ _ s).1.label
          · cases e; rfl
          · cases e
          · cases e; exact (finishRecord_after c _ _ s).1.label
        simp only [Option.toList_some, List.map_cons, List.map_nil, List.singleton_append, this]
        exact i3.cons_cons _

theorem dealWithTracks_spec {s : State} (c : Settings) (k : Int) (final : Bool)
    (h : ∀ t ∈ s.tt.tracks, (∀ a, t.acc = some a → a.bin ≤ k → P ⟨t.entryOf (fullRecord c final t.label a), s.now⟩)
      ∧ P ⟨t.entryOf (noSampleRecord final k t), s.now⟩) :
    TracksFootprint P s (dealWithTracks c k final s)
      ∧ (∀ v ∈ (dealWithTracks c k final s).tt.tracks, ∃ t ∈ s.tt.tracks, ∃ s', QueueFootprint (fun _ => True) s s'
        ∧ (closeTrack c k final t s').1 = some v)
      ∧ (∀ t ∈ s.tt.tracks, ∃ s', QueueFootprint (fun _ => True) s s' ∧ ((closeTrack c k final t s').1 = none
        ∨ ∃ v ∈ (dealWithTracks c k final s).tt.tracks, (closeTrack c k final t s').1 = some v))
      ∧ (dealWithTracks c k final s).tt.tracks.length ≤ s.tt.tracks.length
      ∧ ((s.tt.tracks.map (·.label)).Nodup → ((dealWithTracks c k final s).tt.tracks.map (·.label)).Nodup) := by
  obtain ⟨h1, h2, h3⟩ := closeTracks_spec c k final (sortBy (fun t => t.label.key) s.tt.tracks) s
  have hp := sortBy_perm (fun t : Track => t.label.key) s.tt.tracks
  refine ⟨QueueFootprint.withTracks (closeTracks_footprint c k final _ fun t ht => h t (by simpa using ht)) _, ?_, ?_, ?_, ?_⟩
  · intro v hv
    obtain ⟨t, ht, h⟩ := h1 v hv
    exact ⟨t, by simpa using ht, h⟩
  · intro t ht
    exact h2 t (by simpa using ht)
  · have := h3.length_le
    simpa [dealWithTracks, State.withTracks] using this
  · intro hn
    exact List.Nodup.sublist h3 ((hp.map _).nodup_iff.2 hn)

/-- Step 2 of a close (R126): within the footprint of the queue but for the EDGE slot, every former label cleared in RUNNING. -/
theorem buildReport_spec (c : Settings) (k : Int) (s : State) :
    (s.rca.node ≠ .running → buildReport c k s = s)
    ∧ (s.rca.node = .running → buildReport c k s = arbitrate ((s.withRlc { s.rlc with
        edgeSlot := some (edgeFrame (closeReport c k s)) }).withTracks (s.tt.tracks.map fun t => { t with former := none }))) := by
  constructor
  · intro h; simp [buildReport, h]
  · intro h; simp only [buildReport, h, if_true]; rfl

/-- The exposure step touches the SIU alone (R26 to R28). -/
theorem exposureStep_frame (c : Settings) (s : State) :
    exposureStep c s = s.withSiu { s.siu with
      level := (exposureStep c s).siu.level, drift := (exposureStep c s).siu.drift, word := (exposureStep c s).siu.word
      wordDue := (exposureStep c s).siu.wordDue, associated := 0, saturated := 0, weak := 0, settled := false } := by
  have key : ∀ (u : Siu) (d n : Nat), (Siu.stepTo { u with drift := d } n).clearStatistics = { u with
      level := (Siu.stepTo { u with drift := d } n).level, drift := (Siu.stepTo { u with drift := d } n).drift
      word := (Siu.stepTo { u with drift := d } n).word, wordDue := (Siu.stepTo { u with drift := d } n).wordDue
      associated := 0, saturated := 0, weak := 0, settled := false } := by
    intro u d n
    obtain ⟨_, _, _, _, level, word, _, _, _, _, _, _⟩ := u
    unfold Siu.stepTo Siu.sendWord Siu.clearStatistics
    by_cases h : n = level <;> cases word <;> simp [h]
  show s.withSiu _ = _
  rw [key]
  rfl

end Sys2Proof.Machine
end

