-- ==== Sys2Proof/Laws/Distance.lean ====
section
/-! SUPPORT. What the DU makes of a group of edges (R32). -/

namespace Sys2Proof.Machine

@[simp] theorem toggle_p (p q : Bool) : toggle ⟨p, q⟩ .p = ⟨!p, q⟩ := rfl
@[simp] theorem toggle_q (p q : Bool) : toggle ⟨p, q⟩ .q = ⟨p, !q⟩ := rfl

/-- The same phase state forms no transition. -/
@[simp] theorem resolve_unchanged (pair : OdoPair) : resolve pair pair = .unchanged := by simp [resolve]

/-- A change of one line forms one transition of that line. -/
@[simp] theorem resolve_oneLine (pair : OdoPair) (line : OdoLine) : resolve pair (toggle pair line) = .oneLine line := by
  obtain ⟨p, q⟩ := pair
  cases p <;> cases q <;> cases line <;> rfl

/-- A change of both lines forms one transition of both lines. -/
@[simp] theorem resolve_bothLines (pair : OdoPair) : resolve pair ⟨!pair.p, !pair.q⟩ = .bothLines := by
  obtain ⟨p, q⟩ := pair
  cases p <;> cases q <;> rfl

/-- A group that is resolved: its first edge came after the edges before were resolved, and what it forms is taken. -/
theorem takeEdges_resolved {e : Nat} {g : EdgeGroup} {s : State} (h : s.du.resolved + groupSpan g < s.now + e) :
    takeEdges e g s =
      (let s' : State := { s with now := s.now + e, du := { s.du with resolved := s.now + e } }
       match resolve s.du.pair (phaseAfter s.du.pair g) with
       | .unchanged => .next s'
       | .oneLine line => takeQuarter line s'
       | .bothLines => .next (takeIllegal s')) := by
  have h' : ¬(s.elapse e).now ≤ (s.elapse e).du.resolved + groupSpan g := by
    simpa [State.elapse] using h
  unfold takeEdges
  rw [if_neg h']
  rfl

/-- A group of which an edge would belong to the group before it cannot come. -/
theorem takeEdges_early {e : Nat} {g : EdgeGroup} {s : State} (h : s.now + e ≤ s.du.resolved + groupSpan g) :
    takeEdges e g s = .refused .timeNotReached := by
  have h' : (s.elapse e).now ≤ (s.elapse e).du.resolved + groupSpan g := by
    simpa [State.elapse] using h
  unfold takeEdges
  rw [if_pos h']

end Sys2Proof.Machine
end

