-- ==== Sys2Proof/Laws/Pass.lean ====
section
/-! SUPPORT. What a scan pass can do (R56 to R66), phase by phase and as a whole. -/

namespace Sys2Proof.Machine

variable {P : QueuedRecord → Prop} {a b d s s' : State}

/-- `s'` differs from `s` at most within the footprint of the queue, in its tracks, the serial counter and the bin
statistics. -/
structure PassFootprint (P : QueuedRecord → Prop) (s s' : State) : Prop where
  queue : QueueFootprint P s ((s'.withTt s.tt).withSiu s.siu)
  tt : s'.tt = { s.tt with tracks := s'.tt.tracks, serial := s'.tt.serial }
  siu : s'.siu = { s.siu with associated := s'.siu.associated, saturated := s'.siu.saturated, weak := s'.siu.weak
                              settled := s'.siu.settled }

theorem PassFootprint.refl (P : QueuedRecord → Prop) (s : State) : PassFootprint P s s := ⟨.refl P s, rfl, rfl⟩

theorem QueueFootprint.withTtSiu (h : QueueFootprint P s s') (x : Tt) (y : Siu) :
    QueueFootprint P ((s.withTt x).withSiu y) ((s'.withTt x).withSiu y) :=
  { h with tt := rfl, siu := rfl, capacity := h.capacity, transmitter := h.transmitter, drainEnd := h.drainEnd }

theorem PassFootprint.trans (h : PassFootprint P a b) (h' : PassFootprint P b d) : PassFootprint P a d where
  queue := h.queue.trans (h'.queue.withTtSiu a.tt a.siu)
  tt := by rw [h'.tt, h.tt]
  siu := by rw [h'.siu, h.siu]

theorem TracksFootprint.pass (h : TracksFootprint P s s') : PassFootprint P s s' where
  queue := by
    have e := h.1.siu
    have : (s'.withTt s.tt).withSiu s.siu = s'.withTt s.tt := by
      change s'.siu = s.siu at e
      rw [← e]; rfl
    rw [this]; exact h.1
  tt := by rw [h.2]
  siu := by have e := h.1.siu; change s'.siu = s.siu at e; rw [e]

theorem QueueFootprint.pass (h : QueueFootprint P s s') : PassFootprint P s s' := h.tracks.pass

theorem PassFootprint.now (h : PassFootprint P s s') : s'.now = s.now := h.queue.now
theorem PassFootprint.wau (h : PassFootprint P s s') : s'.wau = s.wau := h.queue.wau
theorem PassFootprint.slot (h : PassFootprint P s s') : s'.rca.slot = s.rca.slot := h.queue.slot

/-! ## One pair -/

/-- A backtracking scan offers nothing to an accumulator (R61). -/
theorem offerSpot_backtracking {scan : Scan} (h : scan.backtracking = true) (c : Settings) (before : TrackState)
    (p : CarSpot) (t : Track) (s : State) : offerSpot c scan before p t s = (t, s) := by simp [offerSpot, h]

/-- Without an older accumulator the sample is accumulated and nothing else happens (R61). -/
theorem offerSpot_current {scan : Scan} (h : scan.backtracking = false) (c : Settings) (before : TrackState)
    (p : CarSpot) (t : Track) (s : State) (ha : ∀ a, t.acc = some a → scan.gpi ≤ a.bin) :
    offerSpot c scan before p t s =
      ({ t with acc := some (accumulate scan.gpi p (spotWear c s.wau p) t.acc) }, s) := by
  have : implicitClose c scan.gpi before t s = (t, s) := by
    unfold implicitClose
    split
    · rename_i a h'
      have := ha a h'
      rw [if_neg (by omega)]
    · rfl
  simp [offerSpot, h, this]

/-- An older accumulator is closed first, by the state before the association (R62). -/
theorem offerSpot_older {scan : Scan} (h : scan.backtracking = false) (c : Settings) (before : TrackState)
    (p : CarSpot) (t : Track) (s : State) {a : Accumulator} (ha : t.acc = some a) (hb : a.bin < scan.gpi) :
    offerSpot c scan before p t s =
      (let out := closeAccumulator c false before a t s
       ({ out.1 with acc := some (accumulate scan.gpi p (spotWear c out.2.wau p) out.1.acc) }, out.2)) := by
  simp [offerSpot, h, implicitClose, ha, hb]

/-- The three things an offer of a spot can do. -/
theorem offerSpot_cases (c : Settings) (scan : Scan) (before : TrackState) (p : CarSpot) (t : Track) (s : State) :
    (scan.backtracking = true ∧ offerSpot c scan before p t s = (t, s))
    ∨ (scan.backtracking = false ∧ offerSpot c scan before p t s =
        ({ t with acc := some (accumulate scan.gpi p (spotWear c s.wau p) t.acc) }, s))
    ∨ (scan.backtracking = false ∧ ∃ a, t.acc = some a ∧ a.bin < scan.gpi ∧ offerSpot c scan before p t s =
        ({ (closeAccumulator c false before a t s).1 with acc := some (accumulate scan.gpi p
            (spotWear c (closeAccumulator c false before a t s).2.wau p) (closeAccumulator c false before a t s).1.acc) },
          (closeAccumulator c false before a t s).2)) := by
  cases hb : scan.backtracking with
  | true => exact .inl ⟨rfl, offerSpot_backtracking hb c before p t s⟩
  | false =>
    cases ha : t.acc with
    | none => exact .inr (.inl ⟨rfl, ha ▸ offerSpot_current hb c before p t s (by simp [ha])⟩)
    | some a =>
      by_cases h : a.bin < scan.gpi
      · exact .inr (.inr ⟨rfl, a, rfl, h, offerSpot_older hb c before p t s ha h⟩)
      · exact .inr (.inl ⟨rfl, ha ▸ offerSpot_current hb c before p t s (by
          intro a' e; rw [ha] at e; cases e; omega)⟩)

theorem offerSpot_footprint {t : Track} {s : State} (c : Settings) (scan : Scan) (before : TrackState) (p : CarSpot)
    (h : ∀ a, t.acc = some a → P ⟨t.entryOf (fullRecord c false t.label a), s.now⟩) :
    QueueFootprint P s (offerSpot c scan before p t s).2 := by
  obtain ⟨-, e⟩ | ⟨-, e⟩ | ⟨-, a, ha, -, e⟩ := offerSpot_cases c scan before p t s <;> rw [e]
  · exact .refl P s
  · exact .refl P s
  · exact closeAccumulator_footprint c false before fun _ _ => h a ha

/-- An offer keeps a track's label, position and link, and never ends a role but OWNER (R61, R62, R89). -/
theorem offerSpot_label (c : Settings) (scan : Scan) (before : TrackState) (p : CarSpot) (t : Track) (s : State) :
    (offerSpot c scan before p t s).1.label = t.label ∧ (offerSpot c scan before p t s).1.link = t.link := by
  obtain ⟨-, e⟩ | ⟨-, e⟩ | ⟨-, a, ha, -, e⟩ := offerSpot_cases c scan before p t s <;> rw [e]
  · exact ⟨rfl, rfl⟩
  · exact ⟨rfl, rfl⟩
  · unfold closeAccumulator
    split
    · exact ⟨rfl, rfl⟩
    · exact ⟨(finishRecord_after c _ _ s).1.label, (finishRecord_after c _ _ s).1.link⟩

theorem countSpot_pass (P : QueuedRecord → Prop) (s : State) (scan : Scan) (p : CarSpot) :
    PassFootprint P s (s.countSpot scan p) := ⟨.refl P s, rfl, rfl⟩

theorem settleBy_pass (P : QueuedRecord → Prop) (s : State) (scan : Scan) : PassFootprint P s (s.settleBy scan) :=
  ⟨.refl P s, rfl, rfl⟩

theorem withTracks_pass (P : QueuedRecord → Prop) (s : State) (ts : List Track) : PassFootprint P s (s.withTracks ts) :=
  ⟨.refl P s, rfl, rfl⟩

theorem nodup_set {ts : List Track} {i : Nat} {t u : Track} (h : (ts.map (·.label)).Nodup) (ht : ts[i]? = some t)
    (hu : u.label = t.label) : ((ts.set i u).map (·.label)).Nodup := by
  have : (ts.set i u).map (·.label) = ts.map (·.label) := by
    apply List.ext_getElem?
    intro j
    simp only [List.getElem?_map, List.getElem?_set]
    split
    · rename_i e; subst e
      split
      · simp [ht, hu]
      · rename_i hl
        have := (List.getElem?_eq_some_iff.1 ht).1
        exact absurd this hl
    · rfl
  rw [this]; exact h

/-- What each phase of a pass keeps of the tracks: each has the property `I`, there are no more than before but for births,
labels stay different. -/
structure PassTracks (I : Track → Prop) (s s' : State) : Prop where
  each : (∀ t ∈ s.tt.tracks, I t) → ∀ t ∈ s'.tt.tracks, I t
  length : s.tt.tracks.length ≤ 8 → s'.tt.tracks.length ≤ 8
  nodup : (s.tt.tracks.map (·.label)).Nodup → (s'.tt.tracks.map (·.label)).Nodup

theorem PassTracks.refl (I : Track → Prop) (s : State) : PassTracks I s s := ⟨id, id, id⟩

theorem PassTracks.trans {I : Track → Prop} (h : PassTracks I a b) (h' : PassTracks I b d) : PassTracks I a d :=
  ⟨h'.each ∘ h.each, h'.length ∘ h.length, h'.nodup ∘ h.nodup⟩

theorem associatePair_spec {I : Track → Prop} (c : Settings) (scan : Scan) (spots : List CarSpot) (s : State)
    (pair : Candidate) (hI : ∀ t ∈ s.tt.tracks, I t)
    (hoffer : ∀ p ∈ spots, ∀ t s', s'.now = s.now → s'.wau = s.wau → I t →
      QueueFootprint P s' (offerSpot c scan t.state p (t.associate c p) s').2
        ∧ I (offerSpot c scan t.state p (t.associate c p) s').1) :
    PassFootprint P s (associatePair c scan spots s pair) ∧ PassTracks I s (associatePair c scan spots s pair)
      ∧ (associatePair c scan spots s pair).tt.tracks.length = s.tt.tracks.length := by
  unfold associatePair
  split
  · rename_i t p ht hp
    have hm := List.mem_of_getElem? ht
    obtain ⟨h1, h2⟩ := hoffer p (List.mem_of_getElem? hp) t (s.countSpot scan p) rfl rfl (hI t hm)
    have hl := (offerSpot_label c scan t.state p (t.associate c p) (s.countSpot scan p)).1
    have e := h1.tt
    generalize offerSpot c scan t.state p (t.associate c p) (s.countSpot scan p) = out at *
    have e' : out.2.tt.tracks = s.tt.tracks := by rw [e]; rfl
    refine ⟨(countSpot_pass P s scan p).trans ((h1.withTracks _).pass), ⟨fun _ u hu => ?_, fun h => ?_, fun h => ?_⟩, ?_⟩
    · simp only [State.withTracks_tt, e'] at hu
      rcases List.mem_or_eq_of_mem_set hu with hu | rfl
      · exact hI u hu
      · exact h2
    · simpa [e'] using h
    · simp only [State.withTracks_tt, e']
      exact nodup_set h ht hl
    · simp [e']
  · exact ⟨.refl P s, .refl I s, rfl⟩

/-- Phase 2 over all accepted pairs (R60 to R62). -/
theorem associatePairs_spec {I : Track → Prop} (c : Settings) (scan : Scan) (spots : List CarSpot) (pairs : List Candidate)
    (s : State) (hI : ∀ t ∈ s.tt.tracks, I t)
    (hoffer : ∀ p ∈ spots, ∀ t s', s'.now = s.now → s'.wau = s.wau → I t →
      QueueFootprint P s' (offerSpot c scan t.state p (t.associate c p) s').2
        ∧ I (offerSpot c scan t.state p (t.associate c p) s').1) :
    PassFootprint P s (pairs.foldl (associatePair c scan spots) s)
      ∧ PassTracks I s (pairs.foldl (associatePair c scan spots) s) := by
  induction pairs generalizing s with
  | nil => exact ⟨.refl P s, .refl I s⟩
  | cons k ks ih =>
    obtain ⟨h1, h2, -⟩ := associatePair_spec c scan spots s k hI hoffer
    obtain ⟨h3, h4⟩ := ih _ (h2.each hI) fun p hp t s' hn hw => hoffer p hp t s' (hn.trans h1.now) (hw.trans h1.wau)
    exact ⟨h1.trans h3, h2.trans h4⟩

/-! ## Misses and births -/

/-- The misses only drop tracks or change a miss run (R63). -/
theorem countMisses_spec {I : Track → Prop} (taken : List Nat) (ts : List Track)
    (hmiss : ∀ t u, I t → missTentative t = some u → I u) :
    ((∀ t ∈ ts, I t) → ∀ t ∈ countMisses taken ts, I t) ∧ (countMisses taken ts).length ≤ ts.length
      ∧ ((countMisses taken ts).map (·.label)).Sublist (ts.map (·.label)) := by
  unfold countMisses
  refine ⟨fun h u hu => ?_, ?_, ?_⟩
  · rw [List.mem_filterMap] at hu
    obtain ⟨⟨t, i⟩, hti, hu⟩ := hu
    have ht : t ∈ ts := List.mem_of_getElem? (List.mk_mem_zipIdx_iff_getElem?.1 hti)
    cases hc : taken.contains i <;> simp only [hc, if_true, if_false, Bool.false_eq_true] at hu
    · exact hmiss t u (h t ht) hu
    · exact Option.some.inj hu ▸ h t ht
  · exact (List.length_filterMap_le _ _).trans (by simp)
  · generalize 0 = n
    induction ts generalizing n with
    | nil => simp
    | cons t ts ih =>
      rw [List.zipIdx_cons, List.filterMap_cons]
      have hl : ∀ u, missTentative t = some u → u.label = t.label := by
        intro u hu
        unfold missTentative at hu
        split at hu
        · split at hu
          · cases hu
          · cases hu; rfl
        · cases hu; rfl
        · cases hu; rfl
      split
      · exact (ih _).trans (List.sublist_cons_self _ _)
      · rename_i u hu
        have : u.label = t.label := by
          cases hc : taken.contains n <;> simp only [hc, if_true, if_false, Bool.false_eq_true] at hu
          · exact hl u hu
          · cases hu; rfl
        simp only [List.map_cons, this]
        exact (ih _).cons_cons _

/-- The serial at the `i`-th place of the search from `n` (R65). -/
def serialAt (n i : Nat) : Nat := if i = 0 then n else (n + i) % 65536

theorem serialAt_succ (n i : Nat) : serialAt ((n + 1) % 65536) i = serialAt n (i + 1) := by
  unfold serialAt
  split <;> simp <;> omega

theorem serialAt_lt {n : Nat} (h : n < 65536) (i : Nat) : serialAt n i = (n + i) % 65536 := by
  unfold serialAt
  split <;> omega

/-- The serial found is the first from the counter on that no track bears under the slot, if one of the next `k` is free
(R65). -/
theorem allocateSerial_spec (slot : Nat) (ts : List Track) (k n : Nat) :
    ∃ j, j ≤ k ∧ allocateSerial slot ts k n = serialAt n j
      ∧ (∀ i, i < j → borne ⟨slot, serialAt n i⟩ ts = true) ∧ (j < k → borne ⟨slot, serialAt n j⟩ ts = false) := by
  induction k generalizing n with
  | zero => exact ⟨0, by omega, rfl, by omega, by omega⟩
  | succ k ih =>
    unfold allocateSerial
    split
    · rename_i hb
      obtain ⟨j, h1, h2, h3, h4⟩ := ih ((n + 1) % 65536)
      refine ⟨j + 1, by omega, ?_, ?_, ?_⟩
      · show allocateSerial slot ts k ((n + 1) % 65536) = _
        rw [h2, serialAt_succ]
      · intro i hi
        cases i with
        | zero => exact hb
        | succ i => rw [← serialAt_succ]; exact h3 i (by omega)
      · intro hj; rw [← serialAt_succ]; exact h4 (by omega)
    · rename_i hb
      exact ⟨0, by omega, rfl, by omega, fun _ => by simpa [serialAt] using hb⟩

/-- Fewer tracks than places searched leave a free serial (R65): by the pigeonhole. -/
theorem allocateSerial_fresh (slot : Nat) (ts : List Track) (n : Nat) (hl : ts.length < 8) :
    ∃ j, j < 8 ∧ allocateSerial slot ts 8 n = serialAt n j
      ∧ (∀ i, i < j → borne ⟨slot, serialAt n i⟩ ts = true) ∧ borne ⟨slot, serialAt n j⟩ ts = false := by
  obtain ⟨j, h1, h2, h3, h4⟩ := allocateSerial_spec slot ts 8 n
  have hj : j < 8 := by
    by_contra hj
    have : j = 8 := by omega
    subst this
    have hsub : ((List.range 8).map fun i => (⟨slot, serialAt n i⟩ : Label)) ⊆ ts.map (·.label) := by
      intro l hlm
      simp only [List.mem_map, List.mem_range] at hlm
      obtain ⟨i, hi, rfl⟩ := hlm
      have := h3 i hi
      unfold borne at this
      simp only [List.any_eq_true, beq_iff_eq] at this
      obtain ⟨t, ht, e⟩ := this
      exact List.mem_map.2 ⟨t, ht, e⟩
    have hnd : ((List.range 8).map fun i => (⟨slot, serialAt n i⟩ : Label)).Nodup := by
      refine List.Nodup.map_on ?_ List.nodup_range
      intro x hx y hy e
      simp only [List.mem_range, Label.mk.injEq, serialAt] at hx hy e
      obtain ⟨-, e⟩ := e
      split at e <;> split at e <;> omega
    have := (hnd.subperm hsub).length_le
    simp at this
    omega
  exact ⟨j, hj, h2, h3, h4 hj⟩

theorem birth_spec {I : Track → Prop} (c : Settings) (scan : Scan) (p : CarSpot) (s : State) (hl : s.tt.tracks.length < 8)
    (hbirth : ∀ l s', s'.now = s.now → s'.wau = s.wau → l.origin = s.rca.slot →
      I (offerSpot c scan (.tentative 1 0) p (newTrack l scan p) s').1) :
    PassFootprint P s (birth c scan p s) ∧ (birth c scan p s).tt.tracks.length = s.tt.tracks.length + 1
      ∧ ((∀ t ∈ s.tt.tracks, I t) → ∀ t ∈ (birth c scan p s).tt.tracks, I t)
      ∧ ((s.tt.tracks.map (·.label)).Nodup → ((birth c scan p s).tt.tracks.map (·.label)).Nodup) := by
  have hq : QueueFootprint P s (offerSpot c scan (.tentative 1 0) p
      (newTrack ⟨s.rca.slot, allocateSerial s.rca.slot s.tt.tracks 8 s.tt.serial⟩ scan p) s).2 :=
    offerSpot_footprint c scan _ p (by intro a ha; cases ha)
  have hL := (offerSpot_label c scan (.tentative 1 0) p
      (newTrack ⟨s.rca.slot, allocateSerial s.rca.slot s.tt.tracks 8 s.tt.serial⟩ scan p) s).1
  have hI := hbirth ⟨s.rca.slot, allocateSerial s.rca.slot s.tt.tracks 8 s.tt.serial⟩ s rfl rfl rfl
  have e : birth c scan p s = (offerSpot c scan (.tentative 1 0) p
      (newTrack ⟨s.rca.slot, allocateSerial s.rca.slot s.tt.tracks 8 s.tt.serial⟩ scan p) s).2.withTt
        { s.tt with
          tracks := s.tt.tracks ++ [(offerSpot c scan (.tentative 1 0) p
            (newTrack ⟨s.rca.slot, allocateSerial s.rca.slot s.tt.tracks 8 s.tt.serial⟩ scan p) s).1]
          serial := (allocateSerial s.rca.slot s.tt.tracks 8 s.tt.serial + 1) % 65536 } := by
    unfold birth
    simp only [Config.trackEntries, Config.serials]
    rw [hq.tt]
  generalize offerSpot c scan (.tentative 1 0) p
    (newTrack ⟨s.rca.slot, allocateSerial s.rca.slot s.tt.tracks 8 s.tt.serial⟩ scan p) s = out at *
  rw [e]
  refine ⟨⟨?_, rfl, ?_⟩, by simp, fun h t ht => ?_, fun h => ?_⟩
  · have e1 : ((out.2.withTt s.tt).withSiu s.siu : State) = out.2 := by rw [← hq.tt, ← hq.siu]; rfl
    show QueueFootprint P s ((out.2.withTt s.tt).withSiu s.siu)
    rw [e1]; exact hq
  · simp [hq.siu]
  · simp only [State.withTt_tt, List.mem_append, List.mem_singleton] at ht
    rcases ht with ht | rfl
    · exact h t ht
    · exact hI
  · obtain ⟨j, -, h2, -, h4⟩ := allocateSerial_fresh s.rca.slot s.tt.tracks s.tt.serial hl
    simp only [State.withTt_tt, List.map_append, List.map_cons, List.map_nil]
    refine List.nodup_append.2 ⟨h, List.nodup_singleton _, ?_⟩
    intro x hx y hy
    rw [List.mem_singleton] at hy
    obtain ⟨t, ht, rfl⟩ := List.mem_map.1 hx
    rw [hy, hL]
    show t.label ≠ ⟨_, allocateSerial _ _ _ _⟩
    rw [h2]
    exact borne_false h4 t ht

/-- Phase 4 (R64 to R66). -/
theorem births_spec {I : Track → Prop} (c : Settings) (scan : Scan) (ps : List CarSpot) (s : State)
    (hbirth : ∀ p ∈ ps, ∀ l s', s'.now = s.now → s'.wau = s.wau → l.origin = s.rca.slot →
      I (offerSpot c scan (.tentative 1 0) p (newTrack l scan p) s').1) :
    PassFootprint P s (births c scan ps s)
      ∧ ((∀ t ∈ s.tt.tracks, I t) → ∀ t ∈ (births c scan ps s).tt.tracks, I t)
      ∧ (s.tt.tracks.length ≤ 8 → (births c scan ps s).tt.tracks.length ≤ 8)
      ∧ ((s.tt.tracks.map (·.label)).Nodup → ((births c scan ps s).tt.tracks.map (·.label)).Nodup) := by
  induction ps generalizing s with
  | nil => exact ⟨.refl P s, id, id, id⟩
  | cons p ps ih =>
    unfold births
    split
    · rename_i hl
      obtain ⟨h1, h2, h3, h4⟩ := birth_spec (P := P) (I := I) c scan p s hl (hbirth p (by simp))
      obtain ⟨k1, k2, k3, k4⟩ := ih (birth c scan p s) fun q hq l s' hn hw hs =>
        hbirth q (by simp [hq]) l s' (hn.trans h1.now) (hw.trans h1.wau) (hs.trans h1.slot)
      refine ⟨h1.trans k1, k2 ∘ h3, fun _ => k3 ?_, k4 ∘ h4⟩
      have : Config.trackEntries = 8 := rfl
      omega
    · exact ⟨(setLatch_footprint P s .tableFull).pass, id, id, id⟩

/-! ## The whole pass -/

theorem mem_leftOver {spots : List CarSpot} {taken : List Nat} {p : CarSpot} (h : p ∈ leftOver spots taken) :
    p ∈ spots ∧ p.cls = .strong := by
  unfold leftOver at h
  simp only [List.mem_map, mem_sortBy, List.mem_filter] at h
  obtain ⟨⟨q, j⟩, ⟨h1, h2⟩, rfl⟩ := h
  refine ⟨List.mem_of_getElem? (List.mk_mem_zipIdx_iff_getElem?.1 h1), ?_⟩
  simp only [Bool.and_eq_true, beq_iff_eq] at h2
  exact h2.1

/-- A whole pass (R56): within its footprint, with a property of tracks that its phases keep, at most eight tracks, and
labels that stay different. -/
theorem runPass_spec {I : Track → Prop} (c : Settings) (scan : Scan) (s : State) (hI : ∀ t ∈ s.tt.tracks, I t)
    (hoffer : ∀ q ∈ scan.spots, ∀ t s', s'.now = s.now → s'.wau = s.wau → I t →
      QueueFootprint P s' (offerSpot c scan t.state (carSpot c q) (t.associate c (carSpot c q)) s').2
        ∧ I (offerSpot c scan t.state (carSpot c q) (t.associate c (carSpot c q)) s').1)
    (hmiss : ∀ t u, I t → missTentative t = some u → I u)
    (hbirth : ∀ q ∈ scan.spots, ∀ l s', s'.now = s.now → s'.wau = s.wau → l.origin = s.rca.slot →
      I (offerSpot c scan (.tentative 1 0) (carSpot c q) (newTrack l scan (carSpot c q)) s').1) :
    PassFootprint P s (runPass c scan s) ∧ (∀ t ∈ (runPass c scan s).tt.tracks, I t)
      ∧ (s.tt.tracks.length ≤ 8 → (runPass c scan s).tt.tracks.length ≤ 8)
      ∧ ((s.tt.tracks.map (·.label)).Nodup → ((runPass c scan s).tt.tracks.map (·.label)).Nodup) := by
  have hof : ∀ p ∈ scan.spots.map (carSpot c), ∀ t s', s'.now = s.now → s'.wau = s.wau → I t →
      QueueFootprint P s' (offerSpot c scan t.state p (t.associate c p) s').2
        ∧ I (offerSpot c scan t.state p (t.associate c p) s').1 := by
    intro p hp
    obtain ⟨q, hq, rfl⟩ := List.mem_map.1 hp
    exact hoffer q hq
  unfold runPass
  simp only
  generalize hpairs : assign (scanCandidates c s.tt.tracks (scan.spots.map (carSpot c))) = pairs
  obtain ⟨h1, h2⟩ := associatePairs_spec c scan (scan.spots.map (carSpot c)) pairs s hI hof
  have hser := h1.tt
  generalize pairs.foldl (associatePair c scan (scan.spots.map (carSpot c))) s = u at *
  obtain ⟨m1, m2, m3⟩ := countMisses_spec (pairs.map (·.track)) (u.settleBy scan).tt.tracks hmiss
  have hu : PassFootprint P s ((u.settleBy scan).withTracks (countMisses (pairs.map (·.track)) (u.settleBy scan).tt.tracks)) :=
    (h1.trans (settleBy_pass P u scan)).trans (withTracks_pass P _ _)
  obtain ⟨b1, b2, b3, b4⟩ := births_spec (P := P) (I := I) c scan (leftOver (scan.spots.map (carSpot c)) (pairs.map (·.other)))
    ((u.settleBy scan).withTracks (countMisses (pairs.map (·.track)) (u.settleBy scan).tt.tracks)) (by
      intro p hp l s' hn hw hs
      obtain ⟨q, hq, rfl⟩ := List.mem_map.1 (mem_leftOver hp).1
      exact hbirth q hq l s' (hn.trans hu.now) (hw.trans hu.wau) (hs.trans hu.slot))
  refine ⟨hu.trans b1, b2 (m1 (h2.each hI)), fun h => b3 (m2.trans (h2.length h)), fun h => b4 ?_⟩
  exact List.Nodup.sublist m3 (h2.nodup h)

end Sys2Proof.Machine
end

