-- ==== Sys2Proof/WellFormed.lean ====
section
/-! DEFINITION. Which commands are well formed. -/

namespace Sys2Proof

/-- A message begins with its first byte (R14), so it ends with at least one; a backoff is drawn from at most
1,024 numbers (R139). -/
def Instr.wellFormed : Instr → Bool
  | .scanMessageEnd _ bytes => !bytes.isEmpty
  | .scanMessageSilence _ bytes => !bytes.isEmpty
  | .jamEnd _ draw => decide (draw < 1024)
  | .powerOnReset .. | .scanMessageBegin _ | .exposureWordSent _ | .odometerTransition .. | .illegalTransition _
  | .scanPass _ | .binClose _ | .finalClose _ | .edgeApplication _ | .markApplication _
  | .neighbourLostApplication _ | .attemptBegin _ | .collision _ | .backoffEnd _ | .frameSent _ | .busJam _
  | .heartbeatTimerExpiry _ | .receptionBegin _ | .frameReceived .. | .neighbourTimerExpiry .. | .recordAgeExpiry _
  | .holdPeriodEnd _ | .runStart _ | .enterDraining _ | .drainLimit _ | .alertPulseEnd _ | .mediumQuiet _
  | .carrierAppears _ | .endMarkAfterReset _ => true

end Sys2Proof
end

