-- ==== Sys2Proof/Tests/Slice0.lean ====
section
/-! SUPPORT. Tests from the worked sequences and tables of the spec, one step each on a small state, and for every statement
with hypotheses a witness that meets them, at the boundaries of its clauses. -/

namespace Sys2Proof.Tests

open Sys2Proof.Machine

/-! ## States -/

/-- The settings of slot 1 in section 1.6, with the other values of sections 2.6, 4.3.1, 5.8, 6.6, 7.4 and 3.3.1. -/
def slot1 : Settings where
  sequence := 18
  fieldOrigin := 2600
  fieldWidth := 5200
  facing := .minus
  heightOffset := 18500
  margin := 800
  leftNeighbour := some 4
  rightNeighbour := some 7
  xGate := 60
  zGate := 150
  linkXGate := 80
  linkZGate := 200
  confirmHits := 3
  coastLimit := 3
  openThreshold := 120
  holdThreshold := 60
  exposureStart := 6
  stepLength := 100000
  pulseLength := 14450
  direction := .normal
  wireTypes := [⟨1200, 600, 20, 900⟩, ⟨1000, 500, 20, 750⟩]
  defaultType := 0
  staggerLimit := 2400
  drainThreshold := 8
  ageLimit := 5
  hysteresis := 100
  neighbourTimeout := 8
  alertMask := 0x0101
  alertPulse := 3

/-- The settings of slot 4 in section 1.6. -/
def slot4 : Settings :=
  { slot1 with fieldOrigin := -7000, facing := .plus, leftNeighbour := none, rightNeighbour := some 1 }

/-- A node in RUNNING with an open, empty table. -/
def runningOn (c : Settings) (slot : Nat) : State :=
  { State.reset with
    now := 1000000
    siu := { Siu.reset with word := none, level := 6 }
    tt := { Tt.reset with isOpen := true }
    wau := ⟨some 0⟩
    rca := { Rca.reset with node := .running, slot := slot, pendingSettings := some ⟨c, 12⟩, runSettings := some ⟨c, 12⟩ } }

/-- Slot 1 in RUNNING. -/
def running : State := runningOn slot1 1

/-- Replace the table's tracks and requests. -/
def serving (s : State) (rs : List Request) (ts : List Track) : State :=
  { s with tt := { s.tt with requests := rs, tracks := ts } }

/-- A CONFIRMED OWNER, unlinked. -/
def wire (l : Label) (birth x : Int) (z : Nat) : Track where
  label := l
  birth := birth
  state := .confirmed
  role := .owner
  missedBins := 0
  lastX := x
  lastZ := z
  link := none
  peerRole := none
  peerThrough := none
  absent := 0
  former := none
  lastQueued := none
  mark := none
  contested := false
  takenOver := false
  held := []
  acc := none

/-- A record of a bin, with nothing else of note. -/
def recordOf (l : Label) (bin : Int) : Record := noSampleRecord false bin (wire l 0 0 0)

/-- A full queue's worth of records. -/
def queuedRecords (n : Nat) : List QueuedRecord := List.replicate n ⟨recordOf ⟨1, 4⟩ 1, 1000000⟩

/-- The outcome is a next state with a property. -/
def gives (o : Result) (f : State → Bool) : Bool :=
  match o with
  | .next t => f t
  | .fault _ | .refused _ => false

/-- The outcome is a refusal. -/
def refuses (o : Result) (r : Refusal) : Bool :=
  match o with
  | .refused x => decide (x = r)
  | .next _ | .fault _ => false

/-! ## WellFormed -/

theorem test_smoke_end_without_bytes : (Instr.scanMessageEnd 0 []).wellFormed = false := by decide
theorem test_smoke_silence_without_bytes : (Instr.scanMessageSilence 0 []).wellFormed = false := by decide
theorem test_smoke_draw_too_large : (Instr.jamEnd 0 1024).wellFormed = false := by decide
theorem test_wellformed_accepts : (Instr.scanMessageEnd 0 [0#8]).wellFormed = true ∧ (Instr.jamEnd 0 1023).wellFormed = true := by
  decide

/-! ## Computations that the spec works out -/

/-- Section 1.6: fields, centres and the three spots of the middle head. -/
theorem test_geometry_of_three_heads :
    (fieldLeft slot1, fieldRight slot1, ownCentre slot1) = (-2600, 2600, 0)
      ∧ (fieldLeft slot4, fieldRight slot4, ownCentre slot4) = (-7000, -1800, -4400)
      ∧ [400, 2600, 4900].map (carX slot1) = [2200, 0, -2300]
      ∧ [2200, 0, -2300].map (effectiveSide slot1) = [some .right, none, some .left]
      ∧ (geometricSide slot4 (-6500), effectiveSide slot4 (-6500)) = (some .left, none) := by decide

/-- Section 1.6: the release preference against slot 4's centre. -/
theorem test_release_preference :
    [-2150, -2250, -2251].map (fun x => releasePreference slot1 x (-4400)) = [-100, 100, 102] := by decide

/-- Section 6.4: cases A, B, C, D, E, F, G, H, J, K, L, M. -/
theorem test_wear_cases :
    [550, 1250].map (wearSample ⟨1200, 600, 0, 0⟩ 0) = [⟨1133, 550, .measured, 0⟩, ⟨600, 1250, .beyond, 0⟩]
      ∧ wearSample ⟨1200, 600, 60, 0⟩ 0 40 = ⟨1200, 0, .noFlat, 0⟩
      ∧ [49, 50, 1000, 1199, 1200].map (fun w => (wearSample ⟨1200, 600, 0, 0⟩ 0 w).residual) = [1200, 1199, 931, 624, 600]
      ∧ [1900, 1990, 2000].map (fun w => (wearSample ⟨800, 1000, 0, 0⟩ 0 w).residual) = [112, 0, 0]
      ∧ (wearSample ⟨1500, 1000, 0, 0⟩ 0 50).residual = 1499 := by decide +kernel

/-- Section 7.4: the means of P and Q. -/
theorem test_means : (mean 22055 9, mean (-8810) 4, height ⟨520, 9, 22055, 222310, none⟩) = (2451, -2202, 24701) := by decide

/-- R136: the check value of this CRC (nine ASCII digits) as the catalogues give it (log 7). -/
theorem test_crc_check_value : crc [0x31, 0x32, 0x33, 0x34, 0x35, 0x36, 0x37, 0x38, 0x39] = 0x6F91#16 := by decide +kernel

/-- R169: least significant byte first, two's complement. -/
theorem test_byte_order : leIntBytes 2 (-2300) = [0x04#8, 0xF7#8] ∧ signedAt [0x04#8, 0xF7#8] 0 2 = -2300 := by decide

/-! ## Run control -/

/-- R161, R10: the straps give the slot; a message in progress is ignored. -/
theorem test_power_on_reset :
    gives (exec (.powerOnReset 5 7 ⟨true, false⟩ true true) running) (fun t =>
      t.rca.slot == 7 && t.rca.node == .unconfigured && t.siu.port == .ignoring && t.du.pair == ⟨true, false⟩) = true := by decide

/-- Section 9.8, step 7: READY and high for 100 microseconds. -/
theorem test_run_start :
    gives (exec (.runStart 100000) { running with rca := { running.rca with node := .ready, since := 1000000 } }) (fun t =>
      t.rca.node == .running && t.siu.level == 6 && t.siu.word == some 6 && t.rlc.leftLife == some ⟨.unheard, some 9100000⟩) = true := by
  decide

/-- Section 9.8, step 10: the final close of HW is posted and the line is held. -/
theorem test_enter_draining :
    gives (exec (.enterDraining 100000) { running with du := { running.du with gpi := 1842, hw := 1842, quarter := 2 } }) (fun t =>
      t.rca.node == .draining && t.tt.requests == [.finalClose 1842] && t.du.quarter == 0 && t.runLineHeld) = true := by decide

/-- R133: the QUEUED records are drain loss. -/
theorem test_drain_limit :
    gives (exec (.drainLimit 0) { running with
        rq := { running.rq with queued := queuedRecords 3 }
        rca := { running.rca with node := .draining, drainTimer := some 1000000 } }) (fun t =>
      t.rca.counters.drainLoss == 3 && t.rq.queued == [] && t.rq.pastLimit) = true := by decide

/-- Section 9.8, steps 8 and 9: the pulse restarts at its full length. -/
theorem test_alert_pulse_restarts :
    ((running.setLatch .overspeed).rca.alert, (((running.setLatch .overspeed).elapse 1200000).setLatch .overspeed).rca.alert)
      = (some 4000000, some 5200000) := by decide

/-- R168: the pulse ends at its time, not before. -/
theorem test_alert_pulse_end :
    gives (exec (.alertPulseEnd 3000000) (running.setLatch .overspeed)) (fun t => !t.alertPin) = true
      ∧ refuses (exec (.alertPulseEnd 2999999) (running.setLatch .overspeed)) .timeNotReached = true := by decide

/-! ## The sensor port -/

/-- Section 2.3, steps 4 and 6: the second page, then none. -/
theorem test_message_begin :
    gives (exec (.scanMessageBegin 1) { running with siu := { running.siu with pageA := .filling } }) (fun t =>
      t.siu.pageB == .filling && t.siu.port == .captured .b) = true
      ∧ gives (exec (.scanMessageBegin 1) { running with siu := { running.siu with pageA := .filling, pageB := .filling } })
        (fun t => t.rca.counters.skippedScans == 1 && t.latched .scanSkipped) = true := by decide

/-- Section 2.3, step 11: message 44 after 42; and step 2: a spot beyond the field width is removed. -/
theorem test_message_end :
    gives (exec (.scanMessageEnd 1 [44, 6, 1, 0x8C, 0x14, 1, 0, 0, 0, 200])
        { running with siu := { running.siu with pageA := .filling, port := .captured .a, continuity := some 42 } }) (fun t =>
      t.rca.counters.skippedScans == 1 && t.rca.counters.scansTaken == 1
        && t.siu.pageA == .posted ⟨44, 6, [], 0, 0⟩ && t.tt.requests == [.scanPass .a]) = true := by decide

/-- R16: a message that ends short is malformed. -/
theorem test_message_silence :
    gives (exec (.scanMessageSilence 1 [44, 6, 1, 0x8C])
        { running with siu := { running.siu with pageA := .filling, port := .captured .a } }) (fun t =>
      t.rca.counters.skippedScans == 1 && t.siu.pageA == .free && t.siu.continuity == some 44) = true := by decide

/-- R24: the later word follows the one being sent. -/
theorem test_exposure_word_sent :
    gives (exec (.exposureWordSent 1) { running with siu := { running.siu with word := some 6, wordDue := true, level := 5 } })
      (fun t => t.siu.word == some 5 && !t.siu.wordDue) = true := by decide

/-- R22: the end mark ends what was ignored. -/
theorem test_end_mark_after_reset :
    gives (exec (.endMarkAfterReset 1) { running with siu := { running.siu with port := .ignoring } }) (fun t => t.siu.port == .idle)
      = true := by decide

/-! ## Distance -/

/-- Section 3.4.1: the reverse count from 500 in bin 13. -/
theorem test_reverse_count :
    gives (exec (.odometerTransition 1 ⟨.q, []⟩) { running with du := ⟨⟨false, false⟩, -3, 500, 13, 13, 0⟩ }) (fun t =>
      t.du == ⟨⟨false, true⟩, 0, 86050, 12, 13, 1000001⟩ && t.tt.requests == []) = true := by decide

/-- Section 3.4.1: the crossing into bin 14 posts the close of bin 13. -/
theorem test_forward_count :
    gives (exec (.odometerTransition 1 ⟨.p, []⟩) { running with du := ⟨⟨false, false⟩, 3, 87200, 13, 13, 0⟩ }) (fun t =>
      t.du == ⟨⟨true, false⟩, 0, 1650, 14, 14, 1000001⟩ && t.tt.requests == [.binClose 13]) = true := by decide

/-- R32, R34: an edge on P and one on Q 200 ns later form one transition of both lines. -/
theorem test_illegal_transition :
    gives (exec (.illegalTransition ⟨401, .p, [⟨200, .q⟩]⟩) { running with du := ⟨⟨true, false⟩, 2, 5, 3, 3, 1000000⟩ }) (fun t =>
      t.du == ⟨⟨false, true⟩, 0, 5, 3, 3, 1000401⟩ && t.latched .quadError) = true := by decide

/-- R32: an edge that returns its line within 200 ns forms no transition, and of three edges on P and one on Q what remains is
a change of both lines; an edge within 200 ns of a group that was resolved belongs to that group. -/
theorem test_edge_groups :
    let s : State := { running with du := ⟨⟨true, false⟩, 2, 5, 3, 3, 1000000⟩ }
    gives (exec (.odometerTransition 301 ⟨.p, [⟨100, .p⟩]⟩) s) (fun t => t.du == { s.du with resolved := 1000301 } && t.rca == s.rca) = true
      ∧ resolve ⟨true, false⟩ (phaseAfter ⟨true, false⟩ ⟨.p, [⟨10, .p⟩, ⟨10, .q⟩, ⟨10, .p⟩]⟩) = .bothLines
      ∧ refuses (exec (.odometerTransition 200 ⟨.q, []⟩) s) .timeNotReached = true := by decide

/-! ## Scan pass -/

/-- The tracks of section 4.3.1 before the pass. -/
def twins : List Track :=
  [{ wire ⟨1, 4⟩ 210 (-210) 24700 with acc := some ⟨232, 5, -1050, 123500, none⟩ },
   { wire ⟨4, 31⟩ 198 190 24690 with acc := some ⟨231, 6, 1140, 148140, none⟩ },
   { wire ⟨1, 6⟩ 231 1450 24200 with state := .tentative 1 0, acc := some ⟨231, 1, 1450, 24200, none⟩ }]

/-- The node of section 4.3.1 with its page posted. -/
def twinState : State :=
  { serving running [.scanPass .a] twins with
    siu := { running.siu with pageA := .posted ⟨9, 6, [⟨1175, 5690, some 412, 140⟩, ⟨2400, 6190, none, 90⟩,
      ⟨2775, 6205, some 388, 200⟩, ⟨2845, 6195, some 395, 255⟩], 232, 232⟩ }
    tt := { (serving running [.scanPass .a] twins).tt with serial := 7 } }

/-- Section 4.3.1: the tracks after the pass. -/
theorem test_scan_pass_tracks :
    gives (exec (.scanPass 1) twinState) (fun t =>
      t.tt.tracks.map (fun u => (u.label, u.lastX, u.lastZ, u.acc.map fun a => (a.bin, a.count)))
        == [(⟨1, 4⟩, -245, 24695, some (232, 6)), (⟨4, 31⟩, 200, 24690, some (232, 1)),
            (⟨1, 6⟩, 1425, 24190, some (232, 1)), (⟨1, 7⟩, -175, 24705, some (232, 1))]
      && t.tt.tracks.map (·.state) == [.confirmed, .confirmed, .tentative 2 0, .tentative 1 0]) = true := by decide +kernel

/-- Section 4.3.1: the implicit close of bin 231 makes one record, and three spots are counted. -/
theorem test_scan_pass_statistics :
    gives (exec (.scanPass 1) twinState) (fun t =>
      t.rq.queued.map (fun q => (q.record.label, q.record.gpi, q.record.samples)) == [(⟨4, 31⟩, 231, 6)]
        && (t.siu.associated, t.siu.saturated, t.siu.weak) == (3, 1, 1) && t.tt.serial == 8 && t.siu.pageA == .free) = true := by
  decide +kernel

/-! ## Closes -/

/-- The tracks of section 7.4. -/
def four : List Track :=
  [{ wire ⟨1, 4⟩ 210 2455 24700 with
      acc := some ⟨520, 9, 22055, 222310, some ⟨1047, 800, .measured, 0⟩⟩, lastQueued := some 519, mark := some 37 },
   { wire ⟨1, 9⟩ 300 (-2205) 24700 with
      role := .shadow, link := some .left, peerRole := some .owner, peerThrough := some 519, lastQueued := some 512
      acc := some ⟨520, 4, -8810, 98790, none⟩
      held := [recordOf ⟨1, 9⟩ 517, recordOf ⟨1, 9⟩ 518, recordOf ⟨1, 9⟩ 519] },
   { wire ⟨1, 11⟩ 518 310 24700 with state := .tentative 2 0, acc := some ⟨520, 2, 620, 49400, none⟩ },
   { wire ⟨4, 31⟩ 200 (-1950) 24600 with
      state := .coasting, missedBins := 1, link := some .left, peerRole := some .shadow, lastQueued := some 518 }]

/-- The node of section 7.4; the transmitter is taken by an earlier frame, so that the report stays in the EDGE slot. -/
def closing : State :=
  { serving running [.binClose 520] four with
    du := { running.du with gpi := 521, hw := 521 }
    tt := { (serving running [.binClose 520] four).tt with leftCentre := some (-4400) }
    rq := { running.rq with queued := queuedRecords 5 }
    rlc := { running.rlc with tx := .busy (.status false) [] 0 .deferring } }

/-- Section 7.4: the two records that enter. -/
theorem test_bin_close_records :
    gives (exec (.binClose 1) closing) (fun t =>
      (t.rq.queued.drop 5).map (fun q => (q.record.label, q.record.gpi, q.record.stagger, q.record.height, q.record.samples))
        == [(⟨1, 4⟩, 520, 2451, 24701, 9), (⟨4, 31⟩, 520, -1950, 24600, 0)]
      && (t.rq.queued.drop 5).map (fun q => (q.record.staggerLimit, q.record.wearLimit, q.record.mark, q.record.gap))
        == [(true, false, some 37, none), (false, false, none, some 1)]) = true := by decide +kernel

/-- Section 7.4: the tracks after the close and the report with Q, R and P. -/
theorem test_bin_close_tracks :
    gives (exec (.binClose 1) closing) (fun t =>
      t.tt.tracks.map (fun u => (u.label, u.lastQueued, u.held.map (·.gpi), u.missedBins))
        == [(⟨1, 4⟩, some 520, [], 0), (⟨1, 9⟩, some 512, [517, 518, 519, 520], 0), (⟨1, 11⟩, none, [], 0),
            (⟨4, 31⟩, some 520, [], 2)]
      && t.rlc.edgeSlot.map (fun f => (parseFrame f.bytes).payload.length) == some (9 + 3 * 16)
      && t.latched .staggerLimit && !t.latched .wearLimit) = true := by decide +kernel

/-- Section 2.6: closes 20, 22, 23 and 24. -/
theorem test_exposure_rows :
    (exposureChoice slot1 { running.siu with level := 6, associated := 12, saturated := 7 } four).1 = 5
      ∧ (exposureChoice slot1 { running.siu with level := 5, associated := 10, saturated := 4, weak := 3 } four).1 = 5
      ∧ (exposureChoice slot1 { running.siu with level := 5 } four).1 = 6
      ∧ (exposureChoice slot1 { running.siu with level := 6, associated := 9, saturated := 1, weak := 5 } four).1 = 7
      ∧ exposureChoice slot1 { running.siu with level := 9, drift := 15 } [] = (8, 0) := by decide

/-- R119: the records of the final close carry END; the table closes. -/
theorem test_final_close :
    gives (exec (.finalClose 1) (serving closing [.finalClose 521, .binClose 3] four)) (fun t =>
      !t.tt.isOpen && t.tt.requests == [] && (t.rq.queued.drop 5).all (fun q => q.record.final)
        && t.rlc.edgeSlot == none) = true := by decide +kernel

/-! ## Ownership -/

/-- The report of slot 1's track A in section 5.8, bin 301. -/
def report301 : EdgeReport :=
  ⟨1, 301, 4, 7, 0, false, [⟨.left, .owner, ⟨1, 12⟩, 250, -1850, 24700, none⟩]⟩

/-- Section 5.8: slot 4's B adopts 1:0012 and becomes SHADOW. -/
theorem test_edge_application_adopts :
    gives (exec (.edgeApplication 1) (serving (runningOn slot4 4) [.edge .right report301] [wire ⟨4, 40⟩ 301 (-1852) 24700]))
      (fun t => t.tt.tracks == [{ wire ⟨1, 12⟩ 250 (-1852) 24700 with
        role := .shadow, link := some .right, peerRole := some .owner, peerThrough := some 301, former := some ⟨4, 40⟩ }]
        && t.tt.rightCentre == some 0) = true := by decide

/-- Section 5.8: slot 1's A stays OWNER and is contested. -/
theorem test_edge_application_contest :
    gives (exec (.edgeApplication 1) (serving running [.edge .left ⟨4, 301, 255, 1, -4400, false,
        [⟨.right, .owner, ⟨4, 40⟩, 301, -1852, 24700, none⟩]⟩] [wire ⟨1, 12⟩ 250 (-1850) 24700]))
      (fun t => t.tt.tracks == [{ wire ⟨1, 12⟩ 250 (-1850) 24700 with
        link := some .left, peerRole := some .owner, peerThrough := some 301, contested := true }]
        && t.latched .contested && t.tt.leftCentre == some (-4400)) = true := by decide

/-- Track A of section 5.8.1 after close 312. -/
def silentNeighbour : Track :=
  { wire ⟨1, 12⟩ 250 (-2300) 24700 with
    role := .shadow, link := some .left, peerRole := some .owner, peerThrough := some 306, lastQueued := some 305
    held := [recordOf ⟨1, 12⟩ 309, recordOf ⟨1, 12⟩ 310, recordOf ⟨1, 12⟩ 311, recordOf ⟨1, 12⟩ 312] }

/-- Section 5.8.1: the held records enter, the first TAKEN_OVER with a gap of two bins. -/
theorem test_neighbour_lost_application :
    gives (exec (.neighbourLostApplication 1) (serving running [.neighbourLost .left] [silentNeighbour])) (fun t =>
      t.rq.queued.map (fun q => (q.record.gpi, q.record.takenOver, q.record.gap))
        == [(309, true, some 2), (310, false, none), (311, false, none), (312, false, none)]
      && t.tt.tracks.map (fun u => (u.role, u.link, u.held, u.lastQueued)) == [(.owner, none, [], some 312)]) = true := by decide

/-- Section 6.6: MARK with type 1. -/
theorem test_mark_application :
    gives (exec (.markApplication 1) (serving running [.mark 37 (some 1)] [wire ⟨1, 4⟩ 0 0 0])) (fun t =>
      t.wau.currentType == some 1 && t.tt.tracks.map (·.mark) == [some 37]) = true
      ∧ gives (exec (.markApplication 1) (serving running [.mark 37 (some 2)] [])) (fun t => t.wau.currentType == some 0) = true := by
  decide

/-! ## The roof link -/

/-- A transmitter state with 400 bytes proper (section 8.5). -/
def sending (phase : TxPhase) (attempts : Nat) (source : FrameSource) : State :=
  { running with rlc := { running.rlc with tx := .busy source (List.replicate 400 0#8) attempts phase } }

/-- Section 8.5: attempt 1 begins at once; R146: a report four bins back is not stale, one five back is. -/
theorem test_attempt_begin :
    gives (exec (.attemptBegin 0) (sending .deferring 0 .gauge)) (fun t =>
      t.rlc.tx == .busy .gauge (List.replicate 400 0#8) 0 (.transmitting 1000000)) = true
      ∧ gives (exec (.attemptBegin 0) (sending .deferring 0 (.edge (-4)))) (fun t => t.rlc.tx != .free) = true
      ∧ gives (exec (.attemptBegin 0) (sending .deferring 0 (.edge (-5)))) (fun t =>
        t.rlc.tx == .free && t.rca.counters.abandonedFrames == 1) = true := by decide +kernel

/-- Section 8.5: the collision at 10.0 microseconds, the jam until 11.6. -/
theorem test_collision :
    gives (exec (.collision 10000) (sending (.transmitting 1000000) 0 .gauge)) (fun t =>
      t.rlc.tx == .busy .gauge (List.replicate 400 0#8) 0 (.jam 1011600)) = true := by decide +kernel

/-- Section 8.5: count 1, r = 1: backing off until 37.2. -/
theorem test_jam_end :
    gives (exec (.jamEnd 11600 1) (sending (.jam 1011600) 0 .gauge)) (fun t =>
      t.rlc.tx == .busy .gauge (List.replicate 400 0#8) 1 (.backingOff 1037200)) = true := by decide +kernel

/-- R140: the sixteenth attempt fails; the records return (section 7.6, step 3). -/
theorem test_sixteenth_attempt :
    gives (exec (.jamEnd 1600 0) { sending (.jam 1001600) 15 .gauge with
        rq := { running.rq with inFrame := queuedRecords 24, queued := queuedRecords 40 } }) (fun t =>
      t.rlc.tx == .free && t.rq.queued.length == 64 && t.rq.hold == some 2001600 && t.latched .collisionLimit) = true := by
  decide +kernel

theorem test_backoff_end :
    gives (exec (.backoffEnd 25600) (sending (.backingOff 1025600) 1 .gauge)) (fun t =>
      t.rlc.tx == .busy .gauge (List.replicate 400 0#8) 1 .deferring) = true := by decide +kernel

/-- Section 8.5: 400 bytes and the preamble take 163.2 microseconds. -/
theorem test_frame_sent :
    gives (exec (.frameSent 163200) (sending (.transmitting 1000000) 1 (.edge 0))) (fun t =>
      t.rlc.tx == .free && t.rlc.heartbeat == some 6163200) = true
      ∧ refuses (exec (.frameSent 163199) (sending (.transmitting 1000000) 1 (.edge 0))) .timeNotReached = true := by
  decide +kernel

/-- R141: just beyond 1,000 microseconds. -/
theorem test_bus_jam :
    gives (exec (.busJam 1000001) { running with rlc := { running.rlc with carrier := some ⟨1000000, true, false⟩, reception := some [] } })
      (fun t => t.latched .busJam && t.rlc.reception.isNone && t.rlc.carrier == some ⟨1000000, false, true⟩) = true := by decide

/-- R147: a heartbeat for the bin below HW. -/
theorem test_heartbeat :
    gives (exec (.heartbeatTimerExpiry 0) { running with
        du := { running.du with gpi := 701, hw := 701 }, rlc := { running.rlc with heartbeat := some 1000000 } }) (fun t =>
      (match t.rlc.tx with
        | .busy (.edge bin) bytes 0 .deferring => bin == 700 && (parseFrame bytes).payload.length == 9
        | _ => false) && t.rlc.heartbeat == some 6000000) = true := by decide +kernel

/-- R149: after eight alternating bits and D5h the frame proper begins, and a later D5h is data; seven alternating bits are no
preamble. -/
theorem test_reception_begin :
    let heard (bits : List Bool) (found : Option (List Bool)) : Bool :=
      gives (exec (.receptionBegin ⟨1, bits⟩) { running with rlc := { running.rlc with carrier := some ⟨1, true, false⟩ } })
        (fun t => t.rlc.reception == found)
    heard (sentBits preamble) (some []) = true
      ∧ heard ([false, true, true] ++ sentBits [0x55, 0xD5, 0x55, 0xD5]) (some (sentBits [0x55, 0xD5])) = true
      ∧ heard ((sentBits [0x55, 0xD5]).drop 1) none = true := by decide +kernel

/-- A node in a reception. -/
def receivingState (rs : List Request) : State :=
  { serving running rs [] with rlc := { running.rlc with carrier := some ⟨1, true, false⟩, reception := some [] } }

/-- Section 8.7: an EDGE frame taken with three waiting, lost with four; a fragment of 63 bytes and
seven bits; a CRC that fails, of 64 bytes and three bits. -/
theorem test_frame_received :
    gives (exec (.frameReceived 1 (sentBits (edgeFrame { report301 with source := 7, right := 255, left := 1 }).bytes))
        (receivingState (List.replicate 3 (.mark 1 none)))) (fun t => t.tt.requests.length == 4 && t.rca.counters.droppedEdges == 0
          && t.rlc.rightLife == some ⟨.present, some 9000001⟩) = true
      ∧ gives (exec (.frameReceived 1 (sentBits (edgeFrame { report301 with source := 4 }).bytes))
        (receivingState (List.replicate 4 (.mark 1 none)))) (fun t => t.tt.requests.length == 4 && t.rca.counters.droppedEdges == 1)
        = true
      ∧ gives (exec (.frameReceived 1 (List.replicate 511 false)) (receivingState [])) (fun t =>
        t.rca.counters.badFrames == 0 && t.rlc.carrier == none) = true
      ∧ gives (exec (.frameReceived 1 (List.replicate 515 false)) (receivingState [])) (fun t => t.rca.counters.badFrames == 1) = true := by
  decide +kernel

/-- R95: the neighbour is LOST and the application posted. -/
theorem test_neighbour_timer_expiry :
    gives (exec (.neighbourTimerExpiry 0 .left) { running with rlc := { running.rlc with leftLife := some ⟨.present, some 1000000⟩ } })
      (fun t => t.rlc.leftLife == some ⟨.lost, none⟩ && t.latched .neighbourLost && t.tt.requests == [.neighbourLost .left]) = true := by
  decide

/-- R129: seven QUEUED records wait for the age of the oldest, 5 ms. -/
theorem test_record_age_expiry :
    gives (exec (.recordAgeExpiry 5000000) { running with rq := { running.rq with queued := queuedRecords 7 } }) (fun t =>
      t.rq.inFrame.length == 7 && t.rq.queued == []) = true
      ∧ refuses (exec (.recordAgeExpiry 4999999) { running with rq := { running.rq with queued := queuedRecords 7 } })
        .timeNotReached = true := by decide +kernel

/-- Section 7.6, step 4: the hold period ends and G2 takes 24 records. -/
theorem test_hold_period_end :
    gives (exec (.holdPeriodEnd 0) { running with rq := { running.rq with queued := queuedRecords 64, hold := some 1000000 } }) (fun t =>
      t.rq.inFrame.length == 24 && t.rq.queued.length == 40 && t.rq.hold == none) = true := by decide +kernel

/-- R137: quiet from the moment that carrier ceases. -/
theorem test_medium_quiet :
    gives (exec (.mediumQuiet 7) { running with rlc := { running.rlc with carrier := some ⟨1, false, false⟩ } }) (fun t =>
      t.rlc.carrier == none && t.rlc.lastQuiet == 1000007) = true := by decide

/-- R141, and log 15: carrier within the first 64 bytes of the node's own frame is a collision. -/
theorem test_carrier_appears :
    gives (exec (.carrierAppears 5) running) (fun t => t.rlc.carrier == some ⟨1000005, true, false⟩) = true
      ∧ gives (exec (.carrierAppears 28800) (sending (.transmitting 1000000) 0 .gauge)) (fun t =>
        t.rlc.tx == .busy .gauge (List.replicate 400 0#8) 0 (.jam 1030400)) = true := by decide +kernel

/-! ## Frames from the recording station, byte by byte (R135, R171, R176); the CRC bytes were computed outside the model -/

/-- The second part of the CONFIG of slot 1 (sections 1.6, 6.6 and 9.8), as far as the CRC. -/
def configEnd : List Byte :=
  [0x84, 0x03, 0xE8, 0x03, 0xF4, 0x01, 0x14, 0x00, 0xEE, 0x02, 0x00, 0x00, 0x00, 0x00, 0x00, 0x00, 0x00, 0x00, 0x00, 0x00]
    ++ [0x00, 0x00, 0x00, 0x00, 0x00, 0x00, 0x60, 0x09, 0x08, 0x05, 0x64, 0x00, 0x08, 0x01, 0x01, 0x03]

/-- CONFIG of slot 1 with margin 800 and coast limit 20. -/
def configFrame : List Byte :=
  [0x0F, 0x0C, 0x04, 0x4F, 0x00, 0x12, 0x00, 0x28, 0x0A, 0x50, 0x14, 0xFF, 0x44, 0x48, 0x20, 0x03, 0x04, 0x07, 0x3C, 0x00]
    ++ [0x96, 0x00, 0x50, 0x00, 0xC8, 0x00, 0x03, 0x14, 0x78, 0x3C, 0x06, 0xA0, 0x86, 0x01, 0x00, 0x72, 0x38, 0x00, 0x00, 0x00]
    ++ [0x02, 0x00, 0xB0, 0x04, 0x58, 0x02, 0x14, 0x00]
    ++ configEnd ++ [0xF0, 0xDE]

/-- The same with margin 2,000. -/
def badConfigFrame : List Byte :=
  [0x0F, 0x0C, 0x04, 0x4F, 0x00, 0x12, 0x00, 0x28, 0x0A, 0x50, 0x14, 0xFF, 0x44, 0x48, 0xD0, 0x07, 0x04, 0x07, 0x3C, 0x00]
    ++ [0x96, 0x00, 0x50, 0x00, 0xC8, 0x00, 0x03, 0x14, 0x78, 0x3C, 0x06, 0xA0, 0x86, 0x01, 0x00, 0x72, 0x38, 0x00, 0x00, 0x00]
    ++ [0x02, 0x00, 0xB0, 0x04, 0x58, 0x02, 0x14, 0x00]
    ++ configEnd ++ [0x10, 0xEB]

/-- QUERY to slot 1 that clears CONFIG_REFUSED (section 9.8, step 5). -/
def queryFrame : List Byte :=
  [0x01, 0x0C, 0x05, 0x02, 0x00, 0x00, 0x08, 0x00, 0x00, 0x00, 0x00, 0x00, 0x00, 0x00, 0x00, 0x00, 0x00, 0x00, 0x00, 0x00]
    ++ [0x00, 0x00, 0x00, 0x00, 0x00, 0x00, 0x00, 0x00, 0x00, 0x00, 0x00, 0x00, 0x00, 0x00, 0x00, 0x00, 0x00, 0x00, 0x00, 0x00]
    ++ [0x00, 0x00, 0x00, 0x00, 0x00, 0x00, 0x00, 0x00, 0x00, 0x00, 0x00, 0x00, 0x00, 0x00, 0x00, 0x00, 0x00, 0x00, 0x00, 0x00]
    ++ [0x00, 0x00, 0xA8, 0x5C]

/-- MARK 37 with type index 1, broadcast. -/
def markFrame : List Byte :=
  [0x0F, 0x0C, 0x06, 0x03, 0x00, 0x25, 0x00, 0x01, 0x00, 0x00, 0x00, 0x00, 0x00, 0x00, 0x00, 0x00, 0x00, 0x00, 0x00, 0x00]
    ++ [0x00, 0x00, 0x00, 0x00, 0x00, 0x00, 0x00, 0x00, 0x00, 0x00, 0x00, 0x00, 0x00, 0x00, 0x00, 0x00, 0x00, 0x00, 0x00, 0x00]
    ++ [0x00, 0x00, 0x00, 0x00, 0x00, 0x00, 0x00, 0x00, 0x00, 0x00, 0x00, 0x00, 0x00, 0x00, 0x00, 0x00, 0x00, 0x00, 0x00, 0x00]
    ++ [0x00, 0x00, 0xE1, 0x60]

/-- A frame of an unknown kind, 7, from slot 7 to slot 1. -/
def unknownFrame : List Byte :=
  [0x01, 0x07, 0x07, 0x00, 0x00, 0x00, 0x00, 0x00, 0x00, 0x00, 0x00, 0x00, 0x00, 0x00, 0x00, 0x00, 0x00, 0x00, 0x00, 0x00]
    ++ [0x00, 0x00, 0x00, 0x00, 0x00, 0x00, 0x00, 0x00, 0x00, 0x00, 0x00, 0x00, 0x00, 0x00, 0x00, 0x00, 0x00, 0x00, 0x00, 0x00]
    ++ [0x00, 0x00, 0x00, 0x00, 0x00, 0x00, 0x00, 0x00, 0x00, 0x00, 0x00, 0x00, 0x00, 0x00, 0x00, 0x00, 0x00, 0x00, 0x00, 0x00]
    ++ [0x00, 0x00, 0xAA, 0xAB]

/-- A frame is valid when its CRC, taken in two parts, matches; each part is evaluated by itself. -/
theorem valid_of_parts {bytes a b : List Byte} {r : BitVec 16} (ha : a.foldl crcByte 0xFFFF#16 = r)
    (hb : b.foldl crcByte r = BitVec.ofNat 16 (readLe (bytes.drop (bytes.length - 2))))
    (hab : bytes.take (bytes.length - 2) = a ++ b) (hl : 64 ≤ bytes.length ∧ bytes.length ≤ 1024)
    (hp : bytes.length = properLength (fieldAt bytes 3 2)) (hr : readLe (bytes.drop (bytes.length - 2)) < 65536) :
    validReception bytes = true := by
  have hc : crcMatches bytes = true := by
    simp only [crcMatches, crc, hab, List.foldl_append, ha, hb, BitVec.toNat_ofNat, beq_iff_eq]
    exact Nat.mod_eq_of_lt hr
  simp only [validReception, hc, decide_eq_true hl.1, decide_eq_true hl.2, Bool.and_true, Bool.true_and]
  exact decide_eq_true hp

theorem test_config_frame_valid : validReception configFrame = true :=
  valid_of_parts (a := configFrame.take 48) (b := configEnd) (r := 0x4CBC#16) (by decide +kernel) (by decide +kernel)
    (by decide +kernel) (by decide +kernel) (by decide +kernel) (by decide +kernel)

theorem test_bad_config_frame_valid : validReception badConfigFrame = true :=
  valid_of_parts (a := badConfigFrame.take 48) (b := configEnd) (r := 0x6983#16) (by decide +kernel) (by decide +kernel)
    (by decide +kernel) (by decide +kernel) (by decide +kernel) (by decide +kernel)

/-- The bytes of a reception whose bits are those of a frame. -/
theorem bytes_of_sentBits (bytes : List Byte) : wholeBytes ([] ++ sentBits bytes) = bytes := by
  simpa using wholeBytes_sentBits bytes [] (by decide)

/-- What FRAME_RECEIVED does with a valid frame. -/
theorem received_eq {e : Nat} {bytes : List Byte} {s : State} (h : s.rlc.reception = some [])
    (hv : validReception bytes = true) (hl : ¬bytes.length < 64) : exec (.frameReceived e (sentBits bytes)) s =
      .next (filterFrame (parseFrame bytes) (signOfLife (parseFrame bytes).source (s.elapse e).carrierEnds)) := by
  simp only [exec, execFrameReceived, h, bytes_of_sentBits, judgeReception, hl, if_false, hv, if_true]

/-- Slot 1 after power-on reset, in a reception. -/
def fresh : State := { receivingState [] with rca := { Rca.reset with slot := 1 } }

/-- Section 9.8: at step 4 margin 800 passes, the coast limit 20 is held at 15 and the node is READY; at step 2 margin 2,000 is
refused with MARGIN and latched, and the node stays UNCONFIGURED. -/
theorem test_config_received :
    gives (exec (.frameReceived 1 (sentBits configFrame)) fresh) (fun t =>
      t.rca.node == .ready && t.rca.pendingSettings == some ⟨{ slot1 with coastLimit := 15 }, 12⟩) = true
    ∧ gives (exec (.frameReceived 1 (sentBits badConfigFrame)) fresh) (fun t =>
      t.latched .configRefused && t.rca.node == .unconfigured
        && (match t.rlc.tx with
          | .busy (.status false) bytes 0 .deferring =>
            (parseFrame bytes).destination == 12 && (parseFrame bytes).payload.take 2 == [1, 3]
          | _ => false)) = true := by
  rw [received_eq (by decide) test_config_frame_valid (by decide),
    received_eq (by decide) test_bad_config_frame_valid (by decide)]
  decide +kernel

/-! ## Witnesses: for each statement with hypotheses, states and operands that meet them -/

theorem test_witness_StepRunsTheFrontCommand :
    ({ running with pending := [.scanPass 0, .binClose 0] } : State).pending = .scanPass 0 :: [.binClose 0] ∧ running.pending = [] := by
  decide

theorem test_witness_LatchAndAlert :
    Latch.busJam ≠ .overspeed ∧ running.settings = some slot1 ∧ slot1.alertMask.getLsbD Latch.overspeed.position = true
      ∧ slot1.alertMask.getLsbD Latch.contested.position = false ∧ State.reset.settings = none
      ∧ (running.setLatch .overspeed).rca.alert = some 4000000 ∧ 4000000 ≤ (running.setLatch .overspeed).now + 3000000
      ∧ (running.setLatch .overspeed).now + 2999999 < 4000000 := by decide

theorem test_witness_FieldGeometry :
    slot4.facing = .plus ∧ slot1.facing = .minus
      ∧ 3 * ({ slot1 with margin := 1733 } : Settings).margin ≤ slot1.fieldWidth ∧ 1000 ≤ slot1.fieldWidth
      ∧ -8000 ≤ fieldLeft slot1 ∧ fieldRight slot1 ≤ 8000 ∧ (⟨5200, 6200, none, 90⟩ : Spot).headX ≤ slot1.fieldWidth
      ∧ [120, 119, 60, 59].map (spotClass slot1) = [.strong, .weak, .weak, .rejected] := by decide

/-- Page A free; A taken; both taken, in RUNNING and not. -/
theorem test_witness_MessageBegins :
    let one : State := { running with siu := { running.siu with pageA := .posted ⟨1, 6, [], 0, 0⟩ } }
    let two : State := { one with siu := { one.siu with pageB := .posted ⟨2, 6, [], 0, 0⟩ } }
    let off : State := { two with rca := Rca.reset }
    (running.siu.port = .idle ∧ running.siu.pageA = .free)
      ∧ (one.siu.port = .idle ∧ one.siu.pageA ≠ .free ∧ one.siu.pageB = .free)
      ∧ (two.siu.port = .idle ∧ two.siu.pageA ≠ .free ∧ two.siu.pageB ≠ .free ∧ two.rca.node = .running)
      ∧ (off.siu.port = .idle ∧ off.siu.pageA ≠ .free ∧ off.siu.pageB ≠ .free ∧ off.rca.node ≠ .running) := by decide

theorem test_witness_MessageEndsUntaken :
    ({ State.reset.siu with pageA := .filling, port := .captured .a } : Siu).port = .captured .a ∧ State.reset.rca.node ≠ .running
      ∧ ({ State.reset.siu with port := .uncaptured } : Siu).port = .uncaptured
      ∧ ({ State.reset.siu with port := .ignoring } : Siu).port = .ignoring := by decide

/-- Spot counts 0 and 16, the ends of the range. -/
theorem test_witness_WellFormedMessageIsPosted :
    let s : State := { running with siu := { running.siu with pageA := .filling, port := .captured .a } }
    s.siu.port = .captured .a ∧ s.rca.node = .running ∧ s.settings = some slot1
      ∧ 3 ≤ ([44, 6, 0] : List Byte).length ∧ fieldAt [44, 6, 0] 2 1 ≤ 16 ∧ ([44, 6, 0] : List Byte).length = 3 + 7 * fieldAt [44, 6, 0] 2 1
      ∧ fieldAt ([44, 6, 16] ++ List.replicate 112 7) 2 1 ≤ 16
      ∧ ([44, 6, 16] ++ List.replicate 112 (7 : Byte)).length = 3 + 7 * fieldAt ([44, 6, 16] ++ List.replicate 112 7) 2 1 := by
  decide

theorem test_witness_MalformedAndUncapturedMessages :
    let s : State := { running with siu := { running.siu with pageA := .filling, port := .captured .a } }
    let u (p : Option Nat) : State := { running with siu := { running.siu with port := .uncaptured, continuity := p } }
    (s.siu.port = .captured .a ∧ s.rca.node = .running ∧ s.settings = some slot1)
      ∧ ([44, 6] : List Byte).length < 3 ∧ 16 < fieldAt ([44, 6, 17] : List Byte) 2 1
      ∧ ([44, 6, 1] : List Byte).length ≠ 3 + 7 * fieldAt ([44, 6, 1] : List Byte) 2 1
      ∧ ((u none).siu.port = .uncaptured ∧ (u none).rca.node = .running)
      ∧ (3 ≤ ([44, 6, 0] : List Byte).length ∧ (u none).siu.continuity = none ∧ (u (some 255)).siu.continuity = some 255) := by decide

/-- The lowest and the highest level. -/
theorem test_witness_ExposureWordSent :
    State.reset.siu.word = some 0 ∧ ({ running.siu with word := some 15 } : Siu).word = some 15 ∧ 15 ≤ 15 := by decide

/-- Quarter counts 2 and -2, from which a quarter completes no cycle; the first edge of a group one nanosecond after the group
before was resolved, and at that instant; groups that leave no line, one line and both lines changed. -/
theorem test_witness_QuarterWithoutCount :
    let s (q : Int) : State := { running with du := ⟨⟨false, false⟩, q, 0, 0, 0, 1000000⟩ }
    let bounce : EdgeGroup := ⟨.p, [⟨200, .p⟩, ⟨0, .q⟩]⟩
    State.reset.rca.node ≠ .running ∧ (s 2).now + 400 ≤ (s 2).du.resolved + ((bounce.later.map fun x => x.after.val).sum + 200)
      ∧ Brings (.odometerTransition 401 bounce) 401 bounce (s 2) (toggle (s 2).du.pair .q)
      ∧ Brings (.illegalTransition ⟨401, .p, [⟨200, .p⟩]⟩) 401 ⟨.p, [⟨200, .p⟩]⟩ (s 2) (s 2).du.pair
      ∧ Brings (.odometerTransition 201 ⟨.p, []⟩) 201 ⟨.p, []⟩ State.reset (toggle State.reset.du.pair .p)
      ∧ ((s 2).rca.node = .running ∧ (s 2).settings = some slot1 ∧ isForward slot1.direction (s 2).du.pair .p = true
        ∧ (s 2).du.quarter ≠ 3)
      ∧ ((s (-2)).rca.node = .running ∧ (s (-2)).settings = some slot1 ∧ isForward slot1.direction (s (-2)).du.pair .q = false
        ∧ (s (-2)).du.quarter ≠ -3) := by decide

/-- One micrometre short of a step and exactly a step; GPI below and at the high-water index; nine and ten closes waiting;
a reverse count at the pulse length and one below it. -/
theorem test_witness_OdometerCounts :
    let s (q : Int) (sub : Nat) (gpi : Int) (waiting : Nat) : State :=
      { serving running (List.replicate waiting (.binClose 1)) [] with du := ⟨⟨false, false⟩, q, sub, gpi, 13, 0⟩ }
    (∀ q sub gpi n, Brings (.odometerTransition 0 ⟨.p, []⟩) 0 ⟨.p, []⟩ (s q sub gpi n) (toggle (s q sub gpi n).du.pair .p)
        ∧ Brings (.illegalTransition ⟨0, .q, []⟩) 0 ⟨.q, []⟩ (s q sub gpi n) (toggle (s q sub gpi n).du.pair .q))
      ∧ (∀ q sub gpi n, (s q sub gpi n).rca.node = .running ∧ (s q sub gpi n).settings = some slot1
        ∧ isForward slot1.direction (s q sub gpi n).du.pair .p = true ∧ isForward slot1.direction (s q sub gpi n).du.pair .q = false)
      ∧ ((s 3 85549 13 0).du.quarter = 3 ∧ (s 3 85549 13 0).du.sub + slot1.pulseLength < slot1.stepLength)
      ∧ ((s 3 85550 12 0).du.quarter = 3 ∧ slot1.stepLength ≤ (s 3 85550 12 0).du.sub + slot1.pulseLength
        ∧ (s 3 85550 12 0).du.gpi < (s 3 85550 12 0).du.hw ∧ (s 3 85550 12 0).du.gpi ≠ 2147483647)
      ∧ (slot1.stepLength ≤ (s 3 85550 13 9).du.sub + slot1.pulseLength ∧ (s 3 85550 13 9).du.gpi = (s 3 85550 13 9).du.hw
        ∧ (s 3 85550 13 9).tt.requests.countP Request.isClose < 10 ∧ 10 ≤ (s 3 85550 13 10).tt.requests.countP Request.isClose)
      ∧ ((s (-3) 14450 13 0).du.quarter = -3 ∧ slot1.pulseLength ≤ (s (-3) 14450 13 0).du.sub)
      ∧ ((s (-3) 14449 13 0).du.quarter = -3 ∧ (s (-3) 14449 13 0).du.sub < slot1.pulseLength
        ∧ (s (-3) 14449 13 0).du.gpi ≠ -2147483648) :=
  ⟨fun _ _ _ _ => ⟨⟨.inl rfl, by show 200 < 1000000; decide, rfl⟩, .inr rfl, by show 200 < 1000000; decide, rfl⟩, fun _ _ _ _ => ⟨rfl, rfl, rfl, rfl⟩, by decide, by decide, by decide, by decide, by decide⟩

theorem test_witness_CountsAtTheEndsOfTheRange :
    let top : Du := ⟨⟨false, false⟩, 3, 85550, 2147483647, 2147483647, 0⟩
    let bottom : Du := ⟨⟨false, false⟩, -3, 0, -2147483648, 0, 0⟩
    Brings (.odometerTransition 0 ⟨.p, []⟩) 0 ⟨.p, []⟩ { running with du := top } (toggle top.pair .p)
      ∧ Brings (.odometerTransition 0 ⟨.q, []⟩) 0 ⟨.q, []⟩ { running with du := bottom } (toggle bottom.pair .q)
      ∧ running.rca.node = .running ∧ running.settings = some slot1
      ∧ isForward slot1.direction top.pair .p = true ∧ top.quarter = 3 ∧ slot1.stepLength ≤ top.sub + slot1.pulseLength
      ∧ top.gpi = 2147483647 ∧ top.hw = 2147483647
      ∧ isForward slot1.direction bottom.pair .q = false ∧ bottom.quarter = -3 ∧ bottom.sub < slot1.pulseLength
      ∧ bottom.gpi = -2147483648 := by decide

/-- Two edges 200 ns apart, in RUNNING, and as the first edges after reset. -/
theorem test_witness_IllegalTransition :
    let g : EdgeGroup := ⟨.p, [⟨200, .q⟩]⟩
    Brings (.illegalTransition ⟨0, g⟩) 0 g running ⟨!running.du.pair.p, !running.du.pair.q⟩ ∧ running.rca.node = .running
      ∧ Brings (.odometerTransition 401 g) 401 g State.reset ⟨!State.reset.du.pair.p, !State.reset.du.pair.q⟩
      ∧ State.reset.rca.node ≠ .running := by decide

theorem test_witness_GreedyAssignment :
    let cs : List Candidate := [⟨0, 0, [35]⟩, ⟨0, 1, [35]⟩, ⟨1, 2, [10]⟩]
    (⟨0, 1, [35]⟩ : Candidate) ∈ cs ∧ (⟨0, 1, [35]⟩ : Candidate) ∉ assign cs := by decide

/-- The node of section 4.3.1, where three tracks have a spot each and one holds an older accumulator; statistics at the end of
their width; a backtracking page; a page without spots. -/
theorem test_witness_ScanPass :
    twinState.tt.requests = .scanPass .a :: [] ∧ twinState.tt.isOpen = true ∧ twinState.settings = some slot1
      ∧ (∃ scan, twinState.siu.page .a = .posted scan)
      ∧ ({ twinState.siu with associated := 65535, saturated := 65535, weak := 65535 } : Siu).saturated ≤ 65535
      ∧ twinState.siu.saturated ≤ 65535 ∧ twinState.siu.weak ≤ 65535 ∧ twinState.siu.associated ≤ 65535
      ∧ (⟨9, 6, [], 231, 232⟩ : Scan).gpi ≠ (⟨9, 6, [], 231, 232⟩ : Scan).hw ∧ (⟨9, 6, [], 231, 232⟩ : Scan).spots = [] :=
  ⟨rfl, rfl, rfl, ⟨_, rfl⟩, by decide, by decide, by decide, by decide, by decide, rfl⟩

/-- One track and one page with one spot. -/
def lone (u : Track) (spot : Spot) (gpi hw : Int) : State :=
  { serving running [.scanPass .a] [u] with siu := { running.siu with pageA := .posted ⟨9, 6, [spot], gpi, hw⟩ } }

/-- A STRONG spot at the limit of the gate, 60 away, for a TENTATIVE track; a WEAK one for a CONFIRMED track; a backtracking
scan; no accumulator, one of the stamp's bin, and one of the bin below it, TENTATIVE or not. -/
theorem test_witness_SpotTakenByTrack :
    let t3 : Track := { wire ⟨1, 6⟩ 231 1450 24200 with state := .tentative 1 0, acc := some ⟨232, 1, 1450, 24200, none⟩ }
    let t2 := wire ⟨4, 31⟩ 198 190 24690
    let s := lone t3 ⟨1210, 5700, some 412, 140⟩ 232 232
    s.tt.requests = .scanPass .a :: [] ∧ s.tt.isOpen = true ∧ s.settings = some slot1
      ∧ s.siu.page .a = .posted ⟨9, 6, [⟨1210, 5700, some 412, 140⟩], 232, 232⟩ ∧ s.tt.tracks = [t3]
      ∧ (carSpot slot1 ⟨1210, 5700, some 412, 140⟩).cls = .strong
      ∧ ((carSpot slot1 ⟨1210, 5700, some 412, 140⟩).x - t3.lastX).natAbs = min (slot1.xGate + 10 * t3.missedBins) (2 * slot1.xGate)
      ∧ (((carSpot slot1 ⟨1210, 5700, some 412, 140⟩).z : Int) - t3.lastZ).natAbs ≤ slot1.zGate
      ∧ (∀ a ∈ t3.acc.toList, (232 : Int) ≤ a.bin) ∧ t2.acc = none
      ∧ (carSpot slot1 ⟨2400, 6190, none, 90⟩).cls = .weak ∧ t2.state.isTentative = false
      ∧ ((carSpot slot1 ⟨2400, 6190, none, 90⟩).x - t2.lastX).natAbs ≤ min (slot1.xGate + 10 * t2.missedBins) (2 * slot1.xGate)
      ∧ (((carSpot slot1 ⟨2400, 6190, none, 90⟩).z : Int) - t2.lastZ).natAbs ≤ slot1.zGate
      ∧ (231 : Int) ≠ 232
      ∧ (twins.map fun u => (u.state.isTentative, u.acc.any fun a => decide (a.bin < 232)))
        = [(false, false), (false, true), (true, true)] := by decide

/-- One unit beyond the gate; seven and eight tracks that stay; the last serial. -/
theorem test_witness_BirthOfATrack :
    let u := wire ⟨1, 4⟩ 210 (-210) 24700
    let spot : Spot := ⟨2749, 6200, none, 120⟩
    let s := lone u spot 232 232
    let kept (ts : List Track) := ts.filterMap missTentative
    s.tt.requests = .scanPass .a :: [] ∧ s.tt.isOpen = true ∧ s.settings = some slot1 ∧ (carSpot slot1 spot).cls = .strong
      ∧ ({ s.tt with serial := 65535 } : Tt).serial < 65536
      ∧ (∀ v ∈ s.tt.tracks, xGateOf slot1 v.missedBins < ((carSpot slot1 spot).x - v.lastX).natAbs)
      ∧ (kept (List.replicate 7 u)).length < 8 ∧ 8 ≤ (kept (List.replicate 8 u)).length := by decide

/-- Corrected widths 49 and 50; chord terms 0 and 2,399; radii 300 and 1,000. -/
theorem test_witness_WearSample :
    300 ≤ (⟨1200, 600, 0, 0⟩ : WireType).radius ∧ (⟨800, 1000, 0, 0⟩ : WireType).radius ≤ 1000
      ∧ 300 ≤ (⟨800, 300, 0, 0⟩ : WireType).radius ∧ 2000 ≤ 2000
      ∧ (49 : Int) < 50 ∧ 50 ≤ (1200 : Int) ∧ 4 * (600 : Int) ^ 2 - 1200 ^ 2 ≤ 0 ∧ 50 ≤ (1199 : Int)
      ∧ 0 < 4 * (600 : Int) ^ 2 - 1199 ^ 2 := by decide

theorem test_witness_FullRecord :
    1 ≤ (⟨520, 1, 22055, 222310, none⟩ : Accumulator).count ∧ 1 ≤ (⟨520, 255, 22055, 222310, none⟩ : Accumulator).count := by decide

/-- A GPI at the last queued one and one above it; 64 and 63 records in the queue; past the drain limit. -/
theorem test_witness_RecordOffered :
    let t : Track := { wire ⟨1, 4⟩ 0 0 0 with lastQueued := some 10 }
    let s (n : Nat) (limit : Bool) : State := { running with rq := { running.rq with queued := queuedRecords n, pastLimit := limit } }
    (s 0 true).rq.pastLimit = true
      ∧ ((s 0 false).rq.pastLimit = false ∧ t.lastQueued = some 10 ∧ (recordOf ⟨1, 4⟩ 10).gpi ≤ 10)
      ∧ ((s 64 false).rq.pastLimit = false ∧ (∀ l ∈ t.lastQueued.toList, l < (recordOf ⟨1, 4⟩ 11).gpi)
        ∧ 64 ≤ (s 64 false).rq.inFrame.length + (s 64 false).rq.queued.length)
      ∧ ((s 63 false).rq.pastLimit = false ∧ (s 63 false).rq.inFrame.length + (s 63 false).rq.queued.length < 64) := by decide

/-- The next GPI, a gap of one, the largest gap that fits, and one beyond it. -/
theorem test_witness_EntryMarks :
    (wire ⟨1, 4⟩ 0 0 0).lastQueued = none ∧ ({ wire ⟨1, 4⟩ 0 0 0 with lastQueued := some 10 } : Track).lastQueued = some 10
      ∧ (recordOf ⟨1, 4⟩ 11).gpi ≤ 10 + 1
      ∧ (10 + 1 < (recordOf ⟨1, 4⟩ 12).gpi ∧ (recordOf ⟨1, 4⟩ 12).gpi - 10 - 1 ≤ 65535)
      ∧ (recordOf ⟨1, 4⟩ 65546).gpi - 10 - 1 ≤ 65535 ∧ 65535 < (recordOf ⟨1, 4⟩ 65547).gpi - 10 - 1 := by decide

/-- Preferences of 102 and exactly 100 against a hysteresis of 100 (section 1.6), and a neighbour seen releasing. -/
theorem test_witness_RoutingAndRelease :
    let t : Track := { wire ⟨1, 12⟩ 250 (-2251) 24700 with link := some .left, peerRole := some .shadow }
    t.role = .owner ∧ silentNeighbour.role ≠ .owner ∧ (noSampleRecord true 3 t).final = true ∧ (wire ⟨1, 4⟩ 0 0 0).link = none
      ∧ (noSampleRecord false 3 t).final = false ∧ t.link = some .left ∧ closing.tt.centre .left = some (-4400)
      ∧ ((slot1.hysteresis : Int) < |(-2251 : Int) - ownCentre slot1| - |(-2251 : Int) - -4400| ∧ t.peerRole ≠ some .releasing)
      ∧ ¬((slot1.hysteresis : Int) < |(-2250 : Int) - ownCentre slot1| - |(-2250 : Int) - -4400|) := by decide

/-- The tracks of section 4.4.1 before the close of bin 240. -/
def coasters : List Track :=
  [wire ⟨1, 1⟩ 200 2560 24700, wire ⟨1, 2⟩ 200 900 24700,
   { wire ⟨1, 3⟩ 238 (-1100) 24700 with state := .tentative 2 0, acc := some ⟨240, 2, -2200, 49400, none⟩ },
   { wire ⟨1, 4⟩ 200 (-2000) 24700 with state := .coasting, missedBins := 3 },
   { wire ⟨1, 5⟩ 200 0 24700 with acc := some ⟨240, 1, 0, 24700, none⟩ },
   { wire ⟨1, 6⟩ 200 300 24700 with acc := some ⟨241, 1, 300, 24700, none⟩ }]

/-- One track for each case: in order A, B, C and D of section 4.4.1, one with samples, one with a later bin. -/
theorem test_witness_TracksAtAClose :
    let s := serving running [.binClose 240] coasters
    s.tt.requests = .binClose 240 :: [] ∧ (serving running [.finalClose 240] coasters).tt.requests = .finalClose 240 :: []
      ∧ s.tt.isOpen = true ∧ s.settings = some slot1 ∧ (s.tt.tracks.map (·.label)).Nodup
      ∧ edgeDistance slot1 2560 ≤ xGateOf slot1 0
      ∧ (xGateOf slot1 0 < edgeDistance slot1 900 ∧ 0 + 1 ≤ slot1.coastLimit) ∧ slot1.coastLimit < 3 + 1
      ∧ (s.tt.tracks.map fun u => (u.state.isTentative, u.acc.isNone, u.acc.all fun a => decide (a.bin ≤ 240)))
        = [(false, true, true), (false, true, true), (true, false, true), (false, true, true), (false, false, true),
           (false, false, false)] := by decide

theorem test_witness_BinClose :
    closing.tt.requests = .binClose 520 :: [] ∧ closing.tt.isOpen = true ∧ closing.settings = some slot1 := by decide

/-- In RUNNING, and in DRAINING; a free transmitter, with no GAUGE frame formed by the close and with one. -/
theorem test_witness_BinCloseReport :
    let free : State := serving running [.binClose 520] four
    (free.rlc.tx = .free ∧ free.rlc.edgeSlot = none ∧ free.rca.status = none ∧ free.rq.inFrame = [])
      ∧ gives (exec (.binClose 1) free) (fun t => t.rq.inFrame == []) = true
      ∧ gives (exec (.binClose 1) { free with rq := { free.rq with queued := queuedRecords 7 } }) (fun t => t.rq.inFrame != []) = true
      ∧ closing.tt.requests = .binClose 520 :: [] ∧ closing.tt.isOpen = true ∧ closing.settings = some slot1 ∧ closing.rlc.tx ≠ .free
      ∧ closing.rca.node = .running ∧ ({ closing.rca with node := .draining } : Rca).node ≠ .running := by decide +kernel

/-- A close with given statistics and tracks. -/
def judged (level associated saturated weak drift : Nat) (ts : List Track) : State :=
  { serving running [.binClose 520] ts with
    siu := { running.siu with
      level := level, associated := associated, saturated := saturated, weak := weak, drift := drift, settled := true } }

/-- Each row of R26 at its boundary (twice the saturated count equal to the associated count; twice the weak count just above it
and equal to it), tentative tracks alone, and drift counters 14 and 15. -/
theorem test_witness_ExposureDecision :
    let first := judged 6 12 6 0 0 four
    let second := judged 6 9 4 5 0 four
    let none := judged 6 10 4 5 0 four
    (first.tt.requests = .binClose 520 :: [] ∧ first.tt.isOpen = true ∧ first.settings = some slot1 ∧ first.siu.settled = true
        ∧ 2 ≤ first.siu.associated ∧ first.siu.associated ≤ 2 * first.siu.saturated)
      ∧ (second.siu.settled = true ∧ ¬(2 ≤ second.siu.associated ∧ second.siu.associated ≤ 2 * second.siu.saturated)
        ∧ second.siu.associated < 2 * second.siu.weak)
      ∧ (¬(2 ≤ none.siu.associated ∧ none.siu.associated ≤ 2 * none.siu.saturated) ∧ 2 * none.siu.weak ≤ none.siu.associated
        ∧ none.siu.associated ≠ 0)
      ∧ gives (exec (.binClose 0) (judged 5 0 0 0 0 four)) (fun t => t.tt.tracks.any fun u => u.state.isTentative == false) = true
      ∧ gives (exec (.binClose 0) (judged 5 0 0 0 0 [four[2]])) (fun t =>
          t.tt.tracks != [] && t.tt.tracks.all fun u => u.state.isTentative) = true
      ∧ gives (exec (.binClose 0) (judged 9 0 0 0 14 [])) (fun t => t.tt.tracks == []) = true
      ∧ (judged 9 0 0 0 15 []).siu.drift = 15 ∧ (judged 9 0 0 0 14 []).siu.drift ≠ 15 ∧ running.siu.settled = false := by
  decide +kernel

/-- With records, and requests behind it; a close that ends the drain, with no STATUS pending and with one. -/
theorem test_witness_FinalClose :
    let s := serving closing [.finalClose 521, .binClose 3] four
    let d : State := { serving running [.finalClose 521] [] with rca := { running.rca with node := .draining, drainTimer := some 5 } }
    let p : State := { d with rca := { d.rca with status := some ⟨.queried, 9, false⟩ } }
    (s.tt.requests = .finalClose 521 :: [.binClose 3] ∧ s.tt.isOpen = true ∧ s.settings = some slot1 ∧ s.rca.node ≠ .draining)
      ∧ (d.tt.requests = .finalClose 521 :: [] ∧ d.tt.isOpen = true ∧ d.settings = some slot1 ∧ d.rca.node = .draining
        ∧ d.rlc.edgeSlot = none ∧ d.rlc.tx = .free ∧ drainEndPending d = false ∧ d.rca.status = none
        ∧ d.rca.runSettings = some ⟨slot1, 12⟩)
      ∧ (p.rca.status = some ⟨.queried, 9, false⟩ ∧ drainEndPending p = false)
      ∧ gives (exec (.finalClose 1) d) (fun t => t.rq.inFrame == [] && t.rq.queued == []) = true
      ∧ gives (exec (.finalClose 1) p) (fun t => t.rq.inFrame == [] && t.rq.queued == []) = true := by decide +kernel

theorem test_witness_WinnerRule :
    (1 : Nat) ≠ 4 ∧ (⟨1, 12⟩ : Label).origin = 1 ∧ (⟨4, 40⟩ : Label).origin = 4 ∧ (⟨7, 2⟩ : Label).origin ≠ 1 ∧ (⟨7, 2⟩ : Label).origin ≠ 4 := by
  decide

/-- Slot 1 wins 1:0012 against slot 4, and loses 4:0040 to it; each pair of roles. -/
theorem test_witness_RoleOutcomes :
    wins running.rca.slot 4 ⟨1, 12⟩ = true ∧ wins running.rca.slot 4 ⟨4, 40⟩ = false ∧ (wire ⟨1, 12⟩ 0 0 0).role = .owner
      ∧ silentNeighbour.role = .shadow ∧ silentNeighbour.peerThrough = some 306
      ∧ ({ silentNeighbour with role := .releasing 306 } : Track).role = .releasing 306
      ∧ (⟨.right, .owner, ⟨1, 12⟩, 0, 0, 0, none⟩ : EdgeEntry).role = .owner
      ∧ (⟨.right, .shadow, ⟨1, 12⟩, 0, 0, 0, none⟩ : EdgeEntry).role = .shadow
      ∧ (⟨.right, .releasing 307, ⟨1, 12⟩, 0, 0, 0, none⟩ : EdgeEntry).role = .releasing 307 := by decide

/-- Sixty records in the queue and four held: exactly room; a SHADOW with peer-owner-through, one without, one without held
records, and an OWNER. -/
theorem test_witness_TakeOver :
    let s : State := { running with rq := { running.rq with queued := queuedRecords 60 } }
    s.rq.pastLimit = false ∧ s.rq.inFrame.length + s.rq.queued.length + silentNeighbour.held.length ≤ 64
      ∧ silentNeighbour.held.Pairwise (fun a b => a.gpi < b.gpi)
      ∧ silentNeighbour.role ≠ .owner ∧ silentNeighbour.peerThrough = some 306
      ∧ (∃ r rs, silentNeighbour.held = r :: rs) ∧ ({ silentNeighbour with peerThrough := none } : Track).peerThrough = none
      ∧ ({ silentNeighbour with peerThrough := none, held := [] } : Track).held = [] ∧ (wire ⟨1, 4⟩ 0 0 0).role = .owner :=
  ⟨by decide, by decide, by decide, by decide, by decide, ⟨_, _, rfl⟩, by decide, by decide, by decide⟩

/-- A mismatch, a heartbeat and a CLOSE report, which is matched by position (the older label is adopted). -/
theorem test_witness_EdgeApplication :
    let s := serving (runningOn slot4 4) [.edge .right report301] [wire ⟨4, 40⟩ 301 (-1852) 24700]
    s.tt.requests = .edge .right report301 :: [] ∧ s.tt.isOpen = true ∧ s.settings = some slot4
      ∧ report301.left = s.rca.slot ∧ report301.heartbeat = false ∧ ({ report301 with heartbeat := true } : EdgeReport).heartbeat = true
      ∧ ¬({ report301 with left := 5 } : EdgeReport).left = s.rca.slot
      ∧ s.tt.tracks[0]? = some (wire ⟨4, 40⟩ 301 (-1852) 24700)
      ∧ (assign (linkCandidates slot4 .right ⟨s.tt.tracks, [], [(⟨.left, .owner, ⟨1, 12⟩, 250, -1850, 24700, none⟩, 0)]⟩)).map
          (fun k => (k.track, k.other)) = [(0, 0)]
      ∧ lexLt [250, 1, 12] [301, 4, 40] = true ∧ ({ wire ⟨1, 12⟩ 0 0 0 with label := ⟨3, 1⟩ } : Track).link = none := by decide

/-- Label matching and absence: the second entry bears the label of the first track, the third gives up that of the second,
and the third track, linked to the sender, is named by none; its absent count is 0 or 1. -/
theorem test_witness_EdgeApplication_labels :
    let ts : List Track := [wire ⟨1, 12⟩ 250 0 24700, wire ⟨4, 40⟩ 301 10 24700,
      { wire ⟨1, 13⟩ 240 20 24700 with link := some .left, peerRole := some .shadow }]
    let facing : List (EdgeEntry × Nat) := [(⟨.right, .owner, ⟨4, 9⟩, 1, -7000, 0, none⟩, 0),
      (⟨.right, .owner, ⟨1, 12⟩, 250, 0, 24700, none⟩, 1), (⟨.right, .owner, ⟨4, 38⟩, 299, 0, 24700, some ⟨4, 40⟩⟩, 2)]
    (ts.map (·.label)).Nodup ∧ (facing.map (·.1.label)).Nodup
      ∧ (∀ q ∈ facing, q.2 < 1 → q.1.label ≠ ⟨1, 12⟩ ∧ q.1.former ≠ some ⟨1, 12⟩)
      ∧ (∀ q ∈ facing, q.2 < 2 → q.1.label ≠ ⟨4, 38⟩ ∧ q.1.label ≠ ⟨4, 40⟩ ∧ q.1.former ≠ some ⟨4, 40⟩)
      ∧ (∀ w ∈ ts, w.label ≠ ⟨4, 38⟩) ∧ (∀ q ∈ facing, q.1.label ≠ ⟨1, 13⟩ ∧ q.1.former ≠ some ⟨1, 13⟩)
      ∧ gives (exec (.edgeApplication 1) (serving running [.edge .left ⟨4, 301, 255, 1, -4400, false, facing.map (·.1)⟩] ts))
        (fun t => t.tt.tracks.map (fun u => (u.label, u.former, u.link, u.absent))
          == [(⟨1, 12⟩, none, some .left, 0), (⟨4, 38⟩, some ⟨4, 40⟩, some .left, 0), (⟨1, 13⟩, none, some .left, 1)]) = true := by
  decide

/-- A linked SHADOW, a linked OWNER and an unlinked track. -/
theorem test_witness_NeighbourLostApplication :
    let ts := [silentNeighbour, { wire ⟨1, 13⟩ 0 0 0 with link := some .left, peerRole := some .shadow }, wire ⟨1, 14⟩ 0 0 0]
    let s := serving running [.neighbourLost .left] ts
    s.tt.requests = .neighbourLost .left :: [] ∧ s.tt.isOpen = true ∧ s.settings = some slot1
      ∧ s.tt.tracks.map (fun u => (u.link, u.role)) = [(some .left, .shadow), (some .left, .owner), (none, .owner)]
      ∧ silentNeighbour.peerThrough = some 306 := by decide

theorem test_witness_MarkApplication :
    (serving running [.mark 37 (some 1)] []).tt.requests = .mark 37 (some 1) :: [] ∧ (serving running [] []).tt.isOpen = true
      ∧ running.settings = some slot1 := by decide

/-- Busy; each of the three sources in turn; none. -/
theorem test_witness_TransmitArbiter :
    let edge : State := { running with rlc := { running.rlc with edgeSlot := some ⟨1, []⟩ } }
    let status : State := { running with rca := { running.rca with status := some ⟨.queried, 12, false⟩ } }
    let gauge : State := { running with rq := { running.rq with inFrame := queuedRecords 1 } }
    closing.rlc.tx ≠ .free
      ∧ (edge.rlc.tx = .free ∧ edge.rlc.edgeSlot = some ⟨1, []⟩)
      ∧ (status.rlc.tx = .free ∧ status.rlc.edgeSlot = none ∧ status.rca.status = some ⟨.queried, 12, false⟩)
      ∧ (gauge.rlc.tx = .free ∧ gauge.rlc.edgeSlot = none ∧ gauge.rca.status = none ∧ gauge.rca.runSettings = some ⟨slot1, 12⟩
        ∧ gauge.rq.inFrame ≠ [])
      ∧ (running.rlc.tx = .free ∧ running.rlc.edgeSlot = none ∧ running.rca.status = none ∧ running.rq.inFrame = []) := by decide

/-- Eight QUEUED records meet the threshold; seven form a frame at exactly the age limit, and none a nanosecond before. -/
theorem test_witness_GaugeFrameForms :
    let s (n now : Nat) : State := { running with now := now, rq := { running.rq with queued := queuedRecords n } }
    let free (s : State) : Prop := s.rq.inFrame = [] ∧ s.rq.hold = none ∧ s.rq.pastLimit = false ∧ s.rq.queued ≠ []
    let aged (s : State) : Prop := s.rq.queued.head?.any (fun q => decide (q.entered + slot1.ageLimit * 1000000 ≤ s.now)) = true
    (s 8 1000000).settings = some slot1 ∧ (free (s 8 1000000) ∧ slot1.drainThreshold ≤ (s 8 1000000).rq.queued.length)
      ∧ (free (s 7 6000000) ∧ aged (s 7 6000000))
      ∧ (¬slot1.drainThreshold ≤ (s 7 5999999).rq.queued.length ∧ ¬aged (s 7 5999999) ∧ (s 7 5999999).rca.node ≠ .draining) := by
  decide

/-- Exactly the interframe gap and one nanosecond less; an EDGE frame four bins back and five; the end of the 64th byte and
the nanosecond after it; the end of the backoff and the nanosecond before it. -/
theorem test_witness_AttemptCycle :
    let quiet (n : Nat) (bin : Int) : State :=
      { sending .deferring 0 (.edge bin) with rlc := { (sending .deferring 0 (.edge bin)).rlc with lastQuiet := n } }
    let held : State := { running with rlc := { (sending .deferring 0 .gauge).rlc with carrier := some ⟨1, true, false⟩ } }
    let out := sending (.transmitting 1000000) 0 .gauge
    let off := sending (.backingOff 1025600) 1 .gauge
    ((quiet 995200 (-4)).rlc.tx = .busy (.edge (-4)) (List.replicate 400 0#8) 0 .deferring ∧ (quiet 995200 (-4)).rlc.carrier = none
        ∧ (quiet 995200 (-4)).rlc.lastQuiet + 4800 ≤ (quiet 995200 (-4)).now + 0 ∧ (quiet 995200 (-4)).du.hw - 4 ≤ -4)
      ∧ ((quiet 995200 (-5)).rlc.carrier = none ∧ -5 < (quiet 995200 (-5)).du.hw - 4)
      ∧ (held.rlc.tx = .busy .gauge (List.replicate 400 0#8) 0 .deferring ∧ held.rlc.carrier ≠ none)
      ∧ (quiet 995201 (-4)).now + 0 < (quiet 995201 (-4)).rlc.lastQuiet + 4800
      ∧ (out.rlc.tx = .busy .gauge (List.replicate 400 0#8) 0 (.transmitting 1000000) ∧ out.now + 28800 ≤ 1000000 + 28800
        ∧ 1000000 + 28800 < out.now + 28801)
      ∧ (off.rlc.tx = .busy .gauge (List.replicate 400 0#8) 1 (.backingOff 1025600) ∧ 1025600 ≤ off.now + 25600
        ∧ off.now + 25599 < 1025600) := by decide +kernel

/-- The fifteenth failure, with a draw of 0 and one of 1; the sixteenth of each source, before and after the drain limit. -/
theorem test_witness_JamEnd :
    let s (n : Nat) (source : FrameSource) (limit : Bool) : State :=
      { sending (.jam 1001600) n source with rq := { running.rq with inFrame := queuedRecords 2, pastLimit := limit } }
    (∀ n source limit, (s n source limit).rlc.tx = .busy source (List.replicate 400 0#8) n (.jam 1001600)
        ∧ 1001600 ≤ (s n source limit).now + 1600 ∧ (s n source limit).rq.pastLimit = limit)
      ∧ (14 + 1 < 16 ∧ 0 % 2 ^ min (14 + 1) 10 = 0 ∧ 1 % 2 ^ min (14 + 1) 10 ≠ 0) ∧ 15 ≤ 15 :=
  ⟨fun _ _ _ => ⟨rfl, Nat.le_refl 1001600, rfl⟩, by decide, by decide⟩

/-- The second bit of the preamble's last byte, and the first bit of the frame proper (R135). -/
theorem test_driven_bit :
    let s (n : Nat) (b : Byte) : State :=
      { running with now := n, rlc := { running.rlc with tx := .busy .gauge [b] 0 (.transmitting 1000000) } }
    [1002800, 1002849, 1002850, 1003150].map (fun n => (s n 0).drivenBit) = [some true, some true, some false, some true]
      ∧ [1003200, 1003250, 1003599, 1003600].map (fun n => (s n 0x81).drivenBit) = [some true, some false, some true, none] := by
  decide +kernel

theorem test_witness_FrameSent :
    (sending (.transmitting 1000000) 1 .gauge).rlc.tx = .busy .gauge (List.replicate 400 0#8) 1 (.transmitting 1000000)
      ∧ 1000000 + (8 + (List.replicate 400 0#8).length) * 400 ≤ (sending (.transmitting 1000000) 1 .gauge).now + 163200
      ∧ running.rca.node = .running ∧ State.reset.rca.node ≠ .running := by decide +kernel

/-- The end of the 64th byte and the nanosecond after it; a jam; a spell, and the nanosecond after its 1,000 microseconds. -/
theorem test_witness_Carrier :
    let out := sending (.transmitting 1000000) 0 .gauge
    let jam := sending (.jam 1001600) 0 .gauge
    let spell : State := { running with rlc := { running.rlc with carrier := some ⟨1000000, true, false⟩ } }
    (running.rlc.carrier = none ∧ running.driving = false)
      ∧ (out.rlc.carrier = none ∧ out.rlc.tx = .busy .gauge (List.replicate 400 0#8) 0 (.transmitting 1000000)
        ∧ out.now + 28800 ≤ 1000000 + 28800 ∧ 1000000 + 28800 < out.now + 28801)
      ∧ (jam.rlc.carrier = none ∧ jam.rlc.tx = .busy .gauge (List.replicate 400 0#8) 0 (.jam 1001600))
      ∧ (spell.rlc.carrier = some ⟨1000000, true, false⟩ ∧ spell.rlc.reception = none ∧ 1000000 + 1000000 < spell.now + 1000001) := by
  decide +kernel

/-- Each timer at its end, and one nanosecond before it. -/
theorem test_witness_LinkTimers :
    let beat : State := { running with rlc := { running.rlc with heartbeat := some 1000000 } }
    let early : State := { running with rlc := { running.rlc with heartbeat := some 1000001 } }
    let busy : State := { running with rlc := { (sending .deferring 0 (.edge 1)).rlc with heartbeat := some 1000000 } }
    let aged : State := { running with rq := { running.rq with queued := queuedRecords 1 } }
    let hold (n : Nat) : State := { running with rq := { running.rq with hold := some n } }
    (beat.settings = some slot1 ∧ beat.rlc.heartbeat = some 1000000 ∧ 1000000 ≤ beat.now + 0 ∧ beat.rlc.edgeSlot = none
        ∧ edgeInCycle beat = false)
      ∧ (early.rlc.heartbeat = some 1000001 ∧ early.now + 0 < 1000001)
      ∧ (busy.rlc.heartbeat = some 1000000 ∧ edgeInCycle busy = true)
      ∧ (aged.settings = some slot1 ∧ aged.rq.queued = ⟨recordOf ⟨1, 4⟩ 1, 1000000⟩ :: []
        ∧ 1000000 + slot1.ageLimit * 1000000 ≤ aged.now + 5000000 ∧ aged.now + 4999999 < 1000000 + slot1.ageLimit * 1000000)
      ∧ ((hold 1000000).rq.hold = some 1000000 ∧ 1000000 ≤ (hold 1000000).now + 0 ∧ (hold 1000001).now + 0 < 1000001) := by
  decide +kernel

/-- Sixty-three bytes; 64 bytes of a wrong CRC; 1,025 bytes; and valid frames: an unknown kind, a MARK for another slot, an
EDGE from another source. -/
theorem test_witness_FrameNotTaken :
    let foreign : State := { receivingState [] with rca := { running.rca with slot := 2 } }
    ((receivingState []).rlc.reception = some [] ∧ ∀ l, wholeBytes ([] ++ sentBits l) = l)
      ∧ (List.replicate 63 0#8).length < 64
      ∧ (64 ≤ (List.replicate 64 0#8).length ∧ crcMatches (List.replicate 64 0#8) = false) ∧ 1024 < (List.replicate 1025 0#8).length
      ∧ (validReception unknownFrame = true ∧ 6 < fieldAt unknownFrame 2 1)
      ∧ (validReception queryFrame = true ∧ fieldAt queryFrame 2 1 = 5 ∧ fieldAt queryFrame 0 1 ≠ foreign.rca.slot
        ∧ fieldAt queryFrame 0 1 ≠ 15)
      ∧ (fieldAt (edgeFrame { report301 with source := 3 }).bytes 2 1 = 1 ∧ running.sourceSide 3 = none) :=
  ⟨⟨rfl, bytes_of_sentBits⟩, by decide +kernel⟩

/-- Three applications waiting and four; a closed table; a broadcast MARK; an EDGE payload that is cut. -/
theorem test_witness_ApplicationReceived :
    ((receivingState []).rlc.reception = some [] ∧ ∀ l, wholeBytes ([] ++ sentBits l) = l)
      ∧ validReception markFrame = true ∧ fieldAt markFrame 2 1 = 6 ∧ fieldAt markFrame 0 1 = 15
      ∧ ((markFrame.drop 5).take (fieldAt markFrame 3 2)).length = 3
      ∧ validReception (edgeFrame { report301 with source := 7 }).bytes = true
      ∧ fieldAt (edgeFrame { report301 with source := 7 }).bytes 2 1 = 1 ∧ running.sourceSide 7 = some .right
      ∧ (parseEdge 7 (((edgeFrame { report301 with source := 7 }).bytes.drop 5).take 25)).isSome = true ∧ parseEdge 7 [] = none
      ∧ (receivingState (List.replicate 3 (.mark 1 none))).tt.requests.countP Request.isApplication < 4
      ∧ 4 ≤ (receivingState (List.replicate 4 (.mark 1 none))).tt.requests.countP Request.isApplication
      ∧ State.reset.tt.isOpen = false ∧ running.tt.isOpen = true :=
  ⟨⟨rfl, bytes_of_sentBits⟩, by decide +kernel⟩

theorem test_witness_ConfigAndQuery :
    (fresh.rlc.reception = some [] ∧ ∀ l, wholeBytes ([] ++ sentBits l) = l)
      ∧ validReception configFrame = true ∧ validReception badConfigFrame = true
      ∧ fieldAt configFrame 0 1 = 15 ∧ fieldAt configFrame 2 1 = 4
      ∧ (∃ c, judgeConfig fresh.rca.slot ((configFrame.drop 5).take (fieldAt configFrame 3 2)) = .ok c)
      ∧ judgeConfig fresh.rca.slot ((badConfigFrame.drop 5).take (fieldAt badConfigFrame 3 2)) = .error .margin
      ∧ fresh.rca.node = .unconfigured ∧ running.rca.node ≠ .unconfigured
      ∧ validReception queryFrame = true ∧ fieldAt queryFrame 0 1 = fresh.rca.slot ∧ fieldAt queryFrame 2 1 = 5
      ∧ ((queryFrame.drop 5).take (fieldAt queryFrame 3 2)).length = 2 :=
  ⟨⟨rfl, bytes_of_sentBits⟩, test_config_frame_valid, test_bad_config_frame_valid, by decide, by decide, ⟨_, rfl⟩, rfl, by decide, by decide,
    by decide +kernel, by decide, by decide, by decide⟩

/-- A payload that passes, one of a wrong length, and one whose facing names nothing. -/
theorem test_witness_ConfigJudged :
    (∃ c, judgeConfig 1 ((configFrame.drop 5).take 79) = .ok c)
      ∧ judgeConfig 1 [] = .error .length ∧ judgeConfig 1 (List.replicate 79 0#8) = .error .field :=
  ⟨⟨_, rfl⟩, rfl, rfl⟩

/-- Both neighbours, another source, another node state; a timer at its end and one nanosecond before; an application already
waiting, and a closed table. -/
theorem test_witness_Liveness :
    running.settings = some slot1 ∧ running.rca.node = .running ∧ slot1.leftNeighbour = some 4
      ∧ (slot1.leftNeighbour ≠ some 7 ∧ slot1.rightNeighbour = some 7) ∧ (slot1.leftNeighbour ≠ some 3 ∧ slot1.rightNeighbour ≠ some 3)
      ∧ State.reset.rca.node ≠ .running
      ∧ ({ running.rlc with leftLife := some ⟨.present, some 1000000⟩ } : Rlc).life .left = some ⟨.present, some 1000000⟩
      ∧ 1000000 ≤ running.now + 0 ∧ running.now + 0 < 1000001
      ∧ running.tt.isOpen = true ∧ .neighbourLost .left ∉ running.tt.requests ∧ State.reset.tt.isOpen = false
      ∧ .neighbourLost .left ∈ (serving running [.neighbourLost .left] []).tt.requests := by decide

/-- Exactly 100 microseconds after the node became READY, and one nanosecond less; another node state. -/
theorem test_witness_RunStart :
    let s : State := { running with rca := { running.rca with node := .ready, since := 1000000 } }
    (s.rca.node = .ready ∧ s.rca.since + 100000 ≤ s.now + 100000 ∧ s.rca.pendingSettings = some ⟨slot1, 12⟩)
      ∧ running.rca.node ≠ .ready ∧ s.now + 99999 < s.rca.since + 100000 := by decide

theorem test_witness_EnterDraining :
    let s : State := { running with rca := { running.rca with since := 1000000 } }
    (s.rca.node = .running ∧ s.rca.since + 100000 ≤ s.now + 100000) ∧ State.reset.rca.node ≠ .running
      ∧ s.now + 99999 < s.rca.since + 100000 ∧ ({ running with rca := { running.rca with node := .draining } } : State).rca.node = .draining := by
  decide

/-- A drain that is done, with no STATUS pending and with one; one that is not; the drain limit and one nanosecond before. -/
theorem test_witness_DrainEnd :
    let s : State := { running with tt := Tt.reset, rca := { running.rca with node := .draining, drainTimer := some 1000000 } }
    s.rca.node = .draining ∧ s.tt.isOpen = false ∧ s.rq.inFrame = [] ∧ s.rq.queued = [] ∧ s.rlc.edgeSlot = none ∧ s.rlc.tx = .free
      ∧ drainEndPending s = false ∧ s.rca.status = none ∧ s.rca.runSettings = some ⟨slot1, 12⟩
      ∧ drainEndPending { s with rca := { s.rca with status := some ⟨.queried, 9, false⟩ } } = false
      ∧ running.rca.node ≠ .draining ∧ s.rca.drainTimer = some 1000000 ∧ 1000000 ≤ s.now + 0 ∧ s.now + 0 < 1000001 := by decide

/-- The largest payload and a padded one; a field of one byte; a record with every optional field at the end of its range. -/
theorem test_witness_FrameRoundTrip :
    let r : Record := { recordOf ⟨7, 65535⟩ (-2147483648) with
      noSample := false, stagger := -8000, height := 45000, samples := 255, wear := some (1200, 2000), gap := some 65535, mark := some 65535 }
    ((255 : Nat) < 256 ∧ (List.replicate 1017 0#8).length ≤ 1017 ∧ (List.replicate 10 0#8).length + 5 ≤ 15
        ∧ 15 + 2 < max 64 (10 + 7) ∧ 1 ≤ 1)
      ∧ RecordSound slot1.wireTypes r ∧ (recordBytes r).length = 22 ∧ GpiSound 2147483647 := by
  refine ⟨by decide +kernel, ?_, by decide, by decide⟩
  simp [RecordSound, LabelSound, GpiSound, recordOf, noSampleRecord, wire, slot1, minGpi, maxGpi]

/-- Table 10-5: the STATUS that section 9.8 has at step 2 carries REFUSED and MARGIN at offsets 0 and 1. -/
theorem test_status_layout :
    let b := statusPayload (({ State.reset with rca := { Rca.reset with slot := 1 } } : State).snapshot (.refused .margin))
    (b.length, b.take 4) = (38, [1, 3, 0, 1]) := by decide

/-- R177: an EDGE payload with one entry, and the ways in which it becomes malformed: cut in its header, a count of 9, of 2 and of
0, bit 4, a HEARTBEAT with an entry, a side code of 5, a role code of 3, RELEASING without its extension, a label origin of 8, a
former origin of 8, a byte too many; a former origin of 7 and a neighbour byte of any value are not malformed. -/
theorem test_malformed_edge_payloads :
    let good := edgePayload report301
    (parseEdge 1 good = some report301 ∧ (parseEdge 1 (good.set 22 7#8)).isSome = true ∧ (parseEdge 1 (good.set 4 99#8)).isSome = true)
      ∧ parseEdge 1 (good.take 8) = none ∧ parseEdge 1 (good ++ [0#8]) = none
      ∧ ([(8, 9#8), (8, 2#8), (8, 0#8), (8, 17#8), (8, 129#8), (9, 5#8), (10, 3#8), (10, 2#8), (11, 8#8), (22, 8#8)].all fun x =>
          (parseEdge 1 (good.set x.1 x.2)).isNone) = true := by decide +kernel

/-- Eight entries at the ends of their ranges; a heartbeat; the largest source; an entry without a former label. -/
theorem test_witness_EdgeReportRoundTrip :
    let e : EdgeEntry := ⟨.left, .releasing (-2147483648), ⟨7, 65535⟩, 2147483647, -32768, 65535, some ⟨0, 65535⟩⟩
    let r : EdgeReport := ⟨4, 2147483647, 255, 0, -32768, false, List.replicate 8 e⟩
    r.bin ≤ 2147483647 ∧ -2147483648 ≤ r.bin ∧ r.left ≤ 255 ∧ r.right ≤ 255 ∧ -32768 ≤ r.centre ∧ r.centre ≤ 32767
      ∧ r.entries.length ≤ 8 ∧ (r.heartbeat = true → r.entries = [])
      ∧ e.label.origin ≤ 7 ∧ e.label.serial ≤ 65535 ∧ -2147483648 ≤ e.birth ∧ e.birth ≤ 2147483647 ∧ -32768 ≤ e.x ∧ e.x ≤ 32767
      ∧ e.z ≤ 65535 ∧ (∀ l ∈ e.former.toList, l.origin ≤ 7 ∧ l.serial ≤ 65535)
      ∧ e.role = .releasing (-2147483648) ∧ ({ r with heartbeat := true, entries := [] } : EdgeReport).entries = []
      ∧ ({ r with source := 255 } : EdgeReport).source ≤ 255 ∧ ({ e with former := none } : EdgeEntry).former = none := by decide

/-- For TableLaw, CapacityLaw, OwnershipLaw, RunControlLaw, PositionLaw, ExposureLaw, TransmitterLaw, RecordsLaw and PagesLaw: the
state of section 4.3.1, with a linked track that holds records, meets every law, and a step from it, a scan pass, answers a next
state. -/
theorem test_witness_Laws :
    let s : State := { serving twinState [.scanPass .a, .binClose 232] (twins ++ [{ silentNeighbour with
        held := [recordOf ⟨1, 12⟩ 229, recordOf ⟨1, 12⟩ 230] }]) with
      pending := [.scanPass 1]
      siu := { twinState.siu with continuity := some 9 }
      du := { twinState.du with gpi := 233, hw := 233 } }
    TableSound s ∧ QueueSound s ∧ PlacesSound s ∧ (∀ u ∈ s.tt.tracks, OwnershipSound u) ∧ RunSound s ∧ TimersSound s
      ∧ PositionSound s ∧ ClosesSound s ∧ ExposureSound s ∧ TransmitterSound s ∧ RecordsSound s ∧ PagesSound s ∧ OrderSound s
      ∧ gives (step s) (fun _ => true) = true := by
  refine ⟨by decide, by decide, by decide, by decide, ?_, ?_, ?_, by decide, ?_, ?_, ?_, ?_, by decide +kernel, by decide +kernel⟩
  · simp [RunSound, twinState, serving, running, runningOn, slot1, SettingsSound, fieldLeft, fieldRight]
  · simp [TimersSound, twinState, serving, running, runningOn, State.reset, Rlc.reset, Rca.reset, drainEndPending]
  · simp [PositionSound, twinState, serving, running, runningOn, State.reset, Du.reset, slot1, minGpi, maxGpi]
  · simp [ExposureSound, twinState, serving, running, runningOn, State.reset, Siu.reset]
  · simp [TransmitterSound, twinState, serving, running, runningOn, State.reset, Rlc.reset, Rca.reset, Rq.reset]
  · simp [RecordsSound, GatheringSound, AccumulatorSound, RecordSound, LabelSound, GpiSound, RequestSound, PageSound, minGpi, maxGpi,
      twinState, twins, silentNeighbour, recordOf, noSampleRecord, wire, serving, running, runningOn, State.reset, Rq.reset, Siu.reset,
      Tt.reset, Rca.reset]
  · refine ⟨fun p hp => ?_, by decide, fun _ => ⟨rfl, fun k h => ?_⟩, by simp [twinState, serving]⟩
    · rcases hp with rfl | rfl <;> decide
    · simp [twinState, serving] at h

end Sys2Proof.Tests
end

section
/-! Chapter 1: the field, its sides and edge distance, and the conversion and class of a spot. -/

namespace Sys2Proof.Machine

/-! ## The field (R6, R12) -/

/-- The field is as wide as the setting (R6). -/
theorem fieldRight_eq (c : Settings) : fieldRight c = fieldLeft c + c.fieldWidth := by
  unfold fieldRight fieldLeft
  cases c.facing
  · rfl
  · simp only; omega

/-- The centre is the midpoint of the edges, a half rounded up (R12). -/
theorem ownCentre_bounds (c : Settings) :
    2 * ownCentre c ≤ fieldLeft c + fieldRight c + 1 ∧ fieldLeft c + fieldRight c ≤ 2 * ownCentre c := by
  unfold ownCentre; omega

/-! ## Sides (R7, R8) -/

theorem geometricSide_left_iff (c : Settings) (x : Int) :
    geometricSide c x = some .left ↔ x ≤ fieldLeft c + c.margin := by
  unfold geometricSide
  split
  · simpa
  · split <;> simp <;> omega

theorem geometricSide_right_iff (c : Settings) (x : Int) :
    geometricSide c x = some .right ↔ fieldLeft c + c.margin < x ∧ fieldRight c - c.margin ≤ x := by
  unfold geometricSide
  split
  · simp; omega
  · split <;> simp <;> omega

theorem geometricSide_none_iff (c : Settings) (x : Int) :
    geometricSide c x = none ↔ fieldLeft c + c.margin < x ∧ x < fieldRight c - c.margin := by
  unfold geometricSide
  split
  · simp; omega
  · split <;> simp <;> omega

/-- Margins of at most a third of the field do not meet (R7, R11). -/
theorem margins_disjoint {c : Settings} (hm : 3 * c.margin ≤ c.fieldWidth) (hw : 1000 ≤ c.fieldWidth) :
    fieldLeft c + c.margin < fieldRight c - c.margin := by
  rw [fieldRight_eq]; omega

theorem effectiveSide_eq_some_iff (c : Settings) (x : Int) (side : Side) :
    effectiveSide c x = some side ↔ geometricSide c x = some side ∧ c.neighbour side ≠ none := by
  unfold effectiveSide
  cases geometricSide c x with
  | none => simp
  | some side' =>
    by_cases h : c.neighbour side' = none
    · simp only [h, Option.isSome_none, Bool.false_eq_true, if_false, Option.some.injEq]
      constructor
      · rintro ⟨⟩
      · rintro ⟨rfl, h'⟩; exact absurd h h'
    · simp only [Option.isSome_iff_ne_none.2 h, if_true, Option.some.injEq]
      constructor
      · rintro rfl; exact ⟨rfl, h⟩
      · rintro ⟨rfl, -⟩; rfl

/-! ## The edge distance (R9) -/

theorem edgeDistance_nonneg_iff (c : Settings) (x : Int) :
    0 ≤ edgeDistance c x ↔ fieldLeft c ≤ x ∧ x ≤ fieldRight c := by
  unfold edgeDistance; omega

/-- The edge distance is the distance to the nearer edge (R9). -/
theorem edgeDistance_spec (c : Settings) (x : Int) :
    (edgeDistance c x = x - fieldLeft c ∨ edgeDistance c x = fieldRight c - x)
      ∧ edgeDistance c x ≤ x - fieldLeft c ∧ edgeDistance c x ≤ fieldRight c - x := by
  unfold edgeDistance; omega

/-! ## Spots in the car frame (R3, R4, R23) -/

/-- A spot within the field width lies within the field, where the limit of R4 changes nothing (R3, R11). -/
theorem carX_of_within {c : Settings} {n : Nat} (hl : -8000 ≤ fieldLeft c) (hr : fieldRight c ≤ 8000) (hn : n ≤ c.fieldWidth) :
    carX c n = c.fieldOrigin + (match c.facing with
        | .plus => 1
        | .minus => -1) * (n : Int)
      ∧ fieldLeft c ≤ carX c n ∧ carX c n ≤ fieldRight c := by
  cases hf : c.facing <;> simp only [fieldLeft, fieldRight, carX, hf] at hl hr ⊢
  · rw [clampX_id (by omega) (by omega)]; omega
  · rw [clampX_id (by omega) (by omega)]; omega

theorem spotClass_strong_iff (c : Settings) (peak : Nat) : spotClass c peak = .strong ↔ c.openThreshold ≤ peak := by
  unfold spotClass
  split
  · simpa
  · split <;> simp <;> omega

theorem spotClass_weak_iff (c : Settings) (peak : Nat) :
    spotClass c peak = .weak ↔ c.holdThreshold ≤ peak ∧ peak < c.openThreshold := by
  unfold spotClass
  split
  · simp; omega
  · split <;> simp <;> omega

theorem spotClass_rejected_iff (c : Settings) (peak : Nat) :
    spotClass c peak = .rejected ↔ peak < c.holdThreshold ∧ peak < c.openThreshold := by
  unfold spotClass
  split
  · simp; omega
  · split <;> simp <;> omega

/-- Settles O5: each clause is one of the lemmas of this file. -/
theorem fieldGeometry : Obligations.FieldGeometry := by
  intro c x
  obtain ⟨hmid, hmid'⟩ := ownCentre_bounds c
  obtain ⟨hedge, hleft, hright⟩ := edgeDistance_spec c x
  refine ⟨by rw [fieldRight_eq]; omega, fun h => by simp [fieldLeft, h], fun h => by simp [fieldRight, h], hmid, hmid',
    fun hm hw => ⟨geometricSide_left_iff c x, ?_, geometricSide_none_iff c x⟩, effectiveSide_eq_some_iff c x,
    edgeDistance_nonneg_iff c x, hedge, hleft, hright, fun p hl hr => ?_⟩
  · have hdisjoint := margins_disjoint hm hw
    rw [geometricSide_right_iff]
    omega
  · exact ⟨carX_of_within hl hr, (carX_range c p.headX).1, (carX_range c p.headX).2, rfl, rfl, rfl,
      spotClass_strong_iff c p.peak, spotClass_weak_iff c p.peak, spotClass_rejected_iff c p.peak⟩

end Sys2Proof.Machine
end

section
/-! The routing of a record just made and the release check (R13, R89, R120). -/

namespace Sys2Proof.Machine

/-! ## Routing (R91, R120) -/

theorem route_of_owner {t : Track} (h : t.role = .owner) (r : Record) (s : State) : route r t s = offer r t s := by
  simp [route, h]

theorem route_of_not_owner {t : Track} (h : t.role ≠ .owner) (r : Record) (s : State) :
    route r t s = ({ t with held := holdRecord t.held r }, s) := by
  unfold route
  split
  · contradiction
  · rfl
  · rfl

/-- A hold list of four drops its oldest record for a new one (R91). -/
theorem holdRecord_eq (held : List Record) (r : Record) :
    holdRecord held r = if 4 ≤ held.length then held.drop 1 ++ [r] else held ++ [r] := by
  unfold holdRecord Config.holdPlaces
  split <;> rfl

/-- Routing changes none of the fields that the release check reads (R89, R120). -/
theorem route_release_fields (r : Record) (t : Track) (s : State) :
    (route r t s).1.role = t.role ∧ (route r t s).1.link = t.link ∧ (route r t s).1.peerRole = t.peerRole := by
  rcases route_track r t s with h | ⟨-, h⟩ | ⟨-, h⟩ <;> rw [h] <;> exact ⟨rfl, rfl, rfl⟩

/-! ## The release check (R13, R89) -/

/-- The release check changes at most the role (R89). -/
theorem releaseCheck_frame (c : Settings) (u : Tt) (t : Track) (r : Record) :
    releaseCheck c u t r = { t with role := (releaseCheck c u t r).role } := by
  rcases releaseCheck_track c u t r with h | ⟨-, -, h⟩ <;> rw [h]

/-- The release preference in distances (R13). -/
theorem releasePreference_eq (c : Settings) (x n : Int) : releasePreference c x n = |x - ownCentre c| - |x - n| := by
  simp [releasePreference, distance]

/-- An OWNER linked to a neighbour with a known centre releases exactly when its preference exceeds the hysteresis and the
neighbour was not last seen RELEASING (R89). -/
theorem releases_iff {t : Track} {u : Tt} {side : Side} {n : Int} (hr : t.role = .owner) (hl : t.link = some side)
    (hn : u.centre side = some n) (c : Settings) (x : Int) :
    releases c u t x = true ↔ (c.hysteresis : Int) < |x - ownCentre c| - |x - n| ∧ t.peerRole ≠ some .releasing := by
  simp [releases, hr, hl, hn, releasePreference_eq]

/-- What making a record leaves of its track: the routed track, judged by the release check but at the final close (R119). -/
theorem finishRecord_fst (c : Settings) (r : Record) (t : Track) (s : State) :
    (finishRecord c r t s).1 =
      if r.final then (route r t (s.latchRecord r)).1 else releaseCheck c s.tt (route r t (s.latchRecord r)).1 r := by
  unfold finishRecord
  split <;> rfl

theorem finishRecord_snd (c : Settings) (r : Record) (t : Track) (s : State) :
    (finishRecord c r t s).2 = (route r t (s.latchRecord r)).2 := by
  unfold finishRecord
  simp only
  split <;> rfl

/-- Where the release check does not release, the role stays (R89). -/
theorem finishRecord_role_of_not_releases {c : Settings} {r : Record} {t : Track} {s : State}
    (h : r.final = true ∨ releases c s.tt (route r t (s.latchRecord r)).1 r.stagger = false) :
    (finishRecord c r t s).1.role = t.role := by
  obtain ⟨hrole, -, -⟩ := route_release_fields r t (s.latchRecord r)
  rw [finishRecord_fst]
  rcases h with h | h
  · rw [if_pos h, hrole]
  · split
    · exact hrole
    · simp only [releaseCheck, h, Bool.false_eq_true, if_false, hrole]

/-- Settles O23: the release check reads what routing leaves alone, so it judges the track as it was. -/
theorem routingAndRelease : Obligations.RoutingAndRelease := by
  intro c r t s
  obtain ⟨hrole, hlink, hpeer⟩ := route_release_fields r t (s.latchRecord r)
  refine ⟨fun h => route_of_owner h r s, fun h => by rw [route_of_not_owner h, holdRecord_eq], finishRecord_snd c r t s,
    ?_, fun h => finishRecord_role_of_not_releases (.inl h), fun h => finishRecord_role_of_not_releases (.inr ?_),
    fun h => finishRecord_role_of_not_releases (.inr ?_), fun side n hf ho hs hn => ?_⟩
  · rw [finishRecord_fst]
    split
    · rfl
    · exact releaseCheck_frame _ _ _ _
  · unfold releases
    split
    · rename_i ho _; exact absurd (hrole.symm.trans ho) h
    · rfl
  · simp [releases, hlink, h]
  · have hiff := releases_iff (u := s.tt) (hrole.trans ho) (hlink.trans hs) hn c r.stagger
    rw [hpeer] at hiff
    constructor
    · intro h
      rw [finishRecord_fst, if_neg (by simp [hf]), releaseCheck, if_pos (hiff.2 h)]
    · intro h
      rw [finishRecord_role_of_not_releases (.inr (by simpa using mt hiff.1 h)), ho]

end Sys2Proof.Machine
end

section
/-! The judgement of a CONFIG payload (R162): what each group of checks asks of the bytes, and the bounds of the settings
that pass. -/

namespace Sys2Proof.Machine

/-! ## The payload as taken -/

theorem slotCode_isSome_iff (v : Nat) : (slotCode v).isSome = true ↔ v ≤ 7 ∨ v = 255 := by
  unfold slotCode
  split
  · simp; omega
  · split <;> simp <;> omega

/-- A slot byte names a neighbour from 0 to 7 and none otherwise (R176). -/
theorem slotCode_join (v : Nat) : (slotCode v).join = if v ≤ 7 then some v else none := by
  unfold slotCode
  split
  · rfl
  · split <;> rfl

theorem fieldLeft_decodeSettings (b : List Byte) :
    fieldLeft (decodeSettings b) =
      if fieldAt b 6 1 = 1 then signedAt b 2 2 else signedAt b 2 2 - fieldAt b 4 2 := by
  simp only [fieldLeft, decodeSettings]
  split <;> split at * <;> simp_all

theorem mem_typeTable {b : List Byte} {w : WireType} :
    w ∈ typeTable b ↔ ∃ t < fieldAt b 35 1, (rawType b t).clamped = w := by
  simp [typeTable]

@[simp] theorem typeTable_length (b : List Byte) : (typeTable b).length = fieldAt b 35 1 := by simp [typeTable]

/-! ## The checks, group by group (R178) -/

/-- The bytes give a field within the car frame (R11). -/
abbrev FieldAdmitted (b : List Byte) : Prop :=
  (fieldAt b 6 1 = 1 ∨ fieldAt b 6 1 = 255) ∧ 1000 ≤ fieldAt b 4 2 ∧ fieldAt b 4 2 ≤ 7000
    ∧ -8000 ≤ signedAt b 2 2 ∧ signedAt b 2 2 ≤ 8000
    ∧ -8000 ≤ (if fieldAt b 6 1 = 1 then signedAt b 2 2 else signedAt b 2 2 - fieldAt b 4 2)
    ∧ (if fieldAt b 6 1 = 1 then signedAt b 2 2 else signedAt b 2 2 - fieldAt b 4 2) + fieldAt b 4 2 ≤ 8000
    ∧ fieldAt b 7 2 ≤ 30000

/-- The slot bytes name two different stations, or none, and not the node itself (R11). -/
abbrev NeighboursAdmitted (slot : Nat) (b : List Byte) : Prop :=
  (fieldAt b 11 1 ≤ 7 ∨ fieldAt b 11 1 = 255) ∧ (fieldAt b 12 1 ≤ 7 ∨ fieldAt b 12 1 = 255)
    ∧ (fieldAt b 11 1 = slot → fieldAt b 11 1 = 255) ∧ (fieldAt b 12 1 = slot → fieldAt b 12 1 = 255)
    ∧ (fieldAt b 11 1 = fieldAt b 12 1 → fieldAt b 11 1 = 255)

/-- The type count, the types below it and the default type lie within their ranges (R102). -/
abbrev TypesAdmitted (b : List Byte) : Prop :=
  1 ≤ fieldAt b 35 1 ∧ fieldAt b 35 1 ≤ 4
    ∧ (∀ t < fieldAt b 35 1, 800 ≤ fieldAt b (37 + 8 * t) 2 ∧ fieldAt b (37 + 8 * t) 2 ≤ 2000
      ∧ 300 ≤ fieldAt b (39 + 8 * t) 2 ∧ fieldAt b (39 + 8 * t) 2 ≤ 1000)
    ∧ fieldAt b 36 1 < fieldAt b 35 1

/-- Two checks with one reason fail as one check (R162). -/
theorem firstFailure_same_reason (ok ok' : Bool) (r : Reason) (rest : List (Bool × Reason)) :
    firstFailure ((ok, r) :: (ok', r) :: rest) = firstFailure ((ok && ok', r) :: rest) := by
  cases ok <;> rfl

/-- A check in words: `p` is what it asks. -/
theorem firstFailure_cons_iff {ok : Bool} {p : Prop} [Decidable p] (h : ok = true ↔ p) (r : Reason)
    (rest : List (Bool × Reason)) : firstFailure ((ok, r) :: rest) = if ¬p then some r else firstFailure rest := by
  by_cases hp : p
  · simp [firstFailure, h.2 hp, hp]
  · have hok : ok = false := by simpa using mt h.1 hp
    simp [firstFailure, hok, hp]

/-- What the geometry checks ask (R11). -/
theorem firstFailure_geometryChecks (slot : Nat) (b : List Byte) (rest : List (Bool × Reason)) :
    firstFailure (geometryChecks slot b (decodeSettings b) ++ rest) =
      if ¬FieldAdmitted b then some .field
      else if ¬fieldAt b 9 2 ≤ fieldAt b 4 2 / 3 then some .margin
      else if ¬NeighboursAdmitted slot b then some .neighbour
      else firstFailure rest := by
  simp only [geometryChecks, List.cons_append, List.nil_append, firstFailure_same_reason]
  rw [firstFailure_cons_iff (p := FieldAdmitted b) ?field, firstFailure_cons_iff decide_eq_true_iff]
  simp only [firstFailure_same_reason]
  rw [firstFailure_cons_iff (p := NeighboursAdmitted slot b) ?neighbour]
  case field =>
    have horigin : (decodeSettings b).fieldOrigin = signedAt b 2 2 := rfl
    have hwidth : (decodeSettings b).fieldWidth = fieldAt b 4 2 := rfl
    have hheight : (decodeSettings b).heightOffset = fieldAt b 7 2 := rfl
    simp only [fieldRight_eq, fieldLeft_decodeSettings, horigin, hwidth, hheight, Bool.and_eq_true, Bool.or_eq_true,
      beq_iff_eq, decide_eq_true_eq, FieldAdmitted, and_assoc]
  case neighbour =>
    have hl : (decodeSettings b).leftNeighbour = (slotCode (fieldAt b 11 1)).join := rfl
    have hr : (decodeSettings b).rightNeighbour = (slotCode (fieldAt b 12 1)).join := rfl
    simp only [hl, hr, slotCode_join, Bool.and_eq_true, Bool.or_eq_true, slotCode_isSome_iff, bne_iff_ne,
      Option.isNone_iff_eq_none, NeighboursAdmitted]
    split <;> split <;> simp <;> omega
  rfl

/-- What the distance checks ask (R44). -/
theorem firstFailure_distanceChecks (b : List Byte) (rest : List (Bool × Reason)) :
    firstFailure (distanceChecks b (decodeSettings b) ++ rest) =
      if ¬(50000 ≤ fieldAt b 26 4 ∧ fieldAt b 26 4 ≤ 500000) then some .step
      else if ¬(1 ≤ fieldAt b 30 4 ∧ fieldAt b 30 4 ≤ 65535 ∧ fieldAt b 30 4 < fieldAt b 26 4) then some .pulse
      else if ¬fieldAt b 34 1 ≤ 1 then some .step
      else firstFailure rest := by
  simp only [distanceChecks, List.cons_append, List.nil_append]
  rw [firstFailure_cons_iff decide_eq_true_iff, firstFailure_cons_iff decide_eq_true_iff,
    firstFailure_cons_iff decide_eq_true_iff]
  rfl

/-- What the wire type checks ask (R102). -/
theorem firstFailure_typeChecks (b : List Byte) :
    firstFailure (typeChecks b (decodeSettings b)) = if ¬TypesAdmitted b then some .type else none := by
  simp only [typeChecks, firstFailure_same_reason]
  rw [firstFailure_cons_iff (p := TypesAdmitted b)]
  · rfl
  · have htypes : (decodeSettings b).wireTypes = typeTable b := rfl
    have hdefault : (decodeSettings b).defaultType = fieldAt b 36 1 := rfl
    simp only [htypes, hdefault, Bool.and_eq_true, decide_eq_true_eq, List.all_eq_true, mem_typeTable, TypesAdmitted,
      and_assoc, forall_exists_index, and_imp]
    refine and_congr_right fun _ => and_congr_right fun _ => and_congr_left fun _ => ?_
    constructor
    · intro h t ht; exact h _ t ht rfl
    · rintro h _ t ht rfl; exact h t ht

/-- The judgement, check by check (R162). -/
theorem judgeConfig_eq (slot : Nat) (b : List Byte) :
    judgeConfig slot b =
      if ¬b.length = 79 then .error .length
      else if ¬FieldAdmitted b then .error .field
      else if ¬fieldAt b 9 2 ≤ fieldAt b 4 2 / 3 then .error .margin
      else if ¬NeighboursAdmitted slot b then .error .neighbour
      else if ¬(50000 ≤ fieldAt b 26 4 ∧ fieldAt b 26 4 ≤ 500000) then .error .step
      else if ¬(1 ≤ fieldAt b 30 4 ∧ fieldAt b 30 4 ≤ 65535 ∧ fieldAt b 30 4 < fieldAt b 26 4) then .error .pulse
      else if ¬fieldAt b 34 1 ≤ 1 then .error .step
      else if ¬TypesAdmitted b then .error .type
      else .ok (decodeSettings b) := by
  unfold judgeConfig configChecks
  rw [firstFailure_cons_iff decide_eq_true_iff, List.append_assoc, firstFailure_geometryChecks,
    firstFailure_distanceChecks, firstFailure_typeChecks]
  split_ifs <;> rfl

/-- The settings taken, field by field (R163, R176): each tuning value held within its range. -/
theorem decodeSettings_eq (b : List Byte) :
    decodeSettings b = {
      sequence := fieldAt b 0 2, fieldOrigin := signedAt b 2 2, fieldWidth := fieldAt b 4 2
      facing := if fieldAt b 6 1 = 1 then .plus else .minus
      heightOffset := fieldAt b 7 2, margin := fieldAt b 9 2
      leftNeighbour := if fieldAt b 11 1 ≤ 7 then some (fieldAt b 11 1) else none
      rightNeighbour := if fieldAt b 12 1 ≤ 7 then some (fieldAt b 12 1) else none
      xGate := max 10 (min (fieldAt b 13 2) 400), zGate := max 10 (min (fieldAt b 15 2) 1000)
      linkXGate := max 10 (min (fieldAt b 17 2) 400), linkZGate := max 10 (min (fieldAt b 19 2) 1000)
      confirmHits := max 2 (min (fieldAt b 21 1) 7), coastLimit := max 1 (min (fieldAt b 22 1) 15)
      openThreshold := max 1 (min (fieldAt b 23 1) 255)
      holdThreshold := max 1 (min (fieldAt b 24 1) (max 1 (min (fieldAt b 23 1) 255)))
      exposureStart := min (fieldAt b 25 1) 15, stepLength := fieldAt b 26 4, pulseLength := fieldAt b 30 4
      direction := if fieldAt b 34 1 = 0 then .normal else .reversed
      wireTypes := (List.range (fieldAt b 35 1)).map fun t => ⟨fieldAt b (37 + 8 * t) 2, fieldAt b (39 + 8 * t) 2,
        min (fieldAt b (41 + 8 * t) 2) 200, min (fieldAt b (43 + 8 * t) 2) (fieldAt b (37 + 8 * t) 2)⟩
      defaultType := fieldAt b 36 1, staggerLimit := min (fieldAt b 69 2) 8000
      drainThreshold := max 1 (min (fieldAt b 71 1) 24), ageLimit := max 1 (min (fieldAt b 72 1) 50)
      hysteresis := min (fieldAt b 73 2) 500, neighbourTimeout := max 5 (min (fieldAt b 75 1) 100)
      alertMask := BitVec.ofNat 16 (fieldAt b 76 2), alertPulse := max 1 (min (fieldAt b 78 1) 15) } := by
  simp only [decodeSettings, slotCode_join, clampNat, Nat.zero_max, typeTable, List.map_map]
  rfl

/-! ## The bounds of settings that pass -/

/-- A payload passes exactly when it has the right length and every group of checks is content (R162). -/
theorem judgeConfig_ok {slot : Nat} {b : List Byte} {c : Settings} (h : judgeConfig slot b = .ok c) :
    FieldAdmitted b ∧ fieldAt b 9 2 ≤ fieldAt b 4 2 / 3 ∧ NeighboursAdmitted slot b
      ∧ (50000 ≤ fieldAt b 26 4 ∧ fieldAt b 26 4 ≤ 500000)
      ∧ (1 ≤ fieldAt b 30 4 ∧ fieldAt b 30 4 ≤ 65535 ∧ fieldAt b 30 4 < fieldAt b 26 4)
      ∧ TypesAdmitted b ∧ decodeSettings b = c := by
  rw [judgeConfig_eq] at h
  split_ifs at h with _ hfield hmargin hneighbour hstep hpulse _ htype
  exact ⟨hfield, hmargin, hneighbour, hstep, hpulse, htype, Except.ok.inj h⟩

/-- A type as taken lies within its ranges where the bytes do (R102). -/
theorem typeTable_bounds {b : List Byte} (h : TypesAdmitted b) {w : WireType} (hw : w ∈ typeTable b) :
    800 ≤ w.nominal ∧ w.nominal ≤ 2000 ∧ 300 ≤ w.radius ∧ w.radius ≤ 1000 ∧ w.bias ≤ 200 ∧ w.limit ≤ w.nominal := by
  obtain ⟨t, ht, rfl⟩ := mem_typeTable.1 hw
  obtain ⟨-, -, hall, -⟩ := h
  obtain ⟨hn, hn', hr, hr'⟩ := hall t ht
  exact ⟨hn, hn', hr, hr', Nat.min_le_right _ _, Nat.min_le_right _ _⟩

/-- Two slot bytes that are admitted give one neighbour on both sides only where they give none (R11). -/
theorem neighbours_of_admitted {slot : Nat} {b : List Byte} (h : NeighboursAdmitted slot b) :
    ((decodeSettings b).leftNeighbour = (decodeSettings b).rightNeighbour → (decodeSettings b).leftNeighbour = none)
      ∧ ∀ n, (decodeSettings b).leftNeighbour = some n ∨ (decodeSettings b).rightNeighbour = some n → n ≤ 7 ∧ n ≠ slot := by
  unfold NeighboursAdmitted at h
  rw [decodeSettings_eq]
  simp only
  constructor
  · split <;> split <;> grind
  · intro n
    split <;> split <;> simp <;> omega

/-- Settings taken from an admitted payload are sound (R11, R44, R102, R163). -/
theorem settingsSound_of_judgeConfig {slot : Nat} {b : List Byte} {c : Settings} (h : judgeConfig slot b = .ok c) :
    SettingsSound c := by
  obtain ⟨hfield, hmargin, hneighbour, hstep, hpulse, htype, rfl⟩ := judgeConfig_ok h
  obtain ⟨-, hw, hw', -, -, hl, hr, hh⟩ := hfield
  obtain ⟨hn, hn', -, hd⟩ := id htype
  have hright : fieldRight (decodeSettings b) = fieldLeft (decodeSettings b) + fieldAt b 4 2 := fieldRight_eq _
  rw [SettingsSound, hright, fieldLeft_decodeSettings]
  refine ⟨hpulse.1, hpulse.2.2, hstep.2, hw, hw', hl, hr, hh, ?_, (neighbours_of_admitted hneighbour).1, ?_⟩
  · show 3 * fieldAt b 9 2 ≤ fieldAt b 4 2
    omega
  · have htable := fun w => typeTable_bounds (w := w) htype
    have htypes : (decodeSettings b).wireTypes = typeTable b := rfl
    rw [htypes, typeTable_length]
    simp only [eq_true htable, true_and, decodeSettings, clampNat]
    omega

/-- Settles O45: the judgement equation with the settings written out, and the bounds of what it admits. -/
theorem configJudged : Obligations.ConfigJudged := by
  intro slot b
  refine ⟨?_, fun c h => ⟨settingsSound_of_judgeConfig h, ?_⟩⟩
  · rw [judgeConfig_eq, decodeSettings_eq]
    simp only [ne_eq, not_le]
  · obtain ⟨hfield, -, hneighbour, hstep, hpulse, -, rfl⟩ := judgeConfig_ok h
    exact ⟨hstep.1, hpulse.2.1, hfield.2.2.2.1, hfield.2.2.2.2.1, (neighbours_of_admitted hneighbour).2⟩

end Sys2Proof.Machine
end

/-! Records, accumulators and tracks within their ranges (R1, R48, R50, R109, R115): what each operation on a track makes of
them, said once for `GatheringSound` and the records that it queues. -/

namespace Sys2Proof.Machine

variable {types : List WireType}

/-! ## Records (R111, R115 to R117, R122) -/

theorem gapCount_range (last : Option Int) (gpi : Int) : ∀ g ∈ gapCount last gpi, 1 ≤ g ∧ g ≤ 65535 := by
  intro g hg
  unfold gapCount at hg
  split at hg
  · cases hg
  · split at hg
    · cases hg; omega
    · cases hg

/-- A record enters with the label and the mark of its track and a gap count within 16 bits (R121 to R123). -/
theorem entryOf_sound {t : Track} {r : Record} (ht : GatheringSound types t) (hr : RecordSound types r) :
    RecordSound types (t.entryOf r) := by
  obtain ⟨hlabel, -, -, -, hmark, -, -⟩ := ht
  obtain ⟨-, hgpi, hs, hs', hh, hn, hw, hno, hcls, -, -⟩ := hr
  exact ⟨hlabel, hgpi, hs, hs', hh, hn, hw, hno, hcls, gapCount_range _ _, hmark⟩

/-- The mean height of samples of at most 45,000 is at most 45,000 (R116). -/
theorem height_le {a : Accumulator} (hc : 1 ≤ a.count) (hz : a.sumZ ≤ 45000 * a.count) : height a ≤ 45000 :=
  Nat.le_of_lt_succ ((Nat.div_lt_iff_lt_mul (by omega)).2 (by omega))

theorem hasClass_iff (m : Option WearSample) (k : WearClass) : hasClass m k = true ↔ ∃ w, m = some w ∧ w.cls = k := by
  cases m <;> simp [hasClass]

/-- The record of a sound accumulator is sound (R116, R109). -/
theorem fullRecord_sound {a : Accumulator} {l : Label} (hl : LabelSound l) (ha : AccumulatorSound types a) (c : Settings)
    (final : Bool) : RecordSound types (fullRecord c final l a) := by
  obtain ⟨hbin, hc, hc', -, -, hz, hmin⟩ := ha
  obtain ⟨hs, hs'⟩ := clampX_range (mean a.sumX a.count)
  refine ⟨hl, hbin, hs, hs', height_le hc hz, hc', fun w hw => ?_, nofun, ?_, nofun,
    nofun⟩
  · obtain ⟨m, hm, rfl⟩ := Option.map_eq_some_iff.1 hw
    obtain ⟨hres, hwidth, e, he, hle⟩ := hmin m hm
    exact ⟨hres, hwidth, e, List.mem_of_getElem? he, hle⟩
  · rintro ⟨hno, hbeyond⟩
    obtain ⟨w, hw, hcls⟩ := (hasClass_iff _ _).1 hno
    obtain ⟨w', hw', hcls'⟩ := (hasClass_iff _ _).1 hbeyond
    rw [hw] at hw'
    cases hw'
    rw [hcls] at hcls'
    cases hcls'

/-- A NO_SAMPLE record repeats the position of a sound track (R117). -/
theorem noSampleRecord_sound {t : Track} (ht : GatheringSound types t) {k : Int} (hk : GpiSound k) (final : Bool) :
    RecordSound types (noSampleRecord final k t) := by
  obtain ⟨hlabel, hx, hx', hz, -, -, -⟩ := ht
  exact ⟨hlabel, hk, hx, hx', hz, Nat.zero_le _, nofun, fun _ => ⟨rfl, rfl⟩,
    fun h => Bool.false_ne_true h.1, nofun, nofun⟩

/-! ## Wear samples and accumulators (R50, R61, R105 to R109) -/

/-- A wear sample lies within the type it is computed with, and is no wider than reported (R106, R109). -/
theorem wearSample_range (w : WireType) (index width : Nat) :
    (wearSample w index width).residual ≤ w.nominal ∧ (wearSample w index width).width ≤ width
      ∧ (wearSample w index width).type = index := by
  have hwidth : (correctedWidth w width).toNat ≤ width := by unfold correctedWidth; omega
  unfold wearSample
  simp only
  split
  · exact ⟨le_rfl, hwidth, rfl⟩
  · split
    · exact ⟨Nat.sub_le _ _, hwidth, rfl⟩
    · exact ⟨Nat.sub_le _ _, hwidth, rfl⟩

/-- A minimum within its ranges and the nominal height of the type it was computed with (R50, R109). -/
abbrev MinimumSound (types : List WireType) (m : WearSample) : Prop :=
  m.residual ≤ 2000 ∧ m.width ≤ 2000 ∧ ∃ e, types[m.type]? = some e ∧ m.residual ≤ e.nominal

theorem smaller_sound {old : Option WearSample} {new : WearSample} (ho : ∀ m ∈ old, MinimumSound types m)
    (hn : MinimumSound types new) : MinimumSound types (smaller old new) := by
  unfold smaller
  split
  · exact hn
  · rename_i m
    split
    · exact hn
    · exact ho m rfl

/-- A spot in the car frame within its ranges (R1, R4, R18). -/
structure SpotSound (p : CarSpot) : Prop where
  x_ge : -8000 ≤ p.x
  x_le : p.x ≤ 8000
  z_le : p.z ≤ 45000
  width_le : ∀ w ∈ p.width, w ≤ 2000

/-- A screened spot is within its ranges in the car frame (R3, R4, R11, R18). -/
theorem carSpot_sound {c : Settings} (hc : SettingsSound c) {q : Spot} (hz : q.headZ ≤ 15000) (hw : ∀ w ∈ q.width, w ≤ 2000) :
    SpotSound (carSpot c q) := by
  obtain ⟨-, -, -, -, -, -, -, hheight, -⟩ := hc
  obtain ⟨hx, hx'⟩ := carX_range c q.headX
  exact ⟨hx, hx', by show q.headZ + c.heightOffset ≤ 45000; omega, hw⟩

/-- The wear sample of a spot lies within the type in force (R105, R109). -/
theorem spotWear_sound {c : Settings} (hc : SettingsSound c) {p : CarSpot} (hp : SpotSound p) (u : Wau) :
    ∀ m ∈ spotWear c u p, MinimumSound c.wireTypes m := by
  intro m hm
  unfold spotWear at hm
  split at hm
  · rename_i w i _ hw _
    obtain ⟨e, he, rfl⟩ := Option.map_eq_some_iff.1 hm
    obtain ⟨hres, hwidth, htype⟩ := wearSample_range e i w
    have hnominal : e.nominal ≤ 2000 := by
      obtain ⟨-, -, -, -, -, -, -, -, -, -, -, -, -, -, -, -, -, -, -, -, -, -, -, -, -, -, -, -, -, htypes, -⟩ := hc
      exact (htypes e (List.mem_of_getElem? he)).2.1
    exact ⟨hres.trans hnominal, hwidth.trans (hp.width_le w hw), e, by rw [htype]; exact he, hres⟩
  · cases hm

/-- A sample keeps an accumulator within its ranges, and so does the first one (R50, R61). -/
theorem accumulate_sound {g : Int} {p : CarSpot} {w : Option WearSample} {acc : Option Accumulator} (hg : GpiSound g)
    (hp : SpotSound p) (hw : ∀ m ∈ w, MinimumSound types m) (ha : ∀ a ∈ acc, AccumulatorSound types a) :
    AccumulatorSound types (accumulate g p w acc) := by
  obtain ⟨hx, hx', hz, -⟩ := hp
  have hcounted : AccumulatorSound types (accumulate g p none acc) := by
    cases acc with
    | none => exact ⟨hg, by simp [accumulate, Config.sampleLimit]; omega⟩
    | some a =>
      obtain ⟨hbin, hc, hc', hs, hs', hsz, hmin⟩ := ha a rfl
      by_cases hfull : a.count < 255
      · simp only [accumulate, Option.getD_some, Config.sampleLimit, hfull, if_true]
        refine ⟨hbin, ?_, ?_, ?_, ?_, ?_, hmin⟩ <;> push_cast <;> omega
      · simp only [accumulate, Option.getD_some, Config.sampleLimit, hfull, if_false]
        exact ⟨hbin, hc, hc', hs, hs', hsz, hmin⟩
  cases w with
  | none => exact hcounted
  | some m =>
    obtain ⟨hbin, hc, hc', hs, hs', hsz, hmin⟩ := hcounted
    refine ⟨hbin, hc, hc', hs, hs', hsz, fun m' hm' => ?_⟩
    cases hm'
    exact smaller_sound hmin (hw m rfl)

/-! ## What an operation on a track keeps -/

/-- A record of the queue within its ranges. -/
abbrev QueuedSound (types : List WireType) (q : QueuedRecord) : Prop := RecordSound types q.record

/-- An operation on a track at a moment leaves the track within its ranges and queues only records within theirs. -/
structure KeepsRanges (types : List WireType) (s : State) (out : Track × State) : Prop where
  track : GatheringSound types out.1
  queue : QueueFootprint (QueuedSound types) s out.2

theorem KeepsRanges.of_unchanged {t : Track} (ht : GatheringSound types t) (s : State) : KeepsRanges types s (t, s) :=
  ⟨ht, .refl _ s⟩

theorem afterEntry_sound {t : Track} (ht : GatheringSound types t) (r : Record) : GatheringSound types (t.afterEntry r) := by
  obtain ⟨hlabel, hx, hx', hz, -, hacc, hheld⟩ := ht
  exact ⟨hlabel, hx, hx', hz, nofun, hacc, hheld⟩

theorem hold_sound {t : Track} {r : Record} (ht : GatheringSound types t) (hr : RecordSound types r) :
    GatheringSound types { t with held := holdRecord t.held r } := by
  obtain ⟨hlabel, hx, hx', hz, hmark, hacc, hheld⟩ := ht
  refine ⟨hlabel, hx, hx', hz, hmark, hacc, fun q hq => ?_⟩
  rcases mem_holdRecord hq with hq | rfl
  · exact hheld q hq
  · exact hr

/-! ### Making a record (R120, R121) -/

theorem offerAll_keeps {rs : List Record} {t : Track} (ht : GatheringSound types t) (hrs : ∀ r ∈ rs, RecordSound types r)
    (s : State) : KeepsRanges types s (offerAll rs t s) where
  track := offerAll_track (Q := GatheringSound types) (fun _ r h => afterEntry_sound h r) rs t s ht
  queue := offerAll_footprint (Q := GatheringSound types) s.now (fun _ r h => afterEntry_sound h r) rs t s rfl ht
    fun _ r hu hr => entryOf_sound hu (hrs r hr)

theorem finishRecord_keeps {r : Record} {t : Track} (ht : GatheringSound types t) (hr : RecordSound types r) (c : Settings)
    (s : State) : KeepsRanges types s (finishRecord c r t s) where
  queue := finishRecord_footprint c fun _ => entryOf_sound ht hr
  track := by
    obtain ⟨u, hu, h⟩ := finishRecord_track c r t s
    have husound : GatheringSound types u := by
      rcases hu with rfl | ⟨-, rfl⟩ | ⟨-, rfl⟩
      · exact ht
      · exact afterEntry_sound ht r
      · exact hold_sound ht hr
    rcases h with h | ⟨-, -, -, h⟩ <;> rw [h]
    · exact husound
    · exact husound

/-! ### Closes (R67 to R70) -/

/-- A track whose accumulator is cleared. -/
theorem clear_sound {t : Track} (ht : GatheringSound types t) : GatheringSound types { t with acc := none } := by
  obtain ⟨hlabel, hx, hx', hz, hmark, -, hheld⟩ := ht
  exact ⟨hlabel, hx, hx', hz, hmark, nofun, hheld⟩

theorem closeAccumulator_keeps {t : Track} {a : Accumulator} (ht : GatheringSound types t) (ha : AccumulatorSound types a)
    (c : Settings) (final : Bool) (before : TrackState) (s : State) :
    KeepsRanges types s (closeAccumulator c final before a t s) := by
  unfold closeAccumulator
  split
  · exact .of_unchanged (clear_sound ht) s
  · exact finishRecord_keeps (t := { t with acc := none, missedBins := 0 }) (clear_sound ht)
      (fullRecord_sound ht.1 ha c final) c s

/-- What a close leaves of a sound track is sound (R67 to R70). -/
theorem closeTrack_sound {t v : Track} {k : Int} (ht : GatheringSound types t) (hk : GpiSound k) {c : Settings}
    {final : Bool} {s : State} (h : (closeTrack c k final t s).1 = some v) : GatheringSound types v := by
  obtain ⟨-, -, -, -, -, hacc, -⟩ := id ht
  unfold closeTrack at h
  split at h
  · rename_i a ha
    split at h
    · cases h; exact (closeAccumulator_keeps ht (hacc a ha) c final t.state s).track
    · cases h; exact ht
  · split at h
    · cases h; exact ht
    · unfold closeUnseen at h
      split at h
      · cases h
      · split at h
        · cases h
        · cases h
          exact (finishRecord_keeps (t := { t with missedBins := t.missedBins + 1, state := .coasting }) ht
            (noSampleRecord_sound ht hk final) c s).track

theorem dealWithTracks_keeps {s : State} {k : Int} (hts : ∀ t ∈ s.tt.tracks, GatheringSound types t) (hk : GpiSound k)
    (c : Settings) (final : Bool) :
    TracksFootprint (QueuedSound types) s (dealWithTracks c k final s)
      ∧ ∀ v ∈ (dealWithTracks c k final s).tt.tracks, GatheringSound types v := by
  obtain ⟨hfoot, heach, -⟩ := dealWithTracks_spec (P := QueuedSound types) (s := s) c k final fun t ht => by
    obtain ⟨hlabel, -, -, -, -, hacc, -⟩ := id (hts t ht)
    exact ⟨fun a ha _ => entryOf_sound (hts t ht) (fullRecord_sound hlabel (hacc a ha) c final),
      entryOf_sound (hts t ht) (noSampleRecord_sound (hts t ht) hk final)⟩
  refine ⟨hfoot, fun v hv => ?_⟩
  obtain ⟨t, ht, s', -, h⟩ := heach v hv
  exact closeTrack_sound (hts t ht) hk h

/-! ### Applications (R82 to R92) -/

theorem takeOver_keeps {t : Track} (ht : GatheringSound types t) (start : Option Int) (s : State) :
    KeepsRanges types s (takeOver start t s) := by
  obtain ⟨hlabel, hx, hx', hz, hmark, hacc, hheld⟩ := ht
  unfold takeOver
  split
  · refine offerAll_keeps ?_ (fun r hr => hheld r (List.mem_of_mem_filter hr)) s
    exact ⟨hlabel, hx, hx', hz, hmark, hacc, List.forall_mem_nil _⟩
  · refine .of_unchanged ?_ s
    exact ⟨hlabel, hx, hx', hz, hmark, hacc, List.forall_mem_nil _⟩

theorem dissolve_keeps {t : Track} (ht : GatheringSound types t) (s : State) : KeepsRanges types s (dissolve t s) := by
  have htaken := takeOver_keeps (t := { t with link := none, absent := 0, peerRole := none }) ht (takeOverStart t) s
  unfold dissolve
  simp only
  split
  · exact ⟨ht, .refl _ s⟩
  · exact ⟨htaken.track, htaken.queue⟩
  · exact ⟨htaken.track, htaken.queue⟩

theorem countAbsence_keeps {t : Track} (ht : GatheringSound types t) (s : State) :
    KeepsRanges types s (countAbsence t s) := by
  unfold countAbsence
  split
  · exact dissolve_keeps ht s
  · exact ⟨ht, .refl _ s⟩

theorem roleOutcome_keeps {t : Track} (ht : GatheringSound types t) (n : Nat) (e : EdgeEntry) (s : State) :
    KeepsRanges types s (roleOutcome n e t s) := by
  have hkept := KeepsRanges.of_unchanged ht s
  have htaken := fun start => takeOver_keeps ht start s
  unfold roleOutcome
  simp only
  split
  · split
    · exact ⟨ht, setLatch_footprint _ s _⟩
    · obtain ⟨hlabel, hx, hx', hz, hmark, hacc, -⟩ := ht
      exact ⟨⟨hlabel, hx, hx', hz, hmark, hacc, List.forall_mem_nil _⟩, .refl _ s⟩
  · exact hkept
  · exact hkept
  · exact hkept
  · exact htaken _
  · split
    · exact htaken _
    · exact hkept
  · exact ⟨ht, .refl _ s⟩
  · exact hkept
  · split
    · exact htaken _
    · exact hkept

theorem settle_keeps {t : Track} (ht : GatheringSound types t) (side : Side) (r : EdgeReport) (e : EdgeEntry) (s : State) :
    KeepsRanges types s (settle side r e t s) :=
  have h := roleOutcome_keeps (t := { t with link := some side, absent := 0 }) ht r.source e s
  ⟨h.track, h.queue⟩

/-! ### The scan pass (R60 to R65) -/

theorem associate_sound {t : Track} (ht : GatheringSound types t) {p : CarSpot} (hp : SpotSound p) (c : Settings) :
    GatheringSound types (t.associate c p) := by
  obtain ⟨hlabel, -, -, -, hmark, hacc, hheld⟩ := ht
  exact ⟨hlabel, hp.x_ge, hp.x_le, hp.z_le, hmark, hacc, hheld⟩

theorem newTrack_sound {l : Label} (hl : LabelSound l) {p : CarSpot} (hp : SpotSound p) (scan : Scan) :
    GatheringSound types (newTrack l scan p) :=
  ⟨hl, hp.x_ge, hp.x_le, hp.z_le, nofun, nofun, List.forall_mem_nil _⟩

/-- A track that takes a sample. -/
theorem withAcc_sound {t : Track} {a : Accumulator} (ht : GatheringSound types t) (ha : AccumulatorSound types a) :
    GatheringSound types { t with acc := some a } := by
  obtain ⟨hlabel, hx, hx', hz, hmark, -, hheld⟩ := ht
  exact ⟨hlabel, hx, hx', hz, hmark, fun a' h => Option.some.inj h ▸ ha, hheld⟩

theorem offerSpot_keeps {c : Settings} (hc : SettingsSound c) {scan : Scan} (hg : GpiSound scan.gpi) {p : CarSpot}
    (hp : SpotSound p) {t : Track} (ht : GatheringSound c.wireTypes t) (before : TrackState) (s : State) :
    KeepsRanges c.wireTypes s (offerSpot c scan before p t s) := by
  obtain ⟨-, -, -, -, -, hacc, -⟩ := id ht
  have hsample : ∀ (u : Wau) {acc : Option Accumulator}, (∀ a ∈ acc, AccumulatorSound c.wireTypes a) →
      AccumulatorSound c.wireTypes (accumulate scan.gpi p (spotWear c u p) acc) :=
    fun u _ ha => accumulate_sound hg hp (spotWear_sound hc hp u) ha
  obtain ⟨-, h⟩ | ⟨-, h⟩ | ⟨-, a, ha, -, h⟩ := offerSpot_cases c scan before p t s <;> rw [h]
  · exact .of_unchanged ht s
  · exact ⟨withAcc_sound ht (hsample s.wau hacc), .refl _ s⟩
  · obtain ⟨htrack, hqueue⟩ := closeAccumulator_keeps ht (hacc a ha) c false before s
    obtain ⟨-, -, -, -, -, hacc', -⟩ := id htrack
    exact ⟨withAcc_sound htrack (hsample _ hacc'), hqueue⟩

theorem missTentative_sound {t u : Track} (ht : GatheringSound types t) (h : missTentative t = some u) :
    GatheringSound types u := by
  unfold missTentative at h
  split at h
  · split at h
    · cases h
    · cases h; exact ht
  · cases h; exact ht
  · cases h; exact ht

/-- The serial found is a serial (R65). -/
theorem allocateSerial_le (slot : Nat) (ts : List Track) (k : Nat) {n : Nat} (hn : n ≤ 65535) :
    allocateSerial slot ts k n ≤ 65535 := by
  induction k generalizing n with
  | zero => exact hn
  | succ k ih =>
    unfold allocateSerial
    split
    · exact ih (by unfold Config.serials; omega)
    · exact hn

/-- The table after a birth: one more track, the serial counter past its serial (R64, R65). -/
theorem birth_tt (c : Settings) (scan : Scan) (p : CarSpot) (s : State) :
    (birth c scan p s).tt = { s.tt with
      tracks := s.tt.tracks ++ [(offerSpot c scan (.tentative 1 0) p
        (newTrack ⟨s.rca.slot, allocateSerial s.rca.slot s.tt.tracks 8 s.tt.serial⟩ scan p) s).1]
      serial := (allocateSerial s.rca.slot s.tt.tracks 8 s.tt.serial + 1) % 65536 } := by
  have hqueue : QueueFootprint (fun _ => True) s (offerSpot c scan (.tentative 1 0) p
      (newTrack ⟨s.rca.slot, allocateSerial s.rca.slot s.tt.tracks 8 s.tt.serial⟩ scan p) s).2 :=
    offerSpot_footprint c scan _ p (by intro a ha; cases ha)
  unfold birth
  simp only [Config.trackEntries, Config.serials, State.withTt_tt]
  rw [hqueue.tt]

/-- Births keep the tracks and the serial counter within their ranges (R48, R64, R65). -/
theorem births_keeps {c : Settings} (hc : SettingsSound c) {scan : Scan} (hg : GpiSound scan.gpi) {ps : List CarSpot}
    (hps : ∀ p ∈ ps, SpotSound p) {s : State} (hslot : s.rca.slot ≤ 7) (hserial : s.tt.serial ≤ 65535)
    (hts : ∀ t ∈ s.tt.tracks, GatheringSound c.wireTypes t) :
    (∀ t ∈ (births c scan ps s).tt.tracks, GatheringSound c.wireTypes t) ∧ (births c scan ps s).tt.serial ≤ 65535 := by
  induction ps generalizing s with
  | nil => exact ⟨hts, hserial⟩
  | cons p ps ih =>
    unfold births
    split
    · rename_i hlength
      have hp := hps p (by simp)
      have hfoot := (birth_spec (P := fun _ => True) (I := fun _ => True) c scan p s hlength fun _ _ _ _ _ => trivial).1
      have hlabel : LabelSound ⟨s.rca.slot, allocateSerial s.rca.slot s.tt.tracks 8 s.tt.serial⟩ :=
        ⟨hslot, allocateSerial_le _ _ _ hserial⟩
      have hborn := (offerSpot_keeps hc hg hp (newTrack_sound hlabel hp scan) (.tentative 1 0) s).track
      refine ih (fun q hq => hps q (by simp [hq])) (by rw [hfoot.slot]; exact hslot) ?_ ?_ <;> rw [birth_tt]
      · simp only; omega
      · intro t ht
        rcases List.mem_append.1 ht with ht | ht
        · exact hts t ht
        · rw [List.mem_singleton.1 ht]; exact hborn
    · exact ⟨hts, hserial⟩

theorem associatePair_serial (c : Settings) (scan : Scan) (spots : List CarSpot) (s : State) (pair : Candidate) :
    (associatePair c scan spots s pair).tt.serial = s.tt.serial := by
  unfold associatePair
  split
  · rename_i t p _ _
    have hqueue : QueueFootprint (fun _ => True) (s.countSpot scan p)
        (offerSpot c scan t.state p (t.associate c p) (s.countSpot scan p)).2 :=
      offerSpot_footprint c scan _ p fun _ _ => trivial
    simp only [State.withTracks_tt, hqueue.tt, State.countSpot_tt]
  · rfl

theorem associatePairs_serial (c : Settings) (scan : Scan) (spots : List CarSpot) (pairs : List Candidate) (s : State) :
    (pairs.foldl (associatePair c scan spots) s).tt.serial = s.tt.serial := by
  induction pairs generalizing s with
  | nil => rfl
  | cons pair pairs ih => exact (ih _).trans (associatePair_serial c scan spots s pair)

/-- A scan pass keeps the tracks and the serial counter within their ranges (R56). -/
theorem runPass_keeps {c : Settings} (hc : SettingsSound c) {scan : Scan} (hscan : PageSound (.posted scan)) {s : State}
    (hslot : s.rca.slot ≤ 7) (hserial : s.tt.serial ≤ 65535) (hts : ∀ t ∈ s.tt.tracks, GatheringSound c.wireTypes t) :
    PassFootprint (QueuedSound c.wireTypes) s (runPass c scan s)
      ∧ (∀ t ∈ (runPass c scan s).tt.tracks, GatheringSound c.wireTypes t)
      ∧ (runPass c scan s).tt.serial ≤ 65535 := by
  obtain ⟨hg, -, hspots⟩ := hscan
  have hspot : ∀ p ∈ scan.spots.map (carSpot c), SpotSound p := by
    intro p hp
    obtain ⟨q, hq, rfl⟩ := List.mem_map.1 hp
    exact carSpot_sound hc (hspots q hq).1 (hspots q hq).2
  unfold runPass
  simp only
  generalize assign (scanCandidates c s.tt.tracks (scan.spots.map (carSpot c))) = pairs
  obtain ⟨hfoot, hpairs⟩ := associatePairs_spec (P := QueuedSound c.wireTypes) c scan (scan.spots.map (carSpot c)) pairs s hts
    fun p hp t s' _ _ ht =>
      have hkept := offerSpot_keeps hc hg (hspot p hp) (associate_sound ht (hspot p hp) c) t.state s'
      ⟨hkept.queue, hkept.track⟩
  have hserial' := associatePairs_serial c scan (scan.spots.map (carSpot c)) pairs s
  generalize pairs.foldl (associatePair c scan (scan.spots.map (carSpot c))) s = u at *
  have hmissed := (countMisses_spec (pairs.map (·.track)) (u.settleBy scan).tt.tracks
    fun t v ht h => missTentative_sound (types := c.wireTypes) ht h).1 (hpairs.each hts)
  have hfoot' := (hfoot.trans (settleBy_pass _ u scan)).trans (withTracks_pass _ _
    (countMisses (pairs.map (·.track)) (u.settleBy scan).tt.tracks))
  have hbirths := (births_spec (P := QueuedSound c.wireTypes) (I := fun _ => True) c scan
    (leftOver (scan.spots.map (carSpot c)) (pairs.map (·.other)))
    ((u.settleBy scan).withTracks (countMisses (pairs.map (·.track)) (u.settleBy scan).tt.tracks))
    fun _ _ _ _ _ _ _ => trivial).1
  exact ⟨hfoot'.trans hbirths, births_keeps hc hg (fun p hp => hspot p (mem_leftOver hp).1)
    (hfoot'.slot.trans_le hslot) (hserial'.trans_le hserial) hmissed⟩

end Sys2Proof.Machine

/-! The law of ranges over a whole step: the rule of each state operation, then each command (O59). -/

namespace Sys2Proof.Machine

variable {s s' t : State}

/-! ## State operations -/

theorem wireTypes_of_settings {c : Settings} (h : s.settings = some c) : s.wireTypes = c.wireTypes := by
  simp [State.wireTypes, h]

/-- The law passes along the footprint of a pass whose new records, tracks and serial counter are within their ranges. -/
theorem recordsSound_of_pass (h : RecordsSound s) (hf : PassFootprint (QueuedSound s.wireTypes) s s')
    (hts : ∀ t ∈ s'.tt.tracks, GatheringSound s.wireTypes t) (hserial : s'.tt.serial ≤ 65535) : RecordsSound s' := by
  obtain ⟨hin, hqueued, -, hrequests, hA, hB, hgpi, hhw, hslot, -⟩ := h
  have htypes : s'.wireTypes = s.wireTypes := by
    have hset : s'.settings = s.settings := hf.queue.settings
    rw [State.wireTypes, State.wireTypes, hset]
  have hdu : s'.du = s.du := hf.queue.du
  obtain ⟨new, hrecords, hnew⟩ := hf.queue.records
  have hall : ∀ q ∈ s'.rq.records, QueuedSound s.wireTypes q := by
    intro q hq
    rw [show s'.rq.records = s.rq.records ++ new from hrecords] at hq
    rcases List.mem_append.1 hq with hq | hq
    · rcases List.mem_append.1 hq with hq | hq
      · exact hin q hq
      · exact hqueued q hq
    · exact hnew q hq
  rw [RecordsSound, htypes, hdu, hf.slot, hf.siu]
  exact ⟨fun q hq => hall q (List.mem_append_left _ hq), fun q hq => hall q (List.mem_append_right _ hq), hts,
    by rw [hf.tt]; exact hrequests, hA, hB, hgpi, hhw, hslot, hserial⟩

theorem recordsSound_of_tracks (h : RecordsSound s) (hf : TracksFootprint (QueuedSound s.wireTypes) s s')
    (hts : ∀ t ∈ s'.tt.tracks, GatheringSound s.wireTypes t) : RecordsSound s' :=
  recordsSound_of_pass h hf.pass hts (by
    obtain ⟨-, -, -, -, -, -, -, -, -, hserial⟩ := h
    rw [hf.2]; exact hserial)

theorem recordsSound_of_queue (h : RecordsSound s) (hf : QueueFootprint (QueuedSound s.wireTypes) s s') : RecordsSound s' :=
  recordsSound_of_tracks h hf.tracks (by
    obtain ⟨-, -, hts, -⟩ := h
    rw [hf.tt]; exact hts)

theorem recordsSound_arbitrate (h : RecordsSound s) : RecordsSound (arbitrate s) :=
  recordsSound_of_queue h (arbitrate_footprint _ s)

theorem recordsSound_testForm (h : RecordsSound s) : RecordsSound (testForm s) :=
  recordsSound_of_queue h (testForm_footprint _ s)

theorem recordsSound_latchIf (h : RecordsSound s) (b : Bool) (l : Latch) : RecordsSound (s.latchIf b l) :=
  recordsSound_of_queue h (latchIf_footprint _ s b l)

theorem recordsSound_testDrainEnd (h : RecordsSound s) : RecordsSound (testDrainEnd s) := by
  obtain e | ⟨d, -, -, e⟩ := testDrainEnd_cases s <;> rw [e] <;> exact recordsSound_arbitrate h

/-- A queue that holds nothing new keeps the law. -/
theorem recordsSound_withRq (h : RecordsSound s) {x : Rq} (hx : ∀ q ∈ x.records, q ∈ s.rq.records) :
    RecordsSound (s.withRq x) := by
  obtain ⟨hin, hqueued, hrest⟩ := h
  have hall : ∀ q ∈ x.records, QueuedSound s.wireTypes q := fun q hq =>
    (List.mem_append.1 (hx q hq)).elim (hin q) (hqueued q)
  exact ⟨fun q hq => hall q (List.mem_append_left _ hq), fun q hq => hall q (List.mem_append_right _ hq), hrest⟩

theorem recordsSound_withSiu (h : RecordsSound s) {u : Siu} (hA : PageSound u.pageA) (hB : PageSound u.pageB) :
    RecordsSound (s.withSiu u) := by
  obtain ⟨hin, hqueued, hts, hrequests, -, -, hrest⟩ := h
  exact ⟨hin, hqueued, hts, hrequests, hA, hB, hrest⟩

theorem recordsSound_setPage (h : RecordsSound s) (p : PageId) {x : Page} (hx : PageSound x) :
    RecordsSound (s.withSiu (s.siu.setPage p x)) := by
  obtain ⟨-, -, -, -, hA, hB, -⟩ := id h
  cases p
  · exact recordsSound_withSiu h hx hB
  · exact recordsSound_withSiu h hA hx

theorem recordsSound_withDu (h : RecordsSound s) {u : Du} (hgpi : GpiSound u.gpi) (hhw : GpiSound u.hw) :
    RecordsSound (s.withDu u) := by
  obtain ⟨hin, hqueued, hts, hrequests, hA, hB, -, -, hrest⟩ := h
  exact ⟨hin, hqueued, hts, hrequests, hA, hB, hgpi, hhw, hrest⟩

theorem recordsSound_withTracks (h : RecordsSound s) {ts : List Track} (hts : ∀ t ∈ ts, GatheringSound s.wireTypes t) :
    RecordsSound (s.withTracks ts) :=
  recordsSound_of_tracks h (withTracks_footprint _ s ts) hts

/-- A table with the same tracks and serial counter and sound requests keeps the law. -/
theorem recordsSound_withRequests (h : RecordsSound s) {rs : List Request} (hrs : ∀ r ∈ rs, RequestSound r) (x : Tt)
    (ht : x.tracks = s.tt.tracks) (hr : x.requests = rs) (hn : x.serial = s.tt.serial) : RecordsSound (s.withTt x) := by
  obtain ⟨hin, hqueued, hts, -, hA, hB, hgpi, hhw, hslot, hserial⟩ := h
  exact ⟨hin, hqueued, by rw [State.withTt_tt, ht]; exact hts, by rw [State.withTt_tt, hr]; exact hrs, hA, hB, hgpi, hhw,
    hslot, by rw [State.withTt_tt, hn]; exact hserial⟩

theorem recordsSound_post (h : RecordsSound s) {r : Request} (hr : RequestSound r) : RecordsSound (s.post r) := by
  obtain ⟨-, -, -, hrequests, -⟩ := id h
  refine recordsSound_withRequests h (fun x hx => ?_) _ rfl rfl rfl
  rcases List.mem_append.1 hx with hx | hx
  · exact hrequests x hx
  · rw [List.mem_singleton.1 hx]; exact hr

/-! ## The sensor port (R15 to R21) -/

theorem beginMessage_recordsSound (h : RecordsSound s) : RecordsSound (beginMessage s) := by
  obtain ⟨-, -, -, -, hA, hB, -⟩ := id h
  unfold beginMessage
  split
  · exact recordsSound_withSiu h trivial hB
  · split
    · exact recordsSound_withSiu h hA trivial
    · simp only
      split <;> exact h

theorem continuityCheck_recordsSound (h : RecordsSound s) (bytes : List Byte) : RecordsSound (continuityCheck bytes s) := by
  unfold continuityCheck
  split <;> exact h

/-- Screening leaves head heights up to 15,000 and face widths up to 2,000 (R18). -/
theorem screen_range (c : Settings) (spots : List Spot) :
    ∀ p ∈ screen c spots, p.headZ ≤ 15000 ∧ ∀ w ∈ p.width, w ≤ 2000 := by
  intro p hp
  obtain ⟨q, hq, rfl⟩ := List.mem_map.1 hp
  obtain ⟨-, hq⟩ := List.mem_filter.1 hq
  refine ⟨(of_decide_eq_true hq).2, fun w hw => ?_⟩
  obtain ⟨-, hw⟩ := Option.filter_eq_some_iff.1 hw
  exact of_decide_eq_true hw

theorem takeMessage_recordsSound (h : RecordsSound s) (c : Settings) (p : PageId) (bytes : List Byte) :
    RecordsSound (takeMessage c p bytes s) := by
  unfold takeMessage
  split
  · have hfreed := recordsSound_setPage h p (x := .free) trivial
    exact continuityCheck_recordsSound (s := (s.withSiu (s.siu.setPage p .free)).loseScan) hfreed bytes
  · have hchecked := continuityCheck_recordsSound h bytes
    obtain ⟨-, -, -, -, -, -, hgpi, hhw, -⟩ := id hchecked
    exact recordsSound_post (r := .scanPass p)
      (recordsSound_setPage hchecked p (x := .posted _) ⟨hgpi, hhw, screen_range c _⟩) trivial

theorem endMessage_recordsSound (h : RecordsSound s) {bytes : List Byte} (hstep : endMessage bytes s = .next t) :
    RecordsSound t := by
  unfold endMessage at hstep
  split at hstep
  · cases hstep
  · cases hstep
  · cases hstep
    split
    · exact continuityCheck_recordsSound (s := s.portIdle) h bytes
    · exact h
  · split at hstep
    · split at hstep
      · cases hstep; exact takeMessage_recordsSound (s := s.portIdle) h _ _ _
      · cases hstep
    · cases hstep; exact recordsSound_setPage (s := s.portIdle) h _ (x := .free) trivial

theorem execScanMessageBegin_recordsSound (h : RecordsSound s) {e : Nat} (hstep : execScanMessageBegin e s = .next t) :
    RecordsSound t := by
  unfold execScanMessageBegin at hstep
  split at hstep <;> cases hstep
  exact beginMessage_recordsSound (s := s.elapse e) h

theorem execScanMessageSilence_recordsSound (h : RecordsSound s) {e : Nat} {bytes : List Byte}
    (hstep : execScanMessageSilence e bytes s = .next t) : RecordsSound t := by
  unfold execScanMessageSilence at hstep
  split at hstep
  · cases hstep; exact h
  all_goals exact endMessage_recordsSound (s := s.elapse e) h hstep

theorem execExposureWordSent_recordsSound (h : RecordsSound s) {e : Nat} (hstep : execExposureWordSent e s = .next t) :
    RecordsSound t := by
  unfold execExposureWordSent at hstep
  split at hstep <;> cases hstep
  exact h

theorem execEndMarkAfterReset_recordsSound (h : RecordsSound s) {e : Nat} (hstep : execEndMarkAfterReset e s = .next t) :
    RecordsSound t := by
  unfold execEndMarkAfterReset at hstep
  split at hstep <;> cases hstep
  exact h

/-! ## The Distance Unit (R33 to R40) -/

/-- A count keeps the GPI and the high-water index within 32 bits (R38). -/
theorem forwardCount_range (c : Settings) {u : Du} (hgpi : GpiSound u.gpi) (hhw : GpiSound u.hw) :
    GpiSound (forwardCount c u).gpi ∧ GpiSound (forwardCount c u).hw := by
  unfold forwardCount
  split
  · exact ⟨hgpi, hhw⟩
  · split
    · exact ⟨hgpi, hhw⟩
    · simp only [GpiSound] at *; omega

theorem reverseCount_range (c : Settings) {u : Du} (hgpi : GpiSound u.gpi) (hhw : GpiSound u.hw) :
    GpiSound (reverseCount c u).gpi ∧ GpiSound (reverseCount c u).hw := by
  unfold reverseCount
  split
  · exact ⟨hgpi, hhw⟩
  · split
    · exact ⟨hgpi, hhw⟩
    · simp only [GpiSound] at *; omega

theorem quarter_range (c : Settings) (line : OdoLine) {u : Du} (hgpi : GpiSound u.gpi) (hhw : GpiSound u.hw) :
    GpiSound (quarter c line u).gpi ∧ GpiSound (quarter c line u).hw := by
  unfold quarter
  simp only
  split
  · split
    · exact forwardCount_range c hgpi hhw
    · exact ⟨hgpi, hhw⟩
  · split
    · exact reverseCount_range c hgpi hhw
    · exact ⟨hgpi, hhw⟩

theorem takeQuarter_recordsSound (h : RecordsSound s) {line : OdoLine} (hstep : takeQuarter line s = .next t) :
    RecordsSound t := by
  obtain ⟨-, -, -, -, -, -, hgpi, hhw, -⟩ := id h
  unfold takeQuarter at hstep
  split at hstep
  · split at hstep
    · rename_i c _
      obtain ⟨hgpi', hhw'⟩ := quarter_range c line hgpi hhw
      have hcounted := recordsSound_withDu h hgpi' hhw'
      cases hstep
      split
      · unfold postClose
        split
        · exact recordsSound_post hcounted hhw
        · exact hcounted
      · exact hcounted
    · cases hstep
  · cases hstep; exact h

theorem takeIllegal_recordsSound (h : RecordsSound s) : RecordsSound (takeIllegal s) :=
  recordsSound_latchIf (s := s.withDu { s.du with pair := ⟨!s.du.pair.p, !s.du.pair.q⟩, quarter := 0 }) h _ _

theorem takeEdges_recordsSound (h : RecordsSound s) {e : Nat} {g : EdgeGroup} (hstep : takeEdges e g s = .next t) :
    RecordsSound t := by
  have hresolved : RecordsSound ((s.elapse e).withDu { s.du with resolved := s.now + e }) := h
  unfold takeEdges at hstep
  simp only at hstep
  split at hstep
  · cases hstep
  · split at hstep
    · cases hstep; exact hresolved
    · exact takeQuarter_recordsSound hresolved hstep
    · cases hstep; exact takeIllegal_recordsSound hresolved

/-! ## Requests of the track table (R52 to R54) -/

/-- A request is taken: what it carries is within range, and the law holds while it is served. -/
theorem serveNext_recordsSound (h : RecordsSound s) {f : Settings → Request → State → Option Result}
    (hstep : serveNext s f = .next t) : ∃ r rest c, RequestSound r ∧ s.settings = some c
      ∧ RecordsSound (s.withTt { s.tt with requests := rest, serving := some s.tt.tracks.length })
      ∧ f c r (s.withTt { s.tt with requests := rest, serving := some s.tt.tracks.length }) = some (.next t) := by
  obtain ⟨r, rest, c, hr, -, hc, hf⟩ := serveNext_next hstep
  obtain ⟨-, -, -, hrequests, -⟩ := id h
  rw [hr] at hrequests
  exact ⟨r, rest, c, hrequests r (by simp), hc,
    recordsSound_withRequests h (fun x hx => hrequests x (by simp [hx])) _ rfl rfl rfl, hf⟩

theorem settingsSound_of_runSound (hrun : RunSound s) {c : Settings} (hc : s.settings = some c) : SettingsSound c := by
  obtain ⟨r, hr, rfl⟩ := Option.map_eq_some_iff.1 hc
  exact hrun.2.1 r hr

theorem execScanPass_recordsSound (hrun : RunSound s) (h : RecordsSound s) {e : Nat} (hstep : execScanPass e s = .next t) :
    RecordsSound t := by
  obtain ⟨r, rest, c, -, hc, htaken, hf⟩ := serveNext_recordsSound (s := s.elapse e) h hstep
  generalize hs' : (s.elapse e).withTt _ = s' at htaken hf
  have hc' : s'.settings = some c := by rw [← hs']; exact hc
  split at hf
  · rename_i page
    split at hf <;> cases hf
    rename_i scan hscan
    obtain ⟨-, -, hts, -, hA, hB, -, -, hslot, hserial⟩ := id htaken
    have hpage : PageSound (.posted scan) := by
      rw [← hscan]
      cases page
      · exact hA
      · exact hB
    rw [wireTypes_of_settings hc'] at hts
    obtain ⟨hfoot, hts', hserial'⟩ := runPass_keeps (settingsSound_of_runSound (s := s) hrun hc) hpage hslot hserial hts
    rw [← wireTypes_of_settings hc'] at hfoot hts'
    exact recordsSound_setPage (recordsSound_of_pass htaken hfoot hts' hserial') page (x := .free) trivial
  · cases hf

theorem dealWithTracks_recordsSound (h : RecordsSound s) {k : Int} (hk : GpiSound k) (c : Settings) (final : Bool) :
    RecordsSound (dealWithTracks c k final s) := by
  obtain ⟨-, -, hts, -⟩ := id h
  obtain ⟨hfoot, hts'⟩ := dealWithTracks_keeps hts hk c final
  exact recordsSound_of_tracks h hfoot hts'

theorem buildReport_recordsSound (h : RecordsSound s) (c : Settings) (k : Int) : RecordsSound (buildReport c k s) := by
  obtain ⟨-, -, hts, -⟩ := id h
  unfold buildReport
  split
  · refine recordsSound_arbitrate (s := State.withRlc _ _) ?_
    refine recordsSound_withTracks h fun t ht => ?_
    obtain ⟨u, hu, rfl⟩ := List.mem_map.1 ht
    exact hts u hu
  · exact h

theorem exposureStep_recordsSound (h : RecordsSound s) (c : Settings) : RecordsSound (exposureStep c s) := by
  obtain ⟨-, -, -, -, hA, hB, -⟩ := id h
  rw [exposureStep_frame]
  exact recordsSound_withSiu h hA hB

theorem execBinClose_recordsSound (h : RecordsSound s) {e : Nat} (hstep : execBinClose e s = .next t) : RecordsSound t := by
  obtain ⟨r, rest, c, hr, -, htaken, hf⟩ := serveNext_recordsSound (s := s.elapse e) h hstep
  split at hf <;> cases hf
  exact exposureStep_recordsSound (buildReport_recordsSound (dealWithTracks_recordsSound htaken hr c false) c _) c

theorem execFinalClose_recordsSound (h : RecordsSound s) {e : Nat} (hstep : execFinalClose e s = .next t) :
    RecordsSound t := by
  obtain ⟨r, rest, c, hr, -, htaken, hf⟩ := serveNext_recordsSound (s := s.elapse e) h hstep
  split at hf <;> cases hf
  have hclosed := exposureStep_recordsSound (dealWithTracks_recordsSound htaken hr c true) c
  exact recordsSound_testDrainEnd (recordsSound_withRequests hclosed (rs := []) (List.forall_mem_nil _) _ rfl rfl rfl)

theorem applyEdge_recordsSound (h : RecordsSound s) (c : Settings) (side : Side) {report : EdgeReport}
    (hreport : ∀ e ∈ report.entries, LabelSound e.label) : RecordsSound (applyEdge c side report s) := by
  unfold applyEdge
  split
  · simp only
    have hcentre : RecordsSound (s.withTt (s.tt.setCentre side report.clamped.centre)) := by cases side <;> exact h
    generalize s.withTt (s.tt.setCentre side report.clamped.centre) = u at hcentre
    obtain ⟨-, -, hts, -⟩ := id hcentre
    split
    · exact hcentre
    · have hrelabel : ∀ v w, Relabelled report.clamped.entries v w → GatheringSound u.wireTypes v →
          GatheringSound u.wireTypes w := by
        rintro v w (rfl | ⟨x, hx, hw⟩) hv
        · exact hv
        · obtain ⟨y, hy, rfl⟩ := List.mem_map.1 hx
          obtain ⟨-, hv⟩ := hv
          rw [hw]
          exact ⟨hreport y hy, hv⟩
      obtain ⟨hfoot, -, hts', -⟩ := applyMatching_spec (P := QueuedSound u.wireTypes) (c := c) (side := side)
        (r := report.clamped) hts hrelabel
        (fun e v s' _ hv => ⟨(settle_keeps hv side _ e s').queue, (settle_keeps hv side _ e s').track⟩)
        (fun v s' _ hv => ⟨(countAbsence_keeps hv s').queue, (countAbsence_keeps hv s').track⟩) rfl rfl rfl
      exact recordsSound_of_tracks hcentre hfoot hts'
  · exact h

theorem execEdgeApplication_recordsSound (h : RecordsSound s) {e : Nat} (hstep : execEdgeApplication e s = .next t) :
    RecordsSound t := by
  obtain ⟨r, rest, c, hr, -, htaken, hf⟩ := serveNext_recordsSound (s := s.elapse e) h hstep
  split at hf <;> cases hf
  exact applyEdge_recordsSound htaken c _ hr

theorem applyMark_recordsSound (h : RecordsSound s) (c : Settings) {number : Nat} (hn : number ≤ 65535)
    (type : Option Nat) : RecordsSound (applyMark c number type s) := by
  obtain ⟨-, -, hts, -⟩ := id h
  have hmarked : RecordsSound (s.withTracks (s.tt.tracks.map fun t => { t with mark := some number })) := by
    refine recordsSound_withTracks h fun t ht => ?_
    obtain ⟨u, hu, rfl⟩ := List.mem_map.1 ht
    obtain ⟨hlabel, hx, hx', hz, -, hrest⟩ := hts u hu
    exact ⟨hlabel, hx, hx', hz, fun m hm => Option.some.inj hm ▸ hn, hrest⟩
  unfold applyMark
  simp only
  split
  · split <;> exact hmarked
  · exact hmarked

theorem execMarkApplication_recordsSound (h : RecordsSound s) {e : Nat} (hstep : execMarkApplication e s = .next t) :
    RecordsSound t := by
  obtain ⟨r, rest, c, hr, -, htaken, hf⟩ := serveNext_recordsSound (s := s.elapse e) h hstep
  split at hf <;> cases hf
  exact applyMark_recordsSound htaken c hr _

theorem execNeighbourLostApplication_recordsSound (h : RecordsSound s) {e : Nat}
    (hstep : execNeighbourLostApplication e s = .next t) : RecordsSound t := by
  obtain ⟨r, rest, c, -, -, htaken, hf⟩ := serveNext_recordsSound (s := s.elapse e) h hstep
  generalize (s.elapse e).withTt _ = s' at htaken hf
  obtain ⟨-, -, hts, -⟩ := id htaken
  split at hf <;> cases hf
  obtain ⟨hfoot, -, hts', -⟩ := foldl_updateTrack (P := QueuedSound s'.wireTypes) (R := fun _ _ => True)
    (I := GatheringSound s'.wireTypes) (fun _ => trivial) (fun _ _ _ _ _ => trivial) (fun i : Nat => i)
    (fun _ t s => dissolve t s) (linkedPlaces _ s'.tt.tracks) s' hts
    fun _ _ u s'' _ _ hu => ⟨(dissolve_keeps hu s'').queue, trivial, (dissolve_keeps hu s'').track⟩
  have hdissolved := recordsSound_of_tracks htaken hfoot hts'
  exact hdissolved

/-! ## The roof link (R137 to R147) -/

theorem frameEnded_recordsSound (h : RecordsSound s) (source : FrameSource) : RecordsSound (frameEnded source s) := by
  cases source with
  | edge bin => simp only [frameEnded, State.restartHeartbeat]; split <;> exact h
  | status drainEnd => simp only [frameEnded, State.statusEnded]; split <;> exact h
  | gauge => exact recordsSound_testForm (recordsSound_withRq h fun q hq => List.mem_append_right _ hq)

theorem returnRecords_recordsSound (h : RecordsSound s) : RecordsSound s.returnRecords := by
  unfold State.returnRecords
  split
  · exact recordsSound_withRq (s := s.countDrainLoss s.rq.inFrame.length) h fun q hq => List.mem_append_right _ hq
  · exact recordsSound_withRq h fun q hq => hq

theorem frameAbandoned_recordsSound (h : RecordsSound s) (source : FrameSource) :
    RecordsSound (frameAbandoned source s) := by
  cases source with
  | edge bin => exact h
  | status drainEnd => simp only [frameAbandoned, State.statusEnded]; split <;> exact h
  | gauge => exact returnRecords_recordsSound (s := s.countAbandoned.setLatch .collisionLimit) h

theorem stopDriving_recordsSound (h : RecordsSound s) : RecordsSound s.stopDriving := by
  unfold State.stopDriving
  split <;> exact h

theorem spellBegins_recordsSound (h : RecordsSound s) (usable : Bool) : RecordsSound (s.spellBegins usable) := by
  unfold State.spellBegins
  split <;> exact h

theorem execAttemptBegin_recordsSound (h : RecordsSound s) {e : Nat} (hstep : execAttemptBegin e s = .next t) :
    RecordsSound t := by
  unfold execAttemptBegin at hstep
  simp only at hstep
  split at hstep
  · split at hstep
    · cases hstep
    · split at hstep <;> cases hstep
      unfold beginAttempt
      split
      · exact recordsSound_testDrainEnd (s := State.countAbandoned _) h
      · exact h
  all_goals cases hstep

theorem execCollision_recordsSound (h : RecordsSound s) {e : Nat} (hstep : execCollision e s = .next t) :
    RecordsSound t := by
  unfold execCollision at hstep
  simp only at hstep
  split at hstep
  · split at hstep <;> cases hstep
    exact spellBegins_recordsSound (s := s.elapse e) h false
  all_goals cases hstep

theorem execJamEnd_recordsSound (h : RecordsSound s) {e draw : Nat} (hstep : execJamEnd e draw s = .next t) :
    RecordsSound t := by
  unfold execJamEnd at hstep
  simp only at hstep
  split at hstep
  · split at hstep <;> cases hstep
    have hstopped := stopDriving_recordsSound (s := s.elapse e) h
    unfold endJam
    simp only
    split
    · exact hstopped
    · exact recordsSound_testDrainEnd (frameAbandoned_recordsSound (s := (s.elapse e).stopDriving.withTx .free) hstopped _)
  all_goals cases hstep

theorem execBackoffEnd_recordsSound (h : RecordsSound s) {e : Nat} (hstep : execBackoffEnd e s = .next t) :
    RecordsSound t := by
  unfold execBackoffEnd at hstep
  simp only at hstep
  split at hstep
  · split at hstep <;> cases hstep
    exact h
  all_goals cases hstep

theorem execFrameSent_recordsSound (h : RecordsSound s) {e : Nat} (hstep : execFrameSent e s = .next t) :
    RecordsSound t := by
  unfold execFrameSent at hstep
  simp only at hstep
  split at hstep
  · split at hstep <;> cases hstep
    have hstopped := stopDriving_recordsSound (s := s.elapse e) h
    exact recordsSound_testDrainEnd (frameEnded_recordsSound (s := (s.elapse e).stopDriving.withTx .free) hstopped _)
  all_goals cases hstep

theorem execBusJam_recordsSound (h : RecordsSound s) {e : Nat} (hstep : execBusJam e s = .next t) : RecordsSound t := by
  unfold execBusJam at hstep
  simp only at hstep
  split at hstep
  · cases hstep
  · split at hstep
    · cases hstep
    · split at hstep <;> cases hstep
      exact h

theorem execMediumQuiet_recordsSound (h : RecordsSound s) {e : Nat} (hstep : execMediumQuiet e s = .next t) :
    RecordsSound t := by
  unfold execMediumQuiet at hstep
  split at hstep
  · cases hstep
  · split at hstep <;> cases hstep
    exact h

theorem execCarrierAppears_recordsSound (h : RecordsSound s) {e : Nat} (hstep : execCarrierAppears e s = .next t) :
    RecordsSound t := by
  have hspell := spellBegins_recordsSound (s := s.elapse e) h
  unfold execCarrierAppears at hstep
  simp only at hstep
  split at hstep
  · cases hstep
  · split at hstep <;> cases hstep
    · split
      · exact hspell false
      · exact hspell false
    all_goals exact hspell _

theorem execHeartbeatTimerExpiry_recordsSound (h : RecordsSound s) {e : Nat}
    (hstep : execHeartbeatTimerExpiry e s = .next t) : RecordsSound t := by
  obtain ⟨-, -, -, hgo⟩ := onExpiry_next hstep
  split at hgo <;> cases hgo
  unfold expireHeartbeat
  simp only
  split
  · exact recordsSound_arbitrate (s := State.withRlc _ _) h
  · exact h

theorem execRecordAgeExpiry_recordsSound (h : RecordsSound s) {e : Nat} (hstep : execRecordAgeExpiry e s = .next t) :
    RecordsSound t := by
  unfold execRecordAgeExpiry at hstep
  simp only at hstep
  split at hstep
  · cases hstep
  · split at hstep <;> cases hstep
    exact recordsSound_testForm (s := s.elapse e) h
  · cases hstep

theorem execHoldPeriodEnd_recordsSound (h : RecordsSound s) {e : Nat} (hstep : execHoldPeriodEnd e s = .next t) :
    RecordsSound t := by
  obtain ⟨-, -, -, hgo⟩ := onExpiry_next hstep
  cases hgo
  exact recordsSound_testForm (recordsSound_withRq (s := s.elapse e) h fun q hq => hq)

/-! ## Reception (R149 to R153) -/

/-- A field of `n` bytes holds a number of `n` bytes (R169). -/
theorem fieldAt_lt (bytes : List Byte) (offset n : Nat) : fieldAt bytes offset n < 256 ^ n := by
  have hread : ∀ l : List Byte, readLe l < 256 ^ l.length := by
    intro l
    induction l with
    | nil => simp [readLe]
    | cons b l ih =>
      have hb := b.isLt
      simp only [readLe, List.length_cons, pow_succ]
      omega
  calc fieldAt bytes offset n < 256 ^ ((bytes.drop offset).take n).length := hread _
    _ ≤ 256 ^ n := Nat.pow_le_pow_right (by norm_num) (by simp)

/-- The label of an entry that is not malformed lies within its ranges (R173, R177). -/
theorem parseEntry_label {b rest : List Byte} {e : EdgeEntry} (h : parseEntry b = some (e, rest)) : LabelSound e.label := by
  have hserial := fieldAt_lt b 3 2
  unfold parseEntry at h
  split at h
  · simp only at h
    generalize (if fieldAt b 1 1 = 2 then 20 else 16) = size at h
    split at h
    · cases h
    · rename_i hbad
      cases h
      exact ⟨by simp only; omega, by simp only; omega⟩
  · cases h

theorem parseEntries_label {n : Nat} {b : List Byte} {es : List EdgeEntry} (h : parseEntries n b = some es) :
    ∀ e ∈ es, LabelSound e.label := by
  induction n generalizing b es with
  | zero =>
    unfold parseEntries at h
    split at h <;> cases h
    exact List.forall_mem_nil _
  | succ n ih =>
    unfold parseEntries at h
    split at h
    · rename_i e rest he
      obtain ⟨es', hes', rfl⟩ := Option.map_eq_some_iff.1 h
      exact List.forall_mem_cons.2 ⟨parseEntry_label he, ih hes'⟩
    · cases h

theorem parseEdge_label {source : Nat} {b : List Byte} {r : EdgeReport} (h : parseEdge source b = some r) :
    ∀ e ∈ r.entries, LabelSound e.label := by
  unfold parseEdge at h
  simp only at h
  split at h
  · cases h
  · obtain ⟨es, hes, rfl⟩ := Option.map_eq_some_iff.1 h
    exact parseEntries_label hes

theorem parseMark_number {b : List Byte} {m : Nat × Option Nat} (h : parseMark b = some m) : m.1 ≤ 65535 := by
  have hnumber := fieldAt_lt b 0 2
  unfold parseMark at h
  split at h <;> cases h
  simp only; omega

theorem offerApplication_recordsSound (h : RecordsSound s) {r : Request} (hr : RequestSound r) :
    RecordsSound (offerApplication r s) := by
  unfold offerApplication
  split
  · split
    · exact recordsSound_post h hr
    · exact h
  · exact h

theorem takeConfig_recordsSound (h : RecordsSound s) (f : ReceivedFrame) : RecordsSound (takeConfig f s) := by
  unfold takeConfig State.statusFor
  split
  · exact recordsSound_arbitrate (s := State.withRca _ _) h
  · simp only
    split <;> exact recordsSound_arbitrate (s := State.withRca _ _) h

theorem takeQuery_recordsSound (h : RecordsSound s) (f : ReceivedFrame) : RecordsSound (takeQuery f s) := by
  unfold takeQuery State.statusFor
  split <;> exact recordsSound_arbitrate (s := State.withRca _ _) h

theorem filterFrame_recordsSound (h : RecordsSound s) (f : ReceivedFrame) : RecordsSound (filterFrame f s) := by
  unfold filterFrame
  split
  · exact h
  · exact h
  · exact h
  · split
    · split
      · rename_i hparsed; exact offerApplication_recordsSound h (parseEdge_label hparsed)
      · exact h
    · exact h
  · split
    · split
      · rename_i hparsed; exact offerApplication_recordsSound h (parseMark_number hparsed)
      · exact h
    · exact h
  · split
    · exact takeConfig_recordsSound h f
    · exact h
  · split
    · exact takeQuery_recordsSound h f
    · exact h

theorem signOfLife_recordsSound (h : RecordsSound s) (source : Nat) : RecordsSound (signOfLife source s) := by
  unfold signOfLife
  split
  · split <;> exact h
  · exact h

theorem judgeReception_recordsSound (h : RecordsSound s) (bytes : List Byte) : RecordsSound (judgeReception bytes s) := by
  unfold judgeReception
  split
  · exact h
  · split
    · exact filterFrame_recordsSound (signOfLife_recordsSound h _) _
    · exact h

theorem execReceptionBegin_recordsSound (h : RecordsSound s) {event : ReceptionEvent}
    (hstep : execReceptionBegin event s = .next t) : RecordsSound t := by
  unfold execReceptionBegin at hstep
  split at hstep
  · cases hstep
  · split at hstep
    · cases hstep
    · split at hstep <;> cases hstep
      exact h

theorem execFrameReceived_recordsSound (h : RecordsSound s) {e : Nat} {bits : List Bool}
    (hstep : execFrameReceived e bits s = .next t) : RecordsSound t := by
  unfold execFrameReceived at hstep
  split at hstep <;> cases hstep
  exact judgeReception_recordsSound (s := (s.elapse e).carrierEnds) h _

theorem loseNeighbour_recordsSound (h : RecordsSound s) (side : Side) : RecordsSound (loseNeighbour side s) := by
  have hlost : RecordsSound ((s.withRlc (s.rlc.setLife side (some ⟨.lost, none⟩))).setLatch .neighbourLost) := h
  unfold loseNeighbour
  simp only
  split
  · exact recordsSound_post hlost trivial
  · exact hlost

theorem execNeighbourTimerExpiry_recordsSound (h : RecordsSound s) {e : Nat} {side : Side}
    (hstep : execNeighbourTimerExpiry e side s = .next t) : RecordsSound t := by
  obtain ⟨-, -, -, hgo⟩ := onExpiry_next hstep
  cases hgo
  exact loseNeighbour_recordsSound (s := s.elapse e) h side

/-! ## Runs (R158 to R161) -/

theorem execPowerOnReset_recordsSound {e : Nat} {straps : BitVec 3} {pair : OdoPair} {carrier midScan : Bool}
    (hstep : execPowerOnReset e straps pair carrier midScan s = .next t) : RecordsSound t := by
  cases hstep
  have hslot : straps.toNat ≤ 7 := by have := straps.isLt; omega
  have hzero : GpiSound 0 := by decide
  exact ⟨List.forall_mem_nil _, List.forall_mem_nil _, List.forall_mem_nil _, List.forall_mem_nil _, trivial, trivial, hzero,
    hzero, hslot, Nat.zero_le _⟩

theorem pageSound_atRunStart (x : Page) : PageSound x.atRunStart := by cases x <;> trivial

theorem sendWord_pages (u : Siu) : u.sendWord.pageA = u.pageA ∧ u.sendWord.pageB = u.pageB := by
  unfold Siu.sendWord
  split <;> exact ⟨rfl, rfl⟩

theorem startRun_recordsSound (h : RecordsSound s) (r : SourcedSettings) : RecordsSound (startRun r s) := by
  obtain ⟨-, -, -, -, -, -, -, -, hslot, -⟩ := h
  have hzero : GpiSound 0 := by decide
  obtain ⟨hA, hB⟩ : (s.siu.start r.settings).pageA = s.siu.pageA.atRunStart
      ∧ (s.siu.start r.settings).pageB = s.siu.pageB.atRunStart := sendWord_pages _
  refine ⟨List.forall_mem_nil _, List.forall_mem_nil _, List.forall_mem_nil _, List.forall_mem_nil _, ?_, ?_, hzero, hzero,
    hslot, Nat.zero_le _⟩
  · show PageSound (s.siu.start r.settings).pageA
    rw [hA]; exact pageSound_atRunStart _
  · show PageSound (s.siu.start r.settings).pageB
    rw [hB]; exact pageSound_atRunStart _

theorem execRunStart_recordsSound (h : RecordsSound s) {e : Nat} (hstep : execRunStart e s = .next t) : RecordsSound t := by
  unfold execRunStart at hstep
  simp only at hstep
  split at hstep
  · split at hstep <;> cases hstep
    exact startRun_recordsSound (s := s.elapse e) h _
  · cases hstep; exact h

theorem startDrain_recordsSound (h : RecordsSound s) : RecordsSound (startDrain s) := by
  obtain ⟨-, -, -, -, -, -, -, hhw, -⟩ := id h
  have hposted := recordsSound_post (s := s.enterNode .draining) (r := .finalClose s.du.hw) h hhw
  exact recordsSound_testForm hposted

theorem execEnterDraining_recordsSound (h : RecordsSound s) {e : Nat} (hstep : execEnterDraining e s = .next t) :
    RecordsSound t := by
  unfold execEnterDraining at hstep
  simp only at hstep
  split at hstep <;> cases hstep
  · exact startDrain_recordsSound (s := s.elapse e) h
  · exact h

theorem reachLimit_recordsSound (h : RecordsSound s) : RecordsSound (reachLimit s) := by
  have hemptied := recordsSound_withRq h (x := { s.rq with queued := [], pastLimit := true })
    fun q hq => List.mem_append_left _ (by simpa [Rq.records] using hq)
  exact recordsSound_testDrainEnd hemptied

theorem execDrainLimit_recordsSound (h : RecordsSound s) {e : Nat} (hstep : execDrainLimit e s = .next t) :
    RecordsSound t := by
  obtain ⟨-, -, -, hgo⟩ := onExpiry_next hstep
  cases hgo
  exact reachLimit_recordsSound (s := s.elapse e) h

theorem execAlertPulseEnd_recordsSound (h : RecordsSound s) {e : Nat} (hstep : execAlertPulseEnd e s = .next t) :
    RecordsSound t := by
  obtain ⟨-, -, -, hgo⟩ := onExpiry_next hstep
  cases hgo
  exact h

/-! ## The step -/

/-- Every command keeps the law (R1, R48, R50, R115). -/
theorem exec_recordsSound (hrun : RunSound s) (h : RecordsSound s) {i : Instr} (hstep : exec i s = .next t) :
    RecordsSound t := by
  cases i with
  | powerOnReset => exact execPowerOnReset_recordsSound hstep
  | scanMessageBegin => exact execScanMessageBegin_recordsSound h hstep
  | scanMessageEnd e => exact endMessage_recordsSound (s := s.elapse e) h hstep
  | scanMessageSilence => exact execScanMessageSilence_recordsSound h hstep
  | exposureWordSent => exact execExposureWordSent_recordsSound h hstep
  | odometerTransition => exact takeEdges_recordsSound h hstep
  | illegalTransition => exact takeEdges_recordsSound h hstep
  | scanPass => exact execScanPass_recordsSound hrun h hstep
  | binClose => exact execBinClose_recordsSound h hstep
  | finalClose => exact execFinalClose_recordsSound h hstep
  | edgeApplication => exact execEdgeApplication_recordsSound h hstep
  | markApplication => exact execMarkApplication_recordsSound h hstep
  | neighbourLostApplication => exact execNeighbourLostApplication_recordsSound h hstep
  | attemptBegin => exact execAttemptBegin_recordsSound h hstep
  | collision => exact execCollision_recordsSound h hstep
  | jamEnd => exact execJamEnd_recordsSound h hstep
  | backoffEnd => exact execBackoffEnd_recordsSound h hstep
  | frameSent => exact execFrameSent_recordsSound h hstep
  | busJam => exact execBusJam_recordsSound h hstep
  | heartbeatTimerExpiry => exact execHeartbeatTimerExpiry_recordsSound h hstep
  | receptionBegin => exact execReceptionBegin_recordsSound h hstep
  | frameReceived => exact execFrameReceived_recordsSound h hstep
  | neighbourTimerExpiry => exact execNeighbourTimerExpiry_recordsSound h hstep
  | recordAgeExpiry => exact execRecordAgeExpiry_recordsSound h hstep
  | holdPeriodEnd => exact execHoldPeriodEnd_recordsSound h hstep
  | runStart => exact execRunStart_recordsSound h hstep
  | enterDraining => exact execEnterDraining_recordsSound h hstep
  | drainLimit => exact execDrainLimit_recordsSound h hstep
  | alertPulseEnd => exact execAlertPulseEnd_recordsSound h hstep
  | mediumQuiet => exact execMediumQuiet_recordsSound h hstep
  | carrierAppears => exact execCarrierAppears_recordsSound h hstep
  | endMarkAfterReset => exact execEndMarkAfterReset_recordsSound h hstep

/-- Settles O59: the queue of commands is no part of the law, and every command keeps it. -/
theorem recordsLaw : Obligations.RecordsLaw := by
  intro s t hrun h hstep
  unfold step at hstep
  split at hstep
  · cases hstep; exact h
  · rename_i c rest _
    exact exec_recordsSound (s := { s with pending := rest }) hrun h hstep

end Sys2Proof.Machine

/-! Which track an EDGE entry comes to (R79 to R81): what each step of the matching does at one place of the table, and from it
the outcome of label matching and of position matching at that place. -/

namespace Sys2Proof.Machine

variable {c : Settings} {side : Side} {es : List EdgeEntry} {ts : List Track} {m m' : Matching} {i : Nat}

/-! ## The bearer of a label -/

theorem bearer_some {l : Label} {k : Nat} (h : bearer l ts = some k) : ∃ t, ts[k]? = some t ∧ t.label = l := by
  obtain ⟨hk, hl, -⟩ := List.findIdx?_eq_some_iff_getElem.1 h
  exact ⟨ts[k], List.getElem?_eq_getElem hk, by simpa using hl⟩

theorem bearer_eq_none {l : Label} (h : ∀ t ∈ ts, t.label ≠ l) : bearer l ts = none :=
  List.findIdx?_eq_none_iff.2 fun t ht => by simpa using h t ht

theorem bearer_of_nodup (hn : (ts.map (·.label)).Nodup) {u : Track} (hu : ts[i]? = some u) : bearer u.label ts = some i := by
  cases h : bearer u.label ts with
  | none => exact absurd rfl (bearer_none h u (List.mem_of_getElem? hu))
  | some k =>
    obtain ⟨t, ht, hl⟩ := bearer_some h
    have hk : k < (ts.map (·.label)).length := by simpa using (List.getElem?_eq_some_iff.1 ht).1
    rw [(List.getElem?_inj hk hn (j := i)).1 (by simp [ht, hu, hl])]

/-! ## What one step of the matching does -/

/-- What label matching can do with an entry (R79): nothing; match the bearer of its label; match and relabel the bearer of its
former label; pass the entry on. -/
theorem matchLabel_cases (side : Side) (m : Matching) (e : EdgeEntry × Nat) :
    matchLabel side m e = m
    ∨ (∃ k, bearer e.1.label m.tracks = some k ∧ mayMatch side m k = true
        ∧ matchLabel side m e = { m with matched := m.matched ++ [(e.2, k)] })
    ∨ (∃ l k, bearer e.1.label m.tracks = none ∧ e.1.former = some l ∧ bearer l m.tracks = some k ∧ mayMatch side m k = true
        ∧ matchLabel side m e =
          { m with tracks := m.tracks.modify k (Track.relabel e.1), matched := m.matched ++ [(e.2, k)] })
    ∨ matchLabel side m e = { m with passed := m.passed ++ [e] } := by
  unfold matchLabel
  split
  · rename_i k hk
    split
    · rename_i hm; exact .inr (.inl ⟨k, hk, hm, rfl⟩)
    · exact .inl rfl
  · rename_i hb
    split
    · rename_i k hk
      obtain ⟨l, hl, hk⟩ := Option.bind_eq_some_iff.1 hk
      split
      · rename_i hm; exact .inr (.inr (.inl ⟨l, k, hb, hl, hk, hm, rfl⟩))
      · exact .inl rfl
    · exact .inr (.inr (.inr rfl))

/-- What adoption can do with a position match (R81): set it aside, match it, or match and relabel its track. -/
theorem adopt_cases (es : List EdgeEntry) (m : Matching) (p : Nat × Nat) :
    adopt es m p = m
    ∨ adopt es m p = { m with matched := m.matched ++ [p] }
    ∨ ∃ e, es[p.1]? = some e
        ∧ adopt es m p = { m with tracks := m.tracks.modify p.2 (Track.relabel e), matched := m.matched ++ [p] } := by
  unfold adopt
  split
  · rename_i e t he _
    split
    · split
      · exact .inl rfl
      · exact .inr (.inr ⟨e, he, rfl⟩)
    · exact .inr (.inl rfl)
  · exact .inl rfl

/-- A match is possible where no earlier entry has matched and the track is not linked to the other neighbour (R79). -/
theorem mayMatch_iff {t : Track} (ht : m.tracks[i]? = some t) :
    mayMatch side m i = true ↔ t.link ≠ some (opposite side) ∧ ∀ p ∈ m.matched, p.2 ≠ i := by
  simp [mayMatch, ht]

theorem mayMatch_unmatched (h : mayMatch side m i = true) : ∀ p ∈ m.matched, p.2 ≠ i := by
  have h' := (Bool.and_eq_true_iff.1 h).2
  simpa using h'

/-! ## One place of the table -/

/-- The two matchings agree at a place: on its track and on the entries matched to it. -/
def SameAt (i : Nat) (m m' : Matching) : Prop :=
  m'.tracks[i]? = m.tracks[i]? ∧ ∀ j, (j, i) ∈ m'.matched ↔ (j, i) ∈ m.matched

theorem SameAt.refl (i : Nat) (m : Matching) : SameAt i m m := ⟨rfl, fun _ => Iff.rfl⟩

theorem SameAt.trans {m'' : Matching} (h : SameAt i m m') (h' : SameAt i m' m'') : SameAt i m m'' :=
  ⟨h'.1.trans h.1, fun j => (h'.2 j).trans (h.2 j)⟩

/-- A match at another place. -/
theorem sameAt_match {k : Nat} (hk : k ≠ i) (j : Nat) : SameAt i m { m with matched := m.matched ++ [(j, k)] } :=
  ⟨rfl, fun j' => by simp [hk.symm]⟩

/-- A relabelling match at another place. -/
theorem sameAt_relabel {k : Nat} (hk : k ≠ i) (j : Nat) (e : EdgeEntry) :
    SameAt i m { m with tracks := m.tracks.modify k (Track.relabel e), matched := m.matched ++ [(j, k)] } :=
  ⟨by simp [hk], fun j' => by simp [hk.symm]⟩

/-- An entry that names the track at a place neither by label nor by former label leaves the place alone (R79). -/
theorem matchLabel_sameAt_of_unnamed {u : Track} (hu : m.tracks[i]? = some u) {e : EdgeEntry × Nat}
    (hl : e.1.label ≠ u.label) (hf : e.1.former ≠ some u.label) : SameAt i m (matchLabel side m e) := by
  have hother : ∀ {l k}, bearer l m.tracks = some k → l ≠ u.label → k ≠ i := by
    rintro l k hk hne rfl
    obtain ⟨t, ht, rfl⟩ := bearer_some hk
    exact hne (by rw [Option.some.inj (ht.symm.trans hu)])
  obtain h | ⟨k, hk, -, h⟩ | ⟨l, k, -, hfl, hk, -, h⟩ | h := matchLabel_cases side m e <;> rw [h]
  · exact .refl i m
  · exact sameAt_match (hother hk hl) _
  · exact sameAt_relabel (hother hk fun hlu => hf (hlu ▸ hfl)) _ _
  · exact .refl i m

/-- A place that is matched is left alone (R79). -/
theorem matchLabel_sameAt_of_matched {j : Nat} (hj : (j, i) ∈ m.matched) (e : EdgeEntry × Nat) :
    SameAt i m (matchLabel side m e) := by
  have hother : ∀ {k}, mayMatch side m k = true → k ≠ i := fun hm hk => mayMatch_unmatched hm _ hj hk.symm
  obtain h | ⟨k, -, hm, h⟩ | ⟨l, k, -, -, -, hm, h⟩ | h := matchLabel_cases side m e <;> rw [h]
  · exact .refl i m
  · exact sameAt_match (hother hm) _
  · exact sameAt_relabel (hother hm) _ _
  · exact .refl i m

theorem adopt_sameAt {p : Nat × Nat} (hp : p.2 ≠ i) : SameAt i m (adopt es m p) := by
  obtain h | h | ⟨e, -, h⟩ := adopt_cases es m p <;> rw [h]
  · exact .refl i m
  · exact sameAt_match hp _
  · exact sameAt_relabel hp _ e

theorem matchLabels_sameAt_of_unnamed {u : Track} {xs : List (EdgeEntry × Nat)}
    (hxs : ∀ x ∈ xs, x.1.label ≠ u.label ∧ x.1.former ≠ some u.label) (hu : m.tracks[i]? = some u) :
    SameAt i m (xs.foldl (matchLabel side) m) := by
  induction xs generalizing m with
  | nil => exact .refl i m
  | cons x xs ih =>
    obtain ⟨hl, hf⟩ := hxs x (by simp)
    have hx := matchLabel_sameAt_of_unnamed (side := side) hu hl hf
    exact hx.trans (ih (fun y hy => hxs y (by simp [hy])) (hx.1.trans hu))

theorem matchLabels_sameAt_of_matched {j : Nat} (xs : List (EdgeEntry × Nat)) (hj : (j, i) ∈ m.matched) :
    SameAt i m (xs.foldl (matchLabel side) m) := by
  induction xs generalizing m with
  | nil => exact .refl i m
  | cons x xs ih =>
    have hx := matchLabel_sameAt_of_matched (side := side) hj x
    exact hx.trans (ih ((hx.2 j).2 hj))

theorem adopts_sameAt {ps : List (Nat × Nat)} (hps : ∀ p ∈ ps, p.2 ≠ i) : SameAt i m (ps.foldl (adopt es) m) := by
  induction ps generalizing m with
  | nil => exact .refl i m
  | cons p ps ih => exact (adopt_sameAt (hps p (by simp))).trans (ih fun q hq => hps q (by simp [hq]))

/-! ## Labels that stay unborne -/

theorem mem_modify_relabel {e : EdgeEntry} {k : Nat} {t : Track} (h : t ∈ ts.modify k (Track.relabel e)) :
    t ∈ ts ∨ t.label = e.label := by
  obtain ⟨j, hj⟩ := List.mem_iff_getElem?.1 h
  rw [List.getElem?_modify] at hj
  obtain ⟨u, hu, hut⟩ := Option.map_eq_some_iff.1 hj
  split at hut
  · exact .inr (by rw [← hut]; rfl)
  · exact .inl (hut ▸ List.mem_of_getElem? hu)

theorem matchLabel_unborne {l : Label} (h : ∀ t ∈ m.tracks, t.label ≠ l) {e : EdgeEntry × Nat} (he : e.1.label ≠ l) :
    ∀ t ∈ (matchLabel side m e).tracks, t.label ≠ l := by
  obtain h' | ⟨k, -, -, h'⟩ | ⟨l', k, -, -, -, -, h'⟩ | h' := matchLabel_cases side m e <;> rw [h']
  · exact h
  · exact h
  · intro t ht
    rcases mem_modify_relabel ht with ht | ht
    · exact h t ht
    · rw [ht]; exact he
  · exact h

theorem matchLabels_unborne {l : Label} {xs : List (EdgeEntry × Nat)} (hxs : ∀ x ∈ xs, x.1.label ≠ l)
    (h : ∀ t ∈ m.tracks, t.label ≠ l) : ∀ t ∈ (xs.foldl (matchLabel side) m).tracks, t.label ≠ l := by
  induction xs generalizing m with
  | nil => exact h
  | cons x xs ih => exact ih (fun y hy => hxs y (by simp [hy])) (matchLabel_unborne h (hxs x (by simp)))

theorem adopt_unborne {l : Label} (h : ∀ t ∈ m.tracks, t.label ≠ l) {p : Nat × Nat}
    (hp : ∀ e, es[p.1]? = some e → e.label ≠ l) : ∀ t ∈ (adopt es m p).tracks, t.label ≠ l := by
  obtain h' | h' | ⟨e, he, h'⟩ := adopt_cases es m p <;> rw [h']
  · exact h
  · exact h
  · intro t ht
    rcases mem_modify_relabel ht with ht | ht
    · exact h t ht
    · rw [ht]; exact hp e he

theorem adopts_unborne {l : Label} {ps : List (Nat × Nat)} (hps : ∀ p ∈ ps, ∀ e, es[p.1]? = some e → e.label ≠ l)
    (h : ∀ t ∈ m.tracks, t.label ≠ l) : ∀ t ∈ (ps.foldl (adopt es) m).tracks, t.label ≠ l := by
  induction ps generalizing m with
  | nil => exact h
  | cons p ps ih => exact ih (fun q hq => hps q (by simp [hq])) (adopt_unborne h (hps p (by simp)))

/-! ## The two phases -/

/-- Phase 1 of an application: the matching after the labels (R79). -/
def labelMatching (side : Side) (es : List EdgeEntry) (ts : List Track) : Matching :=
  (considered side es).foldl (matchLabel side) { tracks := ts, matched := [], passed := [] }

/-- The position matches of phase 2, in frame order (R80, R82). -/
def positionPairs (c : Settings) (side : Side) (m : Matching) : List (Nat × Nat) :=
  inFrameOrder ((assign (linkCandidates c side m)).map fun k => (k.other, k.track))

theorem matchEntries_eq (c : Settings) (side : Side) (es : List EdgeEntry) (ts : List Track) :
    matchEntries c side es ts =
      (positionPairs c side (labelMatching side es ts)).foldl (adopt es) (labelMatching side es ts) := rfl

/-- The standing facts hold before the first entry. -/
theorem matchingSound_start (side : Side) (xs : List (EdgeEntry × Nat)) (ts : List Track) :
    MatchingSound side xs ts { tracks := ts, matched := [], passed := [] } :=
  ⟨rfl, fun _ t h => ⟨t, h, .inl rfl⟩, id, fun _ _ h _ => ⟨h, List.forall_mem_nil _⟩, List.forall_mem_nil _⟩

theorem mem_positionPairs {p : Nat × Nat} :
    p ∈ positionPairs c side m ↔ ∃ k ∈ assign (linkCandidates c side m), (k.other, k.track) = p := by
  simp [positionPairs, inFrameOrder]

theorem mem_linkCandidates_of_assign {k : Candidate} (h : k ∈ assign (linkCandidates c side m)) :
    k ∈ linkCandidates c side m := (mem_sortBy _ _ _).1 ((greedy_sublist _ _ _).subset h)

/-- A candidate pair is a track that no entry has matched (R80). -/
theorem linkCandidates_unmatched {k : Candidate} (h : k ∈ linkCandidates c side m) : ∀ p ∈ m.matched, p.2 ≠ k.track := by
  obtain ⟨⟨t, i⟩, -, h⟩ := List.mem_flatMap.1 h
  obtain ⟨⟨e, j⟩, hej, rfl⟩ := List.mem_map.1 h
  obtain ⟨-, hc⟩ := List.mem_filter.1 hej
  simp only [isLinkCandidate, Bool.and_eq_true] at hc
  simpa using hc.1.1.1.2

/-- A position match is of an unlinked track that no entry has matched, and of an entry passed on (R80). -/
theorem positionPairs_spec {p : Nat × Nat} (h : p ∈ positionPairs c side m) :
    (∃ t, m.tracks[p.2]? = some t ∧ t.link = none) ∧ (∀ q ∈ m.matched, q.2 ≠ p.2) ∧ ∃ e, (e, p.1) ∈ m.passed := by
  obtain ⟨k, hk, rfl⟩ := mem_positionPairs.1 h
  have hk := mem_linkCandidates_of_assign hk
  obtain ⟨ht, he⟩ := linkCandidates_spec hk
  exact ⟨ht, linkCandidates_unmatched hk, he⟩

/-- No two position matches share an entry or a track (R80). -/
theorem positionPairs_nodup (c : Settings) (side : Side) (m : Matching) :
    ((positionPairs c side m).map (·.1)).Nodup ∧ ((positionPairs c side m).map (·.2)).Nodup := by
  have hperm := sortBy_perm (fun p : Nat × Nat => [(p.1 : Int)])
    ((assign (linkCandidates c side m)).map fun k => (k.other, k.track))
  have hapart := greedy_disjoint (sortBy Candidate.key (linkCandidates c side m)) [] []
  refine ⟨(hperm.map _).nodup_iff.2 ?_, (hperm.map _).nodup_iff.2 ?_⟩ <;> rw [List.map_map]
  · exact List.pairwise_map.2 (hapart.imp fun h => h.2)
  · exact List.pairwise_map.2 (hapart.imp fun h => h.1)

/-- Position matching leaves a place alone that it does not pair. -/
theorem matchEntries_sameAt (h : ∀ p ∈ positionPairs c side (labelMatching side es ts), p.2 ≠ i) :
    SameAt i (labelMatching side es ts) (matchEntries c side es ts) := adopts_sameAt h

/-! ## Each place is matched once -/

theorem matchLabel_places_nodup (h : (m.matched.map (·.2)).Nodup) (e : EdgeEntry × Nat) :
    ((matchLabel side m e).matched.map (·.2)).Nodup := by
  have hadd : ∀ {k}, mayMatch side m k = true → ((m.matched ++ [(e.2, k)]).map (·.2)).Nodup := by
    intro k hm
    rw [List.map_append, List.map_singleton, ← List.concat_eq_append]
    refine h.concat fun hk => ?_
    obtain ⟨p, hp, hpk⟩ := List.mem_map.1 hk
    exact mayMatch_unmatched hm p hp hpk
  obtain h' | ⟨k, -, hm, h'⟩ | ⟨l, k, -, -, -, hm, h'⟩ | h' := matchLabel_cases side m e <;> rw [h']
  · exact h
  · exact hadd hm
  · exact hadd hm
  · exact h

theorem matchLabels_places_nodup (xs : List (EdgeEntry × Nat)) (h : (m.matched.map (·.2)).Nodup) :
    ((xs.foldl (matchLabel side) m).matched.map (·.2)).Nodup := by
  induction xs generalizing m with
  | nil => exact h
  | cons x xs ih => exact ih (matchLabel_places_nodup h x)

/-- The matches that adoption accepts follow those before, in their order (R81). -/
theorem adopts_matched (ps : List (Nat × Nat)) (m : Matching) :
    ∃ taken, taken.Sublist ps ∧ (ps.foldl (adopt es) m).matched = m.matched ++ taken := by
  induction ps generalizing m with
  | nil => exact ⟨[], .refl _, by simp⟩
  | cons p ps ih =>
    obtain ⟨taken, hsub, htaken⟩ := ih (adopt es m p)
    obtain h | h | ⟨e, -, h⟩ := adopt_cases es m p <;> rw [List.foldl_cons, htaken, h]
    · exact ⟨taken, hsub.cons p, rfl⟩
    · exact ⟨p :: taken, hsub.cons_cons p, by simp⟩
    · exact ⟨p :: taken, hsub.cons_cons p, by simp⟩

/-- No two matches of an application share a track (R79, R80). -/
theorem matchEntries_places_nodup (c : Settings) (side : Side) (es : List EdgeEntry) (ts : List Track) :
    ((matchEntries c side es ts).matched.map (·.2)).Nodup := by
  have hlabels : ((labelMatching side es ts).matched.map (·.2)).Nodup := matchLabels_places_nodup _ List.nodup_nil
  obtain ⟨taken, hsub, htaken⟩ := adopts_matched (es := es) (positionPairs c side (labelMatching side es ts))
    (labelMatching side es ts)
  rw [matchEntries_eq, htaken, List.map_append]
  refine List.nodup_append.2 ⟨hlabels, (positionPairs_nodup _ _ _).2.sublist (hsub.map _), fun a ha b hb hab => ?_⟩
  obtain ⟨p, hp, rfl⟩ := List.mem_map.1 ha
  obtain ⟨q, hq, rfl⟩ := List.mem_map.1 hb
  exact (positionPairs_spec (hsub.subset hq)).2.1 p hp hab

/-! ## Outcomes at a place -/

/-- The considered entries stand in frame order (R79). -/
theorem considered_sorted (side : Side) (es : List EdgeEntry) : (considered side es).Pairwise fun p q => p.2 < q.2 := by
  refine List.Pairwise.filter _ ?_
  rw [← List.pairwise_map (f := Prod.snd) (R := (· < ·)), List.zipIdx_map_snd]
  exact List.pairwise_lt_range'

/-- The first entry to name a track by its label, or by its former label with its own label unborne, is matched to it: `w` is
the track as the match leaves it (R77, R79). -/
theorem matchEntries_of_named {u w : Track} {x : EdgeEntry} {j : Nat} (c : Settings) (hn : (ts.map (·.label)).Nodup)
    (hu : ts[i]? = some u) (hl : u.link ≠ some (opposite side)) (hx : (x, j) ∈ considered side es)
    (hfirst : ∀ q ∈ considered side es, q.2 < j →
      q.1.label ≠ x.label ∧ q.1.label ≠ u.label ∧ q.1.former ≠ some u.label)
    (hw : x.label = u.label ∧ w = u
      ∨ x.former = some u.label ∧ (∀ t ∈ ts, t.label ≠ x.label) ∧ w = u.relabel x) :
    (matchEntries c side es ts).tracks[i]? = some w ∧ (j, i) ∈ (matchEntries c side es ts).matched := by
  obtain ⟨before, after, hsplit⟩ := List.append_of_mem hx
  have hbefore : ∀ q ∈ before, q ∈ considered side es ∧ q.2 < j := by
    intro q hq
    have hsorted := considered_sorted side es
    rw [hsplit] at hsorted ⊢
    exact ⟨by simp [hq], (List.pairwise_append.1 hsorted).2.2 q hq (x, j) (by simp)⟩
  have hunnamed := fun q hq => hfirst q (hbefore q hq).1 (hbefore q hq).2
  -- the place when the entry's turn comes: untouched, with its label its own
  have hturn := matchLabels_sameAt_of_unnamed (side := side) (i := i) (m := { tracks := ts, matched := [], passed := [] })
    (fun q hq => (hunnamed q hq).2) hu
  have hsound := matchLabels_sound before _ (matchingSound_start side (considered side es) ts)
    fun q hq => (hbefore q hq).1
  have hunborne : (∀ t ∈ ts, t.label ≠ x.label) → ∀ t ∈ (before.foldl (matchLabel side)
      { tracks := ts, matched := [], passed := [] }).tracks, t.label ≠ x.label :=
    matchLabels_unborne (m := { tracks := ts, matched := [], passed := [] }) fun q hq => (hunnamed q hq).1
  have hphase : labelMatching side es ts = after.foldl (matchLabel side) (matchLabel side
      (before.foldl (matchLabel side) { tracks := ts, matched := [], passed := [] }) (x, j)) := by
    rw [labelMatching, hsplit, List.foldl_append, List.foldl_cons]
  generalize before.foldl (matchLabel side) { tracks := ts, matched := [], passed := [] } = m at *
  have hui : m.tracks[i]? = some u := hturn.1.trans hu
  have hbearer : bearer u.label m.tracks = some i := bearer_of_nodup (hsound.nodup hn) hui
  have hmay : mayMatch side m i = true :=
    (mayMatch_iff hui).2 ⟨hl, fun p hp hpi => List.not_mem_nil ((hturn.2 p.1).1 (hpi ▸ hp))⟩
  -- the match, and then nothing more at this place
  have hmatched : (matchLabel side m (x, j)).tracks[i]? = some w ∧ (j, i) ∈ (matchLabel side m (x, j)).matched := by
    rcases hw with ⟨hxu, rfl⟩ | ⟨hxf, hxb, rfl⟩
    · have hmatch : matchLabel side m (x, j) = { m with matched := m.matched ++ [(j, i)] } := by
        simp [matchLabel, hxu, hbearer, hmay]
      rw [hmatch]
      exact ⟨hui, by simp⟩
    · have hmatch : matchLabel side m (x, j) =
          { m with tracks := m.tracks.modify i (Track.relabel x), matched := m.matched ++ [(j, i)] } := by
        simp [matchLabel, bearer_eq_none (hunborne hxb), hxf, hbearer, hmay]
      rw [hmatch]
      exact ⟨by simp [hui], by simp⟩
  have hrest := matchLabels_sameAt_of_matched (side := side) after hmatched.2
  rw [← hphase] at hrest
  have hlabelled := (hrest.2 j).2 hmatched.2
  have hposition := matchEntries_sameAt (c := c) (es := es) (ts := ts) (side := side) (i := i)
    fun p hp hpi => (positionPairs_spec hp).2.1 _ hlabelled hpi.symm
  exact ⟨hposition.1.trans (hrest.1.trans hmatched.1), (hposition.2 j).2 hlabelled⟩

/-- A linked track that no entry names is left alone (R79, R80). -/
theorem matchEntries_of_unnamed {u : Track} (c : Settings) (hu : ts[i]? = some u) (hl : u.link ≠ none)
    (hes : ∀ q ∈ considered side es, q.1.label ≠ u.label ∧ q.1.former ≠ some u.label) :
    (matchEntries c side es ts).tracks[i]? = some u ∧ ∀ p ∈ (matchEntries c side es ts).matched, p.2 ≠ i := by
  have hlabels : SameAt i _ (labelMatching side es ts) :=
    matchLabels_sameAt_of_unnamed (m := { tracks := ts, matched := [], passed := [] }) hes hu
  have hposition := matchEntries_sameAt (c := c) (es := es) (ts := ts) (side := side) (i := i) fun p hp hpi => by
    obtain ⟨⟨t, ht, hlink⟩, -⟩ := positionPairs_spec hp
    rw [hpi, hlabels.1.trans hu] at ht
    exact hl (Option.some.inj ht ▸ hlink)
  have hsame := hlabels.trans hposition
  exact ⟨hsame.1.trans hu, fun p hp hpi => List.not_mem_nil ((hsame.2 p.1).1 (hpi ▸ hp))⟩

/-- Entries that name no track are all passed on (R79). -/
theorem matchLabels_of_unborne {xs : List (EdgeEntry × Nat)}
    (h : ∀ q ∈ xs, ∀ w ∈ m.tracks, q.1.label ≠ w.label ∧ q.1.former ≠ some w.label) :
    xs.foldl (matchLabel side) m = { m with passed := m.passed ++ xs } := by
  induction xs generalizing m with
  | nil => simp
  | cons x xs ih =>
    have hlabel : bearer x.1.label m.tracks = none :=
      bearer_eq_none fun w hw hwx => (h x (by simp) w hw).1 hwx.symm
    have hformer : (x.1.former.bind fun l => bearer l m.tracks) = none :=
      Option.bind_eq_none_iff.2 fun l hl => bearer_eq_none fun w hw hwl => (h x (by simp) w hw).2 (hwl ▸ hl)
    have hstep : matchLabel side m x = { m with passed := m.passed ++ [x] } := by simp [matchLabel, hlabel, hformer]
    rw [List.foldl_cons, hstep, ih (m := { m with passed := m.passed ++ [x] }) fun q hq => h q (by simp [hq])]
    simp

theorem labelMatching_of_unborne
    (h : ∀ q ∈ considered side es, ∀ w ∈ ts, q.1.label ≠ w.label ∧ q.1.former ≠ some w.label) :
    labelMatching side es ts = ⟨ts, [], considered side es⟩ := by
  rw [labelMatching, matchLabels_of_unborne h, List.nil_append]

/-- A position match of an entry whose label no track bears takes its track, which adopts an older label (R81). -/
theorem adopts_of_pair {ps : List (Nat × Nat)} {j : Nat} {x : EdgeEntry} {u : Track} (hps : (ps.map (·.2)).Nodup)
    (hp : (j, i) ∈ ps) (hx : es[j]? = some x) (hu : m.tracks[i]? = some u) (hb : ∀ t ∈ m.tracks, t.label ≠ x.label)
    (hlabels : ∀ p ∈ ps, p.1 ≠ j → ∀ e, es[p.1]? = some e → e.label ≠ x.label) (hone : ∀ p ∈ ps, p.1 = j → p.2 = i) :
    (ps.foldl (adopt es) m).tracks[i]? = some (if entryOlder x u then u.relabel x else u)
      ∧ (j, i) ∈ (ps.foldl (adopt es) m).matched := by
  obtain ⟨before, after, rfl⟩ := List.append_of_mem hp
  rw [List.map_append, List.map_cons, List.nodup_append, List.nodup_cons] at hps
  obtain ⟨-, ⟨hafter, -⟩, hbefore⟩ := hps
  have hbefore' : ∀ p ∈ before, p.2 ≠ i := fun p hp => hbefore _ (List.mem_map_of_mem hp) _ (by simp)
  have hturn := adopts_sameAt (es := es) (m := m) hbefore'
  have hunborne := adopts_unborne (es := es) (m := m) (ps := before) (fun p hp =>
    hlabels p (by simp [hp]) fun hpj => hbefore' p hp (hone p (by simp [hp]) hpj)) hb
  rw [List.foldl_append, List.foldl_cons]
  generalize before.foldl (adopt es) m = m' at *
  have hui := hturn.1.trans hu
  have hfree : borne x.label m'.tracks = false := by
    simpa [borne] using hunborne
  have hrest := adopts_sameAt (es := es) (m := adopt es m' (j, i)) (i := i) (ps := after)
    fun p hp hpi => hafter (List.mem_map.2 ⟨p, hp, hpi⟩)
  rw [hrest.1, hrest.2]
  by_cases hold : entryOlder x u = true
  · simp [adopt, hx, hui, hold, hfree]
  · simp [adopt, hx, hui, hold]

/-- Where no entry names a track, position matching settles the pairs (R80, R81): `k` is one of them. -/
theorem matchEntries_of_pair {u : Track} {x : EdgeEntry} {k : Candidate}
    (hd : ((considered side es).map (·.1.label)).Nodup)
    (h : ∀ q ∈ considered side es, ∀ w ∈ ts, q.1.label ≠ w.label ∧ q.1.former ≠ some w.label)
    (hk : k ∈ assign (linkCandidates c side ⟨ts, [], considered side es⟩)) (hu : ts[k.track]? = some u)
    (hx : es[k.other]? = some x) :
    (matchEntries c side es ts).tracks[k.track]? = some (if entryOlder x u then u.relabel x else u)
      ∧ (k.other, k.track) ∈ (matchEntries c side es ts).matched := by
  have hcons : ∀ p ∈ positionPairs c side ⟨ts, [], considered side es⟩, ∀ e, es[p.1]? = some e →
      (e, p.1) ∈ considered side es := by
    intro p hp e he
    obtain ⟨-, -, e', he'⟩ := positionPairs_spec hp
    have hee := (considered_spec he').1.symm.trans he
    exact Option.some.inj hee ▸ he'
  have hmem := mem_positionPairs.2 ⟨k, hk, rfl⟩
  obtain ⟨hentries, hplaces⟩ := positionPairs_nodup c side ⟨ts, [], considered side es⟩
  rw [matchEntries_eq, labelMatching_of_unborne h]
  refine adopts_of_pair hplaces hmem hx hu (fun t ht htx => (h _ (hcons _ hmem x hx) t ht).1 htx.symm)
    (fun p hp hpk e he hex => ?_) fun p hp hpk => ?_
  · have hsame := List.inj_on_of_nodup_map hd (hcons p hp e he) (hcons _ hmem x hx) hex
    exact hpk (Prod.mk.inj hsame).2
  · exact (Prod.mk.inj (List.inj_on_of_nodup_map hentries hp hmem hpk)).2

/-- Where no entry names a track, one that no position match takes is left alone (R80). -/
theorem matchEntries_of_unpaired {u : Track}
    (h : ∀ q ∈ considered side es, ∀ w ∈ ts, q.1.label ≠ w.label ∧ q.1.former ≠ some w.label)
    (hk : ∀ k ∈ assign (linkCandidates c side ⟨ts, [], considered side es⟩), k.track ≠ i) (hu : ts[i]? = some u) :
    (matchEntries c side es ts).tracks[i]? = some u ∧ ∀ p ∈ (matchEntries c side es ts).matched, p.2 ≠ i := by
  have hlabels := labelMatching_of_unborne h
  have hsame := matchEntries_sameAt (c := c) (es := es) (ts := ts) (side := side) (i := i) fun p hp => by
    rw [hlabels] at hp
    obtain ⟨k, hk', rfl⟩ := mem_positionPairs.1 hp
    exact hk k hk'
  rw [hlabels] at hsame
  exact ⟨hsame.1.trans hu, fun p hp hpi => List.not_mem_nil ((hsame.2 p.1).1 (hpi ▸ hp))⟩

end Sys2Proof.Machine

/-! EDGE_APPLICATION (R78): a track that an operation reaches once is what the operation makes of it at a moment of the command,
so what the matching says of a place (R79 to R81) gives its settlement (R82), its absence (R88) or nothing. -/

namespace Sys2Proof.Machine

variable {s s' b m t : State} {i : Nat}

/-! ## Operations that reach a place once -/

/-- From one moment to a later one within the service of an application (R78). -/
abbrev Reaches (s s' : State) : Prop := TracksFootprint (fun _ => True) s s'

/-- The track `v` is what `f` makes at a moment between `b` and `t`. -/
def MadeBetween (b t : State) (f : State → Track × State) (v : Track) : Prop :=
  ∃ m, Reaches b m ∧ Reaches m (f m).2 ∧ Reaches (f m).2 t ∧ v = (f m).1

theorem MadeBetween.reaches {f : State → Track × State} {v : Track} (h : MadeBetween m t f v) (hb : Reaches b m)
    (ht : Reaches t s') : MadeBetween b s' f v := by
  obtain ⟨k, hmk, hf, hkt, hv⟩ := h
  exact ⟨k, hb.trans hmk, hf, hkt.trans ht, hv⟩

section Fold

variable {α : Type} {place : α → Nat} {op : α → Track → State → Track × State}
  (hop : ∀ x t s, QueueFootprint (fun _ => True) s (op x t s).2)

include hop

/-- Operations at other places leave a track as it was. -/
theorem foldl_updateTrack_other {xs : List α} {u : Track} (hu : s.tt.tracks[i]? = some u) (hxs : ∀ x ∈ xs, place x ≠ i) :
    Reaches s (xs.foldl (fun s x => s.updateTrack (place x) (op x)) s)
      ∧ (xs.foldl (fun s x => s.updateTrack (place x) (op x)) s).tt.tracks[i]? = some u := by
  obtain ⟨hfoot, -, -, hplaces⟩ := foldl_updateTrack (P := fun _ => True) (R := fun _ _ => True) (I := fun _ => True)
    (fun _ => trivial) (fun _ _ _ _ _ => trivial) place op xs s (fun _ _ => trivial)
    fun x _ t s' _ _ _ => ⟨hop x t s', trivial, trivial⟩
  obtain ⟨v, hv, -, hvu⟩ := hplaces i u hu
  exact ⟨hfoot, hvu hxs ▸ hv⟩

/-- Of operations at different places, each makes its track at its moment. -/
theorem foldl_updateTrack_once {xs : List α} {x : α} {u : Track} (hx : x ∈ xs) (hn : (xs.map place).Nodup)
    (hu : s.tt.tracks[place x]? = some u) :
    ∃ v, (xs.foldl (fun s x => s.updateTrack (place x) (op x)) s).tt.tracks[place x]? = some v
      ∧ MadeBetween s (xs.foldl (fun s x => s.updateTrack (place x) (op x)) s) (op x u) v := by
  obtain ⟨before, after, rfl⟩ := List.append_of_mem hx
  rw [List.map_append, List.map_cons, List.nodup_append, List.nodup_cons] at hn
  obtain ⟨-, ⟨hafter, -⟩, hbefore⟩ := hn
  rw [List.foldl_append, List.foldl_cons]
  obtain ⟨hreach, hm⟩ := foldl_updateTrack_other hop (xs := before) hu
    fun y hy => hbefore _ (List.mem_map_of_mem hy) _ (by simp)
  generalize before.foldl (fun s x => s.updateTrack (place x) (op x)) s = m at *
  have hmade : m.updateTrack (place x) (op x)
      = (op x u m).2.withTracks ((op x u m).2.tt.tracks.set (place x) (op x u m).1) := by
    simp [State.updateTrack, hm]
  obtain ⟨-, -, hplace⟩ := updateTrack_spec (i := place x) (f := op x) fun t _ => hop x t m
  have hv : (m.updateTrack (place x) (op x)).tt.tracks[place x]? = some (op x u m).1 := by
    rw [hplace, if_pos rfl, hm]; rfl
  obtain ⟨hreach', hv'⟩ := foldl_updateTrack_other hop (xs := after) hv fun y hy hyx => hafter (hyx ▸ List.mem_map_of_mem hy)
  refine ⟨_, hv', m, hreach, (hop x u m).tracks, ?_, rfl⟩
  exact TracksFootprint.trans (hmade ▸ withTracks_footprint _ _ _) hreach'

end Fold

theorem countAbsence_reaches (t : Track) (s : State) : QueueFootprint (fun _ => True) s (countAbsence t s).2 :=
  countAbsence_footprint fun _ _ _ _ => trivial

theorem settle_reaches (side : Side) (r : EdgeReport) (e : EdgeEntry) (t : Track) (s : State) :
    QueueFootprint (fun _ => True) s (settle side r e t s).2 := settle_footprint side r e fun _ _ _ _ => trivial

/-! ## Settlement and absence at a place (R82, R88) -/

/-- The operation of one match on its track (R82). -/
def settleAt (side : Side) (r : EdgeReport) (p : Nat × Nat) (t : Track) (s : State) : Track × State :=
  match r.entries[p.1]? with
  | some e => settle side r e t s
  | none => (t, s)

theorem settleAt_reaches (side : Side) (r : EdgeReport) (p : Nat × Nat) (t : Track) (s : State) :
    QueueFootprint (fun _ => True) s (settleAt side r p t s).2 := by
  unfold settleAt
  split
  · exact settle_reaches side r _ t s
  · exact .refl _ s

theorem settlePair_fold (side : Side) (r : EdgeReport) (ps : List (Nat × Nat)) (s : State) :
    ps.foldl (settlePair side r) s = ps.foldl (fun s p => s.updateTrack p.2 (settleAt side r p)) s :=
  List.foldl_ext _ _ _ fun s p _ => settlePair_eq side r s p

/-- No track stands twice among the linked ones (R88). -/
theorem linkedPlaces_nodup (side : Side) (ts : List Track) : (linkedPlaces side ts).Nodup := by
  unfold linkedPlaces
  refine (((sortBy_perm _ _).map _).nodup_iff).2 (List.Nodup.sublist (List.filter_sublist.map _) ?_)
  rw [List.zipIdx_map_snd]
  exact List.nodup_range'

/-- The work of a CLOSE report after its matching (R82, R88). -/
def settleAndCount (side : Side) (r : EdgeReport) (m : Matching) (s : State) : State :=
  countAbsences side m.matched ((inFrameOrder m.matched).foldl (settlePair side r) (s.withTracks m.tracks))

section Places

variable {side : Side} {r : EdgeReport} {k : Matching} {w : Track}

/-- A matched track is settled at its moment, and nothing else happens to it (R82). -/
theorem settleAndCount_of_matched {j : Nat} {e : EdgeEntry} (hn : (k.matched.map (·.2)).Nodup) (hj : (j, i) ∈ k.matched)
    (he : r.entries[j]? = some e) (hw : k.tracks[i]? = some w) :
    ∃ v, (settleAndCount side r k b).tt.tracks[i]? = some v
      ∧ MadeBetween b (settleAndCount side r k b) (settle side r e w) v := by
  have hop : settleAt side r (j, i) = settle side r e := by funext t s; simp [settleAt, he]
  have hmem : (j, i) ∈ inFrameOrder k.matched := by simpa [inFrameOrder] using hj
  have hplaces : ((inFrameOrder k.matched).map (·.2)).Nodup := ((sortBy_perm _ k.matched).map _).nodup_iff.2 hn
  obtain ⟨v, hv, hmade⟩ := foldl_updateTrack_once (settleAt_reaches side r) (s := b.withTracks k.tracks) hmem hplaces hw
  rw [← settlePair_fold, hop] at hmade
  rw [← settlePair_fold] at hv
  unfold settleAndCount countAbsences
  generalize (inFrameOrder k.matched).foldl (settlePair side r) (b.withTracks k.tracks) = m at *
  obtain ⟨hrest, hv'⟩ := foldl_updateTrack_other (place := id) (op := fun _ => countAbsence)
    (fun _ => countAbsence_reaches) (xs := (linkedPlaces side m.tt.tracks).filter fun i => !(k.matched.any fun p => p.2 == i))
    hv fun y hy hyi => by
      have hfree := (List.mem_filter.1 hy).2
      simp only [Bool.not_eq_true', List.any_eq_false, beq_iff_eq] at hfree
      exact hfree _ hj hyi.symm
  exact ⟨v, hv', hmade.reaches (withTracks_footprint _ _ _) hrest⟩

/-- A track that is not matched is not settled; it comes to the absences as it was (R82, R88). -/
theorem settle_of_unmatched (hfree : ∀ p ∈ k.matched, p.2 ≠ i) (hw : k.tracks[i]? = some w) :
    Reaches (b.withTracks k.tracks) ((inFrameOrder k.matched).foldl (settlePair side r) (b.withTracks k.tracks))
      ∧ ((inFrameOrder k.matched).foldl (settlePair side r) (b.withTracks k.tracks)).tt.tracks[i]? = some w := by
  rw [settlePair_fold]
  exact foldl_updateTrack_other (settleAt_reaches side r) (s := b.withTracks k.tracks) hw
    fun p hp => hfree p (by simpa [inFrameOrder] using hp)

/-- A track that is neither matched nor linked to the sender stays as it was (R82, R88). -/
theorem settleAndCount_of_unlinked (hfree : ∀ p ∈ k.matched, p.2 ≠ i) (hw : k.tracks[i]? = some w)
    (hl : w.link ≠ some side) : (settleAndCount side r k b).tt.tracks[i]? = some w := by
  obtain ⟨-, hw'⟩ := settle_of_unmatched (side := side) (r := r) (b := b) hfree hw
  unfold settleAndCount countAbsences
  generalize (inFrameOrder k.matched).foldl (settlePair side r) (b.withTracks k.tracks) = m at *
  refine (foldl_updateTrack_other (place := id) (op := fun _ => countAbsence) (fun _ => countAbsence_reaches) hw'
    fun y hy hyi => ?_).2
  obtain ⟨x, hx, hlx⟩ := mem_linkedPlaces (List.mem_filter.1 hy).1
  obtain rfl : y = i := hyi
  exact hl (Option.some.inj (hx.symm.trans hw') ▸ hlx)

/-- A track linked to the sender that is not matched counts its absence at its moment (R88). -/
theorem settleAndCount_of_absent (hfree : ∀ p ∈ k.matched, p.2 ≠ i) (hw : k.tracks[i]? = some w)
    (hl : w.link = some side) : ∃ v, (settleAndCount side r k b).tt.tracks[i]? = some v
      ∧ MadeBetween b (settleAndCount side r k b) (countAbsence w) v := by
  obtain ⟨hreach, hw'⟩ := settle_of_unmatched (side := side) (r := r) (b := b) hfree hw
  unfold settleAndCount countAbsences
  generalize (inFrameOrder k.matched).foldl (settlePair side r) (b.withTracks k.tracks) = m at *
  have hmem : i ∈ (linkedPlaces side m.tt.tracks).filter fun i => !(k.matched.any fun p => p.2 == i) :=
    List.mem_filter.2 ⟨linkedPlaces_mem hw' hl, by simpa using hfree⟩
  obtain ⟨v, hv, hmade⟩ := foldl_updateTrack_once (place := id) (op := fun _ => countAbsence)
    (fun _ => countAbsence_reaches) hmem (by simpa using (linkedPlaces_nodup side m.tt.tracks).filter _) hw'
  exact ⟨v, hv, hmade.reaches ((withTracks_footprint _ _ _).trans hreach) (.refl _ _)⟩

end Places

/-! ## Moments of the command (R120) -/

/-- What is made between the taking of an application and its end is made at a moment of the command. -/
theorem dealt_of_madeBetween {f : State → Track × State} {v : Track} (hrq : b.rq = s.rq) (hrca : b.rca = s.rca)
    (hdu : b.du = s.du) (hwau : b.wau = s.wau) (h : MadeBetween b t f v) : Dealt s t.served f v := by
  have hmoment : ∀ m, Reaches b m → Reaches m t → Moment s m t.served := by
    intro m hbm hmt
    obtain ⟨new, hnew, -⟩ := hbm.1.records
    obtain ⟨new', hnew', -⟩ := hmt.1.records
    have hrecords : m.rq.records = s.rq.records ++ new := by rw [← hrq]; exact hnew
    have hrecords' : t.rq.records = m.rq.records ++ new' := hnew'
    exact ⟨hmt.now.symm, hbm.1.slot.trans (congrArg Rca.slot hrca), hbm.1.node.trans (congrArg Rca.node hrca),
      hbm.1.settings.trans (congrArg (fun r => r.runSettings.map (·.settings)) hrca), hbm.1.du.trans hdu,
      hbm.1.wau.trans hwau, by rw [State.served_tt, hmt.2], by rw [State.served_tt, hmt.2],
      hbm.1.pastLimit.trans (congrArg Rq.pastLimit hrq), hrecords ▸ List.prefix_append _ _,
      by rw [State.served_rq, hrecords']; exact List.prefix_append _ _⟩
  obtain ⟨m, hbm, hf, hft, hv⟩ := h
  exact ⟨m, hmoment m hbm (hf.trans hft), hmoment _ (hbm.trans hf) hft, hv⟩

/-! ## Held records and the records that enter (R92) -/

/-- Every record a track holds was held in the table `ts`. -/
def HoldsFrom (ts : List Track) (t : Track) : Prop := ∀ r ∈ t.held, ∃ u ∈ ts, ∃ r' ∈ u.held, r.gpi = r'.gpi

/-- A record that entered at an instant for a gauge point of which the table `ts` held a record. -/
def EnteredFrom (ts : List Track) (now : Nat) (q : QueuedRecord) : Prop :=
  q.entered = now ∧ ∃ u ∈ ts, ∃ r ∈ u.held, q.record.gpi = r.gpi

theorem roleOutcome_held (n : Nat) (e : EdgeEntry) (u : Track) (s : State) :
    ∀ x ∈ (roleOutcome n e u s).1.held, x ∈ u.held := by
  have htaken : ∀ start, ∀ x ∈ (takeOver start u s).1.held, x ∈ u.held := by
    intro start x hx; rw [takeOver_track] at hx; exact absurd hx List.not_mem_nil
  unfold roleOutcome
  simp only
  split
  · split
    · exact fun _ => id
    · exact fun x hx => absurd hx List.not_mem_nil
  · exact fun _ => id
  · exact fun _ => id
  · exact fun _ => id
  · exact htaken _
  · split
    · exact htaken _
    · exact fun _ => id
  · exact fun _ => id
  · exact fun _ => id
  · split
    · exact htaken _
    · exact fun _ => id

theorem countAbsence_held (u : Track) (s : State) : ∀ x ∈ (countAbsence u s).1.held, x ∈ u.held := by
  obtain ⟨howner, hother⟩ := dissolve_track u s
  unfold countAbsence
  split
  · by_cases hr : u.role = .owner
    · rw [howner hr]; exact fun _ => id
    · rw [hother hr]; exact fun x hx => absurd hx List.not_mem_nil
  · exact fun _ => id

/-- What a CLOSE report does to the table as a whole, with the records it enters (R78). -/
theorem settleAndCount_spec (c : Settings) (side : Side) (r : EdgeReport) (b : State) :
    TracksFootprint (EnteredFrom b.tt.tracks b.now) b (settleAndCount side r (matchEntries c side r.entries b.tt.tracks) b)
      ∧ (settleAndCount side r (matchEntries c side r.entries b.tt.tracks) b).tt.tracks.length = b.tt.tracks.length
      ∧ ∀ (i : Nat) (u : Track), b.tt.tracks[i]? = some u → ∃ w v,
        (settleAndCount side r (matchEntries c side r.entries b.tt.tracks) b).tt.tracks[i]? = some v
          ∧ Relabelled ((considered side r.entries).map (·.1)) u w ∧ Kept w v
          ∧ (u.link = some (opposite side) → v = u) := by
  have hentry : ∀ (u : Track) (s' : State), s'.now = b.now → HoldsFrom b.tt.tracks u → ∀ (v : Track) (x : Record),
      v.label = u.label → x ∈ u.held → EnteredFrom b.tt.tracks b.now ⟨v.entryOf x, s'.now⟩ :=
    fun u s' hnow hu v x _ hx => ⟨hnow, hu x hx⟩
  have hself : ∀ u ∈ b.tt.tracks, HoldsFrom b.tt.tracks u := fun u hu x hx => ⟨u, hu, x, hx, rfl⟩
  have hrelabel : ∀ u w, Relabelled r.entries u w → HoldsFrom b.tt.tracks u → HoldsFrom b.tt.tracks w := by
    rintro u w (rfl | ⟨e, -, hw⟩) hu
    · exact hu
    · rw [hw]; exact hu
  have hsettle : ∀ e u s', s'.now = b.now → HoldsFrom b.tt.tracks u →
      QueueFootprint (EnteredFrom b.tt.tracks b.now) s' (settle side r e u s').2
        ∧ HoldsFrom b.tt.tracks (settle side r e u s').1 := fun e u s' hnow hu =>
    ⟨settle_footprint side r e (hentry u s' hnow hu),
      fun x hx => hu x (roleOutcome_held r.source e { u with link := some side, absent := 0 } s' x hx)⟩
  have habsence : ∀ u s', s'.now = b.now → HoldsFrom b.tt.tracks u →
      QueueFootprint (EnteredFrom b.tt.tracks b.now) s' (countAbsence u s').2
        ∧ HoldsFrom b.tt.tracks (countAbsence u s').1 := fun u s' hnow hu =>
    ⟨countAbsence_footprint (hentry u s' hnow hu), fun x hx => hu x (countAbsence_held u s' x hx)⟩
  obtain ⟨hfoot, hlength, -, -, hplaces⟩ := applyMatching_spec (c := c)
    (t := settleAndCount side r (matchEntries c side r.entries b.tt.tracks) b) hself hrelabel hsettle habsence rfl rfl rfl
  exact ⟨hfoot, hlength, hplaces⟩

end Sys2Proof.Machine

/-! EDGE_APPLICATION as a whole (R78): mismatch, heartbeat, and what a CLOSE report does to the node and to each track. -/

namespace Sys2Proof.Machine

variable {P : QueuedRecord → Prop} {s s' b t : State} {c : Settings} {side : Side} {report : EdgeReport} {i : Nat}
  {u v w : Track}

/-! ## The frame of a footprint -/

theorem QueueFootprint.rq_frame (h : QueueFootprint P s s') :
    s'.rq = { s.rq with inFrame := s'.rq.inFrame, queued := s'.rq.queued } := by
  simp only [← h.hold, ← h.pastLimit]

theorem QueueFootprint.rlc_frame (h : QueueFootprint P s s') :
    s'.rlc = { s.rlc with tx := s'.rlc.tx, edgeSlot := s'.rlc.edgeSlot } := by
  simp only [← h.carrier, ← h.reception, ← h.lastQuiet, ← h.heartbeat, ← h.leftLife, ← h.rightLife]

theorem QueueFootprint.rca_frame (h : QueueFootprint P s s') :
    s'.rca = { s.rca with latches := s'.rca.latches, clearMask := s'.rca.clearMask, status := s'.rca.status
                          counters := s'.rca.counters, alert := s'.rca.alert } := by
  simp only [← h.node, ← h.since, ← h.slot, ← h.pendingSettings, ← h.runSettings, ← h.drainTimer]

/-! ## The report as taken (R4) -/

/-- An entry with its position held within the car frame (R4). -/
def EdgeEntry.clamped (e : EdgeEntry) : EdgeEntry := { e with x := clampX e.x }

/-- Clamping changes neither which entries concern the node nor their order (R4, R79). -/
theorem considered_clamped (side : Side) (report : EdgeReport) :
    considered side report.clamped.entries = (considered side report.entries).map fun q => (q.1.clamped, q.2) := by
  show considered side (report.entries.map EdgeEntry.clamped) = _
  unfold considered
  rw [List.zipIdx_map, List.filter_map]
  rfl

theorem mem_considered_clamped {x : EdgeEntry} {j : Nat} (h : (x, j) ∈ considered side report.entries) :
    (x.clamped, j) ∈ considered side report.clamped.entries := by
  rw [considered_clamped]
  exact List.mem_map.2 ⟨(x, j), h, rfl⟩

/-- What holds of every considered entry apart from its position holds of it as taken. -/
theorem forall_considered_clamped {Q : EdgeEntry × Nat → Prop} (hQ : ∀ q, Q q → Q (q.1.clamped, q.2))
    (h : ∀ q ∈ considered side report.entries, Q q) : ∀ q ∈ considered side report.clamped.entries, Q q := by
  rw [considered_clamped]
  intro q hq
  obtain ⟨q', hq', rfl⟩ := List.mem_map.1 hq
  exact hQ q' (h q' hq')

/-! ## A CLOSE report at one place of the table -/

/-- The state after a CLOSE report from the state with the neighbour's centre taken (R78). -/
@[irreducible] def closeApplied (c : Settings) (side : Side) (report : EdgeReport) (b : State) : State :=
  settleAndCount side report.clamped (matchEntries c side report.clamped.entries b.tt.tracks) b

/-- The first entry with a track's label, or with it as former label and its own label unborne, settles that track (R79). -/
theorem closeApplied_of_named {x : EdgeEntry} {j : Nat} (hn : (b.tt.tracks.map (·.label)).Nodup)
    (hu : b.tt.tracks[i]? = some u) (hl : u.link ≠ some (opposite side)) (hx : (x, j) ∈ considered side report.entries)
    (hfirst : ∀ q ∈ considered side report.entries, q.2 < j →
      q.1.label ≠ x.label ∧ q.1.label ≠ u.label ∧ q.1.former ≠ some u.label)
    (hw : x.label = u.label ∧ w = u
      ∨ x.former = some u.label ∧ (∀ t ∈ b.tt.tracks, t.label ≠ x.label) ∧ w = u.relabel x)
    (hv : (closeApplied c side report b).tt.tracks[i]? = some v) :
    MadeBetween b (closeApplied c side report b) (settle side report x w) v := by
  unfold closeApplied at hv ⊢
  have hx' := mem_considered_clamped hx
  obtain ⟨htrack, hmatched⟩ := matchEntries_of_named c hn hu hl hx'
    (forall_considered_clamped (fun _ h => h) hfirst) hw
  obtain ⟨v', hv', hmade⟩ := settleAndCount_of_matched (r := report.clamped) (b := b)
    (matchEntries_places_nodup _ _ _ _) hmatched (considered_spec hx').1 htrack
  obtain rfl := Option.some.inj (hv'.symm.trans hv)
  exact hmade

/-- A position match settles its track, which adopts an older label, where no entry names a track (R80, R81). -/
theorem closeApplied_of_pair {x : EdgeEntry} {k : Candidate}
    (hd : ((considered side report.entries).map (·.1.label)).Nodup)
    (h : ∀ q ∈ considered side report.entries, ∀ w ∈ b.tt.tracks, q.1.label ≠ w.label ∧ q.1.former ≠ some w.label)
    (hk : k ∈ assign (linkCandidates c side
      ⟨b.tt.tracks, [], (considered side report.entries).map fun q => (q.1.clamped, q.2)⟩))
    (hu : b.tt.tracks[k.track]? = some u) (hx : report.entries[k.other]? = some x)
    (hv : (closeApplied c side report b).tt.tracks[k.track]? = some v) :
    MadeBetween b (closeApplied c side report b) (settle side report x (if entryOlder x u then u.relabel x else u)) v := by
  unfold closeApplied at hv ⊢
  have hx' : report.clamped.entries[k.other]? = some x.clamped := by
    show (report.entries.map EdgeEntry.clamped)[k.other]? = _
    rw [List.getElem?_map, hx]; rfl
  rw [← considered_clamped] at hk
  have hd' : ((considered side report.clamped.entries).map (·.1.label)).Nodup := by
    rw [considered_clamped, List.map_map]; exact hd
  obtain ⟨htrack, hmatched⟩ := matchEntries_of_pair hd' (forall_considered_clamped (fun _ h => h) h) hk hu hx'
  obtain ⟨v', hv', hmade⟩ := settleAndCount_of_matched (r := report.clamped) (b := b)
    (matchEntries_places_nodup _ _ _ _) hmatched hx' htrack
  obtain rfl := Option.some.inj (hv'.symm.trans hv)
  exact hmade

/-- An unlinked track that no position match takes stays as it was, where no entry names a track (R80). -/
theorem closeApplied_of_unpaired
    (h : ∀ q ∈ considered side report.entries, ∀ w ∈ b.tt.tracks, q.1.label ≠ w.label ∧ q.1.former ≠ some w.label)
    (hk : ∀ k ∈ assign (linkCandidates c side
      ⟨b.tt.tracks, [], (considered side report.entries).map fun q => (q.1.clamped, q.2)⟩), k.track ≠ i)
    (hu : b.tt.tracks[i]? = some u) (hl : u.link = none)
    (hv : (closeApplied c side report b).tt.tracks[i]? = some v) : v = u := by
  unfold closeApplied at hv
  rw [← considered_clamped] at hk
  obtain ⟨htrack, hfree⟩ := matchEntries_of_unpaired (forall_considered_clamped (fun _ h => h) h) hk hu
  have hu' := settleAndCount_of_unlinked (side := side) (r := report.clamped) (b := b) hfree htrack (by simp [hl])
  exact Option.some.inj (hv.symm.trans hu')

/-- A track linked to the sender that no entry names counts its absence (R88). -/
theorem closeApplied_of_absent (hu : b.tt.tracks[i]? = some u) (hl : u.link = some side)
    (h : ∀ q ∈ considered side report.entries, q.1.label ≠ u.label ∧ q.1.former ≠ some u.label)
    (hv : (closeApplied c side report b).tt.tracks[i]? = some v) :
    MadeBetween b (closeApplied c side report b) (countAbsence u) v := by
  unfold closeApplied at hv ⊢
  obtain ⟨htrack, hfree⟩ := matchEntries_of_unnamed c hu (by simp [hl]) (forall_considered_clamped (fun _ h => h) h)
  obtain ⟨v', hv', hmade⟩ := settleAndCount_of_absent (r := report.clamped) (b := b) hfree htrack hl
  obtain rfl := Option.some.inj (hv'.symm.trans hv)
  exact hmade

/-- The first absence is only counted (R88). -/
theorem countAbsence_first (h : u.absent = 0) : countAbsence u = fun s => ({ u with absent := 1 }, s) := by
  funext s
  simp [countAbsence, h]

/-- The second absence dissolves the link (R88). -/
theorem countAbsence_second (h : 1 ≤ u.absent) : countAbsence u = dissolve u := by
  funext s
  simp [countAbsence, h]

/-! ## The command -/

/-- The state with the application taken from the list (R52, R165). -/
def State.takeRequest (s : State) (e : Nat) (rest : List Request) : State :=
  (s.elapse e).withTt { s.tt with requests := rest, serving := some s.tt.tracks.length }

theorem execEdgeApplication_eq {e : Nat} {rest : List Request} (hr : s.tt.requests = .edge side report :: rest)
    (ho : s.tt.isOpen = true) (hc : s.settings = some c) :
    exec (.edgeApplication e) s = .next (applyEdge c side report (s.takeRequest e rest)).served := by
  have hc' : (s.elapse e).settings = some c := hc
  show execEdgeApplication e s = _
  simp [execEdgeApplication, serveNext, hr, ho, hc', State.takeRequest]

theorem headerNames_iff (slot : Nat) (side : Side) (report : EdgeReport) :
    headerNames slot side report = true ↔ match side with
      | .left => report.right = slot
      | .right => report.left = slot := by
  cases side <;> simp [headerNames]

/-- The state with the sender's centre taken (R12). -/
def State.takeCentre (s : State) (side : Side) (report : EdgeReport) : State :=
  s.withTt (s.tt.setCentre side (clampX report.centre))

theorem applyEdge_mismatch (h : headerNames s.rca.slot side report = false) :
    applyEdge c side report s = s.setLatch .neighbourMismatch := by simp [applyEdge, h]

theorem applyEdge_heartbeat (h : headerNames s.rca.slot side report = true) (hb : report.heartbeat = true) :
    applyEdge c side report s = s.takeCentre side report := by
  have hb' : report.clamped.heartbeat = true := hb
  simp only [applyEdge, h, hb', if_true]
  rfl

theorem applyEdge_close (h : headerNames s.rca.slot side report = true) (hb : report.heartbeat = false) :
    applyEdge c side report s = closeApplied c side report (s.takeCentre side report) := by
  have hb' : report.clamped.heartbeat = false := hb
  unfold closeApplied
  simp only [applyEdge, h, hb', if_true, Bool.false_eq_true, if_false]
  rfl

/-- What an application keeps of a track and where its label comes from (R72, R77). -/
theorem kept_of_relabelled (hrel : Relabelled ((considered side report.clamped.entries).map (·.1)) u w) (hkept : Kept w v) :
    v.state = u.state ∧ v.missedBins = u.missedBins ∧ v.lastX = u.lastX ∧ v.lastZ = u.lastZ ∧ v.acc = u.acc
      ∧ (v.label = u.label ∧ v.birth = u.birth ∧ v.former = u.former
        ∨ ∃ x ∈ report.entries, x.side = opposite side ∧ v.label = x.label ∧ v.birth = x.birth) := by
  obtain ⟨hlabel, hbirth, hstate, hmissed, hx, hz, hacc, hformer⟩ := hkept
  rcases hrel with rfl | ⟨x, hx', hw⟩
  · exact ⟨hstate, hmissed, hx, hz, hacc, .inl ⟨hlabel, hbirth, hformer⟩⟩
  · rw [considered_clamped, List.map_map] at hx'
    obtain ⟨q, hq, rfl⟩ := List.mem_map.1 hx'
    obtain ⟨-, hmem, hside⟩ := considered_spec hq
    rw [hw] at hlabel hbirth hstate hmissed hx hz hacc
    exact ⟨hstate, hmissed, hx, hz, hacc, .inr ⟨q.1, hmem, hside, hlabel, hbirth⟩⟩

/-- The state as an application of the report begins: its request taken, the sender's centre taken. -/
structure Begins (s b : State) (e : Nat) (rest : List Request) (side : Side) (report : EdgeReport) : Prop where
  pending : b.pending = s.pending
  now : b.now = s.now + e
  siu : b.siu = s.siu
  du : b.du = s.du
  tt : b.tt = { s.tt.setCentre side (clampX report.centre) with requests := rest, serving := some s.tt.tracks.length }
  wau : b.wau = s.wau
  rq : b.rq = s.rq
  rlc : b.rlc = s.rlc
  rca : b.rca = s.rca

theorem begins_takeCentre (s : State) (e : Nat) (rest : List Request) (side : Side) (report : EdgeReport) :
    Begins s ((s.takeRequest e rest).takeCentre side report) e rest side report := by
  cases side <;> constructor <;> rfl

theorem Begins.tracks {e : Nat} {rest : List Request} (h : Begins s b e rest side report) : b.tt.tracks = s.tt.tracks := by
  rw [h.tt]; cases side <;> rfl

/-- What a CLOSE report does to the table as a whole, with the records it enters (R78, R92). -/
theorem closeApplied_spec (c : Settings) (side : Side) (report : EdgeReport) (b : State) :
    TracksFootprint (EnteredFrom b.tt.tracks b.now) b (closeApplied c side report b)
      ∧ (closeApplied c side report b).tt.tracks.length = b.tt.tracks.length
      ∧ ∀ (i : Nat) (u : Track), b.tt.tracks[i]? = some u → ∃ w v, (closeApplied c side report b).tt.tracks[i]? = some v
        ∧ Relabelled ((considered side report.clamped.entries).map (·.1)) u w ∧ Kept w v
        ∧ (u.link = some (opposite side) → v = u) := by
  unfold closeApplied
  exact settleAndCount_spec c side report.clamped b

/-- Settles O32: the frame is the footprint of the application, and each clause on a track is its outcome at its place of the
table, made at a moment of the command. -/
theorem edgeApplication : Obligations.EdgeApplication := by
  intro e side report rest c s hr ho hc
  have hexec := execEdgeApplication_eq (e := e) hr ho hc
  have hnames := headerNames_iff (s.takeRequest e rest).rca.slot side report
  refine ⟨fun hno => ?_, fun hyes hb => ?_, fun hyes hb => ?_⟩
  · rw [hexec, applyEdge_mismatch (Bool.eq_false_iff.2 (mt hnames.1 hno))]
    rfl
  · rw [hexec, applyEdge_heartbeat (hnames.2 hyes) hb]
    cases side <;> rfl
  · rw [applyEdge_close (hnames.2 hyes) hb] at hexec
    have hbegins := begins_takeCentre s e rest side report
    generalize (s.takeRequest e rest).takeCentre side report = b at hexec hbegins
    have htracks := hbegins.tracks
    obtain ⟨hfoot, hlength, hplaces⟩ := closeApplied_spec c side report b
    have hdealt : ∀ {f v}, MadeBetween b (closeApplied c side report b) f v →
        Dealt s (closeApplied c side report b).served f v :=
      dealt_of_madeBetween hbegins.rq hbegins.rca hbegins.du hbegins.wau
    obtain ⟨new, hrecords, hnew⟩ := hfoot.1.records
    refine ⟨_, hexec, hfoot.1.pending.trans hbegins.pending, hfoot.now.trans hbegins.now, hfoot.1.siu.trans hbegins.siu,
      hfoot.1.du.trans hbegins.du, hfoot.1.wau.trans hbegins.wau, ?_, by rw [← hbegins.rq]; exact hfoot.1.rq_frame,
      by rw [← hbegins.rlc]; exact hfoot.1.rlc_frame, by rw [← hbegins.rca]; exact hfoot.1.rca_frame,
      by rw [← hbegins.rca]; exact hfoot.1.counters, ⟨new, by rw [← hbegins.rq]; exact hrecords, fun q hq => ?_⟩,
      htracks ▸ hlength, fun i u hu => ?_⟩
    · rw [State.served_tt, hfoot.2, hbegins.tt]
      cases side <;> rfl
    · obtain ⟨hentered, hheld⟩ := hnew q hq
      exact ⟨hentered.trans hfoot.now.symm, htracks ▸ hheld⟩
    · rw [← htracks] at hu ⊢
      obtain ⟨w, v, hv, hrel, hkept, hother⟩ := hplaces i u hu
      obtain ⟨hstate, hmissed, hx, hz, hacc, hlabel⟩ := kept_of_relabelled hrel hkept
      refine ⟨v, hv, hstate, hmissed, hx, hz, hacc, hlabel, hother,
        fun j x hn hl hx hfirst => ⟨fun hxu => ?_, fun hxf hxb => ?_⟩, fun hd hunborne => ⟨?_, fun hk hl => ?_⟩, fun hl hunnamed => ⟨fun habs => ?_, fun habs => ?_⟩⟩
      · exact hdealt (closeApplied_of_named hn hu hl hx hfirst (.inl ⟨hxu, rfl⟩) hv)
      · exact hdealt (closeApplied_of_named hn hu hl hx hfirst (.inr ⟨hxf, hxb, rfl⟩) hv)
      · rintro k hk rfl x hx
        exact hdealt (closeApplied_of_pair hd hunborne hk hu hx hv)
      · exact closeApplied_of_unpaired hunborne hk hu hl hv
      · obtain ⟨m, -, -, -, hmade⟩ := closeApplied_of_absent hu hl hunnamed hv
        rw [hmade, countAbsence_first habs]
      · have hmade := hdealt (closeApplied_of_absent hu hl hunnamed hv)
        rw [countAbsence_second habs] at hmade
        exact hmade

end Sys2Proof.Machine

/-! Which commands leave the scan intake alone: they touch neither the pages, the port nor the exposure controller, and of the
request list they only append what is neither a scan pass nor a final close (R52, R53). Both laws of the intake pass along
such a command without a look at it. -/

namespace Sys2Proof.Machine

variable {P : QueuedRecord → Prop} {s s' t a b d : State}

/-- From `s` to `s'` the SIU stays, RUNNING is not entered, and the request list gains at most requests that are neither scan
passes nor final closes, where the table is open or the node RUNNING. -/
structure PostsOnly (s s' : State) : Prop where
  siu : s'.siu = s.siu
  isOpen : s'.tt.isOpen = s.tt.isOpen
  node : s'.rca.node = .running → s.rca.node = .running
  requests : ∃ new, s'.tt.requests = s.tt.requests ++ new ∧ ∀ r ∈ new, (s.tt.isOpen = true ∨ s.rca.node = .running)
    ∧ (∀ p, r ≠ .scanPass p) ∧ ∀ k, r ≠ .finalClose k

namespace PostsOnly

/-- Nothing is posted where the request list stays. -/
theorem of_eq (hsiu : s'.siu = s.siu) (hopen : s'.tt.isOpen = s.tt.isOpen) (hlist : s'.tt.requests = s.tt.requests)
    (hnode : s'.rca.node = .running → s.rca.node = .running) : PostsOnly s s' :=
  ⟨hsiu, hopen, hnode, [], by rw [hlist, List.append_nil], List.forall_mem_nil _⟩

theorem refl (s : State) : PostsOnly s s := .of_eq rfl rfl rfl id

theorem trans (h : PostsOnly a b) (h' : PostsOnly b d) : PostsOnly a d := by
  obtain ⟨new, hnew, hkind⟩ := h.requests
  obtain ⟨new', hnew', hkind'⟩ := h'.requests
  refine ⟨h'.siu.trans h.siu, h'.isOpen.trans h.isOpen, h.node ∘ h'.node, new ++ new', ?_, fun r hr => ?_⟩
  · rw [hnew', hnew, List.append_assoc]
  · rcases List.mem_append.1 hr with hr | hr
    · exact hkind r hr
    · obtain ⟨hwhen, hne⟩ := hkind' r hr
      exact ⟨hwhen.imp (fun ho => h.isOpen ▸ ho) h.node, hne⟩

/-- What comes before touches neither SIU nor request list. -/
theorem after (h : PostsOnly b d) (hsiu : b.siu = a.siu) (hopen : b.tt.isOpen = a.tt.isOpen)
    (hlist : b.tt.requests = a.tt.requests) (hnode : b.rca.node = .running → a.rca.node = .running) : PostsOnly a d :=
  (of_eq hsiu hopen hlist hnode).trans h

/-- The posting of one request. -/
theorem post (hs : s.tt.isOpen = true ∨ s.rca.node = .running) {r : Request} (hpass : ∀ p, r ≠ .scanPass p)
    (hfinal : ∀ k, r ≠ .finalClose k) : PostsOnly s (s.post r) :=
  ⟨rfl, rfl, id, [r], rfl, fun _ hx => List.mem_singleton.1 hx ▸ ⟨hs, hpass, hfinal⟩⟩

end PostsOnly

theorem QueueFootprint.postsOnly (h : QueueFootprint P s s') : PostsOnly s s' :=
  .of_eq h.siu (by rw [h.tt]) (by rw [h.tt]) fun hn => h.node ▸ hn

theorem TracksFootprint.postsOnly (h : TracksFootprint P s s') : PostsOnly s s' :=
  .of_eq h.1.siu (by rw [h.2]) (by rw [h.2]) fun hn => h.1.node ▸ hn

theorem arbitrate_postsOnly (s : State) : PostsOnly s (arbitrate s) := (arbitrate_footprint (fun _ => True) s).postsOnly

theorem testForm_postsOnly (s : State) : PostsOnly s (testForm s) := (testForm_footprint (fun _ => True) s).postsOnly

theorem testDrainEnd_postsOnly (s : State) : PostsOnly s (testDrainEnd s) := by
  rcases testDrainEnd_cases s with h | ⟨d, -, -, h⟩ <;> rw [h]
  · exact arbitrate_postsOnly s
  · exact (arbitrate_postsOnly _).after rfl rfl rfl id

theorem statusFor_postsOnly (s : State) (result : StatusResult) (destination : Nat) :
    PostsOnly s (s.statusFor result destination) := (arbitrate_postsOnly _).after rfl rfl rfl id

/-! ## The Distance Unit (R33, R34, R39) -/

theorem postClose_postsOnly (hs : s.rca.node = .running) (k : Int) : PostsOnly s (postClose k s) := by
  unfold postClose
  split
  · exact .post (.inr hs) (by simp) (by simp)
  · exact .of_eq rfl rfl rfl id

theorem takeQuarter_postsOnly {line : OdoLine} (hstep : takeQuarter line s = .next t) : PostsOnly s t := by
  unfold takeQuarter at hstep
  split at hstep
  · rename_i hrun
    split at hstep <;> cases hstep
    split
    · rename_i c _ _
      exact (postClose_postsOnly (s := s.withDu (quarter c line s.du)) hrun _).after rfl rfl rfl id
    · exact .of_eq rfl rfl rfl id
  · cases hstep; exact .of_eq rfl rfl rfl id

theorem takeEdges_postsOnly {e : Nat} {g : EdgeGroup} (hstep : takeEdges e g s = .next t) : PostsOnly s t := by
  have hresolved : PostsOnly s ((s.elapse e).withDu { s.du with resolved := s.now + e }) := .of_eq rfl rfl rfl id
  unfold takeEdges at hstep
  simp only at hstep
  split at hstep
  · cases hstep
  · split at hstep
    · cases hstep; exact hresolved
    · exact hresolved.trans (takeQuarter_postsOnly hstep)
    · cases hstep
      refine hresolved.trans ?_
      unfold takeIllegal State.latchIf
      split <;> exact .of_eq rfl rfl rfl id

/-! ## The roof link (R131, R137 to R147) -/

theorem stopDriving_postsOnly (s : State) : PostsOnly s s.stopDriving := by
  unfold State.stopDriving
  split <;> exact .of_eq rfl rfl rfl id

theorem spellBegins_postsOnly (s : State) (usable : Bool) : PostsOnly s (s.spellBegins usable) := by
  unfold State.spellBegins
  split <;> exact .of_eq rfl rfl rfl id

/-- The end of a drain leads to READY, never to RUNNING (R160). -/
theorem statusEnded_postsOnly (s : State) (drainEnd : Bool) : PostsOnly s (s.statusEnded drainEnd) := by
  unfold State.statusEnded
  split
  · exact .of_eq rfl rfl rfl nofun
  · exact .refl s

theorem frameEnded_postsOnly (s : State) (source : FrameSource) : PostsOnly s (frameEnded source s) := by
  cases source with
  | edge bin => simp only [frameEnded, State.restartHeartbeat]; split <;> exact .of_eq rfl rfl rfl id
  | status drainEnd => exact statusEnded_postsOnly s drainEnd
  | gauge => exact (testForm_postsOnly _).after rfl rfl rfl id

theorem returnRecords_postsOnly (s : State) : PostsOnly s s.returnRecords := by
  unfold State.returnRecords
  split <;> exact .of_eq rfl rfl rfl id

theorem frameAbandoned_postsOnly (s : State) (source : FrameSource) : PostsOnly s (frameAbandoned source s) := by
  have hcounted : PostsOnly s (s.countAbandoned.setLatch .collisionLimit) := .of_eq rfl rfl rfl id
  cases source with
  | edge bin => exact hcounted
  | status drainEnd => exact hcounted.trans (statusEnded_postsOnly _ drainEnd)
  | gauge => exact hcounted.trans (returnRecords_postsOnly _)

theorem collide_postsOnly (s : State) (source : FrameSource) (bytes : List Byte) (attempts : Nat) :
    PostsOnly s (collide source bytes attempts s) := (spellBegins_postsOnly s false).trans (.of_eq rfl rfl rfl id)

theorem execAttemptBegin_postsOnly {e : Nat} (hstep : execAttemptBegin e s = .next t) : PostsOnly s t := by
  unfold execAttemptBegin at hstep
  simp only at hstep
  split at hstep
  · split at hstep
    · cases hstep
    · split at hstep <;> cases hstep
      unfold beginAttempt
      split
      · exact (testDrainEnd_postsOnly _).after rfl rfl rfl id
      · exact .of_eq rfl rfl rfl id
  all_goals cases hstep

theorem execCollision_postsOnly {e : Nat} (hstep : execCollision e s = .next t) : PostsOnly s t := by
  unfold execCollision at hstep
  simp only at hstep
  split at hstep
  · split at hstep <;> cases hstep
    exact (collide_postsOnly (s.elapse e) _ _ _).after rfl rfl rfl id
  all_goals cases hstep

theorem execJamEnd_postsOnly {e draw : Nat} (hstep : execJamEnd e draw s = .next t) : PostsOnly s t := by
  unfold execJamEnd at hstep
  simp only at hstep
  split at hstep
  · split at hstep <;> cases hstep
    have hstopped : PostsOnly s (s.elapse e).stopDriving :=
      (stopDriving_postsOnly (s.elapse e)).after rfl rfl rfl id
    unfold endJam
    simp only
    split
    · exact hstopped.trans (.of_eq rfl rfl rfl id)
    · have hfreed : PostsOnly s ((s.elapse e).stopDriving.withTx .free) := hstopped.trans (.of_eq rfl rfl rfl id)
      exact (hfreed.trans (frameAbandoned_postsOnly _ _)).trans (testDrainEnd_postsOnly _)
  all_goals cases hstep

theorem execBackoffEnd_postsOnly {e : Nat} (hstep : execBackoffEnd e s = .next t) : PostsOnly s t := by
  unfold execBackoffEnd at hstep
  simp only at hstep
  split at hstep
  · split at hstep <;> cases hstep
    exact .of_eq rfl rfl rfl id
  all_goals cases hstep

theorem execFrameSent_postsOnly {e : Nat} (hstep : execFrameSent e s = .next t) : PostsOnly s t := by
  unfold execFrameSent at hstep
  simp only at hstep
  split at hstep
  · split at hstep <;> cases hstep
    have hstopped : PostsOnly s (s.elapse e).stopDriving := (stopDriving_postsOnly (s.elapse e)).after rfl rfl rfl id
    have hfreed : PostsOnly s ((s.elapse e).stopDriving.withTx .free) := hstopped.trans (.of_eq rfl rfl rfl id)
    exact (hfreed.trans (frameEnded_postsOnly _ _)).trans (testDrainEnd_postsOnly _)
  all_goals cases hstep

theorem execBusJam_postsOnly {e : Nat} (hstep : execBusJam e s = .next t) : PostsOnly s t := by
  unfold execBusJam at hstep
  simp only at hstep
  split at hstep
  · cases hstep
  · split at hstep
    · cases hstep
    · split at hstep <;> cases hstep
      exact .of_eq rfl rfl rfl id

theorem execMediumQuiet_postsOnly {e : Nat} (hstep : execMediumQuiet e s = .next t) : PostsOnly s t := by
  unfold execMediumQuiet at hstep
  split at hstep
  · cases hstep
  · split at hstep <;> cases hstep
    exact .of_eq rfl rfl rfl id

theorem execCarrierAppears_postsOnly {e : Nat} (hstep : execCarrierAppears e s = .next t) : PostsOnly s t := by
  have helapsed : PostsOnly s (s.elapse e) := .of_eq rfl rfl rfl id
  unfold execCarrierAppears at hstep
  simp only at hstep
  split at hstep
  · cases hstep
  · split at hstep <;> cases hstep
    · split
      · exact helapsed.trans (collide_postsOnly _ _ _ _)
      · exact helapsed.trans (spellBegins_postsOnly _ _)
    all_goals exact helapsed.trans (spellBegins_postsOnly _ _)

theorem execHeartbeatTimerExpiry_postsOnly {e : Nat} (hstep : execHeartbeatTimerExpiry e s = .next t) :
    PostsOnly s t := by
  obtain ⟨-, -, -, hgo⟩ := onExpiry_next hstep
  split at hgo <;> cases hgo
  unfold expireHeartbeat
  simp only
  split
  · exact (arbitrate_postsOnly _).after rfl rfl rfl id
  · exact .of_eq rfl rfl rfl id

theorem execRecordAgeExpiry_postsOnly {e : Nat} (hstep : execRecordAgeExpiry e s = .next t) : PostsOnly s t := by
  unfold execRecordAgeExpiry at hstep
  simp only at hstep
  split at hstep
  · cases hstep
  · split at hstep <;> cases hstep
    exact (testForm_postsOnly (s.elapse e)).after rfl rfl rfl id
  · cases hstep

theorem execHoldPeriodEnd_postsOnly {e : Nat} (hstep : execHoldPeriodEnd e s = .next t) : PostsOnly s t := by
  obtain ⟨-, -, -, hgo⟩ := onExpiry_next hstep
  cases hgo
  exact (testForm_postsOnly _).after rfl rfl rfl id

theorem execDrainLimit_postsOnly {e : Nat} (hstep : execDrainLimit e s = .next t) : PostsOnly s t := by
  obtain ⟨-, -, -, hgo⟩ := onExpiry_next hstep
  cases hgo
  exact (testDrainEnd_postsOnly _).after rfl rfl rfl id

theorem execAlertPulseEnd_postsOnly {e : Nat} (hstep : execAlertPulseEnd e s = .next t) : PostsOnly s t := by
  obtain ⟨-, -, -, hgo⟩ := onExpiry_next hstep
  cases hgo
  exact .of_eq rfl rfl rfl id

/-! ## Reception (R53, R149 to R153) -/

theorem offerApplication_postsOnly (s : State) {r : Request} (hr : r.isApplication = true) :
    PostsOnly s (offerApplication r s) := by
  unfold offerApplication
  split
  · split
    · exact .post (.inl ‹_›) (by rintro p rfl; cases hr) (by rintro k rfl; cases hr)
    · exact .of_eq rfl rfl rfl id
  · exact .refl s

theorem takeConfig_postsOnly (s : State) (f : ReceivedFrame) : PostsOnly s (takeConfig f s) := by
  unfold takeConfig
  split
  · exact (statusFor_postsOnly _ _ _).after rfl rfl rfl id
  · simp only
    split
    · exact (statusFor_postsOnly _ _ _).after rfl rfl rfl nofun
    · exact (statusFor_postsOnly _ _ _).after rfl rfl rfl id

theorem takeQuery_postsOnly (s : State) (f : ReceivedFrame) : PostsOnly s (takeQuery f s) := by
  unfold takeQuery
  split
  · exact (statusFor_postsOnly _ _ _).after rfl rfl rfl id
  · exact statusFor_postsOnly _ _ _

theorem filterFrame_postsOnly (s : State) (f : ReceivedFrame) : PostsOnly s (filterFrame f s) := by
  have hbad : PostsOnly s s.countBad := .of_eq rfl rfl rfl id
  unfold filterFrame
  split
  · exact hbad
  · exact .refl s
  · exact .refl s
  · split
    · split
      · exact offerApplication_postsOnly s rfl
      · exact hbad
    · exact .refl s
  · split
    · split
      · exact offerApplication_postsOnly s rfl
      · exact hbad
    · exact .refl s
  · split
    · exact takeConfig_postsOnly s f
    · exact .refl s
  · split
    · exact takeQuery_postsOnly s f
    · exact .refl s

theorem signOfLife_postsOnly (s : State) (source : Nat) : PostsOnly s (signOfLife source s) := by
  unfold signOfLife
  split
  · split <;> exact .of_eq rfl rfl rfl id
  · exact .refl s

theorem judgeReception_postsOnly (s : State) (bytes : List Byte) : PostsOnly s (judgeReception bytes s) := by
  unfold judgeReception
  split
  · exact .refl s
  · split
    · exact (signOfLife_postsOnly s _).trans (filterFrame_postsOnly _ _)
    · exact .of_eq rfl rfl rfl id

theorem execReceptionBegin_postsOnly {event : ReceptionEvent} (hstep : execReceptionBegin event s = .next t) :
    PostsOnly s t := by
  unfold execReceptionBegin at hstep
  split at hstep
  · cases hstep
  · split at hstep
    · cases hstep
    · split at hstep <;> cases hstep
      exact .of_eq rfl rfl rfl id

theorem execFrameReceived_postsOnly {e : Nat} {bits : List Bool} (hstep : execFrameReceived e bits s = .next t) :
    PostsOnly s t := by
  unfold execFrameReceived at hstep
  split at hstep <;> cases hstep
  exact (judgeReception_postsOnly _ _).after rfl rfl rfl id

theorem execNeighbourTimerExpiry_postsOnly {e : Nat} {side : Side} (hstep : execNeighbourTimerExpiry e side s = .next t) :
    PostsOnly s t := by
  obtain ⟨-, -, -, hgo⟩ := onExpiry_next hstep
  cases hgo
  unfold loseNeighbour
  simp only
  split
  · rename_i hopen
    exact (PostsOnly.post (.inl (Bool.and_eq_true_iff.1 hopen).1) (by simp) (by simp)).after rfl rfl rfl id
  · exact .of_eq rfl rfl rfl id

/-! ## The commands -/

/-- The commands of the sensor port, of the request list and of the run (R14, R24, R52, R157, R159, R161). -/
def touchesIntake : Instr → Bool
  | .powerOnReset .. | .scanMessageBegin _ | .scanMessageEnd .. | .scanMessageSilence .. | .exposureWordSent _
  | .endMarkAfterReset _ | .scanPass _ | .binClose _ | .finalClose _ | .edgeApplication _ | .markApplication _
  | .neighbourLostApplication _ | .runStart _ | .enterDraining _ => true
  | _ => false

/-- Every other command leaves the intake alone. -/
theorem exec_postsOnly {i : Instr} (hi : touchesIntake i = false) (hstep : exec i s = .next t) : PostsOnly s t := by
  cases i with
  | odometerTransition => exact takeEdges_postsOnly hstep
  | illegalTransition => exact takeEdges_postsOnly hstep
  | attemptBegin => exact execAttemptBegin_postsOnly hstep
  | collision => exact execCollision_postsOnly hstep
  | jamEnd => exact execJamEnd_postsOnly hstep
  | backoffEnd => exact execBackoffEnd_postsOnly hstep
  | frameSent => exact execFrameSent_postsOnly hstep
  | busJam => exact execBusJam_postsOnly hstep
  | heartbeatTimerExpiry => exact execHeartbeatTimerExpiry_postsOnly hstep
  | receptionBegin => exact execReceptionBegin_postsOnly hstep
  | frameReceived => exact execFrameReceived_postsOnly hstep
  | neighbourTimerExpiry => exact execNeighbourTimerExpiry_postsOnly hstep
  | recordAgeExpiry => exact execRecordAgeExpiry_postsOnly hstep
  | holdPeriodEnd => exact execHoldPeriodEnd_postsOnly hstep
  | drainLimit => exact execDrainLimit_postsOnly hstep
  | alertPulseEnd => exact execAlertPulseEnd_postsOnly hstep
  | mediumQuiet => exact execMediumQuiet_postsOnly hstep
  | carrierAppears => exact execCarrierAppears_postsOnly hstep
  | _ => cases hi

end Sys2Proof.Machine

/-! The service of a request as the scan intake sees it (R52, R56, R78, R96, R119, R124, R125). -/

namespace Sys2Proof.Machine

variable {s s' t b : State} {c : Settings}

/-! ## What a command that serves a request finds and leaves -/

theorem execScanPass_next {e : Nat} (hstep : execScanPass e s = .next t) : ∃ p rest c scan,
    s.tt.requests = .scanPass p :: rest ∧ s.tt.isOpen = true ∧ s.settings = some c ∧ s.siu.page p = .posted scan
      ∧ t = endPass p (runPass c scan (s.takeRequest e rest)) := by
  obtain ⟨r, rest, c, hr, ho, hc, hf⟩ := serveNext_next hstep
  split at hf
  · rename_i p
    split at hf <;> cases hf
    rename_i scan hscan
    exact ⟨p, rest, c, scan, hr, ho, hc, hscan, rfl⟩
  · cases hf

/-- A bin close up to its exposure step (R125): the tracks are dealt with and the report is built. -/
def binClosed (c : Settings) (k : Int) (s : State) : State := buildReport c k (dealWithTracks c k false s)

theorem execBinClose_next {e : Nat} (hstep : execBinClose e s = .next t) : ∃ k rest c,
    s.tt.requests = .binClose k :: rest ∧ s.tt.isOpen = true ∧ s.settings = some c
      ∧ t = (exposureStep c (binClosed c k (s.takeRequest e rest))).served := by
  obtain ⟨r, rest, c, hr, ho, hc, hf⟩ := serveNext_next hstep
  split at hf <;> cases hf
  exact ⟨_, rest, c, hr, ho, hc, rfl⟩

theorem execFinalClose_next {e : Nat} (hstep : execFinalClose e s = .next t) : ∃ k rest c,
    s.tt.requests = .finalClose k :: rest ∧ s.tt.isOpen = true ∧ s.settings = some c
      ∧ t = testDrainEnd (exposureStep c (dealWithTracks c k true (s.takeRequest e rest))).served.closeTable := by
  obtain ⟨r, rest, c, hr, ho, hc, hf⟩ := serveNext_next hstep
  split at hf <;> cases hf
  exact ⟨_, rest, c, hr, ho, hc, rfl⟩

/-! ## Closes and applications post nothing of the intake's -/

theorem served_postsOnly (s : State) : PostsOnly s s.served := .of_eq rfl rfl rfl id

theorem dealWithTracks_postsOnly (c : Settings) (k : Int) (final : Bool) (s : State) :
    PostsOnly s (dealWithTracks c k final s) :=
  (dealWithTracks_spec (P := fun _ => True) c k final fun _ _ => ⟨fun _ _ _ => trivial, trivial⟩).1.postsOnly

theorem buildReport_postsOnly (c : Settings) (k : Int) (s : State) : PostsOnly s (buildReport c k s) := by
  obtain ⟨hother, hrun⟩ := buildReport_spec c k s
  by_cases hn : s.rca.node = .running
  · rw [hrun hn]
    exact (arbitrate_postsOnly _).after rfl rfl rfl id
  · rw [hother hn]; exact .refl s

theorem binClosed_postsOnly (c : Settings) (k : Int) (s : State) : PostsOnly s (binClosed c k s) :=
  (dealWithTracks_postsOnly c k false s).trans (buildReport_postsOnly c k _)

theorem applyEdge_postsOnly (c : Settings) (side : Side) (report : EdgeReport) (s : State) :
    PostsOnly s (applyEdge c side report s) := by
  have hcentre : PostsOnly s (s.takeCentre side report) := by cases side <;> exact .of_eq rfl rfl rfl id
  cases hnames : headerNames s.rca.slot side report with
  | false => rw [applyEdge_mismatch hnames]; exact .of_eq rfl rfl rfl id
  | true =>
    cases hbeat : report.heartbeat with
    | true => rw [applyEdge_heartbeat hnames hbeat]; exact hcentre
    | false =>
      rw [applyEdge_close hnames hbeat]
      exact hcentre.trans (closeApplied_spec c side report _).1.postsOnly

theorem applyMark_postsOnly (c : Settings) (number : Nat) (type : Option Nat) (s : State) :
    PostsOnly s (applyMark c number type s) := by
  unfold applyMark
  simp only
  split
  · split <;> exact .of_eq rfl rfl rfl id
  · exact .of_eq rfl rfl rfl id

theorem dissolveAll_postsOnly (places : List Nat) (s : State) :
    PostsOnly s (places.foldl (fun s i => s.updateTrack i dissolve) s) :=
  (foldl_updateTrack (P := fun _ => True) (R := fun _ _ => True) (I := fun _ => True) (fun _ => trivial)
    (fun _ _ _ _ _ => trivial) (fun i : Nat => i) (fun _ t s => dissolve t s) places s (fun _ _ => trivial)
    fun _ _ _ _ _ _ _ => ⟨dissolve_footprint fun _ _ _ _ => trivial, trivial, trivial⟩).1.postsOnly

/-- The command takes the oldest request, which is no scan pass and no final close, and leaves the intake alone. -/
def ServesOnly (s t : State) (e : Nat) : Prop :=
  ∃ r rest, s.tt.requests = r :: rest ∧ (∀ p, r ≠ .scanPass p) ∧ PostsOnly (s.takeRequest e rest) t

theorem execEdgeApplication_servesOnly {e : Nat} (hstep : execEdgeApplication e s = .next t) : ServesOnly s t e := by
  obtain ⟨r, rest, c, hr, -, -, hf⟩ := serveNext_next hstep
  split at hf <;> cases hf
  exact ⟨_, rest, hr, by simp, (applyEdge_postsOnly c _ _ (s.takeRequest e rest)).trans (served_postsOnly _)⟩

theorem execMarkApplication_servesOnly {e : Nat} (hstep : execMarkApplication e s = .next t) : ServesOnly s t e := by
  obtain ⟨r, rest, c, hr, -, -, hf⟩ := serveNext_next hstep
  split at hf <;> cases hf
  exact ⟨_, rest, hr, by simp, (applyMark_postsOnly c _ _ (s.takeRequest e rest)).trans (served_postsOnly _)⟩

theorem execNeighbourLostApplication_servesOnly {e : Nat} (hstep : execNeighbourLostApplication e s = .next t) :
    ServesOnly s t e := by
  obtain ⟨r, rest, c, hr, -, -, hf⟩ := serveNext_next hstep
  split at hf <;> cases hf
  exact ⟨_, rest, hr, by simp, (dissolveAll_postsOnly _ (s.takeRequest e rest)).trans (served_postsOnly _)⟩

/-! ## The scan pass (R56) -/

theorem runPass_footprint (c : Settings) (scan : Scan) (s : State) : PassFootprint (fun _ => True) s (runPass c scan s) :=
  (runPass_spec (P := fun _ => True) (I := fun _ => True) c scan s (fun _ _ => trivial)
    (fun _ _ _ _ _ _ _ => ⟨offerSpot_footprint c scan _ _ fun _ _ => trivial, trivial⟩) (fun _ _ _ _ => trivial)
    fun _ _ _ _ _ _ _ => trivial).1

end Sys2Proof.Machine

/-! The law of pages, port and request list over a whole step (O60): what each change of one of the three does to their
agreement, then each command. -/

namespace Sys2Proof.Machine

variable {s s' t b : State}

/-! ## The law by its parts -/

/-- The scan passes that wait for a page: one while it is POSTED (R21). -/
def Page.passes : Page → Nat
  | .posted _ => 1
  | .free | .filling => 0

/-- `PagesSound` part by part. -/
structure PagesAgree (s : State) : Prop where
  posted : ∀ p, s.tt.requests.count (.scanPass p) = (s.siu.page p).passes
  filling : ∀ p, s.siu.page p = .filling ↔ s.siu.port = .captured p
  closed : s.tt.isOpen = false → s.tt.requests = []
  running : s.rca.node = .running → s.tt.isOpen = true ∧ ∀ k, .finalClose k ∉ s.tt.requests
  last : s.tt.requests.Pairwise fun r r' => (∃ k, r = .finalClose k) → ∀ p, r' ≠ .scanPass p

theorem pagesSound_iff : PagesSound s ↔ PagesAgree s := by
  have hpages : ∀ {f : PageId → Prop}, (∀ p, p = .a ∨ p = .b → f p) ↔ ∀ p, f p := by
    intro f
    exact ⟨fun h p => h p (by cases p <;> simp), fun h p _ => h p⟩
  have hpasses : ∀ x : Page, x.passes = (match x with
      | .posted _ => 1
      | _ => 0) := by intro x; cases x <;> rfl
  have hlast : ∀ r : Request, (r ≠ .scanPass .a ∧ r ≠ .scanPass .b) ↔ ∀ p, r ≠ .scanPass p := by
    intro r
    exact ⟨fun h p => by cases p; exacts [h.1, h.2], fun h => ⟨h _, h _⟩⟩
  unfold PagesSound
  simp only [hpages, hlast]
  constructor
  · rintro ⟨hpage, hclosed, hrunning, hlast⟩
    exact ⟨fun p => (hpage p).1.trans (hpasses _).symm, fun p => (hpage p).2, hclosed, hrunning, hlast⟩
  · rintro ⟨hposted, hfilling, hclosed, hrunning, hlast⟩
    exact ⟨fun p => ⟨(hposted p).trans (hpasses _), hfilling p⟩, hclosed, hrunning, hlast⟩

namespace PagesAgree

/-- The law reads pages, port, request list and whether the node is RUNNING, nothing else. -/
theorem congr (h : PagesAgree s) (hpage : ∀ p, t.siu.page p = s.siu.page p) (hport : t.siu.port = s.siu.port)
    (hopen : t.tt.isOpen = s.tt.isOpen) (hlist : t.tt.requests = s.tt.requests)
    (hnode : t.rca.node = .running → s.rca.node = .running) : PagesAgree t := by
  obtain ⟨hposted, hfilling, hclosed, hrunning, hlast⟩ := h
  constructor
  · intro p; rw [hpage, hlist]; exact hposted p
  · intro p; rw [hpage, hport]; exact hfilling p
  · rw [hopen, hlist]; exact hclosed
  · rw [hopen, hlist]; exact hrunning ∘ hnode
  · rw [hlist]; exact hlast

/-- Requests that are neither scan passes nor final closes may join the list where it is open. -/
theorem postsOnly (h : PagesAgree s) (hp : PostsOnly s t) : PagesAgree t := by
  obtain ⟨hposted, hfilling, hclosed, hrunning, hlast⟩ := h
  obtain ⟨hsiu, hopen, hnode, new, hlist, hnew⟩ := hp
  have hempty : s.tt.isOpen = false → new = [] := by
    intro ho
    refine List.eq_nil_iff_forall_not_mem.2 fun r hr => ?_
    have hs := (hnew r hr).1.elim id fun hrun => (hrunning hrun).1
    rw [ho] at hs
    cases hs
  constructor
  · intro p
    rw [hlist, hsiu, List.count_append, List.count_eq_zero_of_not_mem fun hm => (hnew _ hm).2.1 p rfl]
    exact hposted p
  · rw [hsiu]; exact hfilling
  · rw [hopen, hlist]
    intro ho
    rw [hclosed ho, hempty ho]; rfl
  · intro hrun
    rw [hopen, hlist]
    obtain ⟨ho, hfinal⟩ := hrunning (hnode hrun)
    refine ⟨ho, fun k hm => ?_⟩
    rcases List.mem_append.1 hm with hm | hm
    · exact hfinal k hm
    · exact (hnew _ hm).2.2 k rfl
  · rw [hlist]
    refine List.pairwise_append.2 ⟨hlast, ?_, fun r _ r' hr' _ => (hnew r' hr').2.1⟩
    exact List.pairwise_of_forall_mem_list fun r _ r' hr' _ => (hnew r' hr').2.1

/-- A request that is no scan pass may be taken. -/
theorem taken (h : PagesAgree s) {r : Request} {rest : List Request} (hr : s.tt.requests = r :: rest)
    (hpass : ∀ p, r ≠ .scanPass p) (e : Nat) : PagesAgree (s.takeRequest e rest) := by
  obtain ⟨hposted, hfilling, hclosed, hrunning, hlast⟩ := h
  rw [hr] at hposted hclosed hrunning hlast
  exact
    { posted := fun p => by rw [← List.count_cons_of_ne (hpass p)]; exact hposted p
      filling := hfilling
      closed := fun ho => absurd (hclosed ho) (by simp)
      running := fun hrun => ⟨(hrunning hrun).1, fun k hm => (hrunning hrun).2 k (List.mem_cons_of_mem _ hm)⟩
      last := (List.pairwise_cons.1 hlast).2 }

theorem servesOnly (h : PagesAgree s) {e : Nat} (hs : ServesOnly s t e) : PagesAgree t := by
  obtain ⟨r, rest, hr, hpass, hp⟩ := hs
  exact (h.taken hr hpass e).postsOnly hp

/-- The SIU may change where no page becomes POSTED or stops being so, and FILLING is the page that the port fills. -/
theorem withSiu (h : PagesAgree s) {u : Siu} (hpasses : ∀ p, (u.page p).passes = (s.siu.page p).passes)
    (hfilling : ∀ p, u.page p = .filling ↔ u.port = .captured p) : PagesAgree (s.withSiu u) :=
  { posted := fun p => (h.posted p).trans (hpasses p).symm
    filling := hfilling
    closed := h.closed
    running := h.running
    last := h.last }

end PagesAgree

/-! ## The sensor port (R15 to R22) -/

theorem beginMessage_pagesAgree (h : PagesAgree s) (hidle : s.siu.port = .idle) : PagesAgree (beginMessage s) := by
  have hnone : ∀ p, s.siu.page p ≠ .filling := fun p hp => by simpa [hidle] using (h.filling p).1 hp
  unfold beginMessage
  split
  · rename_i hfree
    refine h.withSiu (fun p => ?_) fun p => ?_
    · cases p
      · simp [Siu.page, hfree, Page.passes]
      · rfl
    · cases p
      · simp [Siu.page]
      · simpa [Siu.page] using hnone .b
  · split
    · rename_i hfree
      refine h.withSiu (fun p => ?_) fun p => ?_
      · cases p
        · rfl
        · simp [Siu.page, hfree, Page.passes]
      · cases p
        · simpa [Siu.page] using hnone .a
        · simp [Siu.page]
    · have huncaptured : PagesAgree (s.withSiu { s.siu with port := .uncaptured }) := by
        refine h.withSiu (fun p => by cases p <;> rfl) fun p => ?_
        have hp := hnone p
        cases p <;> simpa [Siu.page] using hp
      simp only
      split
      · exact huncaptured.congr (fun _ => rfl) rfl rfl rfl id
      · exact huncaptured

/-- A message that fills no page ends. -/
theorem portIdle_pagesAgree (h : PagesAgree s) (hport : ∀ p, s.siu.port ≠ .captured p) : PagesAgree s.portIdle := by
  refine h.withSiu (fun p => by cases p <;> rfl) fun p => ?_
  have hp : s.siu.page p ≠ .filling := fun hf => hport p ((h.filling p).1 hf)
  cases p <;> simpa [Siu.page] using hp

/-- The page of a name after a page was replaced. -/
theorem page_setPage (u : Siu) (p p' : PageId) (x : Page) : (u.setPage p x).page p' = if p' = p then x else u.page p' := by
  cases p <;> cases p' <;> rfl

@[simp] theorem setPage_port (u : Siu) (p : PageId) (x : Page) : (u.setPage p x).port = u.port := by cases p <;> rfl

/-- The captured message is discarded: its page is FREE again and the port waits (R16, R17). -/
theorem discard_pagesAgree (h : PagesAgree s) {p : PageId} (hport : s.siu.port = .captured p) :
    PagesAgree (s.portIdle.withSiu (s.portIdle.siu.setPage p .free)) := by
  have hp : s.siu.page p = .filling := (h.filling p).2 hport
  have hother : ∀ p', p' ≠ p → s.siu.page p' ≠ .filling := fun p' hne hf => by
    have hport' := (h.filling p').1 hf
    rw [hport] at hport'
    cases hport'
    exact hne rfl
  have hpage : ∀ p', ((s.portIdle.siu.setPage p .free).page p') = if p' = p then .free else s.siu.page p' := by
    intro p'
    rw [page_setPage]
    cases p' <;> rfl
  refine PagesAgree.withSiu (s := s) h (fun p' => ?_) fun p' => ?_
  · rw [hpage]
    split
    · subst p'; rw [hp]; rfl
    · rfl
  · rw [hpage]
    split
    · simp
    · rename_i hne; simp [hother p' hne]

/-- The page filled becomes POSTED and its scan pass joins the list, in RUNNING behind no final close (R21, R52). -/
theorem postPage_pagesAgree (h : PagesAgree s) {p : PageId} (hport : s.siu.port = .captured p)
    (hrun : s.rca.node = .running) (scan : Scan) :
    PagesAgree ((s.portIdle.withSiu (s.portIdle.siu.setPage p (.posted scan))).post (.scanPass p)) := by
  have hdiscarded := discard_pagesAgree h hport
  obtain ⟨hopen, hfinal⟩ := h.running hrun
  have hpage : ∀ x p', (s.portIdle.siu.setPage p x).page p' = if p' = p then x else s.siu.page p' := by
    intro x p'
    rw [page_setPage]
    cases p' <;> rfl
  have hp := h.posted p
  rw [(h.filling p).2 hport] at hp
  constructor
  · intro p'
    show (s.tt.requests ++ [Request.scanPass p]).count (Request.scanPass p')
      = ((s.portIdle.siu.setPage p (.posted scan)).page p').passes
    rw [hpage, List.count_append]
    split
    · subst p'; rw [hp]; simp [Page.passes]
    · rename_i hne
      have hne' : Request.scanPass p ≠ .scanPass p' := fun e => hne (by cases e; rfl)
      rw [List.count_cons_of_ne hne', h.posted p']; rfl
  · intro p'
    have hf := hdiscarded.filling p'
    simp only [State.withSiu_siu, setPage_port, hpage, State.post_siu] at hf ⊢
    split at hf <;> simp_all
  · intro ho
    rw [show s.tt.isOpen = false from ho] at hopen
    cases hopen
  · exact fun _ => ⟨hopen, fun k hm => (List.mem_append.1 hm).elim (hfinal k) (by simp)⟩
  · refine List.pairwise_append.2 ⟨h.last, List.pairwise_singleton _ _, ?_⟩
    rintro r hr - - ⟨k, rfl⟩
    exact absurd hr (hfinal k)

theorem continuityCheck_frame (bytes : List Byte) (s : State) : continuityCheck bytes s = (s.withSiu { s.siu with
    continuity := (continuityCheck bytes s).siu.continuity }).withCounters (continuityCheck bytes s).rca.counters := by
  unfold continuityCheck
  split <;> rfl

theorem continuityCheck_pagesAgree (h : PagesAgree s) (bytes : List Byte) : PagesAgree (continuityCheck bytes s) := by
  rw [continuityCheck_frame]
  exact h.congr (fun p => by cases p <;> rfl) rfl rfl rfl id

theorem takeMessage_pagesAgree (h : PagesAgree s) {p : PageId} (hport : s.siu.port = .captured p)
    (hrun : s.rca.node = .running) (c : Settings) (bytes : List Byte) :
    PagesAgree (takeMessage c p bytes s.portIdle) := by
  unfold takeMessage
  split
  · refine continuityCheck_pagesAgree ?_ bytes
    exact (discard_pagesAgree h hport).congr (fun _ => rfl) rfl rfl rfl id
  · simp only
    rw [continuityCheck_frame]
    refine (postPage_pagesAgree h hport hrun (scanOf c bytes s.portIdle)).congr (fun p' => ?_) ?_ rfl rfl id
    · cases p <;> cases p' <;> rfl
    · cases p <;> rfl

theorem endMessage_pagesAgree (h : PagesAgree s) {bytes : List Byte} (hstep : endMessage bytes s = .next t) :
    PagesAgree t := by
  unfold endMessage at hstep
  split at hstep
  · cases hstep
  · cases hstep
  · rename_i hport
    have hidle := portIdle_pagesAgree h (by simp [hport])
    cases hstep
    split
    · exact continuityCheck_pagesAgree hidle bytes
    · exact hidle
  · rename_i p hport
    split at hstep
    · split at hstep <;> cases hstep
      exact takeMessage_pagesAgree h hport ‹_› _ _
    · cases hstep
      exact discard_pagesAgree h hport

theorem elapse_pagesAgree (h : PagesAgree s) (e : Nat) : PagesAgree (s.elapse e) := h.congr (fun _ => rfl) rfl rfl rfl id

theorem execScanMessageBegin_pagesAgree (h : PagesAgree s) {e : Nat} (hstep : execScanMessageBegin e s = .next t) :
    PagesAgree t := by
  unfold execScanMessageBegin at hstep
  split at hstep <;> cases hstep
  exact beginMessage_pagesAgree (elapse_pagesAgree h e) ‹_›

theorem execScanMessageSilence_pagesAgree (h : PagesAgree s) {e : Nat} {bytes : List Byte}
    (hstep : execScanMessageSilence e bytes s = .next t) : PagesAgree t := by
  unfold execScanMessageSilence at hstep
  split at hstep
  · rename_i hport
    cases hstep
    exact portIdle_pagesAgree (elapse_pagesAgree h e) (by simp [hport])
  all_goals exact endMessage_pagesAgree (elapse_pagesAgree h e) hstep

theorem execExposureWordSent_pagesAgree (h : PagesAgree s) {e : Nat} (hstep : execExposureWordSent e s = .next t) :
    PagesAgree t := by
  unfold execExposureWordSent at hstep
  split at hstep <;> cases hstep
  exact h.congr (fun p => by cases p <;> rfl) rfl rfl rfl id

theorem execEndMarkAfterReset_pagesAgree (h : PagesAgree s) {e : Nat} (hstep : execEndMarkAfterReset e s = .next t) :
    PagesAgree t := by
  unfold execEndMarkAfterReset at hstep
  split at hstep <;> cases hstep
  rename_i hport
  exact portIdle_pagesAgree (elapse_pagesAgree h e) (by simp [hport])

/-! ## Requests of the track table (R22, R52, R54) -/

/-- The pass of a page ends as its request is taken: the page is FREE (R22, R56). -/
theorem execScanPass_pagesAgree (h : PagesAgree s) {e : Nat} (hstep : execScanPass e s = .next t) : PagesAgree t := by
  obtain ⟨p, rest, c, scan, hr, -, -, hscan, rfl⟩ := execScanPass_next hstep
  obtain ⟨hposted, hfilling, hclosed, hrunning, hlast⟩ := h
  rw [hr] at hposted hclosed hrunning hlast
  have hfoot := runPass_footprint c scan (s.takeRequest e rest)
  have hlist : (runPass c scan (s.takeRequest e rest)).tt.requests = rest := by rw [hfoot.tt]; rfl
  have hopen : (runPass c scan (s.takeRequest e rest)).tt.isOpen = s.tt.isOpen := by rw [hfoot.tt]; rfl
  have hport : (runPass c scan (s.takeRequest e rest)).siu.port = s.siu.port := by rw [hfoot.siu]; rfl
  have hpage : ∀ p', ((runPass c scan (s.takeRequest e rest)).siu.setPage p .free).page p'
      = if p' = p then .free else s.siu.page p' := by
    intro p'
    rw [page_setPage, hfoot.siu]
    cases p' <;> rfl
  have hnode : (runPass c scan (s.takeRequest e rest)).rca.node = s.rca.node := hfoot.queue.node
  generalize runPass c scan (s.takeRequest e rest) = m at *
  constructor
  · intro p'
    show m.tt.requests.count _ = ((m.siu.setPage p .free).page p').passes
    rw [hlist, hpage]
    have hcount := hposted p'
    by_cases hp : p' = p
    · subst hp
      rw [hscan, List.count_cons_self] at hcount
      rw [if_pos rfl]
      exact Nat.succ.inj hcount
    · rw [List.count_cons_of_ne fun he => hp (by cases he; rfl)] at hcount
      rw [if_neg hp, hcount]
  · intro p'
    show (m.siu.setPage p .free).page p' = .filling ↔ (m.siu.setPage p .free).port = _
    rw [hpage, setPage_port, hport, ← hfilling]
    split
    · subst p'; simp [hscan]
    · rfl
  · intro ho
    exact absurd (hclosed (hopen ▸ ho)) (by simp)
  · intro hrun
    obtain ⟨ho, hfinal⟩ := hrunning (hnode ▸ hrun)
    exact ⟨hopen.trans ho, fun k hm => hfinal k (List.mem_cons_of_mem _ (hlist ▸ hm))⟩
  · show m.tt.requests.Pairwise _
    rw [hlist]
    exact (List.pairwise_cons.1 hlast).2

theorem exposureStep_pagesAgree (h : PagesAgree s) (c : Settings) : PagesAgree (exposureStep c s) := by
  rw [exposureStep_frame]
  exact h.congr (fun p => by cases p <;> rfl) rfl rfl rfl id

theorem execBinClose_pagesAgree (h : PagesAgree s) {e : Nat} (hstep : execBinClose e s = .next t) : PagesAgree t := by
  obtain ⟨k, rest, c, hr, -, -, rfl⟩ := execBinClose_next hstep
  have htaken := h.taken hr (by simp) e
  exact (exposureStep_pagesAgree (htaken.postsOnly (binClosed_postsOnly c k _)) c).postsOnly (served_postsOnly _)

/-- The table is closed with its list empty: no scan pass stood behind the final close, so no page is POSTED (R54). -/
theorem execFinalClose_pagesAgree (h : PagesAgree s) {e : Nat} (hstep : execFinalClose e s = .next t) :
    PagesAgree t := by
  obtain ⟨k, rest, c, hr, -, -, rfl⟩ := execFinalClose_next hstep
  have htaken := h.taken hr (by simp) e
  have hdealt := dealWithTracks_postsOnly c k true (s.takeRequest e rest)
  have hclosed := exposureStep_pagesAgree (htaken.postsOnly hdealt) c
  have hnode : (exposureStep c (dealWithTracks c k true (s.takeRequest e rest))).rca.node = .running →
      s.rca.node = .running := by rw [exposureStep_frame]; exact hdealt.node
  have hpage : ∀ p, ((exposureStep c (dealWithTracks c k true (s.takeRequest e rest))).siu.page p).passes = 0 := by
    intro p
    have hpage' : (exposureStep c (dealWithTracks c k true (s.takeRequest e rest))).siu.page p = s.siu.page p := by
      rw [exposureStep_frame, hdealt.siu]
      cases p <;> rfl
    have hbehind := (List.pairwise_cons.1 (hr ▸ h.last)).1
    rw [hpage', ← h.posted p, hr, List.count_cons_of_ne (by simp)]
    exact List.count_eq_zero_of_not_mem fun hm => hbehind _ hm ⟨k, rfl⟩ p rfl
  generalize exposureStep c (dealWithTracks c k true (s.takeRequest e rest)) = m at *
  refine PagesAgree.postsOnly (s := m.served.closeTable) ?_ (testDrainEnd_postsOnly _)
  exact
    { posted := fun p => (hpage p).symm
      filling := hclosed.filling
      closed := fun _ => rfl
      running := fun hrun => absurd (by rw [hr]; simp) ((h.running (hnode hrun)).2 k)
      last := List.Pairwise.nil }

/-! ## Runs (R29, R51, R158, R159, R161) -/

theorem execPowerOnReset_pagesAgree {e : Nat} {straps : BitVec 3} {pair : OdoPair} {carrier midScan : Bool}
    (hstep : execPowerOnReset e straps pair carrier midScan s = .next t) : PagesAgree t := by
  cases hstep
  exact
    { posted := fun p => by cases p <;> rfl
      filling := fun p => by cases p <;> cases midScan <;> simp [Siu.page, Siu.reset]
      closed := fun _ => rfl
      running := nofun
      last := List.Pairwise.nil }

theorem sendWord_port (u : Siu) : u.sendWord.port = u.port := by
  unfold Siu.sendWord
  split <;> rfl

theorem page_start (c : Settings) (u : Siu) (p : PageId) : (u.start c).page p = (u.page p).atRunStart := by
  cases p
  · exact (sendWord_pages _).1
  · exact (sendWord_pages _).2

theorem execRunStart_pagesAgree (h : PagesAgree s) {e : Nat} (hstep : execRunStart e s = .next t) : PagesAgree t := by
  unfold execRunStart at hstep
  simp only at hstep
  split at hstep
  · split at hstep <;> cases hstep
    rename_i r _
    have hport : (s.siu.start r.settings).port = s.siu.port := sendWord_port _
    refine ⟨fun p => ?_, fun p => ?_, nofun, fun _ => ⟨rfl, nofun⟩, List.Pairwise.nil⟩
    · show 0 = ((s.siu.start r.settings).page p).passes
      rw [page_start]
      cases s.siu.page p <;> rfl
    · show (s.siu.start r.settings).page p = .filling ↔ (s.siu.start r.settings).port = _
      rw [page_start, hport, ← h.filling]
      cases s.siu.page p <;> simp [Page.atRunStart]
  · cases hstep; exact elapse_pagesAgree h e

/-- The final close comes last in the list of the RUNNING node's open table (R54, R159). -/
theorem startDrain_pagesAgree (h : PagesAgree s) (hrun : s.rca.node = .running) : PagesAgree (startDrain s) := by
  obtain ⟨hopen, hfinal⟩ := h.running hrun
  refine PagesAgree.postsOnly ?_ (testForm_postsOnly _)
  constructor
  · intro p
    show (s.tt.requests ++ [Request.finalClose s.du.hw]).count _ = _
    rw [List.count_append, List.count_cons_of_ne (by simp)]
    exact h.posted p
  · exact h.filling
  · intro ho
    rw [show s.tt.isOpen = false from ho] at hopen
    cases hopen
  · exact nofun
  · refine List.pairwise_append.2 ⟨h.last, List.pairwise_singleton _ _, ?_⟩
    rintro r hr - - ⟨k, rfl⟩
    exact absurd hr (hfinal k)

theorem execEnterDraining_pagesAgree (h : PagesAgree s) {e : Nat} (hstep : execEnterDraining e s = .next t) :
    PagesAgree t := by
  unfold execEnterDraining at hstep
  simp only at hstep
  split at hstep <;> cases hstep
  · rename_i hrun
    exact startDrain_pagesAgree (elapse_pagesAgree h e) (of_decide_eq_true (Bool.and_eq_true_iff.1 hrun).1)
  · exact elapse_pagesAgree h e

/-! ## The step -/

theorem exec_pagesAgree (h : PagesAgree s) {i : Instr} (hstep : exec i s = .next t) : PagesAgree t := by
  cases hi : touchesIntake i with
  | false => exact h.postsOnly (exec_postsOnly hi hstep)
  | true =>
    cases i with
    | powerOnReset => exact execPowerOnReset_pagesAgree hstep
    | scanMessageBegin => exact execScanMessageBegin_pagesAgree h hstep
    | scanMessageEnd e => exact endMessage_pagesAgree (elapse_pagesAgree h e) hstep
    | scanMessageSilence => exact execScanMessageSilence_pagesAgree h hstep
    | exposureWordSent => exact execExposureWordSent_pagesAgree h hstep
    | endMarkAfterReset => exact execEndMarkAfterReset_pagesAgree h hstep
    | scanPass => exact execScanPass_pagesAgree h hstep
    | binClose => exact execBinClose_pagesAgree h hstep
    | finalClose => exact execFinalClose_pagesAgree h hstep
    | edgeApplication => exact h.servesOnly (execEdgeApplication_servesOnly hstep)
    | markApplication => exact h.servesOnly (execMarkApplication_servesOnly hstep)
    | neighbourLostApplication => exact h.servesOnly (execNeighbourLostApplication_servesOnly hstep)
    | runStart => exact execRunStart_pagesAgree h hstep
    | enterDraining => exact execEnterDraining_pagesAgree h hstep
    | _ => cases hi

/-- Settles O60: the queue of commands is no part of the law, and every command keeps pages, port and list in agreement. -/
theorem pagesLaw : Obligations.PagesLaw := by
  intro s t h hstep
  rw [pagesSound_iff] at h ⊢
  unfold step at hstep
  split at hstep
  · cases hstep; exact h
  · rename_i c rest _
    exact exec_pagesAgree (s := { s with pending := rest }) (h.congr (fun _ => rfl) rfl rfl rfl id) hstep

end Sys2Proof.Machine

/-! What the phases of a scan pass do (R56 to R66): the sample of a spot, one accepted pair, all pairs, the births. -/

namespace Sys2Proof.Machine

variable {s s' t b : State} {c : Settings} {scan : Scan} {q : CarSpot} {spots : List CarSpot} {pairs : List Candidate}
  {k : Candidate} {u v : Track}

/-! ## The sample of a spot (R61, R105) -/

/-- A STRONG spot with a width gives a wear sample of the current type, where there is one (R105). -/
theorem spotWear_eq (c : Settings) (u : Wau) (q : CarSpot) : spotWear c u q = if q.cls = .strong then
    q.width.bind fun w => u.currentType.bind fun i => c.wireTypes[i]?.map fun e => wearSample e i w else none := by
  unfold spotWear
  cases hcls : q.cls with
  | strong => cases hw : q.width <;> cases hi : u.currentType <;> simp
  | weak => simp
  | rejected => simp

/-- The smaller of a sample and the minimum so far, where either is present; the older of two equals (R61, R110). -/
def leastSample (wear minimum : Option WearSample) : Option WearSample :=
  match wear, minimum with
  | none, m => m
  | some w, none => some w
  | some w, some m => if w.residual < m.residual then some w else some m

/-- The accumulator that a first sample gives (R61). -/
def freshAccumulator (g : Int) (q : CarSpot) (wear : Option WearSample) : Accumulator := ⟨g, 1, q.x, q.z, wear⟩

theorem accumulate_none (g : Int) (q : CarSpot) (wear : Option WearSample) :
    accumulate g q wear none = freshAccumulator g q wear := by
  cases wear <;> simp [accumulate, Config.sampleLimit, freshAccumulator, smaller]

/-- A sample counts and adds up to 255 samples, its wear sample always counts; an empty accumulator counts from 0 (R50,
R61). -/
theorem accumulate_eq (g : Int) (q : CarSpot) (wear : Option WearSample) (acc : Option Accumulator) :
    accumulate g q wear acc = (let a := acc.getD ⟨g, 0, 0, 0, none⟩
      if a.count < 255 then ⟨a.bin, a.count + 1, a.sumX + q.x, a.sumZ + q.z, leastSample wear a.minimum⟩
      else ⟨a.bin, a.count, a.sumX, a.sumZ, leastSample wear a.minimum⟩) := by
  unfold accumulate
  generalize acc.getD ⟨g, 0, 0, 0, none⟩ = a
  have hleast : ∀ w, some (smaller a.minimum w) = leastSample (some w) a.minimum := by
    intro w
    unfold smaller leastSample
    cases a.minimum with
    | none => rfl
    | some m => simp only; split <;> rfl
  by_cases hfull : a.count < 255 <;> cases wear <;> simp [Config.sampleLimit, hfull, hleast, leastSample]

/-- A spot offered to an empty accumulator gives its first sample and touches nothing else (R61). -/
theorem offerSpot_empty (hb : scan.backtracking = false) (before : TrackState) (hu : u.acc = none) :
    offerSpot c scan before q u s = ({ u with acc := some (freshAccumulator scan.gpi q (spotWear c s.wau q)) }, s) := by
  rw [offerSpot_current hb c before q u s (by simp [hu]), hu, accumulate_none]

theorem backtracking_eq_false_iff (scan : Scan) : scan.backtracking = false ↔ scan.gpi = scan.hw := by
  simp [Scan.backtracking]

theorem backtracking_iff (scan : Scan) : scan.backtracking = true ↔ scan.gpi ≠ scan.hw := by simp [Scan.backtracking]

/-! ## Records (R62, R121, R127) -/

theorem offer_records (r : Record) (t : Track) (s : State) : (offer r t s).2.rq.records = s.rq.records
    ∨ (offer r t s).2.rq.records = s.rq.records ++ [⟨t.entryOf r, s.now⟩] := by
  obtain ⟨-, h⟩ | ⟨-, -, h⟩ | ⟨-, -, -, h⟩ | ⟨-, -, -, h⟩ := offer_cases r t s <;> rw [h]
  · exact .inl rfl
  · exact .inl rfl
  · exact .inl rfl
  · exact .inr (by rw [testForm_records]; simp [Rq.records])

theorem finishRecord_records (c : Settings) (r : Record) (t : Track) (s : State) :
    (finishRecord c r t s).2.rq.records = s.rq.records
      ∨ (finishRecord c r t s).2.rq.records = s.rq.records ++ [⟨t.entryOf r, s.now⟩] := by
  have hlatch := latchRecord_footprint (fun _ => True) s r
  have hrecords : (s.latchRecord r).rq.records = s.rq.records := by
    unfold State.latchRecord State.latchIf
    split <;> split <;> rfl
  rw [finishRecord_snd]
  by_cases ho : t.role = .owner
  · rw [route_of_owner ho, ← hrecords, ← hlatch.now]
    exact offer_records r t _
  · rw [route_of_not_owner ho]
    exact .inl hrecords

/-- An offer enters at most one record: that of an older bin, of a track that was not TENTATIVE (R62). -/
theorem offerSpot_records (c : Settings) (scan : Scan) (before : TrackState) (q : CarSpot) (u : Track) (s : State) :
    (offerSpot c scan before q u s).2.rq.records = s.rq.records
      ∨ ∃ a r, u.acc = some a ∧ before.isTentative = false ∧ a.bin < scan.gpi ∧ r.label = u.label ∧ r.gpi = a.bin
        ∧ r.final = false ∧ (offerSpot c scan before q u s).2.rq.records = s.rq.records ++ [⟨r, s.now⟩] := by
  obtain ⟨-, h⟩ | ⟨-, h⟩ | ⟨-, a, ha, hbin, h⟩ := offerSpot_cases c scan before q u s <;> rw [h]
  · exact .inl rfl
  · exact .inl rfl
  · unfold closeAccumulator
    split
    · exact .inl rfl
    · rename_i ht
      rcases finishRecord_records c (fullRecord c false u.label a) { u with acc := none, missedBins := 0 } s with hr | hr
      · exact .inl hr
      · exact .inr ⟨a, _, ha, by simpa using ht, hbin, rfl, rfl, rfl, hr⟩

/-- An offer changes neither where the track is nor what it is, but for role, records and accumulator; the missed bins of the
track return to 0 where they were not (R62). -/
theorem offerSpot_keeps_place (c : Settings) (scan : Scan) (before : TrackState) (q : CarSpot) (s : State)
    (hu : u.missedBins = 0) :
    let v := (offerSpot c scan before q u s).1
    v.label = u.label ∧ v.birth = u.birth ∧ v.link = u.link ∧ v.lastX = u.lastX ∧ v.lastZ = u.lastZ
      ∧ v.missedBins = 0 ∧ v.state = u.state := by
  obtain ⟨-, h⟩ | ⟨-, h⟩ | ⟨-, a, ha, hbin, h⟩ := offerSpot_cases c scan before q u s <;> simp only [h]
  · exact ⟨trivial, trivial, trivial, trivial, trivial, hu, trivial⟩
  · exact ⟨trivial, trivial, trivial, trivial, trivial, hu, trivial⟩
  · unfold closeAccumulator
    split
    · exact ⟨rfl, rfl, rfl, rfl, rfl, hu, rfl⟩
    · have hafter := (finishRecord_after c (fullRecord c false u.label a) { u with acc := none, missedBins := 0 } s).1
      exact ⟨hafter.label, hafter.birth, hafter.link, hafter.lastX, hafter.lastZ, hafter.missedBins, hafter.state⟩

/-! ## One pair (R25, R60 to R62) -/

/-- From one moment to a later one within a scan pass (R56). -/
abbrev PassReaches (s s' : State) : Prop := PassFootprint (fun _ => True) s s'

theorem offerSpot_reaches (c : Settings) (scan : Scan) (before : TrackState) (q : CarSpot) (u : Track) (s : State) :
    QueueFootprint (fun _ => True) s (offerSpot c scan before q u s).2 :=
  offerSpot_footprint c scan before q fun _ _ => trivial

/-- An accepted pair of a track and a spot that stand at its places. -/
theorem associatePair_eq (hu : s.tt.tracks[k.track]? = some u) (hq : spots[k.other]? = some q) :
    associatePair c scan spots s k =
      (offerSpot c scan u.state q (u.associate c q) (s.countSpot scan q)).2.withTracks
        (s.tt.tracks.set k.track (offerSpot c scan u.state q (u.associate c q) (s.countSpot scan q)).1) := by
  have htt := (offerSpot_reaches c scan u.state q (u.associate c q) (s.countSpot scan q)).tt
  unfold associatePair
  simp only [hu, hq]
  rw [show (offerSpot c scan u.state q (u.associate c q) (s.countSpot scan q)).2.tt.tracks = s.tt.tracks by rw [htt]; rfl]

/-- A pair without a track or a spot is nothing. -/
theorem associatePair_absent (h : s.tt.tracks[k.track]? = none ∨ spots[k.other]? = none) :
    associatePair c scan spots s k = s := by
  unfold associatePair
  split
  · rename_i hu hq
    rcases h with h | h
    · rw [h] at hu; cases hu
    · rw [h] at hq; cases hq
  · rfl

theorem associatePair_reaches (c : Settings) (scan : Scan) (spots : List CarSpot) (s : State) (k : Candidate) :
    PassReaches s (associatePair c scan spots s k) :=
  (associatePair_spec (I := fun _ => True) c scan spots s k (fun _ _ => trivial)
    fun _ _ _ _ _ _ _ => ⟨offerSpot_reaches _ _ _ _ _ _, trivial⟩).1

theorem associatePairs_reaches (c : Settings) (scan : Scan) (spots : List CarSpot) (pairs : List Candidate) (s : State) :
    PassReaches s (pairs.foldl (associatePair c scan spots) s) :=
  (associatePairs_spec (I := fun _ => True) c scan spots pairs s (fun _ _ => trivial)
    fun _ _ _ _ _ _ _ => ⟨offerSpot_reaches _ _ _ _ _ _, trivial⟩).1

@[simp] theorem associatePair_length (c : Settings) (scan : Scan) (spots : List CarSpot) (s : State) (k : Candidate) :
    (associatePair c scan spots s k).tt.tracks.length = s.tt.tracks.length :=
  (associatePair_spec (P := fun _ => True) (I := fun _ => True) c scan spots s k (fun _ _ => trivial)
    fun _ _ _ _ _ _ _ => ⟨offerSpot_reaches _ _ _ _ _ _, trivial⟩).2.2

/-- A pair leaves the other tracks as they were. -/
theorem associatePair_other {i : Nat} (hi : k.track ≠ i) :
    (associatePair c scan spots s k).tt.tracks[i]? = s.tt.tracks[i]? := by
  cases hu : s.tt.tracks[k.track]? with
  | none => rw [associatePair_absent (.inl hu)]
  | some u =>
    cases hq : spots[k.other]? with
    | none => rw [associatePair_absent (.inr hq)]
    | some q => rw [associatePair_eq hu hq]; exact List.getElem?_set_ne hi

/-! ## Statistics (R25) -/

/-- The statistics after one pair: a spot counts where there is one and the scan is not backtracking (R25). -/
theorem associatePair_siu (ht : k.track < s.tt.tracks.length) (ho : k.other < spots.length) :
    (associatePair c scan spots s k).siu = { s.siu with
      associated := bump (!scan.backtracking) s.siu.associated
      saturated := bump (!scan.backtracking && spots[k.other]?.any fun q => q.peak == 255) s.siu.saturated
      weak := bump (!scan.backtracking && spots[k.other]?.any fun q => q.cls == .weak) s.siu.weak } := by
  have hq := List.getElem?_eq_getElem ho
  rw [associatePair_eq (List.getElem?_eq_getElem ht) hq, State.withTracks_siu, (offerSpot_reaches _ _ _ _ _ _).siu, hq]
  rfl

/-- A pair whose places hold a track and a spot. -/
def Candidate.Within (tracks : List Track) (spots : List CarSpot) (k : Candidate) : Prop :=
  k.track < tracks.length ∧ k.other < spots.length

theorem associatePairs_siu (hpairs : ∀ k ∈ pairs, k.Within s.tt.tracks spots) :
    (pairs.foldl (associatePair c scan spots) s).siu = { s.siu with
      associated := pairs.foldl (fun n _ => bump (!scan.backtracking) n) s.siu.associated
      saturated := pairs.foldl (fun n k =>
        bump (!scan.backtracking && spots[k.other]?.any fun q => q.peak == 255) n) s.siu.saturated
      weak := pairs.foldl (fun n k =>
        bump (!scan.backtracking && spots[k.other]?.any fun q => q.cls == .weak) n) s.siu.weak } := by
  induction pairs generalizing s with
  | nil => rfl
  | cons k pairs ih =>
    obtain ⟨⟨ht, ho⟩, hrest⟩ := List.forall_mem_cons.1 hpairs
    have hwithin : ∀ k' ∈ pairs, k'.Within (associatePair c scan spots s k).tt.tracks spots := fun k' hk' =>
      ⟨by rw [associatePair_length]; exact (hrest k' hk').1, (hrest k' hk').2⟩
    rw [List.foldl_cons, ih hwithin, associatePair_siu ht ho]
    rfl

/-- A statistic that is held at 65,535 counts up to there (R25). -/
theorem foldl_bump {α : Type} (f : α → Bool) (l : List α) {n : Nat} (hn : n ≤ 65535) :
    l.foldl (fun n k => bump (f k) n) n = min (n + l.countP f) 65535 := by
  induction l generalizing n with
  | nil => simp [hn]
  | cons x l ih =>
    rw [List.foldl_cons, List.countP_cons]
    cases hx : f x with
    | false => rw [ih (by simpa [bump] using hn)]; simp [bump]
    | true =>
      have hbump : bump true n = min (n + 1) 65535 := rfl
      rw [hbump, ih (by omega)]
      simp only [if_true]
      omega

/-! ## Backtracking scans (R61) -/

/-- A pair of a backtracking scan changes its track alone. -/
theorem associatePair_backtracking (hb : scan.backtracking = true) (c : Settings) (spots : List CarSpot) (s : State)
    (k : Candidate) : ∃ ts, associatePair c scan spots s k = s.withTracks ts := by
  cases hu : s.tt.tracks[k.track]? with
  | none => exact ⟨s.tt.tracks, associatePair_absent (.inl hu)⟩
  | some u =>
    cases hq : spots[k.other]? with
    | none => exact ⟨s.tt.tracks, associatePair_absent (.inr hq)⟩
    | some q =>
      have hcount : s.countSpot scan q = s := by simp [State.countSpot, State.withSiu, hb, bump]
      rw [associatePair_eq hu hq, offerSpot_backtracking hb, hcount]
      exact ⟨_, rfl⟩

theorem associatePairs_backtracking (hb : scan.backtracking = true) (c : Settings) (spots : List CarSpot)
    (pairs : List Candidate) (s : State) : ∃ ts, pairs.foldl (associatePair c scan spots) s = s.withTracks ts := by
  induction pairs generalizing s with
  | nil => exact ⟨s.tt.tracks, rfl⟩
  | cons k pairs ih =>
    obtain ⟨ts, hts⟩ := associatePair_backtracking hb c spots s k
    obtain ⟨ts', hts'⟩ := ih (s.withTracks ts)
    exact ⟨ts', by rw [List.foldl_cons, hts, hts']; rfl⟩

/-! ## Births (R64 to R66) -/

/-- A newborn track with its first sample, where the scan gives one (R61, R64). -/
def bornTrack (c : Settings) (scan : Scan) (q : CarSpot) (w : Wau) (l : Label) : Track :=
  { newTrack l scan q with
    acc := if scan.backtracking then none else some (freshAccumulator scan.gpi q (spotWear c w q)) }

/-- A birth touches tracks and serial counter alone (R64, R65). -/
theorem birth_eq (c : Settings) (scan : Scan) (q : CarSpot) (s : State) : ∃ l n, l.origin = s.rca.slot
    ∧ birth c scan q s = s.withTt { s.tt with tracks := s.tt.tracks ++ [bornTrack c scan q s.wau l], serial := n } := by
  have hoffer : ∀ l, offerSpot c scan (.tentative 1 0) q (newTrack l scan q) s = (bornTrack c scan q s.wau l, s) := by
    intro l
    cases hb : scan.backtracking with
    | true => rw [offerSpot_backtracking hb]; simp [bornTrack, hb, newTrack]
    | false => rw [offerSpot_empty hb _ (by rfl)]; simp [bornTrack, hb]
  refine ⟨⟨s.rca.slot, allocateSerial s.rca.slot s.tt.tracks 8 s.tt.serial⟩,
    (allocateSerial s.rca.slot s.tt.tracks 8 s.tt.serial + 1) % 65536, rfl, ?_⟩
  unfold birth
  simp only [Config.trackEntries, Config.serials, hoffer]

/-- A track without regard to its label. -/
def Track.unlabelled (u : Track) : Track := { u with label := ⟨0, 0⟩ }

theorem bornTrack_unlabelled (c : Settings) (scan : Scan) (q : CarSpot) (w : Wau) (l : Label) :
    (bornTrack c scan q w l).unlabelled = bornTrack c scan q w ⟨0, 0⟩ := rfl

theorem births_cons (c : Settings) (scan : Scan) (q : CarSpot) (qs : List CarSpot) (s : State) :
    births c scan (q :: qs) s =
      if s.tt.tracks.length < 8 then births c scan qs (birth c scan q s) else s.setLatch .tableFull := rfl

/-- As many spots as there are free entries start tracks, in their order; the others latch TABLE_FULL (R64, R66). -/
theorem births_eq (c : Settings) (scan : Scan) (qs : List CarSpot) (s : State) : ∃ born n,
    births c scan qs s = (s.withTt { s.tt with tracks := s.tt.tracks ++ born, serial := n }).latchIf
        (decide (8 - s.tt.tracks.length < qs.length)) .tableFull
      ∧ born.map Track.unlabelled = (qs.take (8 - s.tt.tracks.length)).map (fun q => bornTrack c scan q s.wau ⟨0, 0⟩)
      ∧ (∀ u ∈ born, u.label.origin = s.rca.slot) ∧ (qs = [] → n = s.tt.serial) := by
  induction qs generalizing s with
  | nil => exact ⟨[], s.tt.serial, by simp [births, State.latchIf, State.withTt], by simp, by simp, fun _ => rfl⟩
  | cons q qs ih =>
    rw [births_cons]
    by_cases hroom : s.tt.tracks.length < 8
    · rw [if_pos hroom]
      obtain ⟨l, n, hl, hbirth⟩ := birth_eq c scan q s
      obtain ⟨born, n', hborn, hmap, horigin, -⟩ := ih (birth c scan q s)
      rw [hbirth] at hborn hmap horigin ⊢
      refine ⟨bornTrack c scan q s.wau l :: born, n', ?_, ?_, ?_, nofun⟩
      · rw [hborn]
        have hless : 7 - s.tt.tracks.length < qs.length ↔ 8 ≤ qs.length + s.tt.tracks.length := by omega
        simp [State.withTt, hless]
      · obtain ⟨m, hm⟩ : ∃ m, 8 - s.tt.tracks.length = m + 1 := ⟨7 - s.tt.tracks.length, by omega⟩
        have hm' : 8 - (s.tt.tracks.length + 1) = m := by omega
        simp only [State.withTt_tt, List.length_append, List.length_singleton, State.withTt_wau, hm'] at hmap
        rw [hm, List.take_succ_cons, List.map_cons, List.map_cons, hmap, bornTrack_unlabelled]
      · exact List.forall_mem_cons.2 ⟨hl, horigin⟩
    · rw [if_neg hroom]
      have hfull : 8 - s.tt.tracks.length = 0 := by omega
      refine ⟨[], s.tt.serial, ?_, by simp [hfull], by simp, nofun⟩
      simp [hfull, State.latchIf, State.withTt]

theorem births_siu (c : Settings) (scan : Scan) (qs : List CarSpot) (s : State) : (births c scan qs s).siu = s.siu := by
  obtain ⟨born, n, h, -⟩ := births_eq c scan qs s
  rw [h]
  unfold State.latchIf
  split <;> rfl

/-! ## The accepted pairs (R58, R59) -/

theorem mem_scanCandidates {ts : List Track} (h : k ∈ scanCandidates c ts spots) :
    ∃ u q, ts[k.track]? = some u ∧ spots[k.other]? = some q ∧ isCandidate c u q = true := by
  unfold scanCandidates at h
  obtain ⟨⟨u, i⟩, hu, h⟩ := List.mem_flatMap.1 h
  obtain ⟨⟨q, j⟩, hq, rfl⟩ := List.mem_map.1 h
  obtain ⟨hq, hcand⟩ := List.mem_filter.1 hq
  exact ⟨u, q, List.mk_mem_zipIdx_iff_getElem?.1 hu, List.mk_mem_zipIdx_iff_getElem?.1 hq, hcand⟩

theorem mem_of_mem_assign {cs : List Candidate} (h : k ∈ assign cs) : k ∈ cs :=
  (mem_sortBy _ _ _).1 ((greedy_sublist _ _ _).subset h)

/-- The accepted pairs of a scan (R59). -/
def scanPairs (c : Settings) (scan : Scan) (ts : List Track) : List Candidate :=
  assign (scanCandidates c ts (scan.spots.map (carSpot c)))

theorem scanPairs_within (c : Settings) (scan : Scan) (ts : List Track) :
    ∀ k ∈ scanPairs c scan ts, k.Within ts (scan.spots.map (carSpot c)) := by
  intro k hk
  obtain ⟨u, q, hu, hq, -⟩ := mem_scanCandidates (mem_of_mem_assign hk)
  exact ⟨(List.getElem?_eq_some_iff.1 hu).1, (List.getElem?_eq_some_iff.1 hq).1⟩

/-- No track stands in two accepted pairs (R59). -/
theorem scanPairs_tracks_nodup (c : Settings) (scan : Scan) (ts : List Track) :
    ((scanPairs c scan ts).map (·.track)).Nodup :=
  List.pairwise_map.2 ((greedy_disjoint _ _ _).imp fun h => h.1)

/-- The state after the pairs of a pass and the settled flag (R25, R60). -/
def paired (c : Settings) (scan : Scan) (s : State) : State :=
  ((scanPairs c scan s.tt.tracks).foldl (associatePair c scan (scan.spots.map (carSpot c))) s).settleBy scan

/-- The tracks that remain after the misses of a pass (R63). -/
def keptTracks (c : Settings) (scan : Scan) (s : State) : List Track :=
  countMisses ((scanPairs c scan s.tt.tracks).map (·.track)) (paired c scan s).tt.tracks

/-- The STRONG spots that no track took (R64). -/
def spotsLeft (c : Settings) (scan : Scan) (s : State) : List CarSpot :=
  leftOver (scan.spots.map (carSpot c)) ((scanPairs c scan s.tt.tracks).map (·.other))

theorem runPass_eq (c : Settings) (scan : Scan) (s : State) :
    runPass c scan s = births c scan (spotsLeft c scan s) ((paired c scan s).withTracks (keptTracks c scan s)) := rfl

theorem paired_reaches (c : Settings) (scan : Scan) (s : State) : PassReaches s (paired c scan s) :=
  (associatePairs_reaches c scan _ _ s).trans (settleBy_pass _ _ scan)

/-- The statistics and the settled flag of a pass (R25). -/
theorem runPass_siu (c : Settings) (scan : Scan) (s : State) :
    (runPass c scan s).siu = { s.siu with
      associated := (scanPairs c scan s.tt.tracks).foldl (fun n _ => bump (!scan.backtracking) n) s.siu.associated
      saturated := (scanPairs c scan s.tt.tracks).foldl (fun n k => bump (!scan.backtracking
        && (scan.spots.map (carSpot c))[k.other]?.any fun q => q.peak == 255) n) s.siu.saturated
      weak := (scanPairs c scan s.tt.tracks).foldl (fun n k => bump (!scan.backtracking
        && (scan.spots.map (carSpot c))[k.other]?.any fun q => q.cls == .weak) n) s.siu.weak
      settled := s.siu.settled || (!scan.backtracking && scan.level == s.siu.level) } := by
  rw [runPass_eq, births_siu, State.withTracks_siu]
  unfold paired State.settleBy
  rw [State.withSiu_siu, associatePairs_siu (scanPairs_within c scan s.tt.tracks)]

end Sys2Proof.Machine

/-! The exposure controller (R24 to R27): the word, the level, the exposure step of a close; and its law over a whole step
(O57). -/

namespace Sys2Proof.Machine

variable {s s' t : State} {c : Settings}

/-! ## The exposure word (R24) -/

/-- A word is sent at once, or becomes due after the word being sent (R24). -/
theorem sendWord_eq (u : Siu) : u.sendWord =
    { u with word := some (u.word.getD u.level), wordDue := u.wordDue || u.word.isSome } := by
  unfold Siu.sendWord
  cases u.word <;> simp

/-- A changed level sends the word (R24). -/
theorem stepTo_eq (u : Siu) (n : Nat) : u.stepTo n = if n = u.level then u
    else { u with level := n, word := some (u.word.getD n), wordDue := u.wordDue || u.word.isSome } := by
  unfold Siu.stepTo
  split
  · rfl
  · rw [sendWord_eq]

@[simp] theorem stepTo_level (u : Siu) (n : Nat) : (u.stepTo n).level = n := by
  rw [stepTo_eq]
  split
  · rename_i h; exact h.symm
  · rfl

@[simp] theorem stepTo_drift (u : Siu) (n : Nat) : (u.stepTo n).drift = u.drift := by
  rw [stepTo_eq]
  split <;> rfl

/-! ## The exposure step (R26, R27) -/

/-- Level and drift counter that a close leaves (R26, R27): an unsettled bin leaves both. -/
def exposureResult (c : Settings) (s : State) : Nat × Nat :=
  if s.siu.settled then exposureChoice c s.siu s.tt.tracks else (s.siu.level, s.siu.drift)

theorem exposureStep_siu (c : Settings) (s : State) : (exposureStep c s).siu =
    ({ s.siu with drift := (exposureResult c s).2 }.stepTo (exposureResult c s).1).clearStatistics := rfl

theorem exposureStep_level (c : Settings) (s : State) : (exposureStep c s).siu.level = (exposureResult c s).1 :=
  stepTo_level _ _

theorem exposureStep_drift (c : Settings) (s : State) : (exposureStep c s).siu.drift = (exposureResult c s).2 :=
  stepTo_drift _ _

/-- Where the level stays so do the word being sent and what is due (R24). -/
theorem exposureStep_word_of_same (h : (exposureResult c s).1 = s.siu.level) :
    (exposureStep c s).siu.word = s.siu.word ∧ (exposureStep c s).siu.wordDue = s.siu.wordDue := by
  rw [exposureStep_siu, stepTo_eq, if_pos h]
  exact ⟨rfl, rfl⟩

/-- A changed level is sent, after a word being sent (R24). -/
theorem exposureStep_word_of_changed (h : (exposureResult c s).1 ≠ s.siu.level) :
    (exposureStep c s).siu.word = some (s.siu.word.getD (exposureResult c s).1)
      ∧ (exposureStep c s).siu.wordDue = (s.siu.wordDue || s.siu.word.isSome) := by
  rw [exposureStep_siu, stepTo_eq, if_neg h]
  exact ⟨rfl, rfl⟩

/-- The level moves by at most one step within 0 to 15, and the drift counter stays below 16 (R26, R27). -/
theorem exposureResult_range (hstart : c.exposureStart ≤ 15) (hlevel : s.siu.level ≤ 15) (hdrift : s.siu.drift ≤ 15) :
    (exposureResult c s).1 ≤ 15 ∧ (exposureResult c s).1 ≤ s.siu.level + 1
      ∧ s.siu.level ≤ (exposureResult c s).1 + 1 ∧ (exposureResult c s).2 ≤ 15 := by
  unfold exposureResult
  split
  · unfold exposureChoice
    split
    · exact ⟨by omega, by omega, by omega, by omega⟩
    · split
      · exact ⟨by omega, by omega, by omega, by omega⟩
      · split
        · exact ⟨by omega, by omega, by omega, by omega⟩
        · split
          · split
            · unfold toward
              exact ⟨by grind, by grind, by grind, by omega⟩
            · exact ⟨hlevel, by omega, by omega, by omega⟩
          · exact ⟨hlevel, by omega, by omega, by omega⟩
  · exact ⟨hlevel, by omega, by omega, hdrift⟩

/-! ## The law -/

theorem exposureSound_of_siu (h : ExposureSound s) (hsiu : t.siu = s.siu) : ExposureSound t := by
  rw [ExposureSound, hsiu]; exact h

/-- The exposure controller but for its word: what the sensor port's messages leave alone (R14 to R21). -/
structure ExposureKept (s t : State) : Prop where
  level : t.siu.level = s.siu.level
  drift : t.siu.drift = s.siu.drift
  associated : t.siu.associated = s.siu.associated
  saturated : t.siu.saturated = s.siu.saturated
  weak : t.siu.weak = s.siu.weak
  word : t.siu.word = s.siu.word

namespace ExposureKept

theorem of_siu (h : t.siu = s.siu) : ExposureKept s t := by constructor <;> rw [h]

theorem trans {b : State} (h : ExposureKept s b) (h' : ExposureKept b t) : ExposureKept s t :=
  ⟨h'.level.trans h.level, h'.drift.trans h.drift, h'.associated.trans h.associated, h'.saturated.trans h.saturated,
    h'.weak.trans h.weak, h'.word.trans h.word⟩

theorem sound (hk : ExposureKept s t) (h : ExposureSound s) : ExposureSound t := by
  obtain ⟨hlevel, hdrift, hassociated, hsaturated, hweak, hword⟩ := hk
  rw [ExposureSound, hlevel, hdrift, hassociated, hsaturated, hweak, hword]
  exact h

end ExposureKept

theorem setPage_exposureKept (s : State) (p : PageId) (x : Page) : ExposureKept s (s.withSiu (s.siu.setPage p x)) := by
  cases p <;> constructor <;> rfl

theorem beginMessage_exposureKept (s : State) : ExposureKept s (beginMessage s) := by
  unfold beginMessage
  split
  · constructor <;> rfl
  · split
    · constructor <;> rfl
    · simp only
      split <;> constructor <;> rfl

theorem continuityCheck_exposureKept (bytes : List Byte) (s : State) : ExposureKept s (continuityCheck bytes s) := by
  rw [continuityCheck_frame]
  constructor <;> rfl

theorem portIdle_exposureKept (s : State) : ExposureKept s s.portIdle := by constructor <;> rfl

theorem takeMessage_exposureKept (c : Settings) (p : PageId) (bytes : List Byte) (s : State) :
    ExposureKept s (takeMessage c p bytes s) := by
  unfold takeMessage
  split
  · exact ((setPage_exposureKept s p .free).trans (.of_siu (t := State.loseScan _) rfl)).trans
      (continuityCheck_exposureKept bytes _)
  · exact ((continuityCheck_exposureKept bytes s).trans (setPage_exposureKept _ p (.posted _))).trans (.of_siu rfl)

theorem endMessage_exposureKept {bytes : List Byte} (hstep : endMessage bytes s = .next t) : ExposureKept s t := by
  unfold endMessage at hstep
  split at hstep
  · cases hstep
  · cases hstep
  · cases hstep
    split
    · exact (portIdle_exposureKept s).trans (continuityCheck_exposureKept bytes _)
    · exact portIdle_exposureKept s
  · split at hstep
    · split at hstep <;> cases hstep
      exact (portIdle_exposureKept s).trans (takeMessage_exposureKept _ _ bytes _)
    · cases hstep
      exact (portIdle_exposureKept s).trans (setPage_exposureKept s.portIdle _ .free)

theorem elapse_exposureKept (s : State) (e : Nat) : ExposureKept s (s.elapse e) := .of_siu rfl

theorem execScanMessageBegin_exposureKept {e : Nat} (hstep : execScanMessageBegin e s = .next t) : ExposureKept s t := by
  unfold execScanMessageBegin at hstep
  split at hstep <;> cases hstep
  exact (elapse_exposureKept s e).trans (beginMessage_exposureKept _)

theorem execScanMessageSilence_exposureKept {e : Nat} {bytes : List Byte}
    (hstep : execScanMessageSilence e bytes s = .next t) : ExposureKept s t := by
  unfold execScanMessageSilence at hstep
  split at hstep
  · cases hstep; exact (elapse_exposureKept s e).trans (portIdle_exposureKept _)
  all_goals exact (elapse_exposureKept s e).trans (endMessage_exposureKept hstep)

theorem execEndMarkAfterReset_exposureKept {e : Nat} (hstep : execEndMarkAfterReset e s = .next t) : ExposureKept s t := by
  unfold execEndMarkAfterReset at hstep
  split at hstep <;> cases hstep
  exact (elapse_exposureKept s e).trans (portIdle_exposureKept _)

/-- What a step does to the exposure level: at most one step, the level of a reset, or the start level of a run (R24, R27,
R29). -/
def LevelMoves (s t : State) : Prop :=
  t.siu.level ≤ s.siu.level + 1 ∧ s.siu.level ≤ t.siu.level + 1
    ∨ t.siu.level = 0 ∧ t.rca.node = .unconfigured
    ∨ s.rca.node = .ready ∧ t.rca.node = .running
      ∧ ∃ r, t.rca.runSettings = some r ∧ t.siu.level = r.settings.exposureStart

theorem levelMoves_of_same (h : t.siu.level = s.siu.level) : LevelMoves s t := .inl ⟨by omega, by omega⟩

theorem ExposureKept.moves (hk : ExposureKept s t) (h : ExposureSound s) : ExposureSound t ∧ LevelMoves s t :=
  ⟨hk.sound h, levelMoves_of_same hk.level⟩

theorem ServesOnly.exposureKept {e : Nat} (h : ServesOnly s t e) : ExposureKept s t := by
  obtain ⟨r, rest, -, -, hp⟩ := h
  exact .of_siu hp.siu

/-- The next word is that of the level (R24). -/
theorem execExposureWordSent_exposure (h : ExposureSound s) {e : Nat} (hstep : execExposureWordSent e s = .next t) :
    ExposureSound t ∧ LevelMoves s t := by
  unfold execExposureWordSent at hstep
  split at hstep <;> cases hstep
  obtain ⟨hlevel, hdrift, hassociated, hsaturated, hweak, -⟩ := h
  refine ⟨⟨hlevel, hdrift, hassociated, hsaturated, hweak, fun w hw => ?_⟩, levelMoves_of_same rfl⟩
  change (if s.siu.wordDue then some s.siu.level else none) = some w at hw
  split at hw <;> cases hw
  exact hlevel

/-- The pass of a scan raises the statistics within their width (R25). -/
theorem execScanPass_exposure (h : ExposureSound s) {e : Nat} (hstep : execScanPass e s = .next t) :
    ExposureSound t ∧ LevelMoves s t := by
  obtain ⟨p, rest, c, scan, -, -, -, -, rfl⟩ := execScanPass_next hstep
  obtain ⟨hlevel, hdrift, hassociated, hsaturated, hweak, hword⟩ := h
  have hpass : ExposureSound (runPass c scan (s.takeRequest e rest)) := by
    rw [ExposureSound, runPass_siu]
    refine ⟨hlevel, hdrift, ?_, ?_, ?_, hword⟩
    · show List.foldl _ s.siu.associated _ ≤ _
      rw [foldl_bump _ _ hassociated]; exact min_le_right _ _
    · show List.foldl _ s.siu.saturated _ ≤ _
      rw [foldl_bump _ _ hsaturated]; exact min_le_right _ _
    · show List.foldl _ s.siu.weak _ ≤ _
      rw [foldl_bump _ _ hweak]; exact min_le_right _ _
  have hkept : ExposureKept (runPass c scan (s.takeRequest e rest)) (endPass p (runPass c scan (s.takeRequest e rest))) :=
    (setPage_exposureKept _ p .free).trans (.of_siu rfl)
  refine ⟨hkept.sound hpass, levelMoves_of_same ?_⟩
  rw [hkept.level, runPass_siu]
  rfl

/-- The exposure step of a close keeps the law (R26, R27). -/
theorem exposureStep_exposure (hstart : c.exposureStart ≤ 15) (h : ExposureSound s) :
    ExposureSound (exposureStep c s) ∧ (exposureStep c s).siu.level ≤ s.siu.level + 1
      ∧ s.siu.level ≤ (exposureStep c s).siu.level + 1 := by
  obtain ⟨hlevel, hdrift, -, -, -, hword⟩ := h
  obtain ⟨hnew, hup, hdown, hdrift'⟩ := exposureResult_range hstart hlevel hdrift
  rw [← exposureStep_level] at hnew hup hdown
  rw [← exposureStep_drift] at hdrift'
  have hframe := exposureStep_frame c s
  refine ⟨⟨hnew, hdrift', ?_, ?_, ?_, fun w hw => ?_⟩, hup, hdown⟩
  · rw [hframe]; exact Nat.zero_le _
  · rw [hframe]; exact Nat.zero_le _
  · rw [hframe]; exact Nat.zero_le _
  · by_cases hsame : (exposureResult c s).1 = s.siu.level
    · rw [(exposureStep_word_of_same hsame).1] at hw
      exact hword w hw
    · rw [(exposureStep_word_of_changed hsame).1] at hw
      cases hw
      cases hs : s.siu.word with
      | none => rw [exposureStep_level] at hnew; exact hnew
      | some w => exact hword w hs

theorem exposureStart_le (hrun : RunSound s) (hc : s.settings = some c) : c.exposureStart ≤ 15 := by
  obtain ⟨-, -, -, -, -, -, -, -, -, -, -, -, -, -, -, -, -, -, -, -, -, -, -, -, -, hstart, -⟩ :=
    settingsSound_of_runSound hrun hc
  exact hstart

/-- A close reaches its exposure step with the SIU as it was. -/
theorem exposure_of_close {m : State} (hrun : RunSound s) (h : ExposureSound s) (hc : s.settings = some c)
    (hm : m.siu = s.siu) (ht : t.siu = (exposureStep c m).siu) : ExposureSound t ∧ LevelMoves s t := by
  obtain ⟨hsound, hup, hdown⟩ := exposureStep_exposure (exposureStart_le hrun hc) (exposureSound_of_siu h hm)
  rw [hm] at hup hdown
  exact ⟨exposureSound_of_siu hsound ht, .inl ⟨by rw [ht]; exact hup, by rw [ht]; exact hdown⟩⟩

theorem execBinClose_exposure (hrun : RunSound s) (h : ExposureSound s) {e : Nat} (hstep : execBinClose e s = .next t) :
    ExposureSound t ∧ LevelMoves s t := by
  obtain ⟨k, rest, c, -, -, hc, rfl⟩ := execBinClose_next hstep
  exact exposure_of_close hrun h hc (binClosed_postsOnly c k (s.takeRequest e rest)).siu rfl

theorem execFinalClose_exposure (hrun : RunSound s) (h : ExposureSound s) {e : Nat}
    (hstep : execFinalClose e s = .next t) : ExposureSound t ∧ LevelMoves s t := by
  obtain ⟨k, rest, c, -, -, hc, rfl⟩ := execFinalClose_next hstep
  exact exposure_of_close hrun h hc (dealWithTracks_postsOnly c k true (s.takeRequest e rest)).siu (testDrainEnd_siu _)

/-! ### Runs (R29, R161) -/

theorem execPowerOnReset_exposure {e : Nat} {straps : BitVec 3} {pair : OdoPair} {carrier midScan : Bool}
    (hstep : execPowerOnReset e straps pair carrier midScan s = .next t) : ExposureSound t ∧ LevelMoves s t := by
  cases hstep
  refine ⟨⟨Nat.zero_le _, Nat.zero_le _, Nat.zero_le _, Nat.zero_le _, Nat.zero_le _, fun w hw => ?_⟩,
    .inr (.inl ⟨rfl, rfl⟩)⟩
  cases hw
  exact Nat.zero_le _

/-- A run begins at its start level (R29). -/
theorem start_eq (c : Settings) (u : Siu) : u.start c = { u with
    pageA := u.pageA.atRunStart, pageB := u.pageB.atRunStart, continuity := none, level := c.exposureStart, drift := 0
    associated := 0, saturated := 0, weak := 0, settled := false
    word := some (u.word.getD c.exposureStart), wordDue := u.wordDue || u.word.isSome } := sendWord_eq _

theorem execRunStart_exposure (hrun : RunSound s) (h : ExposureSound s) {e : Nat} (hstep : execRunStart e s = .next t) :
    ExposureSound t ∧ LevelMoves s t := by
  unfold execRunStart at hstep
  simp only at hstep
  split at hstep
  · rename_i hready
    split at hstep <;> cases hstep
    rename_i r hr
    obtain ⟨-, -, -, -, -, -, -, -, -, -, -, -, -, -, -, -, -, -, -, -, -, -, -, -, -, hstart, -⟩ := hrun.1 r hr
    obtain ⟨-, -, -, -, -, hword⟩ := h
    have hsiu : (startRun r (s.elapse e)).siu = s.siu.start r.settings := rfl
    have hnode : s.rca.node = .ready := of_decide_eq_true (Bool.and_eq_true_iff.1 hready).1
    rw [ExposureSound, LevelMoves, hsiu, start_eq]
    refine ⟨⟨hstart, Nat.zero_le _, Nat.zero_le _, Nat.zero_le _, Nat.zero_le _, fun w hw => ?_⟩,
      .inr (.inr ⟨hnode, rfl, r, rfl, rfl⟩)⟩
    cases hw
    cases hs : s.siu.word with
    | none => exact hstart
    | some w => exact hword w hs
  · cases hstep; exact (elapse_exposureKept s e).moves h

theorem startDrain_siu (s : State) : (startDrain s).siu = s.siu := (testForm_postsOnly _).siu

theorem execEnterDraining_exposureKept {e : Nat} (hstep : execEnterDraining e s = .next t) : ExposureKept s t := by
  unfold execEnterDraining at hstep
  simp only at hstep
  split at hstep <;> cases hstep
  · exact .of_siu (startDrain_siu _)
  · exact elapse_exposureKept s e

/-! ### The step -/

theorem exec_exposure (hrun : RunSound s) (h : ExposureSound s) {i : Instr} (hstep : exec i s = .next t) :
    ExposureSound t ∧ LevelMoves s t := by
  cases hi : touchesIntake i with
  | false => exact (ExposureKept.of_siu (exec_postsOnly hi hstep).siu).moves h
  | true =>
    cases i with
    | powerOnReset => exact execPowerOnReset_exposure hstep
    | scanMessageBegin => exact (execScanMessageBegin_exposureKept hstep).moves h
    | scanMessageEnd e => exact ((elapse_exposureKept s e).trans (endMessage_exposureKept hstep)).moves h
    | scanMessageSilence => exact (execScanMessageSilence_exposureKept hstep).moves h
    | exposureWordSent => exact execExposureWordSent_exposure h hstep
    | endMarkAfterReset => exact (execEndMarkAfterReset_exposureKept hstep).moves h
    | scanPass => exact execScanPass_exposure h hstep
    | binClose => exact execBinClose_exposure hrun h hstep
    | finalClose => exact execFinalClose_exposure hrun h hstep
    | edgeApplication => exact (execEdgeApplication_servesOnly hstep).exposureKept.moves h
    | markApplication => exact (execMarkApplication_servesOnly hstep).exposureKept.moves h
    | neighbourLostApplication => exact (execNeighbourLostApplication_servesOnly hstep).exposureKept.moves h
    | runStart => exact execRunStart_exposure hrun h hstep
    | enterDraining => exact (execEnterDraining_exposureKept hstep).moves h
    | _ => cases hi

/-- Settles O57: only the closes, a run start and a reset change the level, a close by its exposure step. -/
theorem exposureLaw : Obligations.ExposureLaw := by
  intro s t hrun h hstep
  unfold step at hstep
  split at hstep
  · cases hstep; exact (ExposureKept.of_siu rfl).moves h
  · rename_i c rest _
    exact exec_exposure (s := { s with pending := rest }) hrun h hstep

end Sys2Proof.Machine

/-! The exposure decision of the closes (R26, R27), the exposure word (R24), and the start of a run (R157, R158). -/

namespace Sys2Proof.Machine

variable {s t : State} {c : Settings}

/-! ## The rows of the decision (R26, R27) -/

section Rows

variable {u : Siu} {ts : List Track}

/-- Row 1: at least half the spots are saturated. -/
theorem exposureChoice_saturated (h : 2 ≤ u.associated ∧ u.associated ≤ 2 * u.saturated) :
    exposureChoice c u ts = (u.level - 1, 0) := if_pos h

variable (h1 : ¬(2 ≤ u.associated ∧ u.associated ≤ 2 * u.saturated))

include h1

/-- Row 2: more than half the spots are WEAK. -/
theorem exposureChoice_weak (h2 : u.associated < 2 * u.weak) :
    exposureChoice c u ts = (min (u.level + 1) 15, 0) := by
  rw [exposureChoice, if_neg h1, if_pos h2]

variable (h2 : 2 * u.weak ≤ u.associated)

include h2

/-- No row: spots were associated. -/
theorem exposureChoice_associated (h3 : u.associated ≠ 0) : exposureChoice c u ts = (u.level, 0) := by
  rw [exposureChoice, if_neg h1, if_neg (by omega), if_neg (by simp [h3]), if_neg (by simp [h3])]

variable (h3 : u.associated = 0)

include h3

/-- Row 3: a CONFIRMED or COASTING track exists and no spot was associated. -/
theorem exposureChoice_unseen (h4 : ∃ v ∈ ts, v.state.isTentative = false) :
    exposureChoice c u ts = (min (u.level + 1) 15, 0) := by
  have hany : (ts.any fun v => !v.state.isTentative) = true := by simpa using h4
  rw [exposureChoice, if_neg h1, if_neg (by omega), if_pos ⟨h3, hany⟩]

/-- No row: every track is TENTATIVE. -/
theorem exposureChoice_tentative (h4 : ts ≠ []) (h5 : ∀ v ∈ ts, v.state.isTentative = true) :
    exposureChoice c u ts = (u.level, 0) := by
  have hany : ¬(u.associated = 0 ∧ (ts.any fun v => !v.state.isTentative) = true) := by simpa [h3] using h5
  rw [exposureChoice, if_neg h1, if_neg (by omega), if_neg hany, if_neg (by simp [h4])]

/-- Row 4: the table is empty; the sixteenth such bin moves the level toward the start level. -/
theorem exposureChoice_empty (h4 : ts = []) : exposureChoice c u ts =
    if u.drift = 15 then (toward c.exposureStart u.level, 0) else (u.level, u.drift + 1) := by
  have hany : ¬(u.associated = 0 ∧ (ts.any fun v => !v.state.isTentative) = true) := by simp [h4]
  rw [exposureChoice, if_neg h1, if_neg (by omega), if_neg hany, if_pos ⟨h3, h4⟩]
  simp

end Rows

/-! ## The decision of a close -/

theorem execBinClose_eq {e : Nat} {k : Int} {rest : List Request} (hr : s.tt.requests = .binClose k :: rest)
    (ho : s.tt.isOpen = true) (hc : s.settings = some c) :
    exec (.binClose e) s = .next (exposureStep c (binClosed c k (s.takeRequest e rest))).served := by
  have hc' : (s.elapse e).settings = some c := hc
  show execBinClose e s = _
  simp [execBinClose, serveNext, hr, ho, hc', State.takeRequest, binClosed]

theorem execFinalClose_eq {e : Nat} {k : Int} {rest : List Request} (hr : s.tt.requests = .finalClose k :: rest)
    (ho : s.tt.isOpen = true) (hc : s.settings = some c) : exec (.finalClose e) s =
      .next (testDrainEnd (exposureStep c (dealWithTracks c k true (s.takeRequest e rest))).served.closeTable) := by
  have hc' : (s.elapse e).settings = some c := hc
  show execFinalClose e s = _
  simp [execFinalClose, serveNext, hr, ho, hc', State.takeRequest]

/-- Either close makes one exposure step, with the SIU as it found it and the tracks that it leaves (R28, R125). -/
theorem exec_close_exposureStep {e : Nat} {k : Int} {i : Instr} {rest : List Request}
    (hi : i = .binClose e ∧ s.tt.requests = .binClose k :: rest
      ∨ i = .finalClose e ∧ s.tt.requests = .finalClose k :: rest)
    (ho : s.tt.isOpen = true) (hc : s.settings = some c) : ∃ t m, exec i s = .next t ∧ m.siu = s.siu
      ∧ t.siu = (exposureStep c m).siu ∧ t.tt.tracks = m.tt.tracks := by
  rcases hi with ⟨rfl, hr⟩ | ⟨rfl, hr⟩
  · exact ⟨_, _, execBinClose_eq hr ho hc, (binClosed_postsOnly c k (s.takeRequest e rest)).siu, rfl, rfl⟩
  · refine ⟨_, _, execFinalClose_eq hr ho hc, (dealWithTracks_postsOnly c k true (s.takeRequest e rest)).siu,
      testDrainEnd_siu _, ?_⟩
    rw [testDrainEnd_tt]
    rfl

/-- Settles O27: either close makes one exposure step, and each row of the decision is a lemma. -/
theorem exposureDecision : Obligations.ExposureDecision := by
  intro e k i rest c s hi ho hc
  obtain ⟨t, m, hexec, hm, ht, hts⟩ := exec_close_exposureStep hi ho hc
  have hlevel : t.siu.level = (exposureResult c m).1 := by rw [ht]; exact exposureStep_level c m
  have hdrift : t.siu.drift = (exposureResult c m).2 := by rw [ht]; exact exposureStep_drift c m
  have hresult : exposureResult c m =
      if s.siu.settled then exposureChoice c s.siu t.tt.tracks else (s.siu.level, s.siu.drift) := by
    rw [exposureResult, hm, hts]
  refine ⟨t, hexec, ?_, fun hsettled => ?_, fun hsettled => ?_, fun hsame => ?_, fun hchanged hword => ?_,
    fun hchanged w hword => ?_⟩
  · rw [ht, exposureStep_frame]
    exact ⟨rfl, rfl, rfl, rfl⟩
  · rw [hlevel, hdrift, hresult, hsettled]
    exact ⟨rfl, rfl⟩
  · rw [hsettled, if_pos rfl] at hresult
    have hrow : ∀ {r : Nat × Nat}, exposureChoice c s.siu t.tt.tracks = r → t.siu.level = r.1 ∧ t.siu.drift = r.2 := by
      rintro r rfl
      exact ⟨hlevel.trans (congrArg Prod.fst hresult), hdrift.trans (congrArg Prod.snd hresult)⟩
    refine ⟨fun h1 => hrow (exposureChoice_saturated h1), fun h1 => ⟨fun h2 => hrow (exposureChoice_weak h1 h2),
      fun h2 h3 => hrow (exposureChoice_associated h1 h2 h3), fun h2 h3 h4 => hrow (exposureChoice_unseen h1 h2 h3 h4),
      fun h2 h3 h4 h5 => hrow (exposureChoice_tentative h1 h2 h3 h4 h5), fun h2 h3 h4 h5 => ?_, fun h2 h3 h4 h5 => ?_⟩⟩
    · exact hrow ((exposureChoice_empty h1 h2 h3 h4).trans (if_neg h5))
    · exact (hrow ((exposureChoice_empty h1 h2 h3 h4).trans (if_pos h5))).symm
  · rw [ht, ← hm]
    rw [hlevel, ← hm] at hsame
    exact exposureStep_word_of_same hsame
  · rw [hlevel, ← hm] at hchanged
    rw [hlevel, ht, (exposureStep_word_of_changed hchanged).1, hm, hword]
    rfl
  · rw [hlevel, ← hm] at hchanged
    obtain ⟨hword', hdue⟩ := exposureStep_word_of_changed hchanged
    rw [ht, hword', hdue, hm, hword]
    exact ⟨rfl, by simp⟩

/-! ## The word sent (R24, R170) -/

/-- The character of a level within its range (R170). -/
theorem outward_of_word {u : Siu} {w : Nat} (hw : u.word = some w) (h : w ≤ 15) :
    ∃ b : Byte, u.outward = some b ∧ b.toNat % 16 = w ∧ b.toNat / 16 = 0 := by
  refine ⟨BitVec.ofNat 8 w, by simp [Siu.outward, hw], ?_⟩
  have hnat : (BitVec.ofNat 8 w).toNat = w := by rw [BitVec.toNat_ofNat]; omega
  rw [hnat]
  omega

/-- Settles O10. -/
theorem exposureWordSent : Obligations.ExposureWordSent := by
  intro e w s hw
  refine ⟨?_, outward_of_word hw⟩
  show execExposureWordSent e s = _
  unfold execExposureWordSent
  rw [hw]
  rfl

/-! ## The start of a run (R29, R157, R158) -/

theorem atRunStart_eq (x : Page) : x.atRunStart = if x = .filling then .filling else .free := by
  cases x <;> simp [Page.atRunStart]

theorem execRunStart_starts {e : Nat} {r : SourcedSettings} (hn : s.rca.node = .ready)
    (hlong : s.rca.since + 100000 ≤ s.now + e) (hr : s.rca.pendingSettings = some r) :
    exec (.runStart e) s = .next (startRun r (s.elapse e)) := by
  have hspell : spellLongEnough (s.elapse e) = true := decide_eq_true hlong
  show execRunStart e s = _
  simp [execRunStart, hn, hspell, hr]

theorem execRunStart_idles {e : Nat} (h : s.rca.node ≠ .ready ∨ s.now + e < s.rca.since + 100000) :
    exec (.runStart e) s = .next (s.elapse e) := by
  have hno : (decide (s.rca.node = .ready) && spellLongEnough (s.elapse e)) = false := by
    rcases h with hn | hshort
    · simp [hn]
    · have hspell : spellLongEnough (s.elapse e) = false := decide_eq_false (Nat.not_le.2 hshort)
      rw [hspell, Bool.and_false]
  exact if_neg (Bool.eq_false_iff.1 hno)

/-- Settles O47: every clause reads one block of the state that a run start gives. -/
theorem runStart : Obligations.RunStart := by
  intro e s
  refine ⟨fun r hn hlong hr => ?_, execRunStart_idles⟩
  refine ⟨_, execRunStart_starts hn hlong hr, rfl, rfl, ?_, rfl, rfl, rfl, rfl, rfl, rfl, rfl⟩
  show s.siu.start r.settings = _
  rw [start_eq, atRunStart_eq, atRunStart_eq]

end Sys2Proof.Machine

/-! The sensor port: how a message begins and ends (R14 to R22). -/

namespace Sys2Proof.Machine

variable {s : State} {c : Settings} {p : PageId} {bytes : List Byte} {e : Nat} {i : Instr}

/-! ## The beginning of a message (R15) -/

theorem exec_messageBegin (h : s.siu.port = .idle) :
    exec (.scanMessageBegin e) s = .next (beginMessage (s.elapse e)) := by
  show execScanMessageBegin e s = _
  unfold execScanMessageBegin
  rw [h]

theorem beginMessage_pageA (h : s.siu.pageA = .free) :
    beginMessage s = s.withSiu { s.siu with pageA := .filling, port := .captured .a } := if_pos h

theorem beginMessage_pageB (hA : s.siu.pageA ≠ .free) (hB : s.siu.pageB = .free) :
    beginMessage s = s.withSiu { s.siu with pageB := .filling, port := .captured .b } := by
  rw [beginMessage, if_neg hA, if_pos hB]

theorem beginMessage_uncaptured (hA : s.siu.pageA ≠ .free) (hB : s.siu.pageB ≠ .free) :
    beginMessage s = if s.rca.node = .running then (s.withSiu { s.siu with port := .uncaptured }).loseScan
      else s.withSiu { s.siu with port := .uncaptured } := by
  rw [beginMessage, if_neg hA, if_neg hB]
  rfl

/-- Settles O6: a case for each of page A, page B and no page FREE. -/
theorem messageBegins : Obligations.MessageBegins := by
  intro e s hidle
  rw [exec_messageBegin hidle]
  refine ⟨fun hA => ?_, fun hA hB => ?_, fun hA hB hn => ?_, fun hA hB hn => ?_⟩
  · rw [beginMessage_pageA (s := s.elapse e) hA]; rfl
  · rw [beginMessage_pageB (s := s.elapse e) hA hB]; rfl
  · rw [beginMessage_uncaptured (s := s.elapse e) hA hB, if_neg (by exact hn)]; rfl
  · rw [beginMessage_uncaptured (s := s.elapse e) hA hB, if_pos (by exact hn)]; rfl

/-! ## The end of a message (R14, R16, R17) -/

/-- End mark and silence end a message alike (R14). -/
theorem exec_messageEnd (hi : i = .scanMessageEnd e bytes ∨ i = .scanMessageSilence e bytes)
    (hport : s.siu.port ≠ .ignoring) : exec i s = endMessage bytes (s.elapse e) := by
  rcases hi with rfl | rfl
  · rfl
  · show execScanMessageSilence e bytes s = _
    unfold execScanMessageSilence
    split
    · contradiction
    all_goals rfl

theorem endMessage_discarded (hport : s.siu.port = .captured p) (hn : s.rca.node ≠ .running) :
    endMessage bytes s = .next (s.portIdle.withSiu (s.portIdle.siu.setPage p .free)) := by
  simp [endMessage, hport, hn]

theorem endMessage_taken (hport : s.siu.port = .captured p) (hn : s.rca.node = .running) (hc : s.settings = some c) :
    endMessage bytes s = .next (takeMessage c p bytes s.portIdle) := by
  simp [endMessage, hport, hn, hc]

theorem endMessage_uncaptured (hport : s.siu.port = .uncaptured) : endMessage bytes s =
    .next (if s.rca.node = .running then continuityCheck bytes s.portIdle else s.portIdle) := by
  simp [endMessage, hport]

/-- Settles O7: outside RUNNING each end leaves the port waiting and at most a page FREE. -/
theorem messageEndsUntaken : Obligations.MessageEndsUntaken := by
  intro e bytes i s hi
  refine ⟨fun p hport hn => ?_, fun hport hn => ?_, fun hport => ?_, fun hport => ?_⟩
  · rw [exec_messageEnd hi (by simp [hport]), endMessage_discarded (s := s.elapse e) hport hn]
    cases p <;> rfl
  · rw [exec_messageEnd hi (by simp [hport]), endMessage_uncaptured (s := s.elapse e) hport, if_neg (by exact hn)]
    rfl
  · show execScanMessageSilence e bytes s = _
    unfold execScanMessageSilence
    rw [hport]
    rfl
  · show execEndMarkAfterReset e s = _
    unfold execEndMarkAfterReset
    rw [hport]
    rfl

/-! ## What a message says (R16, R18, R170) -/

theorem headerComplete_iff (bytes : List Byte) : headerComplete bytes = true ↔ 3 ≤ bytes.length := by
  simp [headerComplete]

/-- The three checks of form (R16). -/
theorem malformedScan_iff (bytes : List Byte) : malformedScan bytes = true ↔
    bytes.length < 3 ∨ 16 < fieldAt bytes 2 1 ∨ bytes.length ≠ 3 + 7 * fieldAt bytes 2 1 := by
  rw [malformedScan, Bool.or_eq_true, Bool.or_eq_true, decide_eq_true_iff, decide_eq_true_iff, Bool.not_eq_true',
    ← Bool.not_eq_true, headerComplete_iff, not_le, or_assoc]
  rfl

/-- The spots of a message at their offsets from its first byte (R170). -/
theorem decodeSpots_offsets (bytes : List Byte) (n : Nat) : decodeSpots n (bytes.drop 3) = (List.range n).map fun i =>
    (⟨fieldAt bytes (3 + 7 * i) 2, fieldAt bytes (5 + 7 * i) 2,
      if fieldAt bytes (7 + 7 * i) 2 = 65535 then none else some (fieldAt bytes (7 + 7 * i) 2),
      fieldAt bytes (9 + 7 * i) 1⟩ : Spot) := by
  simp only [decodeSpots_eq, fieldAt_drop, ← Nat.add_assoc, Nat.reduceAdd]

/-! ## The end of a captured message in RUNNING (R16 to R21) -/

/-- The missing scans before the number of a message (R19). -/
def missingScans (continuity : Option Nat) (number : Nat) : Nat :=
  match continuity with
  | some p => (number + 256 - p) % 256 - 1
  | none => 0

theorem continuityCheck_complete (h : 3 ≤ bytes.length) (s : State) : continuityCheck bytes s =
    (s.countSkipped (missingScans s.siu.continuity (scanNumber bytes))).withSiu
      { s.siu with continuity := some (scanNumber bytes) } :=
  if_pos ((headerComplete_iff bytes).2 h)

theorem continuityCheck_incomplete (h : bytes.length < 3) (s : State) :
    continuityCheck bytes s = s.withSiu { s.siu with continuity := none } :=
  if_neg (by rw [headerComplete_iff]; omega)

/-- Settles O8: a message without fault of form is checked for continuity, posted and counted; its spots stand at their
offsets. -/
theorem wellFormedMessageIsPosted : Obligations.WellFormedMessageIsPosted := by
  intro e bytes i p c s hi hport hn hc hheader hcount hlength
  have hformed : ¬ malformedScan bytes = true := by rw [malformedScan_iff]; omega
  rw [exec_messageEnd hi (by simp [hport]), endMessage_taken (s := s.elapse e) hport hn hc, takeMessage, if_neg hformed]
  simp only [continuityCheck_complete hheader, scanOf, screen, decodeSpots_offsets]
  cases p <;> rfl

/-- Settles O9: a malformed message is discarded before the continuity check, an uncaptured one takes part in it alone. -/
theorem malformedAndUncapturedMessages : Obligations.MalformedAndUncapturedMessages := by
  intro bytes s
  refine ⟨fun e i p c hi hport hn hc hbad => ?_, fun e i hi hport hn => ?_, fun hheader hnone => ?_,
    fun p hheader hsome hp => ?_, fun hheader => continuityCheck_incomplete hheader s⟩
  · rw [exec_messageEnd hi (by simp [hport]), endMessage_taken (s := s.elapse e) hport hn hc, takeMessage,
      if_pos ((malformedScan_iff bytes).2 hbad)]
    cases p <;> rfl
  · rw [exec_messageEnd hi (by simp [hport]), endMessage_uncaptured (s := s.elapse e) hport, if_pos (by exact hn)]
    rfl
  · rw [continuityCheck_complete hheader, hnone]
    rfl
  · have hmissing : missingScans (some p) (scanNumber bytes) = (((fieldAt bytes 0 1 : Int) - p) % 256).toNat - 1 := by
      show (fieldAt bytes 0 1 + 256 - p) % 256 - 1 = _
      omega
    rw [continuityCheck_complete hheader, hsome, hmissing]
    rfl

end Sys2Proof.Machine

/-! The offer of a spot to an accumulator in its five cases, and the pass of one spot within one track's gates (R57 to R62). -/

namespace Sys2Proof.Machine

variable {s b : State} {c : Settings} {scan : Scan} {q : CarSpot} {u : Track} {a : Accumulator} {before : TrackState}

/-! ## Accumulators of the scan's bin and of older ones (R61, R62) -/

/-- A sample joins an accumulator of the scan's bin (R61). -/
theorem offerSpot_joins (hb : scan.backtracking = false) (ha : u.acc = some a) (hbin : scan.gpi ≤ a.bin) :
    offerSpot c scan before q u s = ({ u with acc := some (if a.count < 255
      then ⟨a.bin, a.count + 1, a.sumX + q.x, a.sumZ + q.z, leastSample (spotWear c s.wau q) a.minimum⟩
      else ⟨a.bin, a.count, a.sumX, a.sumZ, leastSample (spotWear c s.wau q) a.minimum⟩) }, s) := by
  have hcurrent : ∀ a', u.acc = some a' → scan.gpi ≤ a'.bin := fun a' h => by
    obtain rfl := Option.some.inj (ha.symm.trans h)
    exact hbin
  rw [offerSpot_current hb c before q u s hcurrent, ha, accumulate_eq]
  rfl

/-- An older accumulator of a track that was TENTATIVE is cleared (R62, R70). -/
theorem offerSpot_clears (hb : scan.backtracking = false) (ha : u.acc = some a) (hbin : a.bin < scan.gpi)
    (ht : before.isTentative = true) : offerSpot c scan before q u s =
      ({ u with acc := some (freshAccumulator scan.gpi q (spotWear c s.wau q)) }, s) := by
  rw [offerSpot_older hb c before q u s ha hbin, closeAccumulator, if_pos ht]
  simp only [accumulate_none]

/-- An older accumulator of any other track is made into its record before the sample starts a fresh one (R62, R127). -/
theorem offerSpot_closes (hb : scan.backtracking = false) (ha : u.acc = some a) (hbin : a.bin < scan.gpi)
    (ht : before.isTentative = false) : offerSpot c scan before q u s =
      ({ (finishRecord c (fullRecord c false u.label a) { u with acc := none, missedBins := 0 } s).1 with
          acc := some (freshAccumulator scan.gpi q (spotWear c s.wau q)) },
        (finishRecord c (fullRecord c false u.label a) { u with acc := none, missedBins := 0 } s).2) := by
  have hacc := (finishRecord_after c (fullRecord c false u.label a) { u with acc := none, missedBins := 0 } s).1.acc
  have hwau := (finishRecord_footprint (P := fun _ => True) (r := fullRecord c false u.label a)
    (t := { u with acc := none, missedBins := 0 }) (s := s) c fun _ => trivial).wau
  rw [offerSpot_older hb c before q u s ha hbin, closeAccumulator, if_neg (by simp [ht])]
  simp only [hacc, hwau, accumulate_none]

/-! ## A pass of one spot within one track's gates (R57 to R60) -/

/-- The one pair of one track and one spot within its gates is accepted (R58, R59). -/
theorem scanPairs_single {spot : Spot} (hs : scan.spots = [spot]) (h : isCandidate c u (carSpot c spot) = true) :
    ∃ key, scanPairs c scan [u] = [⟨0, 0, key⟩] := by
  refine ⟨(distance (carSpot c spot).x u.lastX : Int) :: ageKey u.birth u.label ++ [(carSpot c spot).x, 0], ?_⟩
  simp [scanPairs, hs, scanCandidates, h, assign, sortBy, insertBy, greedy]

/-- The offer that the pass of one spot makes. -/
def singleOffer (c : Settings) (scan : Scan) (q : CarSpot) (u : Track) (s : State) : Track × State :=
  offerSpot c scan u.state q (u.associate c q) (s.countSpot scan q)

/-- One spot within the gates of the only track: its offer, then the settled flag; no miss, no birth. -/
theorem runPass_single {spot : Spot} (hs : scan.spots = [spot]) (hu : s.tt.tracks = [u])
    (h : isCandidate c u (carSpot c spot) = true) : runPass c scan s =
      ((singleOffer c scan (carSpot c spot) u s).2.settleBy scan).withTracks
        [(singleOffer c scan (carSpot c spot) u s).1] := by
  obtain ⟨key, hkey⟩ := scanPairs_single (c := c) (u := u) hs h
  have hpaired : paired c scan s = ((singleOffer c scan (carSpot c spot) u s).2.withTracks
      [(singleOffer c scan (carSpot c spot) u s).1]).settleBy scan := by
    rw [paired, hu, hkey, hs, List.map_singleton, List.foldl_cons, List.foldl_nil,
      associatePair_eq (u := u) (q := carSpot c spot) (by rw [hu]; rfl) rfl, hu]
    rfl
  have hkept : keptTracks c scan s = [(singleOffer c scan (carSpot c spot) u s).1] := by
    rw [keptTracks, hpaired, hu, hkey]
    rfl
  have hleft : spotsLeft c scan s = [] := by
    rw [spotsLeft, hu, hkey, hs]
    simp [leftOver, sortBy]
  rw [runPass_eq, hleft, hkept, hpaired]
  rfl

theorem execScanPass_eq {e : Nat} {p : PageId} {rest : List Request} (hr : s.tt.requests = .scanPass p :: rest)
    (ho : s.tt.isOpen = true) (hc : s.settings = some c) (hp : s.siu.page p = .posted scan) :
    exec (.scanPass e) s = .next (endPass p (runPass c scan (s.takeRequest e rest))) := by
  have hc' : (s.elapse e).settings = some c := hc
  show execScanPass e s = _
  simp [execScanPass, serveNext, hr, ho, hc', hp, State.takeRequest]

/-- The statistics that one spot leaves in a scan at the high-water index (R25). -/
theorem countSpot_current (hb : scan.backtracking = false) (q : CarSpot) (s : State) :
    s.countSpot scan q = s.withSiu { s.siu with
      associated := min (s.siu.associated + 1) 65535
      saturated := if q.peak = 255 then min (s.siu.saturated + 1) 65535 else s.siu.saturated
      weak := if q.cls = .weak then min (s.siu.weak + 1) 65535 else s.siu.weak } := by
  have hbump : ∀ (x : Bool) (n : Nat), bump x n = if x = true then min (n + 1) 65535 else n := fun _ _ => rfl
  simp only [State.countSpot, hb, hbump, Bool.not_false, Bool.true_and, beq_iff_eq, if_true]

theorem countSpot_backtracking (hb : scan.backtracking = true) (q : CarSpot) (s : State) : s.countSpot scan q = s := by
  simp [State.countSpot, State.withSiu, hb, bump]

/-- What a pass of one spot within the only track's gates leaves is what its offer makes of the track counted (R25, R61). -/
theorem execScanPass_single {e : Nat} {p : PageId} {rest : List Request} {spot : Spot}
    (hr : s.tt.requests = .scanPass p :: rest) (ho : s.tt.isOpen = true) (hc : s.settings = some c)
    (hp : s.siu.page p = .posted scan) (hs : scan.spots = [spot]) (hu : s.tt.tracks = [u])
    (h : isCandidate c u (carSpot c spot) = true) : ∃ t o counted, exec (.scanPass e) s = .next t
      ∧ counted = (s.takeRequest e rest).countSpot scan (carSpot c spot)
      ∧ o = offerSpot c scan u.state (carSpot c spot) (u.associate c (carSpot c spot)) counted
      ∧ t.tt.tracks = [o.1] ∧ t.rq = o.2.rq ∧ t.rlc = o.2.rlc ∧ t.rca = o.2.rca ∧ t.tt.serial = s.tt.serial
      ∧ t.siu.associated = counted.siu.associated ∧ t.siu.saturated = counted.siu.saturated
      ∧ t.siu.weak = counted.siu.weak := by
  have hexec := execScanPass_eq (e := e) hr ho hc hp
  rw [runPass_single (s := s.takeRequest e rest) hs hu h] at hexec
  have hreach := offerSpot_reaches c scan u.state (carSpot c spot) (u.associate c (carSpot c spot))
    ((s.takeRequest e rest).countSpot scan (carSpot c spot))
  refine ⟨_, _, _, hexec, rfl, rfl, rfl, rfl, rfl, rfl, ?_⟩
  have hserial := congrArg Tt.serial hreach.tt
  have hsiu := hreach.siu
  unfold singleOffer
  generalize offerSpot c scan u.state (carSpot c spot) (u.associate c (carSpot c spot))
    ((s.takeRequest e rest).countSpot scan (carSpot c spot)) = o at *
  rw [← hsiu]
  cases p <;> exact ⟨hserial, rfl, rfl, rfl⟩

/-- Settles O17: the offer goes through its five cases, and the pass of one spot within one track's gates is that one offer. -/
theorem spotTakenByTrack : Obligations.SpotTakenByTrack := by
  constructor
  · intro c scan before q u v
    simp only [← spotWear_eq, ← backtracking_iff, ← backtracking_eq_false_iff]
    exact ⟨fun hb => offerSpot_backtracking hb c before q u v, fun hb ha => offerSpot_empty hb before ha,
      fun a hb ha hbin => offerSpot_joins hb ha hbin,
      fun a hb ha hbin => ⟨offerSpot_clears hb ha hbin, offerSpot_closes hb ha hbin⟩⟩
  · intro e p rest c scan spot u s hr ho hc hp hs hu q hcls hx hz state moved wear associated saturated weak
    have hcand : isCandidate c u q = true := by
      have hreject : q.cls ≠ .rejected := by rcases hcls with h | ⟨h, -⟩ <;> simp [h]
      have hopen : q.cls = .strong ∨ u.state.isTentative = false := hcls.imp id And.right
      simp only [isCandidate, Bool.and_eq_true, decide_eq_true_iff, bne_iff_ne, Bool.or_eq_true, beq_iff_eq,
        Bool.not_eq_true']
      exact ⟨⟨⟨hreject, hx⟩, hz⟩, hopen⟩
    have hwear : ∀ v : State, v.wau = s.wau → spotWear c v.wau q = wear := fun v hv => by
      rw [spotWear_eq, hv]
      rfl
    obtain ⟨t, o, counted, hexec, hcounted, hoffer, htracks, hrq, hrlc, hrca, hserial, hassociated, hsaturated, hweak⟩ :=
      execScanPass_single (e := e) hr ho hc hp hs hu hcand
    have hwear' := hwear counted (by rw [hcounted]; rfl)
    refine ⟨t, hexec, hserial, fun hb => ?_, fun hb => ?_, fun hb hcurrent => ?_, fun a hb ha hbin => ?_⟩
    · rw [← backtracking_iff] at hb
      rw [countSpot_backtracking hb] at hcounted
      rw [htracks, hoffer, offerSpot_backtracking hb, hassociated, hcounted]
      exact ⟨rfl, rfl⟩
    all_goals
      rw [← backtracking_eq_false_iff] at hb
      rw [countSpot_current hb] at hcounted
    · rw [hassociated, hsaturated, hweak, hcounted]
      exact ⟨rfl, rfl, rfl⟩
    · rw [offerSpot_current hb c u.state _ (u.associate c q) counted hcurrent, accumulate_eq, hwear'] at hoffer
      rw [htracks, hrq, hrlc, hrca, hoffer, hcounted]
      exact ⟨rfl, rfl, rfl, rfl⟩
    · have hstate : counted = { s with
          now := s.now + e
          siu := { s.siu with associated := associated, saturated := saturated, weak := weak }
          tt := { s.tt with requests := rest, serving := some 1 } } := by
        rw [hcounted]
        simp only [State.takeRequest, hu]
        rfl
      refine ⟨fun ht => ?_, fun ht => ?_⟩
      · rw [offerSpot_clears hb (by exact ha) hbin ht, hwear'] at hoffer
        rw [htracks, hrq, hrlc, hrca, hoffer, hstate]
        exact ⟨rfl, rfl, rfl, rfl⟩
      · rw [offerSpot_closes hb (by exact ha) hbin ht, hwear'] at hoffer
        rw [htracks, hrq, hrlc, hrca, hoffer, hstate]
        exact ⟨rfl, rfl, rfl, rfl⟩

end Sys2Proof.Machine

/-! The scan pass as a whole (R56 to R66): records, tracks at their places, misses, births, statistics, and the frame. -/

namespace Sys2Proof.Machine

variable {s s' t b : State} {c : Settings} {scan : Scan} {q : CarSpot} {spots : List CarSpot} {pairs : List Candidate}
  {k : Candidate} {u v w : Track} {ts ws : List Track} {taken : List Nat}

/-! ## Records of the pairs (R62, R127) -/

/-- Label and bin of the record that a track's older accumulator gives, where the track was not TENTATIVE (R62). -/
def olderBin (scan : Scan) (u : Track) : Option (Label × Int) :=
  (u.acc.filter fun a => !u.state.isTentative && decide (a.bin < scan.gpi)).map fun a => (u.label, a.bin)

/-- The records `new` that entered at an instant by a pass, in the order of `bins`. -/
structure NewRecords (scan : Scan) (now : Nat) (bins : List (Label × Int)) (new : List QueuedRecord) : Prop where
  each : ∀ q ∈ new, q.record.final = false ∧ q.record.gpi < scan.gpi ∧ q.entered = now
  order : (new.map fun q => (q.record.label, q.record.gpi)).Sublist bins

theorem associatePair_records (c : Settings) (scan : Scan) (spots : List CarSpot) (s : State) (k : Candidate) :
    ∃ new, (associatePair c scan spots s k).rq.records = s.rq.records ++ new
      ∧ NewRecords scan s.now (s.tt.tracks[k.track]?.bind (olderBin scan)).toList new := by
  have hnone : ∀ bins, NewRecords scan s.now bins [] := fun bins => ⟨List.forall_mem_nil _, List.nil_sublist _⟩
  cases hu : s.tt.tracks[k.track]? with
  | none => exact ⟨[], by rw [associatePair_absent (.inl hu), List.append_nil], hnone _⟩
  | some u =>
    cases hq : spots[k.other]? with
    | none => exact ⟨[], by rw [associatePair_absent (.inr hq), List.append_nil], hnone _⟩
    | some q =>
      rw [associatePair_eq hu hq, State.withTracks_rq]
      rcases offerSpot_records c scan u.state q (u.associate c q) (s.countSpot scan q) with
        h | ⟨a, r, ha, ht, hbin, hlabel, hgpi, hfinal, h⟩
      · exact ⟨[], by rw [h, List.append_nil]; rfl, hnone _⟩
      · have holder : olderBin scan u = some (r.label, r.gpi) := by
          rw [olderBin, show u.acc = some a from ha, hlabel, hgpi]
          simp [ht, hbin, Track.associate]
        refine ⟨[⟨r, s.now⟩], h, ?_, ?_⟩
        · simpa using ⟨hfinal, hgpi ▸ hbin⟩
        · simp [holder]

theorem associatePairs_records (hn : (pairs.map (·.track)).Nodup) (c : Settings) (scan : Scan) (spots : List CarSpot)
    (s : State) : ∃ new, (pairs.foldl (associatePair c scan spots) s).rq.records = s.rq.records ++ new
      ∧ NewRecords scan s.now (pairs.filterMap fun k => s.tt.tracks[k.track]?.bind (olderBin scan)) new := by
  induction pairs generalizing s with
  | nil => exact ⟨[], by simp, ⟨by simp, by simp⟩⟩
  | cons k pairs ih =>
    rw [List.map_cons, List.nodup_cons] at hn
    obtain ⟨new, hnew, heach, horder⟩ := associatePair_records c scan spots s k
    obtain ⟨new', hnew', heach', horder'⟩ := ih hn.2 (associatePair c scan spots s k)
    rw [(associatePair_reaches c scan spots s k).now] at heach'
    have hbins : (pairs.filterMap fun k' => (associatePair c scan spots s k).tt.tracks[k'.track]?.bind (olderBin scan))
        = pairs.filterMap fun k' => s.tt.tracks[k'.track]?.bind (olderBin scan) := by
      refine List.filterMap_congr fun k' hk' => ?_
      rw [associatePair_other fun h => hn.1 (h ▸ List.mem_map_of_mem hk')]
    refine ⟨new ++ new', by rw [List.foldl_cons, hnew', hnew, List.append_assoc], fun q hq => ?_, ?_⟩
    · exact (List.mem_append.1 hq).elim (heach q) (heach' q)
    · rw [List.map_append, List.filterMap_cons]
      rw [hbins] at horder'
      cases hk : s.tt.tracks[k.track]?.bind (olderBin scan) with
      | none =>
        rw [hk] at horder
        rw [List.sublist_nil.1 horder]
        exact horder'
      | some x =>
        rw [hk] at horder
        exact horder.append horder'

/-! ## Tracks at their places (R60) -/

theorem associatePairs_other {i : Nat} (h : ∀ k ∈ pairs, k.track ≠ i) (c : Settings) (scan : Scan)
    (spots : List CarSpot) (s : State) :
    (pairs.foldl (associatePair c scan spots) s).tt.tracks[i]? = s.tt.tracks[i]? := by
  induction pairs generalizing s with
  | nil => rfl
  | cons k pairs ih =>
    obtain ⟨hk, hrest⟩ := List.forall_mem_cons.1 h
    rw [List.foldl_cons, ih hrest, associatePair_other hk]

/-- Each accepted pair makes its track at a moment of the pass, and the other pairs leave it so (R60, R61). -/
theorem associatePairs_once (hn : (pairs.map (·.track)).Nodup) (hk : k ∈ pairs) (hu : s.tt.tracks[k.track]? = some u)
    (hq : spots[k.other]? = some q) : ∃ m, PassReaches s m
      ∧ PassReaches (offerSpot c scan u.state q (u.associate c q) m).2 (pairs.foldl (associatePair c scan spots) s)
      ∧ (pairs.foldl (associatePair c scan spots) s).tt.tracks[k.track]?
        = some (offerSpot c scan u.state q (u.associate c q) m).1 := by
  obtain ⟨before, after, rfl⟩ := List.append_of_mem hk
  rw [List.map_append, List.map_cons, List.nodup_append, List.nodup_cons] at hn
  obtain ⟨-, ⟨hafter, -⟩, hbefore⟩ := hn
  have hother : ∀ k' ∈ before, k'.track ≠ k.track := fun k' hk' =>
    hbefore _ (List.mem_map_of_mem hk') _ List.mem_cons_self
  have hlater : ∀ k' ∈ after, k'.track ≠ k.track := fun k' hk' h => hafter (h ▸ List.mem_map_of_mem hk')
  have hreach := associatePairs_reaches c scan spots before s
  have hu' : (before.foldl (associatePair c scan spots) s).tt.tracks[k.track]? = some u := by
    rw [associatePairs_other hother, hu]
  rw [List.foldl_append, List.foldl_cons]
  generalize before.foldl (associatePair c scan spots) s = m at *
  have hpair := associatePair_eq (c := c) (scan := scan) hu' hq
  refine ⟨m.countSpot scan q, hreach.trans (countSpot_pass _ m scan q), ?_, ?_⟩
  · refine PassFootprint.trans ?_ (associatePairs_reaches c scan spots after _)
    rw [hpair]
    exact withTracks_pass _ _ _
  · rw [associatePairs_other hlater, hpair]
    simp [(List.getElem?_eq_some_iff.1 hu').1]

/-! ## Misses (R63) -/

/-- Whether a track remains that no spot was associated with: a TENTATIVE one at its first miss, any other always (R63). -/
def survivesMiss (u : Track) : Bool :=
  match u.state with
  | .tentative _ miss => miss == 0
  | .confirmed | .coasting => true

/-- A miss in terms of the miss run before it (R63). -/
theorem missTentative_eq (u : Track) : missTentative u = match u.state with
    | .tentative hits miss => if miss = 0 then some { u with state := .tentative hits 1 } else none
    | .confirmed | .coasting => some u := by
  unfold missTentative
  cases u.state with
  | tentative hits miss => cases miss <;> simp
  | confirmed => rfl
  | coasting => rfl

theorem missTentative_label (u : Track) :
    (missTentative u).map (·.label) = if survivesMiss u then some u.label else none := by
  rw [missTentative_eq]
  unfold survivesMiss
  cases u.state with
  | tentative hits miss => by_cases h : miss = 0 <;> simp [h]
  | confirmed => rfl
  | coasting => rfl

theorem mem_countMisses : v ∈ countMisses taken ts ↔
    ∃ i u, ts[i]? = some u ∧ (if taken.contains i then some u else missTentative u) = some v := by
  unfold countMisses
  rw [List.mem_filterMap]
  constructor
  · rintro ⟨⟨u, i⟩, hu, h⟩
    exact ⟨i, u, List.mk_mem_zipIdx_iff_getElem?.1 hu, h⟩
  · rintro ⟨i, u, hu, h⟩
    exact ⟨(u, i), List.mk_mem_zipIdx_iff_getElem?.2 hu, h⟩

/-- Without pairs every track is missed. -/
theorem countMisses_nil (ts : List Track) : countMisses [] ts = ts.filterMap missTentative := by
  have hmap : ts.filterMap missTentative = (ts.zipIdx.map Prod.fst).filterMap missTentative := by
    rw [List.zipIdx_map_fst]
  rw [hmap, List.filterMap_map]
  rfl

/-- The labels that remain where the tracks taken keep their labels and the others are as they were. -/
theorem countMisses_labels_from (n : Nat) (hlength : ws.length = ts.length)
    (h : ∀ (i : Nat) (u w : Track), ts[i]? = some u → ws[i]? = some w →
      w.label = u.label ∧ (taken.contains (n + i) = false → w = u)) :
    ((ws.zipIdx n).filterMap fun q => if taken.contains q.2 then some q.1 else missTentative q.1).map (·.label)
      = ((ts.zipIdx n).filter fun q => taken.contains q.2 || survivesMiss q.1).map (·.1.label) := by
  induction ts generalizing ws n with
  | nil => rw [List.length_eq_zero_iff.1 hlength]; rfl
  | cons u ts ih =>
    obtain ⟨w, ws, rfl⟩ := List.exists_cons_of_length_eq_add_one hlength
    obtain ⟨hlabel, hsame⟩ := h 0 u w rfl rfl
    have htail := ih (n + 1) (Nat.succ.inj hlength) fun i u w hu hw => by
      have hnext := h (i + 1) u w hu hw
      rwa [Nat.add_comm i, ← Nat.add_assoc] at hnext
    have hhead : (if taken.contains n then some w else missTentative w).map (·.label)
        = if taken.contains n || survivesMiss u then some u.label else none := by
      cases hc : taken.contains n with
      | true => simp [hlabel]
      | false => rw [hsame hc]; simpa using missTentative_label u
    rw [List.zipIdx_cons, List.zipIdx_cons, List.filterMap_cons, List.filter_cons]
    split
    · rename_i hnone
      rw [hnone] at hhead
      split at hhead
      · cases hhead
      · rename_i hgone; rw [if_neg hgone]; exact htail
    · rename_i v hv
      rw [hv] at hhead
      split at hhead
      · rename_i hstay
        rw [if_pos hstay, List.map_cons, List.map_cons, htail]
        exact congrArg (· :: _) (Option.some.inj hhead)
      · cases hhead

/-! ## The tracks that a pass keeps -/

theorem contains_map {α : Type} (f : α → Nat) (l : List α) (n : Nat) : (l.map f).contains n = l.any fun x => f x == n := by
  rw [Bool.eq_iff_iff, List.contains_iff_mem, List.mem_map, List.any_eq_true]
  simp only [beq_iff_eq]

theorem associatePairs_length (c : Settings) (scan : Scan) (spots : List CarSpot) (pairs : List Candidate) (s : State) :
    (pairs.foldl (associatePair c scan spots) s).tt.tracks.length = s.tt.tracks.length := by
  induction pairs generalizing s with
  | nil => rfl
  | cons k pairs ih => rw [List.foldl_cons, ih, associatePair_length]

theorem paired_tt (c : Settings) (scan : Scan) (s : State) : (paired c scan s).tt
    = ((scanPairs c scan s.tt.tracks).foldl (associatePair c scan (scan.spots.map (carSpot c))) s).tt := rfl

/-- After its pairs the pass goes on to its end. -/
theorem paired_reaches_runPass (c : Settings) (scan : Scan) (s : State) :
    PassReaches (paired c scan s) (runPass c scan s) := by
  rw [runPass_eq]
  exact (withTracks_pass _ _ _).trans
    (births_spec (I := fun _ => True) c scan (spotsLeft c scan s) _ fun _ _ _ _ _ _ _ => trivial).1

/-- An associated track is made at a moment of the pass and remains (R60, R61). -/
theorem associated_kept (hk : k ∈ scanPairs c scan s.tt.tracks) (hu : s.tt.tracks[k.track]? = some u)
    (hq : (scan.spots.map (carSpot c))[k.other]? = some q) : ∃ m, PassReaches s m
      ∧ PassReaches (offerSpot c scan u.state q (u.associate c q) m).2 (runPass c scan s)
      ∧ (offerSpot c scan u.state q (u.associate c q) m).1 ∈ keptTracks c scan s := by
  obtain ⟨m, hsm, hmt, hv⟩ := associatePairs_once (scanPairs_tracks_nodup c scan s.tt.tracks) hk hu hq
  refine ⟨m, hsm, (hmt.trans (settleBy_pass _ _ scan)).trans (paired_reaches_runPass c scan s), ?_⟩
  exact mem_countMisses.2 ⟨k.track, _, hv, if_pos (List.contains_iff_mem.2 (List.mem_map_of_mem hk))⟩

/-- A track that no spot was associated with remains unless its miss drops it (R63). -/
theorem unassociated_kept {i : Nat} (hk : ∀ k ∈ scanPairs c scan s.tt.tracks, k.track ≠ i)
    (hu : s.tt.tracks[i]? = some u) (hv : missTentative u = some v) : v ∈ keptTracks c scan s := by
  have hfree : ¬((scanPairs c scan s.tt.tracks).map (·.track)).contains i = true := by
    rw [contains_map, List.any_eq_true]
    rintro ⟨k, hmem, h⟩
    exact hk k hmem (beq_iff_eq.1 h)
  exact mem_countMisses.2 ⟨i, u, by rw [paired_tt, associatePairs_other hk, hu], by rw [if_neg hfree, hv]⟩

/-- Which labels remain after the misses of a pass, in their order (R63). -/
theorem keptTracks_labels (c : Settings) (scan : Scan) (s : State) : (keptTracks c scan s).map (·.label)
    = (s.tt.tracks.zipIdx.filter fun q => ((scanPairs c scan s.tt.tracks).map (·.track)).contains q.2
        || survivesMiss q.1).map (·.1.label) := by
  refine countMisses_labels_from 0 (by rw [paired_tt, associatePairs_length]) fun i u w hu hw => ?_
  rw [paired_tt] at hw
  by_cases hk : ∃ k ∈ scanPairs c scan s.tt.tracks, k.track = i
  · obtain ⟨k, hk, rfl⟩ := hk
    obtain ⟨-, hother⟩ := scanPairs_within c scan s.tt.tracks k hk
    obtain ⟨m, -, -, hv⟩ := associatePairs_once (scanPairs_tracks_nodup c scan s.tt.tracks) hk hu
      (List.getElem?_eq_getElem hother)
    obtain rfl := Option.some.inj (hv.symm.trans hw)
    refine ⟨(offerSpot_label _ _ _ _ _ _).1, fun hno => ?_⟩
    rw [Nat.zero_add, List.contains_iff_mem.2 (List.mem_map_of_mem hk)] at hno
    cases hno
  · rw [associatePairs_other fun k hmem h => hk ⟨k, hmem, h⟩, hu] at hw
    obtain rfl := Option.some.inj hw
    exact ⟨rfl, fun _ => rfl⟩

/-! ## Births (R64 to R66) -/

theorem latched_setLatch_self (s : State) (l : Latch) : (s.setLatch l).latched l = true := by
  cases l <;> simp [State.latched, State.setLatch, State.withRca, Latch.position]

/-- The tracks after a pass: those it keeps, then its births (R64, R66). -/
theorem runPass_tracks (c : Settings) (scan : Scan) (s : State) : ∃ born,
    (runPass c scan s).tt.tracks = keptTracks c scan s ++ born
      ∧ born.map Track.unlabelled = ((spotsLeft c scan s).take (8 - (keptTracks c scan s).length)).map
          (fun q => bornTrack c scan q s.wau ⟨0, 0⟩)
      ∧ (∀ u ∈ born, u.label.origin = s.rca.slot)
      ∧ (8 - (keptTracks c scan s).length < (spotsLeft c scan s).length →
        (runPass c scan s).latched .tableFull = true) := by
  obtain ⟨born, n, hbirths, hmap, horigin, -⟩ :=
    births_eq c scan (spotsLeft c scan s) ((paired c scan s).withTracks (keptTracks c scan s))
  rw [← runPass_eq] at hbirths
  have hreach := paired_reaches c scan s
  refine ⟨born, ?_, ?_, ?_, fun hfull => ?_⟩
  · rw [hbirths]
    unfold State.latchIf
    split <;> rfl
  · rw [← hreach.wau]; exact hmap
  · rw [← hreach.slot]; exact horigin
  · rw [hbirths, State.latchIf, if_pos (by exact decide_eq_true hfull)]
    exact latched_setLatch_self _ _

/-- The births enter no record (R64). -/
theorem runPass_records (c : Settings) (scan : Scan) (s : State) : ∃ new,
    (runPass c scan s).rq.records = s.rq.records ++ new ∧ NewRecords scan s.now
      ((scanPairs c scan s.tt.tracks).filterMap fun k => s.tt.tracks[k.track]?.bind (olderBin scan)) new := by
  obtain ⟨new, hnew, h⟩ := associatePairs_records (scanPairs_tracks_nodup c scan s.tt.tracks) c scan
    (scan.spots.map (carSpot c)) s
  obtain ⟨born, n, hbirths, -⟩ :=
    births_eq c scan (spotsLeft c scan s) ((paired c scan s).withTracks (keptTracks c scan s))
  refine ⟨new, ?_, h⟩
  rw [runPass_eq, hbirths, ← hnew]
  unfold State.latchIf
  split <;> rfl

/-! ## Backtracking scans and scans without spots (R61, R63) -/

/-- A backtracking scan changes tracks, serial counter and latches alone (R61). -/
theorem runPass_backtracking (hb : scan.backtracking = true) (c : Settings) (s : State) :
    (runPass c scan s).rq = s.rq ∧ (runPass c scan s).rlc = s.rlc ∧ (runPass c scan s).rca.counters = s.rca.counters
      ∧ (runPass c scan s).siu.associated = s.siu.associated ∧ (runPass c scan s).siu.saturated = s.siu.saturated
      ∧ (runPass c scan s).siu.weak = s.siu.weak := by
  obtain ⟨ts, hts⟩ := associatePairs_backtracking hb c (scan.spots.map (carSpot c)) (scanPairs c scan s.tt.tracks) s
  obtain ⟨born, n, hbirths, -⟩ :=
    births_eq c scan (spotsLeft c scan s) ((paired c scan s).withTracks (keptTracks c scan s))
  rw [runPass_eq, hbirths, paired, hts]
  unfold State.latchIf
  split <;> exact ⟨rfl, rfl, rfl, rfl, rfl, rfl⟩

/-- A scan without spots only counts misses (R63). -/
theorem runPass_without_spots (h : scan.spots = []) (c : Settings) (s : State) :
    runPass c scan s = (s.settleBy scan).withTracks (s.tt.tracks.filterMap missTentative) := by
  have hpairs : scanPairs c scan s.tt.tracks = [] := by
    have hno : scanCandidates c s.tt.tracks ([].map (carSpot c)) = [] := by simp [scanCandidates]
    rw [scanPairs, h, hno]
    rfl
  have hpaired : paired c scan s = s.settleBy scan := by rw [paired, hpairs]; rfl
  have hleft : spotsLeft c scan s = [] := by rw [spotsLeft, h]; rfl
  rw [runPass_eq, hleft, keptTracks, hpairs, hpaired, List.map_nil, countMisses_nil]
  rfl

/-! ## Statistics (R25) -/

/-- The statistics of a scan at the high-water index count its pairs, held at 65,535 (R25). -/
theorem runPass_statistics (hb : scan.backtracking = false) (c : Settings) (s : State) :
    (s.siu.associated ≤ 65535 → (runPass c scan s).siu.associated
        = min (s.siu.associated + (scanPairs c scan s.tt.tracks).length) 65535)
      ∧ (s.siu.saturated ≤ 65535 → (runPass c scan s).siu.saturated = min (s.siu.saturated
        + (scanPairs c scan s.tt.tracks).countP fun k =>
          (scan.spots.map (carSpot c))[k.other]?.any fun q => q.peak == 255) 65535)
      ∧ (s.siu.weak ≤ 65535 → (runPass c scan s).siu.weak = min (s.siu.weak
        + (scanPairs c scan s.tt.tracks).countP fun k =>
          (scan.spots.map (carSpot c))[k.other]?.any fun q => q.cls == .weak) 65535) := by
  rw [runPass_siu, hb]
  simp only [Bool.not_false, Bool.true_and]
  exact ⟨fun h => by rw [foldl_bump (fun _ => true) _ h, List.countP_true], fun h => foldl_bump _ _ h,
    fun h => foldl_bump _ _ h⟩

end Sys2Proof.Machine

/-! SCAN_PASS as a command (R56): the frame of a pass with its end, and each clause from the phase it belongs to. -/

namespace Sys2Proof.Machine

variable {s t m : State} {c : Settings} {scan : Scan} {q : CarSpot} {k : Candidate} {u v : Track}
  {p : PageId} {e : Nat} {rest : List Request}

/-! ## The frame (R56) -/

/-- What every moment of a pass and its end leave as the command found it. -/
theorem endPass_frame (h : PassReaches (s.takeRequest e rest) m) :
    (endPass p m).pending = s.pending ∧ (endPass p m).now = s.now + e ∧ (endPass p m).du = s.du
      ∧ (endPass p m).wau = s.wau
      ∧ (endPass p m).tt = { s.tt with requests := rest, serving := none, tracks := m.tt.tracks, serial := m.tt.serial }
      ∧ (endPass p m).rq = { s.rq with inFrame := m.rq.inFrame, queued := m.rq.queued }
      ∧ (endPass p m).rlc = { s.rlc with tx := m.rlc.tx, edgeSlot := m.rlc.edgeSlot }
      ∧ (endPass p m).rca = { s.rca with latches := m.rca.latches, clearMask := m.rca.clearMask, status := m.rca.status
                                         counters := m.rca.counters, alert := m.rca.alert }
      ∧ m.rca.counters = { s.rca.counters with lostBins := m.rca.counters.lostBins
                                               drainLoss := m.rca.counters.drainLoss } := by
  refine ⟨h.queue.pending, h.now, h.queue.du, h.wau, ?_, h.queue.rq_frame, h.queue.rlc_frame, h.queue.rca_frame,
    h.queue.counters⟩
  show { m.tt with serving := none } = _
  rw [h.tt]
  rfl

theorem endPass_statistics (p : PageId) (m : State) : (endPass p m).siu.associated = m.siu.associated
    ∧ (endPass p m).siu.saturated = m.siu.saturated ∧ (endPass p m).siu.weak = m.siu.weak := by
  cases p <;> exact ⟨rfl, rfl, rfl⟩

/-- The SIU after a pass: its page is FREE, the statistics are counted, the flag is raised (R22, R25). -/
theorem endPass_siu (c : Settings) (scan : Scan) (s : State) (p : PageId) : (endPass p (runPass c scan s)).siu =
    { s.siu.setPage p .free with
      associated := (endPass p (runPass c scan s)).siu.associated
      saturated := (endPass p (runPass c scan s)).siu.saturated, weak := (endPass p (runPass c scan s)).siu.weak
      settled := s.siu.settled || (decide (scan.gpi = scan.hw) && decide (scan.level = s.siu.level)) } := by
  have hsettled : (s.siu.settled || (decide (scan.gpi = scan.hw) && decide (scan.level = s.siu.level)))
      = (runPass c scan s).siu.settled := by
    have hlevel : (scan.level == s.siu.level) = decide (scan.level = s.siu.level) := rfl
    rw [runPass_siu, ← hlevel]
    simp [Scan.backtracking, bne, Bool.beq_eq_decide_eq]
  obtain ⟨hassociated, hsaturated, hweak⟩ := endPass_statistics p (runPass c scan s)
  rw [hsettled, hassociated, hsaturated, hweak]
  show (runPass c scan s).siu.setPage p .free = _
  rw [runPass_siu]
  cases p <;> rfl

/-! ## Moments of the pass (R120) -/

/-- A moment of the pass is a moment of the command. -/
theorem moment_of_pass (hsm : PassReaches (s.takeRequest e rest) m) (hmt : PassReaches m t) (p : PageId) :
    Moment s m (endPass p t) := by
  obtain ⟨new, hnew, -⟩ := hsm.queue.records
  obtain ⟨new', hnew', -⟩ := hmt.queue.records
  have hrecords : m.rq.records = s.rq.records ++ new := hnew
  have hrecords' : t.rq.records = m.rq.records ++ new' := hnew'
  have hset : m.settings = s.settings := hsm.queue.settings
  have hleft : t.tt.leftCentre = m.tt.leftCentre := by rw [hmt.tt]
  have hright : t.tt.rightCentre = m.tt.rightCentre := by rw [hmt.tt]
  exact ⟨hmt.now.symm, hsm.slot, hsm.queue.node, hset, hsm.queue.du, hsm.wau, hleft.symm, hright.symm,
    hsm.queue.pastLimit, hrecords ▸ List.prefix_append _ _, hrecords' ▸ List.prefix_append _ _⟩

/-- An associated track takes its spot's position and state, keeps what it is, and is dealt with at a moment of the command
(R60 to R62). -/
theorem associated_dealt (hk : k ∈ scanPairs c scan s.tt.tracks) (hu : s.tt.tracks[k.track]? = some u)
    (hq : (scan.spots.map (carSpot c))[k.other]? = some q) (e : Nat) (rest : List Request) (p : PageId) :
    ∃ v ∈ keptTracks c scan (s.takeRequest e rest), v.label = u.label ∧ v.birth = u.birth ∧ v.link = u.link
      ∧ v.lastX = q.x ∧ v.lastZ = q.z ∧ v.missedBins = 0 ∧ v.state = u.state.associate c
      ∧ Dealt s (endPass p (runPass c scan (s.takeRequest e rest))) (offerSpot c scan u.state q (u.associate c q)) v := by
  obtain ⟨m, hsm, hmt, hkept⟩ := associated_kept (s := s.takeRequest e rest) hk hu hq
  have hoffer := (offerSpot_reaches c scan u.state q (u.associate c q) m).pass
  obtain ⟨hlabel, hbirth, hlink, hx, hz, hmissed, hstate⟩ :=
    offerSpot_keeps_place c scan u.state q m (u := u.associate c q) rfl
  exact ⟨_, hkept, hlabel, hbirth, hlink, hx, hz, hmissed, hstate, m, moment_of_pass hsm (hoffer.trans hmt) p,
    moment_of_pass (hsm.trans hoffer) hmt p, rfl⟩

/-! ## Births in the words of R64 -/

/-- The STRONG spots left, with their places in the page, in the order of R64. -/
def placesLeft (c : Settings) (scan : Scan) (ts : List Track) : List (CarSpot × Nat) :=
  sortBy (fun q : CarSpot × Nat => [q.1.x, (q.2 : Int)]) ((scan.spots.map (carSpot c)).zipIdx.filter fun q =>
    q.1.cls == .strong && !(scanPairs c scan ts).any fun k => k.other == q.2)

theorem spotsLeft_eq (c : Settings) (scan : Scan) (s : State) :
    spotsLeft c scan s = (placesLeft c scan s.tt.tracks).map (·.1) := by
  unfold spotsLeft leftOver placesLeft
  simp only [contains_map]

theorem strong_of_mem_placesLeft {ts : List Track} {x : CarSpot × Nat} (h : x ∈ placesLeft c scan ts) :
    x.1.cls = .strong := by
  rw [placesLeft, mem_sortBy, List.mem_filter, Bool.and_eq_true] at h
  exact beq_iff_eq.1 h.2.1

/-- A newborn track with every field (R64), its first sample that of a STRONG spot (R105). -/
theorem bornTrack_of_strong (hq : q.cls = .strong) (c : Settings) (scan : Scan) (w : Wau) (l : Label) :
    bornTrack c scan q w l = {
      label := l, birth := scan.gpi, state := .tentative 1 0, role := .owner, missedBins := 0, lastX := q.x
      lastZ := q.z, link := none, peerRole := none, peerThrough := none, absent := 0, former := none
      lastQueued := none, mark := none, contested := false, takenOver := false, held := []
      acc := if scan.gpi = scan.hw then some ⟨scan.gpi, 1, q.x, q.z, q.width.bind fun w' =>
        w.currentType.bind fun i => c.wireTypes[i]?.map fun x => wearSample x i w'⟩ else none } := by
  have hacc : (if scan.backtracking then none else some (freshAccumulator scan.gpi q (spotWear c w q)))
      = if scan.gpi = scan.hw then some (⟨scan.gpi, 1, q.x, q.z, q.width.bind fun w' =>
        w.currentType.bind fun i => c.wireTypes[i]?.map fun x => wearSample x i w'⟩ : Accumulator) else none := by
    rw [spotWear_eq, if_pos hq]
    by_cases hb : scan.gpi = scan.hw
    · rw [if_pos hb, if_neg (by simp [Scan.backtracking, hb])]; rfl
    · rw [if_neg hb, if_pos ((backtracking_iff scan).2 hb)]
  unfold bornTrack
  rw [hacc]
  rfl

/-! ## The command -/

/-- Settles O16: the frame is that of the pass and its end; records, tracks, births and statistics are those of its phases. -/
theorem scanPass : Obligations.ScanPass := by
  intro e p rest c scan s hr ho hc hp spots pairs stays left
  have hreach := runPass_footprint c scan (s.takeRequest e rest)
  obtain ⟨hpending, hnow, hdu, hwau, htt, hrq, hrlc, hrca, hcounters⟩ := endPass_frame (p := p) hreach
  obtain ⟨hassociated, hsaturated, hweak⟩ := endPass_statistics p (runPass c scan (s.takeRequest e rest))
  refine ⟨_, execScanPass_eq hr ho hc hp, hpending, hnow, hdu, hwau, endPass_siu c scan (s.takeRequest e rest) p, htt, hrq,
    hrlc, hrca, hcounters, ?_, ?_, ?_⟩
  · obtain ⟨new, hnew, heach, horder⟩ := runPass_records c scan (s.takeRequest e rest)
    exact ⟨new, hnew, fun q hq => ⟨(heach q hq).1, (heach q hq).2.1, (heach q hq).2.2.trans hnow.symm⟩, horder⟩
  · obtain ⟨born, htracks, hmap, horigin, hfull⟩ := runPass_tracks c scan (s.takeRequest e rest)
    have hleft : spotsLeft c scan (s.takeRequest e rest) = left.map (·.1) := spotsLeft_eq c scan (s.takeRequest e rest)
    refine ⟨keptTracks c scan (s.takeRequest e rest), born, htracks, ?_, ?_, horigin, fun h => hfull ?_,
      fun i u hu => ⟨fun k hk hki q hq => ?_, fun hk => ⟨fun ht => ?_, fun hits hstate => ?_⟩⟩⟩
    · rw [keptTracks_labels]
      refine congrArg _ (List.filter_congr fun q _ => ?_)
      rw [contains_map]
      rfl
    · rw [hleft, ← List.map_take, List.map_map] at hmap
      exact hmap.trans (List.map_congr_left fun x hx =>
        bornTrack_of_strong (strong_of_mem_placesLeft (List.mem_of_mem_take hx)) c scan s.wau ⟨0, 0⟩)
    · rw [hleft, List.length_map]; exact h
    · subst hki
      exact associated_dealt hk hu hq e rest p
    · refine unassociated_kept (s := s.takeRequest e rest) hk hu ?_
      rw [missTentative_eq]
      cases hs : u.state <;> simp [hs, TrackState.isTentative] at ht ⊢
    · exact unassociated_kept (s := s.takeRequest e rest) hk hu (by rw [missTentative_eq, hstate]; rfl)
  · have hstatistics := fun hb : scan.gpi = scan.hw =>
      runPass_statistics ((backtracking_eq_false_iff scan).2 hb) c (s.takeRequest e rest)
    rw [hassociated, hsaturated, hweak]
    refine ⟨fun hb => (hstatistics hb).1, fun hb => (hstatistics hb).2.1, fun hb => (hstatistics hb).2.2, fun hb => ?_,
      fun hs => ?_⟩
    · exact runPass_backtracking ((backtracking_iff scan).2 hb) c (s.takeRequest e rest)
    · rw [runPass_without_spots hs]
      refine ⟨rfl, rfl, rfl, rfl, ?_⟩
      exact congrArg (fun f => s.tt.tracks.filterMap f) (funext missTentative_eq)

end Sys2Proof.Machine

/-! The Distance Unit (R32 to R42): what a group of edges that a command brings forms, the quarter and the count of a transition
of one line, and the transition of both lines. -/

namespace Sys2Proof.Machine

variable {s : State} {m : Instr} {e : Nat} {g : EdgeGroup} {line : OdoLine} {c : Settings} {u u' : Du}

/-! ## The transition that a group forms (R32) -/

/-- The state in which the transition of a group is taken: the group is resolved at the instant of its command. -/
def State.resolveAt (s : State) (e : Nat) : State :=
  { s with now := s.now + e, du := { s.du with resolved := s.now + e } }

theorem exec_edges (hm : m = .odometerTransition e g ∨ m = .illegalTransition ⟨e, g⟩) : exec m s = takeEdges e g s := by
  rcases hm with rfl | rfl <;> rfl

theorem exec_brings_unchanged (h : Brings m e g s s.du.pair) : exec m s = .next (s.resolveAt e) := by
  obtain ⟨hm, hlate, hfound⟩ := h
  rw [exec_edges hm, takeEdges_resolved hlate, show phaseAfter s.du.pair g = s.du.pair from hfound, resolve_unchanged]
  rfl

theorem exec_brings_oneLine (h : Brings m e g s (toggle s.du.pair line)) :
    exec m s = takeQuarter line (s.resolveAt e) := by
  obtain ⟨hm, hlate, hfound⟩ := h
  rw [exec_edges hm, takeEdges_resolved hlate, show phaseAfter s.du.pair g = toggle s.du.pair line from hfound,
    resolve_oneLine]
  rfl

theorem exec_brings_bothLines (h : Brings m e g s ⟨!s.du.pair.p, !s.du.pair.q⟩) :
    exec m s = .next (takeIllegal (s.resolveAt e)) := by
  obtain ⟨hm, hlate, hfound⟩ := h
  rw [exec_edges hm, takeEdges_resolved hlate,
    show phaseAfter s.du.pair g = ⟨!s.du.pair.p, !s.du.pair.q⟩ from hfound, resolve_bothLines]
  rfl

/-- Two edges on one line leave the pair as it was. -/
@[simp] theorem toggle_toggle_same (pair : OdoPair) (line : OdoLine) : toggle (toggle pair line) line = pair := by
  cases line <;> simp [toggle]

/-- An edge on each line changes both. -/
theorem toggle_toggle_other {other : OdoLine} (h : other ≠ line) (pair : OdoPair) :
    toggle (toggle pair line) other = ⟨!pair.p, !pair.q⟩ := by
  cases line <;> cases other
  · exact absurd rfl h
  · rfl
  · rfl
  · exact absurd rfl h

/-- The four forward quarters of the table of R32: P leads Q. -/
theorem isForward_normal_iff (pair : OdoPair) (line : OdoLine) : isForward .normal pair line = true ↔
    (pair, toggle pair line) ∈ [(⟨false, false⟩, ⟨true, false⟩), (⟨true, false⟩, ⟨true, true⟩),
      (⟨true, true⟩, ⟨false, true⟩), ((⟨false, true⟩ : OdoPair), (⟨false, false⟩ : OdoPair))] := by
  obtain ⟨p, q⟩ := pair
  cases p <;> cases q <;> cases line <;> decide

theorem isForward_reversed (pair : OdoPair) (line : OdoLine) :
    isForward .reversed pair line = !isForward .normal pair line := by
  cases line <;> rfl

/-! ## The quarter count (R33) and the counts (R36 to R38) -/

theorem quarter_forward (hf : isForward c.direction u.pair line = true) (hq : u.quarter ≠ 3) :
    quarter c line u = { u with pair := toggle u.pair line, quarter := u.quarter + 1 } := by
  simp only [quarter, hf, if_true]
  rw [if_neg (by omega)]

theorem quarter_forward_fourth (hf : isForward c.direction u.pair line = true) (hq : u.quarter = 3) :
    quarter c line u = forwardCount c { u with pair := toggle u.pair line, quarter := 0 } := by
  simp only [quarter, hf, if_true]
  rw [if_pos (by omega)]

theorem quarter_reverse (hf : isForward c.direction u.pair line = false) (hq : u.quarter ≠ -3) :
    quarter c line u = { u with pair := toggle u.pair line, quarter := u.quarter - 1 } := by
  simp only [quarter, hf, Bool.false_eq_true, if_false]
  rw [if_neg (by omega)]

theorem quarter_reverse_fourth (hf : isForward c.direction u.pair line = false) (hq : u.quarter = -3) :
    quarter c line u = reverseCount c { u with pair := toggle u.pair line, quarter := 0 } := by
  simp only [quarter, hf, Bool.false_eq_true, if_false]
  rw [if_pos (by omega)]

theorem forwardCount_within (h : u.sub + c.pulseLength < c.stepLength) :
    forwardCount c u = { u with sub := u.sub + c.pulseLength } := if_pos h

theorem forwardCount_past (h : c.stepLength ≤ u.sub + c.pulseLength) (hgpi : u.gpi ≠ maxGpi) :
    forwardCount c u =
      { u with sub := u.sub + c.pulseLength - c.stepLength, gpi := u.gpi + 1, hw := max u.hw (u.gpi + 1) } := by
  rw [forwardCount, if_neg (by omega), if_neg hgpi]

/-- The largest GPI stops the forward count (R38). -/
theorem forwardCount_end (h : c.stepLength ≤ u.sub + c.pulseLength) (hgpi : u.gpi = maxGpi) : forwardCount c u = u := by
  rw [forwardCount, if_neg (by omega), if_pos hgpi]

theorem reverseCount_within (h : c.pulseLength ≤ u.sub) : reverseCount c u = { u with sub := u.sub - c.pulseLength } :=
  if_pos h

theorem reverseCount_past (h : u.sub < c.pulseLength) (hgpi : u.gpi ≠ minGpi) :
    reverseCount c u = { u with sub := u.sub + c.stepLength - c.pulseLength, gpi := u.gpi - 1 } := by
  rw [reverseCount, if_neg (by omega), if_neg hgpi]

/-- The smallest GPI stops the reverse count (R38). -/
theorem reverseCount_end (h : u.sub < c.pulseLength) (hgpi : u.gpi = minGpi) : reverseCount c u = u := by
  rw [reverseCount, if_neg (by omega), if_pos hgpi]

/-! ## A transition of one line as a command (R33, R39, R40, R42) -/

theorem takeQuarter_outside (h : s.rca.node ≠ .running) :
    takeQuarter line s = .next (s.withDu { s.du with pair := toggle s.du.pair line, quarter := 0 }) := if_neg h

theorem takeQuarter_running (hrun : s.rca.node = .running) (hc : s.settings = some c) : takeQuarter line s =
    .next (if s.du.hw < (quarter c line s.du).hw then postClose s.du.hw (s.withDu (quarter c line s.du))
      else s.withDu (quarter c line s.du)) := by
  simp only [takeQuarter, hrun, if_true, hc]

section Running

variable (h : Brings m e g s (toggle s.du.pair line)) (hrun : s.rca.node = .running) (hc : s.settings = some c)
include h hrun hc

/-- A quarter or a count that does not pass the high-water index changes the DU alone. -/
theorem exec_quarter (hq : quarter c line (s.resolveAt e).du = u) (hhw : u.hw = s.du.hw) :
    exec m s = .next { s with now := s.now + e, du := u } := by
  rw [exec_brings_oneLine h, takeQuarter_running (s := s.resolveAt e) hrun hc, hq,
    if_neg (by rw [hhw]; exact lt_irrefl _)]
  rfl

/-- A count that passes the high-water index crosses out of its bin, whose close is offered to the request list (R39, R40). -/
theorem exec_crossing (hq : quarter c line (s.resolveAt e).du = u) (hhw : s.du.hw < u.hw) :
    exec m s = .next (postClose s.du.hw { s with now := s.now + e, du := u }) := by
  rw [exec_brings_oneLine h, takeQuarter_running (s := s.resolveAt e) hrun hc, hq]
  exact congrArg Host.Outcome.next (if_pos hhw)

end Running

theorem postClose_room (h : s.tt.requests.countP Request.isClose < 10) (k : Int) : postClose k s = s.post (.binClose k) :=
  if_pos h

theorem postClose_full (h : 10 ≤ s.tt.requests.countP Request.isClose) (k : Int) : postClose k s = s.setLatch .overspeed :=
  if_neg (Nat.not_lt.2 h)

/-- Settles O11: each group by what its edges leave of the pair, each quarter by the table of R32. -/
theorem quarterWithoutCount : Obligations.QuarterWithoutCount := by
  intro e g line m s
  refine ⟨fun hm hearly => ?_, exec_brings_unchanged, fun h hn => ?_, fun c h hrun hc hf hq => ?_,
    fun c h hrun hc hf hq => ?_, fun p q => ⟨rfl, rfl⟩, fun pair d => ⟨rfl, toggle_toggle_same pair line, ?_⟩,
    fun pair => isForward_normal_iff pair line, fun pair => isForward_reversed pair line⟩
  · rw [exec_edges hm, takeEdges_early hearly]
  · rw [exec_brings_oneLine h, takeQuarter_outside (s := s.resolveAt e) hn]
    rfl
  · exact exec_quarter h hrun hc (quarter_forward (u := (s.resolveAt e).du) hf hq) rfl
  · exact exec_quarter h hrun hc (quarter_reverse (u := (s.resolveAt e).du) hf hq) rfl
  · exact fun other hother => toggle_toggle_other hother pair

/-- Settles O12: the fourth quarter of a cycle makes a count, which is taken by whether it leaves the bin and, forward, by
whether the bin left is the high-water index. -/
theorem odometerCounts : Obligations.OdometerCounts := by
  intro e g line m c s h hrun hc
  refine ⟨fun hf hq => ?_, fun hf hq => ?_⟩
  · have hcount := quarter_forward_fourth (u := (s.resolveAt e).du) hf hq
    refine ⟨fun hsub => ?_, fun hsub hgpi hmax => ?_, fun hsub hgpi hmax => ?_⟩
    · exact exec_quarter h hrun hc (hcount.trans (forwardCount_within hsub)) rfl
    · have hhw : max s.du.hw (s.du.gpi + 1) = s.du.hw := by omega
      refine exec_quarter h hrun hc ((hcount.trans (forwardCount_past hsub hmax)).trans ?_) rfl
      simp only [State.resolveAt, hhw]
    · have hhw : max s.du.hw (s.du.hw + 1) = s.du.hw + 1 := by omega
      have hcross := exec_crossing h hrun hc (hcount.trans (forwardCount_past hsub hmax)) (by
        show s.du.hw < max s.du.hw (s.du.gpi + 1)
        omega)
      simp only [State.resolveAt, hgpi, hhw] at hcross
      exact ⟨fun hroom => by rw [hcross, postClose_room (by exact hroom)]; rfl,
        fun hfull => by rw [hcross, postClose_full (by exact hfull)]⟩
  · have hcount := quarter_reverse_fourth (u := (s.resolveAt e).du) hf hq
    refine ⟨fun hsub => ?_, fun hsub hmin => ?_⟩
    · exact exec_quarter h hrun hc (hcount.trans (reverseCount_within hsub)) rfl
    · exact exec_quarter h hrun hc (hcount.trans (reverseCount_past hsub hmin)) rfl

/-- Settles O13: at an end of the range the count returns the DU as the quarter left it. -/
theorem countsAtTheEndsOfTheRange : Obligations.CountsAtTheEndsOfTheRange := by
  intro e g line m c s h hrun hc
  refine ⟨fun hf hq hsub hgpi _ => ?_, fun hf hq hsub hgpi => ?_⟩
  · have hcount := quarter_forward_fourth (u := (s.resolveAt e).du) hf hq
    exact exec_quarter h hrun hc (hcount.trans (forwardCount_end hsub hgpi)) rfl
  · have hcount := quarter_reverse_fourth (u := (s.resolveAt e).du) hf hq
    exact exec_quarter h hrun hc (hcount.trans (reverseCount_end hsub hgpi)) rfl

/-- Settles O14: QUAD_ERROR is latched by whether the node is RUNNING, all else is the same in every state. -/
theorem illegalTransition : Obligations.IllegalTransition := by
  intro e g m s h
  rw [exec_brings_bothLines h]
  refine ⟨fun hrun => ?_, fun hn => ?_⟩
  · have hlatch : decide ((s.resolveAt e).rca.node = .running) = true := decide_eq_true hrun
    rw [takeIllegal, hlatch]
    rfl
  · have hlatch : decide ((s.resolveAt e).rca.node = .running) = false := decide_eq_false hn
    rw [takeIllegal, hlatch]
    rfl

end Sys2Proof.Machine

/-! ENTER_DRAINING (R157, R159). -/

namespace Sys2Proof.Machine

variable {s : State} {e : Nat}

theorem execEnterDraining_drains (hrun : s.rca.node = .running) (hlong : s.rca.since + 100000 ≤ s.now + e) :
    execEnterDraining e s = .next (startDrain (s.elapse e)) := by
  have hspell : spellLongEnough (s.elapse e) = true := decide_eq_true hlong
  have hnode : (s.elapse e).rca.node = .running := hrun
  simp only [execEnterDraining, hnode, hspell, decide_true, Bool.and_self, if_true]

theorem execEnterDraining_idles (h : s.rca.node ≠ .running ∨ s.now + e < s.rca.since + 100000) :
    execEnterDraining e s = .next (s.elapse e) := by
  refine if_neg fun hboth => ?_
  obtain ⟨hrun, hlong⟩ := Bool.and_eq_true_iff.1 hboth
  rcases h with h | h
  · exact h (of_decide_eq_true hrun)
  · exact absurd (of_decide_eq_true hlong) (Nat.not_le.2 h)

/-- Settles O48: the two cases of the spell; what `startDrain` sets is what the statement lists. -/
theorem enterDraining : Obligations.EnterDraining := by
  intro e s
  refine ⟨fun hrun hlong => ?_, fun h => execEnterDraining_idles h, fun hn => ?_⟩
  · exact execEnterDraining_drains hrun hlong
  · simp only [State.runLineHeld, hn]

end Sys2Proof.Machine

/-! Which commands leave position, settings in force and waiting places as they are: they change nothing of the DU but that the
partial cycle is dropped, post no close of the DU, and keep to the places of the request list and of the queue. The laws of
capacity and of position pass along such a command without a look at it. -/

namespace Sys2Proof.Machine

variable {P : QueuedRecord → Prop} {s s' t a b d : State}

/-- The bins of the closes waiting, in their order (R39, R47). -/
def Tt.closes (u : Tt) : List Int := u.requests.filterMap Request.closedBin

theorem closesWaiting_eq (u : Tt) : u.closesWaiting = u.closes.length := by
  rw [Tt.closes, List.length_filterMap_eq_countP, Tt.closesWaiting]
  congr 1
  funext r
  cases r <;> rfl

theorem closes_post (s : State) (r : Request) : (s.post r).tt.closes = s.tt.closes ++ r.closedBin.toList := by
  simp only [Tt.closes, State.post_tt, List.filterMap_append, List.filterMap_cons, List.filterMap_nil]
  cases r.closedBin <;> rfl

theorem applicationsWaiting_post (s : State) (r : Request) :
    (s.post r).tt.applicationsWaiting = s.tt.applicationsWaiting + if r.isApplication then 1 else 0 := by
  simp only [Tt.applicationsWaiting, State.post_tt, List.countP_append, List.countP_cons, List.countP_nil, Nat.zero_add]

/-- From `s` to `t` the position stays but for a dropped partial cycle, no close of the DU is posted, and what waits keeps to its
places. -/
structure Steady (s t : State) : Prop where
  now : s.now ≤ t.now
  du : t.du = s.du ∨ t.du = { s.du with quarter := 0 }
  runSettings : t.rca.runSettings = s.rca.runSettings
  closes : t.tt.closes.Sublist s.tt.closes
  applications : s.tt.applicationsWaiting ≤ 4 → t.tt.applicationsWaiting ≤ 4
  queue : QueueSound s → QueueSound t

/-- A steady command that leaves DU and tracks as they are. -/
structure Undisturbed (s t : State) : Prop extends Steady s t where
  sameDu : t.du = s.du
  tracks : t.tt.tracks = s.tt.tracks

namespace Steady

theorem refl (s : State) : Steady s s := ⟨le_rfl, .inl rfl, rfl, List.Sublist.refl _, id, id⟩

theorem trans (h : Steady a b) (h' : Steady b d) : Steady a d where
  now := h.now.trans h'.now
  du := by rcases h.du with e | e <;> rcases h'.du with e' | e' <;> simp [e', e]
  runSettings := h'.runSettings.trans h.runSettings
  closes := h'.closes.trans h.closes
  applications := h'.applications ∘ h.applications
  queue := h'.queue ∘ h.queue

/-- A command that touches neither DU, settings in force, request list nor queue. -/
theorem of_frame (hnow : s.now ≤ t.now) (hdu : t.du = s.du)
    (hset : t.rca.runSettings = s.rca.runSettings) (hlist : t.tt.requests = s.tt.requests)
    (hqueue : QueueSound s → QueueSound t) : Steady s t where
  now := hnow
  du := .inl hdu
  runSettings := hset
  closes := by rw [Tt.closes, Tt.closes, hlist]
  applications := by rw [Tt.applicationsWaiting, Tt.applicationsWaiting, hlist]; exact id
  queue := hqueue

end Steady

namespace Undisturbed

theorem refl (s : State) : Undisturbed s s := ⟨.refl s, rfl, rfl⟩

theorem trans (h : Undisturbed a b) (h' : Undisturbed b d) : Undisturbed a d :=
  ⟨h.toSteady.trans h'.toSteady, h'.sameDu.trans h.sameDu, h'.tracks.trans h.tracks⟩

theorem of_frame (hnow : s.now ≤ t.now) (hdu : t.du = s.du)
    (hset : t.rca.runSettings = s.rca.runSettings) (htable : t.tt = s.tt)
    (hqueue : QueueSound s → QueueSound t) : Undisturbed s t :=
  ⟨.of_frame hnow hdu hset (by rw [htable]) hqueue, hdu, by rw [htable]⟩

/-- What comes before touches neither DU, settings in force, table nor queue. -/
theorem after (h : Undisturbed b d) (hnow : a.now ≤ b.now) (hdu : b.du = a.du)
    (hset : b.rca.runSettings = a.rca.runSettings) (htable : b.tt = a.tt)
    (hqueue : QueueSound a → QueueSound b) : Undisturbed a d :=
  (of_frame hnow hdu hset htable hqueue).trans h

/-- A request that is no close of the DU joins the list; an application only where a place is left (R53). -/
theorem post {r : Request} (hclose : r.closedBin = none) (hplace : r.isApplication = true → s.tt.applicationsWaiting < 4) :
    Undisturbed s (s.post r) where
  now := le_rfl
  du := .inl rfl
  runSettings := rfl
  closes := by rw [closes_post, hclose]; simp
  applications := fun h => by
    rw [applicationsWaiting_post]
    split
    · exact hplace ‹_›
    · exact h
  queue := id
  sameDu := rfl
  tracks := rfl

end Undisturbed

theorem elapse_undisturbed (s : State) (e : Nat) : Undisturbed s (s.elapse e) := .of_frame (Nat.le_add_right _ _) rfl rfl rfl id

theorem QueueFootprint.undisturbed (h : QueueFootprint P s s') : Undisturbed s s' :=
  .of_frame h.now.ge h.du h.runSettings h.tt h.capacity

theorem TracksFootprint.steady (h : TracksFootprint P s s') : Steady s s' :=
  .of_frame h.now.ge h.1.du h.1.runSettings (by rw [h.2]) h.1.capacity

theorem PassFootprint.steady (h : PassFootprint P s s') : Steady s s' :=
  .of_frame h.now.ge h.queue.du h.queue.runSettings (by rw [h.tt]) h.queue.capacity

theorem arbitrate_undisturbed (s : State) : Undisturbed s (arbitrate s) :=
  (arbitrate_footprint (fun _ => True) s).undisturbed

theorem testForm_undisturbed (s : State) : Undisturbed s (testForm s) := (testForm_footprint (fun _ => True) s).undisturbed

theorem testDrainEnd_undisturbed (s : State) : Undisturbed s (testDrainEnd s) := by
  rcases testDrainEnd_cases s with h | ⟨d, -, -, h⟩ <;> rw [h]
  · exact arbitrate_undisturbed s
  · exact (arbitrate_undisturbed _).after le_rfl rfl rfl rfl id

theorem statusFor_undisturbed (s : State) (result : StatusResult) (destination : Nat) :
    Undisturbed s (s.statusFor result destination) := (arbitrate_undisturbed _).after le_rfl rfl rfl rfl id

/-! ## The roof link (R131, R137 to R147) -/

theorem stopDriving_undisturbed (s : State) : Undisturbed s s.stopDriving := by
  unfold State.stopDriving
  split <;> exact .of_frame le_rfl rfl rfl rfl id

theorem spellBegins_undisturbed (s : State) (usable : Bool) : Undisturbed s (s.spellBegins usable) := by
  unfold State.spellBegins
  split <;> exact .of_frame le_rfl rfl rfl rfl id

theorem statusEnded_undisturbed (s : State) (drainEnd : Bool) : Undisturbed s (s.statusEnded drainEnd) := by
  unfold State.statusEnded
  split <;> exact .of_frame le_rfl rfl rfl rfl id

/-- The records IN_FRAME leave the queue when their frame was sent (R129). -/
theorem emptyFrame_undisturbed (s : State) : Undisturbed s (s.withRq { s.rq with inFrame := [] }) :=
  .of_frame le_rfl rfl rfl rfl (fun ⟨_, htotal⟩ => ⟨Nat.zero_le _, by simp only [State.withRq_rq, List.length_nil]; omega⟩)

theorem frameEnded_undisturbed (s : State) (source : FrameSource) : Undisturbed s (frameEnded source s) := by
  cases source with
  | edge bin => simp only [frameEnded, State.restartHeartbeat]; split <;> exact .of_frame le_rfl rfl rfl rfl id
  | status drainEnd => exact statusEnded_undisturbed s drainEnd
  | gauge => exact (emptyFrame_undisturbed s).trans (testForm_undisturbed _)

/-- The records of an abandoned frame go back to QUEUED, or are lost after the drain limit (R131, R133). -/
theorem returnRecords_undisturbed (s : State) : Undisturbed s s.returnRecords := by
  unfold State.returnRecords
  split
  · exact (emptyFrame_undisturbed (s.countDrainLoss s.rq.inFrame.length)).after le_rfl rfl rfl rfl id
  · refine .of_frame le_rfl rfl rfl rfl (fun ⟨_, htotal⟩ => ⟨Nat.zero_le _, ?_⟩)
    simpa using htotal

theorem frameAbandoned_undisturbed (s : State) (source : FrameSource) : Undisturbed s (frameAbandoned source s) := by
  have hcounted : Undisturbed s (s.countAbandoned.setLatch .collisionLimit) := .of_frame le_rfl rfl rfl rfl id
  cases source with
  | edge bin => exact hcounted
  | status drainEnd => exact hcounted.trans (statusEnded_undisturbed _ drainEnd)
  | gauge => exact hcounted.trans (returnRecords_undisturbed _)

theorem collide_undisturbed (s : State) (source : FrameSource) (bytes : List Byte) (attempts : Nat) :
    Undisturbed s (collide source bytes attempts s) := (spellBegins_undisturbed s false).trans (.of_frame le_rfl rfl rfl rfl id)

theorem execAttemptBegin_undisturbed {e : Nat} (hstep : execAttemptBegin e s = .next t) : Undisturbed s t := by
  have helapsed := elapse_undisturbed s e
  unfold execAttemptBegin at hstep
  simp only at hstep
  split at hstep
  · split at hstep
    · cases hstep
    · split at hstep <;> cases hstep
      unfold beginAttempt
      split
      · exact (testDrainEnd_undisturbed _).after (Nat.le_add_right _ _) rfl rfl rfl id
      · exact helapsed.trans (.of_frame le_rfl rfl rfl rfl id)
  all_goals cases hstep

theorem execCollision_undisturbed {e : Nat} (hstep : execCollision e s = .next t) : Undisturbed s t := by
  unfold execCollision at hstep
  simp only at hstep
  split at hstep
  · split at hstep <;> cases hstep
    exact (elapse_undisturbed s e).trans (collide_undisturbed _ _ _ _)
  all_goals cases hstep

theorem endJam_undisturbed (source : FrameSource) (bytes : List Byte) (attempts draw : Nat) (s : State) :
    Undisturbed s (endJam source bytes attempts draw s) := by
  have hfreed (x : Transmitter) : Undisturbed s (s.stopDriving.withTx x) :=
    (stopDriving_undisturbed s).trans (.of_frame le_rfl rfl rfl rfl id)
  unfold endJam
  simp only
  split
  · exact hfreed _
  · exact ((hfreed .free).trans (frameAbandoned_undisturbed _ _)).trans (testDrainEnd_undisturbed _)

theorem execJamEnd_undisturbed {e draw : Nat} (hstep : execJamEnd e draw s = .next t) : Undisturbed s t := by
  unfold execJamEnd at hstep
  simp only at hstep
  split at hstep
  · split at hstep <;> cases hstep
    exact (elapse_undisturbed s e).trans (endJam_undisturbed _ _ _ _ _)
  all_goals cases hstep

theorem execBackoffEnd_undisturbed {e : Nat} (hstep : execBackoffEnd e s = .next t) : Undisturbed s t := by
  unfold execBackoffEnd at hstep
  simp only at hstep
  split at hstep
  · split at hstep <;> cases hstep
    exact .of_frame (Nat.le_add_right _ _) rfl rfl rfl id
  all_goals cases hstep

theorem execFrameSent_undisturbed {e : Nat} (hstep : execFrameSent e s = .next t) : Undisturbed s t := by
  unfold execFrameSent at hstep
  simp only at hstep
  split at hstep
  · split at hstep <;> cases hstep
    have hfreed : Undisturbed s ((s.elapse e).stopDriving.withTx .free) :=
      ((elapse_undisturbed s e).trans (stopDriving_undisturbed _)).trans (.of_frame le_rfl rfl rfl rfl id)
    exact (hfreed.trans (frameEnded_undisturbed _ _)).trans (testDrainEnd_undisturbed _)
  all_goals cases hstep

theorem execBusJam_undisturbed {e : Nat} (hstep : execBusJam e s = .next t) : Undisturbed s t := by
  unfold execBusJam at hstep
  simp only at hstep
  split at hstep
  · cases hstep
  · split at hstep
    · cases hstep
    · split at hstep <;> cases hstep
      exact .of_frame (Nat.le_add_right _ _) rfl rfl rfl id

theorem execMediumQuiet_undisturbed {e : Nat} (hstep : execMediumQuiet e s = .next t) : Undisturbed s t := by
  unfold execMediumQuiet at hstep
  split at hstep
  · cases hstep
  · split at hstep <;> cases hstep
    exact .of_frame (Nat.le_add_right _ _) rfl rfl rfl id

theorem execCarrierAppears_undisturbed {e : Nat} (hstep : execCarrierAppears e s = .next t) : Undisturbed s t := by
  have helapsed := elapse_undisturbed s e
  unfold execCarrierAppears at hstep
  simp only at hstep
  split at hstep
  · cases hstep
  · split at hstep <;> cases hstep
    · split
      · exact helapsed.trans (collide_undisturbed _ _ _ _)
      · exact helapsed.trans (spellBegins_undisturbed _ _)
    all_goals exact helapsed.trans (spellBegins_undisturbed _ _)

theorem execHeartbeatTimerExpiry_undisturbed {e : Nat} (hstep : execHeartbeatTimerExpiry e s = .next t) :
    Undisturbed s t := by
  obtain ⟨-, -, -, hgo⟩ := onExpiry_next hstep
  split at hgo <;> cases hgo
  unfold expireHeartbeat
  simp only
  split
  · exact (arbitrate_undisturbed _).after (Nat.le_add_right _ _) rfl rfl rfl id
  · exact .of_frame (Nat.le_add_right _ _) rfl rfl rfl id

theorem execRecordAgeExpiry_undisturbed {e : Nat} (hstep : execRecordAgeExpiry e s = .next t) : Undisturbed s t := by
  unfold execRecordAgeExpiry at hstep
  simp only at hstep
  split at hstep
  · cases hstep
  · split at hstep <;> cases hstep
    exact (elapse_undisturbed s e).trans (testForm_undisturbed _)
  · cases hstep

theorem execHoldPeriodEnd_undisturbed {e : Nat} (hstep : execHoldPeriodEnd e s = .next t) : Undisturbed s t := by
  obtain ⟨-, -, -, hgo⟩ := onExpiry_next hstep
  cases hgo
  exact (testForm_undisturbed _).after (Nat.le_add_right _ _) rfl rfl rfl id

/-- At the drain limit the QUEUED records leave the queue (R133). -/
theorem execDrainLimit_undisturbed {e : Nat} (hstep : execDrainLimit e s = .next t) : Undisturbed s t := by
  obtain ⟨-, -, -, hgo⟩ := onExpiry_next hstep
  cases hgo
  refine (testDrainEnd_undisturbed _).after (Nat.le_add_right _ _) rfl rfl rfl (?_)
  rintro ⟨hframe, -⟩
  exact ⟨hframe, hframe.trans (by decide)⟩

theorem execAlertPulseEnd_undisturbed {e : Nat} (hstep : execAlertPulseEnd e s = .next t) : Undisturbed s t := by
  obtain ⟨-, -, -, hgo⟩ := onExpiry_next hstep
  cases hgo
  exact .of_frame (Nat.le_add_right _ _) rfl rfl rfl id

/-! ## Reception (R53, R149 to R153) -/

theorem offerApplication_undisturbed (s : State) {r : Request} (hr : r.closedBin = none) :
    Undisturbed s (offerApplication r s) := by
  unfold offerApplication
  split
  · split
    · exact .post hr fun _ => ‹_›
    · exact .of_frame le_rfl rfl rfl rfl id
  · exact .refl s

theorem takeConfig_undisturbed (s : State) (f : ReceivedFrame) : Undisturbed s (takeConfig f s) := by
  unfold takeConfig
  split
  · exact (statusFor_undisturbed _ _ _).after le_rfl rfl rfl rfl id
  · simp only
    split <;> exact (statusFor_undisturbed _ _ _).after le_rfl rfl rfl rfl id

theorem takeQuery_undisturbed (s : State) (f : ReceivedFrame) : Undisturbed s (takeQuery f s) := by
  unfold takeQuery
  split
  · exact (statusFor_undisturbed _ _ _).after le_rfl rfl rfl rfl id
  · exact statusFor_undisturbed _ _ _

theorem filterFrame_undisturbed (s : State) (f : ReceivedFrame) : Undisturbed s (filterFrame f s) := by
  have hbad : Undisturbed s s.countBad := .of_frame le_rfl rfl rfl rfl id
  unfold filterFrame
  split
  · exact hbad
  · exact .refl s
  · exact .refl s
  · split
    · split
      · exact offerApplication_undisturbed s rfl
      · exact hbad
    · exact .refl s
  · split
    · split
      · exact offerApplication_undisturbed s rfl
      · exact hbad
    · exact .refl s
  · split
    · exact takeConfig_undisturbed s f
    · exact .refl s
  · split
    · exact takeQuery_undisturbed s f
    · exact .refl s

theorem signOfLife_undisturbed (s : State) (source : Nat) : Undisturbed s (signOfLife source s) := by
  unfold signOfLife
  split
  · split <;> exact .of_frame le_rfl rfl rfl rfl id
  · exact .refl s

theorem judgeReception_undisturbed (s : State) (bytes : List Byte) : Undisturbed s (judgeReception bytes s) := by
  unfold judgeReception
  split
  · exact .refl s
  · split
    · exact (signOfLife_undisturbed s _).trans (filterFrame_undisturbed _ _)
    · exact .of_frame le_rfl rfl rfl rfl id

theorem execReceptionBegin_undisturbed {event : ReceptionEvent} (hstep : execReceptionBegin event s = .next t) :
    Undisturbed s t := by
  unfold execReceptionBegin at hstep
  split at hstep
  · cases hstep
  · split at hstep
    · cases hstep
    · split at hstep <;> cases hstep
      exact .of_frame (Nat.le_add_right _ _) rfl rfl rfl id

theorem execFrameReceived_undisturbed {e : Nat} {bits : List Bool} (hstep : execFrameReceived e bits s = .next t) :
    Undisturbed s t := by
  unfold execFrameReceived at hstep
  split at hstep <;> cases hstep
  exact (judgeReception_undisturbed _ _).after (Nat.le_add_right _ _) rfl rfl rfl id

theorem execNeighbourTimerExpiry_undisturbed {e : Nat} {side : Side} (hstep : execNeighbourTimerExpiry e side s = .next t) :
    Undisturbed s t := by
  obtain ⟨-, -, -, hgo⟩ := onExpiry_next hstep
  cases hgo
  unfold loseNeighbour
  simp only
  split
  · exact (Undisturbed.post (r := .neighbourLost side) rfl nofun).after (Nat.le_add_right _ _) rfl rfl rfl id
  · exact .of_frame (Nat.le_add_right _ _) rfl rfl rfl id

/-! ## The sensor port (R15 to R24) -/

theorem beginMessage_undisturbed (s : State) : Undisturbed s (beginMessage s) := by
  unfold beginMessage
  split
  · exact .of_frame le_rfl rfl rfl rfl id
  · split
    · exact .of_frame le_rfl rfl rfl rfl id
    · simp only
      split <;> exact .of_frame le_rfl rfl rfl rfl id

theorem continuityCheck_undisturbed (bytes : List Byte) (s : State) : Undisturbed s (continuityCheck bytes s) := by
  unfold continuityCheck
  split <;> exact .of_frame le_rfl rfl rfl rfl id

theorem takeMessage_undisturbed (c : Settings) (p : PageId) (bytes : List Byte) (s : State) :
    Undisturbed s (takeMessage c p bytes s) := by
  unfold takeMessage
  split
  · exact (continuityCheck_undisturbed _ _).after le_rfl rfl rfl rfl id
  · have hposted := ((continuityCheck_undisturbed bytes s).trans (.of_frame le_rfl rfl rfl rfl id)).trans
      (.post (r := .scanPass p) rfl nofun)
    exact hposted.trans (.of_frame le_rfl rfl rfl rfl id)

theorem endMessage_undisturbed {bytes : List Byte} (hstep : endMessage bytes s = .next t) : Undisturbed s t := by
  have hidle : Undisturbed s s.portIdle := .of_frame le_rfl rfl rfl rfl id
  unfold endMessage at hstep
  split at hstep
  · cases hstep
  · cases hstep
  · cases hstep
    split
    · exact hidle.trans (continuityCheck_undisturbed _ _)
    · exact hidle
  · split at hstep
    · split at hstep <;> cases hstep
      exact hidle.trans (takeMessage_undisturbed _ _ _ _)
    · cases hstep
      exact .of_frame le_rfl rfl rfl rfl id

theorem execScanMessageBegin_undisturbed {e : Nat} (hstep : execScanMessageBegin e s = .next t) : Undisturbed s t := by
  unfold execScanMessageBegin at hstep
  split at hstep <;> cases hstep
  exact (elapse_undisturbed s e).trans (beginMessage_undisturbed _)

theorem execScanMessageSilence_undisturbed {e : Nat} {bytes : List Byte} (hstep : execScanMessageSilence e bytes s = .next t) :
    Undisturbed s t := by
  unfold execScanMessageSilence at hstep
  split at hstep
  · cases hstep; exact .of_frame (Nat.le_add_right _ _) rfl rfl rfl id
  all_goals exact (elapse_undisturbed s e).trans (endMessage_undisturbed hstep)

theorem execExposureWordSent_undisturbed {e : Nat} (hstep : execExposureWordSent e s = .next t) : Undisturbed s t := by
  unfold execExposureWordSent at hstep
  split at hstep <;> cases hstep
  exact .of_frame (Nat.le_add_right _ _) rfl rfl rfl id

theorem execEndMarkAfterReset_undisturbed {e : Nat} (hstep : execEndMarkAfterReset e s = .next t) : Undisturbed s t := by
  unfold execEndMarkAfterReset at hstep
  split at hstep <;> cases hstep
  exact .of_frame (Nat.le_add_right _ _) rfl rfl rfl id

/-! ## Requests of the track table (R52 to R56, R78, R125) -/

/-- A request is taken from the list. -/
theorem takeRequest_steady {r : Request} {rest : List Request} (hr : s.tt.requests = r :: rest) (e : Nat) :
    Steady s (s.takeRequest e rest) where
  now := Nat.le_add_right _ _
  du := .inl rfl
  runSettings := rfl
  closes := by
    rw [Tt.closes, Tt.closes, hr]
    exact (List.sublist_cons_self r rest).filterMap _
  applications := by
    rw [Tt.applicationsWaiting, Tt.applicationsWaiting, hr]
    exact ((List.sublist_cons_self r rest).countP_le).trans
  queue := id

theorem served_steady (s : State) : Steady s s.served := .of_frame le_rfl rfl rfl rfl id

theorem dealWithTracks_steady (c : Settings) (k : Int) (final : Bool) (s : State) : Steady s (dealWithTracks c k final s) :=
  (dealWithTracks_spec (P := fun _ => True) c k final fun _ _ => ⟨fun _ _ _ => trivial, trivial⟩).1.steady

theorem buildReport_steady (c : Settings) (k : Int) (s : State) : Steady s (buildReport c k s) := by
  obtain ⟨hother, hrun⟩ := buildReport_spec c k s
  by_cases hn : s.rca.node = .running
  · rw [hrun hn]
    refine Steady.trans ?_ (arbitrate_undisturbed _).toSteady
    exact .of_frame le_rfl rfl rfl rfl id
  · rw [hother hn]; exact .refl s

theorem exposureStep_steady (c : Settings) (s : State) : Steady s (exposureStep c s) := .of_frame le_rfl rfl rfl rfl id

/-- The table is closed and what waited is gone (R54). -/
theorem closeTable_steady (s : State) : Steady s s.closeTable where
  now := le_rfl
  du := .inl rfl
  runSettings := rfl
  closes := List.nil_sublist _
  applications := fun _ => Nat.zero_le _
  queue := id

theorem execScanPass_steady {e : Nat} (hstep : execScanPass e s = .next t) : Steady s t := by
  obtain ⟨p, rest, c, scan, hr, -, -, -, rfl⟩ := execScanPass_next hstep
  exact ((takeRequest_steady hr e).trans (runPass_footprint c scan _).steady).trans (.of_frame le_rfl rfl rfl rfl id)

theorem execBinClose_steady {e : Nat} (hstep : execBinClose e s = .next t) : Steady s t := by
  obtain ⟨k, rest, c, hr, -, -, rfl⟩ := execBinClose_next hstep
  have hclosed := ((takeRequest_steady hr e).trans (dealWithTracks_steady c k false _)).trans (buildReport_steady c k _)
  exact (hclosed.trans (exposureStep_steady c _)).trans (served_steady _)

theorem execFinalClose_steady {e : Nat} (hstep : execFinalClose e s = .next t) : Steady s t := by
  obtain ⟨k, rest, c, hr, -, -, rfl⟩ := execFinalClose_next hstep
  have hclosed := ((takeRequest_steady hr e).trans (dealWithTracks_steady c k true _)).trans (exposureStep_steady c _)
  exact ((hclosed.trans (served_steady _)).trans (closeTable_steady _)).trans (testDrainEnd_undisturbed _).toSteady

theorem applyEdge_steady (c : Settings) (side : Side) (report : EdgeReport) (s : State) :
    Steady s (applyEdge c side report s) := by
  have hcentre : Steady s (s.takeCentre side report) := by cases side <;> exact .of_frame le_rfl rfl rfl rfl id
  cases hnames : headerNames s.rca.slot side report with
  | false => rw [applyEdge_mismatch hnames]; exact .of_frame le_rfl rfl rfl rfl id
  | true =>
    cases hbeat : report.heartbeat with
    | true => rw [applyEdge_heartbeat hnames hbeat]; exact hcentre
    | false =>
      rw [applyEdge_close hnames hbeat]
      exact hcentre.trans (closeApplied_spec c side report _).1.steady

theorem applyMark_steady (c : Settings) (number : Nat) (type : Option Nat) (s : State) : Steady s (applyMark c number type s) := by
  unfold applyMark
  simp only
  split
  · split <;> exact .of_frame le_rfl rfl rfl rfl id
  · exact .of_frame le_rfl rfl rfl rfl id

theorem dissolveAll_steady (places : List Nat) (s : State) :
    Steady s (places.foldl (fun s i => s.updateTrack i dissolve) s) :=
  (foldl_updateTrack (P := fun _ => True) (R := fun _ _ => True) (I := fun _ => True) (fun _ => trivial)
    (fun _ _ _ _ _ => trivial) (fun i : Nat => i) (fun _ t s => dissolve t s) places s (fun _ _ => trivial)
    fun _ _ _ _ _ _ _ => ⟨dissolve_footprint fun _ _ _ _ => trivial, trivial, trivial⟩).1.steady

theorem execEdgeApplication_next {e : Nat} (hstep : execEdgeApplication e s = .next t) : ∃ side report rest c,
    s.tt.requests = .edge side report :: rest ∧ t = (applyEdge c side report (s.takeRequest e rest)).served := by
  obtain ⟨r, rest, c, hr, -, -, hf⟩ := serveNext_next hstep
  split at hf <;> cases hf
  exact ⟨_, _, rest, c, hr, rfl⟩

theorem execMarkApplication_next {e : Nat} (hstep : execMarkApplication e s = .next t) : ∃ number type rest c,
    s.tt.requests = .mark number type :: rest ∧ t = (applyMark c number type (s.takeRequest e rest)).served := by
  obtain ⟨r, rest, c, hr, -, -, hf⟩ := serveNext_next hstep
  split at hf <;> cases hf
  exact ⟨_, _, rest, c, hr, rfl⟩

theorem execNeighbourLostApplication_next {e : Nat} (hstep : execNeighbourLostApplication e s = .next t) : ∃ side rest,
    s.tt.requests = .neighbourLost side :: rest
      ∧ t = ((linkedPlaces side s.tt.tracks).foldl (fun s i => s.updateTrack i dissolve) (s.takeRequest e rest)).served := by
  obtain ⟨r, rest, c, hr, -, -, hf⟩ := serveNext_next hstep
  split at hf <;> cases hf
  exact ⟨_, rest, hr, rfl⟩

theorem execEdgeApplication_steady {e : Nat} (hstep : execEdgeApplication e s = .next t) : Steady s t := by
  obtain ⟨side, report, rest, c, hr, rfl⟩ := execEdgeApplication_next hstep
  exact ((takeRequest_steady hr e).trans (applyEdge_steady c side report _)).trans (served_steady _)

theorem execMarkApplication_steady {e : Nat} (hstep : execMarkApplication e s = .next t) : Steady s t := by
  obtain ⟨number, type, rest, c, hr, rfl⟩ := execMarkApplication_next hstep
  exact ((takeRequest_steady hr e).trans (applyMark_steady c number type _)).trans (served_steady _)

theorem execNeighbourLostApplication_steady {e : Nat} (hstep : execNeighbourLostApplication e s = .next t) : Steady s t := by
  obtain ⟨side, rest, hr, rfl⟩ := execNeighbourLostApplication_next hstep
  exact ((takeRequest_steady hr e).trans (dissolveAll_steady _ _)).trans (served_steady _)

/-! ## The start of a drain (R43, R159) -/

/-- The state of a node that has entered DRAINING, before R129 is tested. -/
def State.drainBegun (s : State) : State :=
  { (s.enterNode .draining).post (.finalClose s.du.hw) with
    du := { s.du with quarter := 0 }
    rlc := { s.rlc with
      heartbeat := none
      leftLife := s.rlc.leftLife.map Liveness.stop
      rightLife := s.rlc.rightLife.map Liveness.stop }
    rca := { (s.enterNode .draining).rca with drainTimer := some (s.now + drainTime) } }

theorem startDrain_eq (s : State) : startDrain s = testForm s.drainBegun := rfl

theorem drainBegun_steady (s : State) : Steady s s.drainBegun := by
  have hposted : Undisturbed s (s.post (.finalClose s.du.hw)) := .post rfl nofun
  exact
    { now := le_rfl
      du := .inr rfl
      runSettings := rfl
      closes := hposted.closes
      applications := hposted.applications
      queue := id }

/-- ENTER_DRAINING starts a drain in RUNNING, or lets time pass. -/
theorem execEnterDraining_next {e : Nat} (hstep : execEnterDraining e s = .next t) :
    s.rca.node = .running ∧ t = startDrain (s.elapse e) ∨ t = s.elapse e := by
  unfold execEnterDraining at hstep
  simp only at hstep
  split at hstep <;> cases hstep
  · rename_i hboth
    exact .inl ⟨of_decide_eq_true (Bool.and_eq_true_iff.1 hboth).1, rfl⟩
  · exact .inr rfl

theorem execEnterDraining_steady {e : Nat} (hstep : execEnterDraining e s = .next t) : Steady s t := by
  have helapsed := (elapse_undisturbed s e).toSteady
  rcases execEnterDraining_next hstep with ⟨-, rfl⟩ | rfl
  · exact (helapsed.trans (drainBegun_steady _)).trans (testForm_undisturbed _).toSteady
  · exact helapsed

/-! ## The commands -/

/-- The commands of the DU, of the request list and of the run (R33, R34, R52, R157, R159, R161). -/
def disturbs : Instr → Bool
  | .powerOnReset .. | .odometerTransition .. | .illegalTransition _ | .scanPass _ | .binClose _ | .finalClose _
  | .edgeApplication _ | .markApplication _ | .neighbourLostApplication _ | .runStart _ | .enterDraining _ => true
  | _ => false

theorem exec_undisturbed {i : Instr} (hi : disturbs i = false) (hstep : exec i s = .next t) : Undisturbed s t := by
  cases i with
  | scanMessageBegin => exact execScanMessageBegin_undisturbed hstep
  | scanMessageEnd e => exact (elapse_undisturbed s e).trans (endMessage_undisturbed hstep)
  | scanMessageSilence => exact execScanMessageSilence_undisturbed hstep
  | exposureWordSent => exact execExposureWordSent_undisturbed hstep
  | attemptBegin => exact execAttemptBegin_undisturbed hstep
  | collision => exact execCollision_undisturbed hstep
  | jamEnd => exact execJamEnd_undisturbed hstep
  | backoffEnd => exact execBackoffEnd_undisturbed hstep
  | frameSent => exact execFrameSent_undisturbed hstep
  | busJam => exact execBusJam_undisturbed hstep
  | heartbeatTimerExpiry => exact execHeartbeatTimerExpiry_undisturbed hstep
  | receptionBegin => exact execReceptionBegin_undisturbed hstep
  | frameReceived => exact execFrameReceived_undisturbed hstep
  | neighbourTimerExpiry => exact execNeighbourTimerExpiry_undisturbed hstep
  | recordAgeExpiry => exact execRecordAgeExpiry_undisturbed hstep
  | holdPeriodEnd => exact execHoldPeriodEnd_undisturbed hstep
  | drainLimit => exact execDrainLimit_undisturbed hstep
  | alertPulseEnd => exact execAlertPulseEnd_undisturbed hstep
  | mediumQuiet => exact execMediumQuiet_undisturbed hstep
  | carrierAppears => exact execCarrierAppears_undisturbed hstep
  | endMarkAfterReset => exact execEndMarkAfterReset_undisturbed hstep
  | _ => cases hi

/-- The commands that move the position or begin it anew (R33, R34, R158, R161). -/
def movesPosition : Instr → Bool
  | .powerOnReset .. | .odometerTransition .. | .illegalTransition _ | .runStart _ => true
  | _ => false

theorem exec_steady {i : Instr} (hi : movesPosition i = false) (hstep : exec i s = .next t) : Steady s t := by
  cases hd : disturbs i with
  | false => exact (exec_undisturbed hd hstep).toSteady
  | true =>
    cases i with
    | scanPass => exact execScanPass_steady hstep
    | binClose => exact execBinClose_steady hstep
    | finalClose => exact execFinalClose_steady hstep
    | edgeApplication => exact execEdgeApplication_steady hstep
    | markApplication => exact execMarkApplication_steady hstep
    | neighbourLostApplication => exact execNeighbourLostApplication_steady hstep
    | enterDraining => exact execEnterDraining_steady hstep
    | powerOnReset | odometerTransition | illegalTransition | runStart => cases hi
    | _ => cases hd

end Sys2Proof.Machine

/-! What a group of edges does to the node (R32 to R42), and the laws of capacity (R40, R53, R128, R129) and of position
(R33, R35, R38, R39, R47) over a whole step. -/

namespace Sys2Proof.Machine

variable {s t : State} {c : Settings} {line : OdoLine} {u : Du} {e : Nat} {g : EdgeGroup}

/-! ## The quarter and the count (R33 to R38) -/

/-- The part of the law of position that the DU holds by itself. -/
structure DuSound (u : Du) : Prop where
  quarter_ge : -3 ≤ u.quarter
  quarter_le : u.quarter ≤ 3
  gpi_ge : minGpi ≤ u.gpi
  gpi_le : u.gpi ≤ u.hw
  hw_nonneg : 0 ≤ u.hw
  hw_le : u.hw ≤ maxGpi

theorem positionSound_iff : PositionSound s ↔
    (∀ r ∈ s.rca.runSettings, s.du.sub < r.settings.stepLength) ∧ DuSound s.du ∧ s.du.resolved ≤ s.now := by
  constructor
  · rintro ⟨hsub, hq, hq', hgpi, hgpi', hhw, hhw', hres⟩
    exact ⟨hsub, ⟨hq, hq', hgpi, hgpi', hhw, hhw'⟩, hres⟩
  · rintro ⟨hsub, ⟨hq, hq', hgpi, hgpi', hhw, hhw'⟩, hres⟩
    exact ⟨hsub, hq, hq', hgpi, hgpi', hhw, hhw', hres⟩

/-- The GPI moves by at most one, and the high-water index rises by at most one (R36, R37, R39). -/
def Moves (u v : Du) : Prop := u.hw ≤ v.hw ∧ (v.gpi - u.gpi).natAbs ≤ 1 ∧ v.hw - u.hw ≤ 1

theorem moves_of_same {v : Du} (hgpi : v.gpi = u.gpi) (hhw : v.hw = u.hw) : Moves u v := by
  unfold Moves
  omega

/-- What a quarter keeps: the instant of resolution, the high-water index from falling, the sub-step accumulator below the step
length where the pulse length is, and the law of position. -/
structure CountKeeps (c : Settings) (u v : Du) : Prop where
  resolved : v.resolved = u.resolved
  hw : u.hw ≤ v.hw
  sub : c.pulseLength < c.stepLength → u.sub < c.stepLength → v.sub < c.stepLength
  sound : DuSound u → DuSound v ∧ Moves u v

theorem CountKeeps.refl (c : Settings) (u : Du) : CountKeeps c u u :=
  ⟨rfl, le_rfl, fun _ => id, fun h => ⟨h, moves_of_same rfl rfl⟩⟩

theorem forwardCount_keeps (c : Settings) (u : Du) : CountKeeps c u (forwardCount c u) := by
  unfold forwardCount
  split
  · exact ⟨rfl, le_rfl, fun _ _ => ‹_›, fun h => ⟨{ h with }, moves_of_same rfl rfl⟩⟩
  · split
    · exact .refl c u
    · rename_i hmax
      refine ⟨rfl, le_max_left _ _, fun hpulse hsub => by simp only; omega, fun ⟨hq, hq', hgpi, hgpi', hhw, hhw'⟩ => ?_⟩
      refine ⟨⟨hq, hq', ?_, ?_, ?_, ?_⟩, ?_, ?_, ?_⟩ <;> simp only <;> omega

theorem reverseCount_keeps (c : Settings) (u : Du) : CountKeeps c u (reverseCount c u) := by
  unfold reverseCount
  split
  · exact ⟨rfl, le_rfl, fun _ hsub => by simp only; omega, fun h => ⟨{ h with }, moves_of_same rfl rfl⟩⟩
  · split
    · exact .refl c u
    · rename_i hmin
      refine ⟨rfl, le_rfl, fun hpulse hsub => by simp only; omega, fun ⟨hq, hq', hgpi, hgpi', hhw, hhw'⟩ => ?_⟩
      refine ⟨⟨hq, hq', ?_, ?_, hhw, hhw'⟩, le_rfl, ?_, ?_⟩ <;> simp only <;> omega

/-- Another phase state and a quarter count within -3 to 3 change nothing that the law speaks of. -/
theorem countKeeps_of_cycle (c : Settings) (pair : OdoPair) {q : Int} (hq : DuSound u → -3 ≤ q ∧ q ≤ 3) {v : Du}
    (h : CountKeeps c { u with pair := pair, quarter := q } v) : CountKeeps c u v where
  resolved := h.resolved
  hw := h.hw
  sub := h.sub
  sound := fun hu => by
    obtain ⟨hge, hle⟩ := hq hu
    exact h.sound { hu with quarter_ge := hge, quarter_le := hle }

theorem quarter_keeps (c : Settings) (line : OdoLine) (u : Du) : CountKeeps c u (quarter c line u) := by
  by_cases hf : isForward c.direction u.pair line = true
  · by_cases h3 : u.quarter = 3
    · rw [quarter_forward_fourth hf h3]
      exact countKeeps_of_cycle c (toggle u.pair line) (fun _ => by decide) (forwardCount_keeps c _)
    · rw [quarter_forward hf h3]
      exact countKeeps_of_cycle c (toggle u.pair line) (fun ⟨hge, hle, _, _, _, _⟩ => by omega) (.refl c _)
  · rw [Bool.not_eq_true] at hf
    by_cases h3 : u.quarter = -3
    · rw [quarter_reverse_fourth hf h3]
      exact countKeeps_of_cycle c (toggle u.pair line) (fun _ => by decide) (reverseCount_keeps c _)
    · rw [quarter_reverse hf h3]
      exact countKeeps_of_cycle c (toggle u.pair line) (fun ⟨hge, hle, _, _, _, _⟩ => by omega) (.refl c _)

/-! ## A group of edges -/

/-- From `s` to `t` a group of edges is resolved: the DU changes by at most a quarter, and of the rest of the node at most latches
change and the close of the high-water index is posted as it is passed, where a place is free (R39, R40). -/
structure TakesGroup (s t : State) : Prop where
  now : s.now ≤ t.now
  runSettings : t.rca.runSettings = s.rca.runSettings
  queue : t.rq = s.rq
  tracks : t.tt.tracks = s.tt.tracks
  du : (∃ pair q, (q = s.du.quarter ∨ q = 0) ∧ t.du = { s.du with pair := pair, quarter := q, resolved := t.now })
    ∨ ∃ c line, s.settings = some c ∧ t.du = quarter c line { s.du with resolved := t.now }
  requests : t.tt.requests = s.tt.requests ∧ s.du.hw ≤ t.du.hw
    ∨ t.tt.requests = s.tt.requests ++ [.binClose s.du.hw] ∧ s.rca.node = .running ∧ s.du.hw < t.du.hw
      ∧ s.tt.closesWaiting < 10

/-- A crossing posts the close of the bin left where a place is free, else it latches OVERSPEED (R40). -/
theorem postClose_cases (k : Int) (s : State) :
    (s.tt.closesWaiting < 10 ∧ postClose k s = s.post (.binClose k)) ∨ postClose k s = s.setLatch .overspeed := by
  unfold postClose
  split
  · exact .inl ⟨‹_›, rfl⟩
  · exact .inr rfl

theorem takeQuarter_takesGroup (hstep : takeQuarter line (s.resolveAt e) = .next t) : TakesGroup s t := by
  have hnow : s.now ≤ s.now + e := Nat.le_add_right _ _
  by_cases hrun : s.rca.node = .running
  · cases hc : s.settings with
    | none =>
      have hc' : (s.resolveAt e).settings = none := hc
      simp only [takeQuarter, show (s.resolveAt e).rca.node = .running from hrun, hc', if_true, reduceCtorEq] at hstep
    | some c =>
      rw [takeQuarter_running (s := s.resolveAt e) hrun hc] at hstep
      have hhw := (quarter_keeps c line (s.resolveAt e).du).hw
      cases hstep
      split
      · rename_i hpast
        rcases postClose_cases (s.resolveAt e).du.hw ((s.resolveAt e).withDu (quarter c line (s.resolveAt e).du))
          with ⟨hroom, h⟩ | h <;> rw [h]
        · exact ⟨hnow, rfl, rfl, rfl, .inr ⟨c, line, hc, rfl⟩, .inr ⟨rfl, hrun, hpast, hroom⟩⟩
        · exact ⟨hnow, rfl, rfl, rfl, .inr ⟨c, line, hc, rfl⟩, .inl ⟨rfl, hhw⟩⟩
      · exact ⟨hnow, rfl, rfl, rfl, .inr ⟨c, line, hc, rfl⟩, .inl ⟨rfl, hhw⟩⟩
  · rw [takeQuarter_outside (s := s.resolveAt e) hrun] at hstep
    cases hstep
    exact ⟨hnow, rfl, rfl, rfl, .inl ⟨_, _, .inr rfl, rfl⟩, .inl ⟨rfl, le_rfl⟩⟩

theorem takeEdges_takesGroup (hstep : takeEdges e g s = .next t) : TakesGroup s t := by
  have hnow : s.now ≤ s.now + e := Nat.le_add_right _ _
  unfold takeEdges at hstep
  simp only at hstep
  split at hstep
  · cases hstep
  · split at hstep
    · cases hstep
      exact ⟨hnow, rfl, rfl, rfl, .inl ⟨_, _, .inl rfl, rfl⟩, .inl ⟨rfl, le_rfl⟩⟩
    · exact takeQuarter_takesGroup hstep
    · cases hstep
      unfold takeIllegal State.latchIf
      split <;> exact ⟨hnow, rfl, rfl, rfl, .inl ⟨_, _, .inr rfl, rfl⟩, .inl ⟨rfl, le_rfl⟩⟩

/-! ## Capacity -/

theorem Steady.capacity (h : Steady s t) (hplaces : PlacesSound s) : PlacesSound t := by
  obtain ⟨hcloses, happlications⟩ := hplaces
  rw [closesWaiting_eq] at hcloses
  exact ⟨by rw [closesWaiting_eq]; exact h.closes.length_le.trans hcloses, h.applications happlications⟩

theorem TakesGroup.places (h : TakesGroup s t) (hplaces : PlacesSound s) : PlacesSound t := by
  obtain ⟨hcloses, happlications⟩ := hplaces
  unfold PlacesSound Tt.closesWaiting Tt.applicationsWaiting
  rcases h.requests with ⟨hlist, -⟩ | ⟨hlist, -, -, hroom⟩ <;> rw [hlist]
  · exact ⟨hcloses, happlications⟩
  · rw [List.countP_append, List.countP_append]
    exact ⟨hroom, happlications⟩

/-- RUN_START begins a run in READY, or lets time pass (R157, R158). -/
theorem execRunStart_next (hstep : execRunStart e s = .next t) :
    s.rca.node = .ready ∧ (∃ r, s.rca.pendingSettings = some r ∧ t = startRun r (s.elapse e)) ∨ t = s.elapse e := by
  unfold execRunStart at hstep
  simp only at hstep
  split at hstep
  · rename_i hboth
    split at hstep <;> cases hstep
    exact .inl ⟨of_decide_eq_true (Bool.and_eq_true_iff.1 hboth).1, _, ‹_›, rfl⟩
  · cases hstep; exact .inr rfl

theorem exec_capacity (hqueue : QueueSound s) (hplaces : PlacesSound s) {i : Instr} (hstep : exec i s = .next t) :
    QueueSound t ∧ PlacesSound t := by
  have hempty : QueueSound State.reset ∧ PlacesSound State.reset := by decide
  have hgroup : TakesGroup s t → QueueSound t ∧ PlacesSound t := fun h =>
    ⟨by rw [QueueSound, h.queue]; exact hqueue, h.places hplaces⟩
  cases hi : movesPosition i with
  | false =>
    have hsteady := exec_steady hi hstep
    exact ⟨hsteady.queue hqueue, hsteady.capacity hplaces⟩
  | true =>
    cases i with
    | powerOnReset => cases hstep; exact hempty
    | odometerTransition => exact hgroup (takeEdges_takesGroup hstep)
    | illegalTransition => exact hgroup (takeEdges_takesGroup hstep)
    | runStart =>
      rcases execRunStart_next hstep with ⟨-, r, -, rfl⟩ | rfl
      · exact hempty
      · exact ⟨hqueue, hplaces⟩
    | _ => cases hi

/-- Settles O53: the queue of commands is no part of the law, and every command keeps to the places. -/
theorem capacityLaw : Obligations.CapacityLaw := by
  intro s t hqueue hplaces hstep
  unfold step at hstep
  split at hstep
  · cases hstep; exact ⟨hqueue, hplaces⟩
  · rename_i i rest _
    exact exec_capacity (s := { s with pending := rest }) hqueue hplaces hstep

/-! ## Position -/

theorem TakesGroup.position (h : TakesGroup s t) (hrun : RunSound s) (hpos : PositionSound s) :
    PositionSound t ∧ Moves s.du t.du := by
  obtain ⟨hsub, hdu, -⟩ := positionSound_iff.1 hpos
  rw [positionSound_iff, h.runSettings]
  rcases h.du with ⟨pair, q, hq, hdu'⟩ | ⟨c, line, hc, hdu'⟩ <;> rw [hdu']
  · refine ⟨⟨hsub, { hdu with quarter_ge := ?_, quarter_le := ?_ }, le_rfl⟩, moves_of_same rfl rfl⟩
    · rcases hq with rfl | rfl
      · exact hdu.quarter_ge
      · exact (by decide : (-3 : Int) ≤ 0)
    · rcases hq with rfl | rfl
      · exact hdu.quarter_le
      · exact (by decide : (0 : Int) ≤ 3)
  · obtain ⟨r, hr, rfl⟩ := Option.map_eq_some_iff.1 hc
    obtain ⟨-, hpulse, -⟩ := hrun.2.1 r hr
    have hkeeps := quarter_keeps r.settings line { s.du with resolved := t.now }
    obtain ⟨hsound, hmoves⟩ := hkeeps.sound { hdu with }
    refine ⟨⟨fun r' hr' => ?_, hsound, hkeeps.resolved.le⟩, hmoves⟩
    obtain rfl : r = r' := Option.some.inj (hr.symm.trans hr')
    exact hkeeps.sub hpulse (hsub r hr)

theorem Steady.position (h : Steady s t) (hpos : PositionSound s) : PositionSound t ∧ Moves s.du t.du := by
  obtain ⟨hsub, hdu, hres⟩ := positionSound_iff.1 hpos
  rw [positionSound_iff, h.runSettings]
  rcases h.du with hdu' | hdu' <;> rw [hdu']
  · exact ⟨⟨hsub, hdu, hres.trans h.now⟩, moves_of_same rfl rfl⟩
  · exact ⟨⟨hsub, { hdu with quarter_ge := by simp only; decide, quarter_le := by simp only; decide }, hres.trans h.now⟩,
      moves_of_same rfl rfl⟩

/-! ## The closes waiting (R39, R47) -/

theorem Steady.closesSound (h : Steady s t) (hcloses : ClosesSound s) : ClosesSound t := by
  obtain ⟨hsorted, hbelow⟩ := hcloses
  have hhw : t.du.hw = s.du.hw := by rcases h.du with hdu | hdu <;> rw [hdu]
  refine ⟨hsorted.sublist h.closes, fun k hk => ?_⟩
  rw [hhw]
  exact hbelow k (h.closes.subset hk)

/-- The close posted is that of the old high-water index, above every close waiting and below the new one. -/
theorem TakesGroup.closesSound (h : TakesGroup s t) (hcloses : ClosesSound s) : ClosesSound t := by
  obtain ⟨hsorted, hbelow⟩ := hcloses
  unfold ClosesSound
  rcases h.requests with ⟨hlist, hhw⟩ | ⟨hlist, -, hhw, -⟩ <;> rw [hlist]
  · exact ⟨hsorted, fun k hk => (hbelow k hk).trans_le hhw⟩
  · rw [List.filterMap_append]
    refine ⟨List.pairwise_append.2 ⟨hsorted, List.pairwise_singleton _ _, fun k hk k' hk' => ?_⟩, fun k hk => ?_⟩
    · obtain rfl := List.mem_singleton.1 hk'
      exact hbelow k hk
    · rcases List.mem_append.1 hk with hk | hk
      · exact (hbelow k hk).trans hhw
      · rw [List.mem_singleton.1 hk]; exact hhw

/-! ## The law of position -/

/-- The start of a run and a reset put the DU at gauge point 0 with nothing waiting (R46). -/
def Restarts (s t : State) : Prop :=
  t.du.gpi = 0 ∧ t.du.hw = 0 ∧ (t.rca.node = .unconfigured ∨ s.rca.node = .ready ∧ t.rca.node = .running)

theorem exec_position (hrun : RunSound s) (hpos : PositionSound s) (hcloses : ClosesSound s) {i : Instr}
    (hstep : exec i s = .next t) : PositionSound t ∧ ClosesSound t ∧ (Moves s.du t.du ∨ Restarts s t) := by
  have hzero : DuSound Du.reset := by constructor <;> decide
  have hnone {hw : Int} : ([] : List Int).Pairwise (· < ·) ∧ ∀ k ∈ ([] : List Int), k < hw := ⟨List.Pairwise.nil, nofun⟩
  have hgroup : TakesGroup s t → PositionSound t ∧ ClosesSound t ∧ (Moves s.du t.du ∨ Restarts s t) := fun h =>
    ⟨(h.position hrun hpos).1, h.closesSound hcloses, .inl (h.position hrun hpos).2⟩
  have hsteady : Steady s t → PositionSound t ∧ ClosesSound t ∧ (Moves s.du t.du ∨ Restarts s t) := fun h =>
    ⟨(h.position hpos).1, h.closesSound hcloses, .inl (h.position hpos).2⟩
  cases hi : movesPosition i with
  | false => exact hsteady (exec_steady hi hstep)
  | true =>
    cases i with
    | powerOnReset =>
      cases hstep
      exact ⟨positionSound_iff.2 ⟨nofun, { hzero with }, le_rfl⟩, hnone, .inr ⟨rfl, rfl, .inl rfl⟩⟩
    | odometerTransition => exact hgroup (takeEdges_takesGroup hstep)
    | illegalTransition => exact hgroup (takeEdges_takesGroup hstep)
    | runStart e =>
      rcases execRunStart_next hstep with ⟨hready, r, hr, rfl⟩ | rfl
      · obtain ⟨-, hpulse, -⟩ := hrun.1 r hr
        obtain ⟨-, -, hres⟩ := positionSound_iff.1 hpos
        refine ⟨positionSound_iff.2 ⟨fun r' hr' => ?_, { hzero with }, hres.trans (Nat.le_add_right _ _)⟩, hnone,
          .inr ⟨rfl, rfl, .inr ⟨hready, rfl⟩⟩⟩
        obtain rfl : r = r' := Option.some.inj hr'
        exact (Nat.zero_le _).trans_lt hpulse
      · exact hsteady (elapse_undisturbed s e).toSteady
    | _ => cases hi

/-- Settles O56: the queue of commands is no part of the law, and every command keeps position and closes. -/
theorem positionLaw : Obligations.PositionLaw := by
  intro s t hrun hpos hcloses hstep
  unfold step at hstep
  split at hstep
  · cases hstep; exact ⟨hpos, hcloses, .inl (moves_of_same rfl rfl)⟩
  · rename_i i rest _
    exact exec_position (s := { s with pending := rest }) hrun hpos hcloses hstep

end Sys2Proof.Machine

/-! What the services of the track table leave of each track (R56, R78, R96, R124, R125), for any property of tracks that the
operations on one track keep; and the laws of role, link and peer fields over a whole step (R48, R75, R85, R87, R91). -/

namespace Sys2Proof.Machine

variable {s t : State} {u v : Track} {I : Track → Prop} {e : Nat}

/-! ## Applications and marks (R72 to R92, R124) -/

/-- The operations of applications and marks on one track keep the property. -/
structure ApplicationsKeep (I : Track → Prop) : Prop where
  relabel : ∀ {u}, I u → ∀ (l : Label) (birth : Int) (former : Option Label),
    I { u with label := l, birth := birth, former := former }
  settle : ∀ {u}, I u → ∀ side r e s, I (settle side r e u s).1
  absent : ∀ {u}, I u → u.absent = 0 → I { u with absent := 1 }
  dissolve : ∀ {u}, I u → ∀ s, I (dissolve u s).1
  mark : ∀ {u}, I u → ∀ n, I { u with mark := some n }

namespace ApplicationsKeep

variable (hI : ApplicationsKeep I)
include hI

theorem relabelled {es : List EdgeEntry} (h : Relabelled es u v) (hu : I u) : I v := by
  rcases h with rfl | ⟨x, -, hv⟩
  · exact hu
  · rw [hv]; exact hI.relabel hu _ _ _

theorem countAbsence (hu : I u) (s : State) : I (countAbsence u s).1 := by
  rcases Nat.eq_zero_or_pos u.absent with h | h
  · rw [countAbsence_first h]; exact hI.absent hu h
  · rw [countAbsence_second h]; exact hI.dissolve hu s

theorem closeApplied (h : ∀ u ∈ s.tt.tracks, I u) (c : Settings) (side : Side) (report : EdgeReport) :
    ∀ u ∈ (closeApplied c side report s).tt.tracks, I u := by
  unfold Machine.closeApplied
  exact (applyMatching_spec (P := fun _ => True) (c := c)
    (t := settleAndCount side report.clamped (matchEntries c side report.clamped.entries s.tt.tracks) s) h
    (fun _ _ hrel hu => hI.relabelled hrel hu)
    (fun x u s' _ hu => ⟨settle_reaches side _ x u s', hI.settle hu side _ x s'⟩)
    (fun u s' _ hu => ⟨countAbsence_reaches u s', hI.countAbsence hu s'⟩) rfl rfl rfl).2.2.1

theorem applyEdge (h : ∀ u ∈ s.tt.tracks, I u) (c : Settings) (side : Side) (report : EdgeReport) :
    ∀ u ∈ (applyEdge c side report s).tt.tracks, I u := by
  have hcentre : ∀ u ∈ (s.takeCentre side report).tt.tracks, I u := by cases side <;> exact h
  cases hnames : headerNames s.rca.slot side report with
  | false => rw [applyEdge_mismatch hnames]; exact h
  | true =>
    cases hbeat : report.heartbeat with
    | true => rw [applyEdge_heartbeat hnames hbeat]; exact hcentre
    | false => rw [applyEdge_close hnames hbeat]; exact hI.closeApplied hcentre c side report

theorem applyMark (h : ∀ u ∈ s.tt.tracks, I u) (c : Settings) (number : Nat) (type : Option Nat) :
    ∀ u ∈ (applyMark c number type s).tt.tracks, I u := by
  have hmarked : ∀ u ∈ s.tt.tracks.map fun t => { t with mark := some number }, I u := by
    intro u hu
    obtain ⟨v, hv, rfl⟩ := List.mem_map.1 hu
    exact hI.mark (h v hv) number
  unfold Machine.applyMark
  simp only
  split
  · split <;> exact hmarked
  · exact hmarked

theorem dissolveAll (h : ∀ u ∈ s.tt.tracks, I u) (places : List Nat) :
    ∀ u ∈ (places.foldl (fun s i => s.updateTrack i Machine.dissolve) s).tt.tracks, I u :=
  (foldl_updateTrack (P := fun _ => True) (R := fun _ _ => True) (fun _ => trivial) (fun _ _ _ _ _ => trivial)
    (fun i : Nat => i) (fun _ t s => Machine.dissolve t s) places s h
    fun _ _ _ s' _ _ hu => ⟨dissolve_footprint fun _ _ _ _ => trivial, trivial, hI.dissolve hu s'⟩).2.2.1

end ApplicationsKeep

/-! ## Closes (R67 to R70, R125) -/

/-- The tracks after a bin close are those it dealt with, perhaps without their former labels (R77). -/
theorem mem_binClosed {c : Settings} {k : Int} (h : u ∈ (binClosed c k s).tt.tracks) :
    ∃ v ∈ (dealWithTracks c k false s).tt.tracks, u = v ∨ u = { v with former := none } := by
  obtain ⟨hother, hrun⟩ := buildReport_spec c k (dealWithTracks c k false s)
  unfold binClosed at h
  by_cases hn : (dealWithTracks c k false s).rca.node = .running
  · rw [hrun hn, (arbitrate_footprint (fun _ => True) _).tt] at h
    obtain ⟨v, hv, rfl⟩ := List.mem_map.1 h
    exact ⟨v, hv, .inr rfl⟩
  · rw [hother hn] at h
    exact ⟨u, h, .inl rfl⟩

theorem dealWithTracks_each {J : Track → Prop} {c : Settings} {k : Int} {final : Bool} (h : ∀ u ∈ s.tt.tracks, I u)
    (hclose : ∀ u v s', I u → (closeTrack c k final u s').1 = some v → J v) :
    ∀ u ∈ (dealWithTracks c k final s).tt.tracks, J u := by
  obtain ⟨-, hfrom, -⟩ := dealWithTracks_spec (P := fun _ => True) (s := s) c k final
    fun _ _ => ⟨fun _ _ _ => trivial, trivial⟩
  intro v hv
  obtain ⟨u, hu, s', -, hmade⟩ := hfrom v hv
  exact hclose u v s' (h u hu) hmade

/-- A bin close as a whole leaves the tracks as its first two parts do. -/
theorem binClose_tracks (c : Settings) (k : Int) (s : State) :
    (exposureStep c (binClosed c k s)).served.tt.tracks = (binClosed c k s).tt.tracks := rfl

/-- A final close leaves the tracks as its first part does. -/
theorem finalClose_tracks (c : Settings) (k : Int) (s : State) :
    (testDrainEnd (exposureStep c (dealWithTracks c k true s)).served.closeTable).tt.tracks
      = (dealWithTracks c k true s).tt.tracks := by
  rw [testDrainEnd_tt]
  rfl

/-! ## The scan pass (R56 to R66) -/

theorem endPass_tracks (p : PageId) (s : State) : (endPass p s).tt.tracks = s.tt.tracks := rfl

/-- The tracks of a pass, for a property that the offer of a spot keeps and a newborn track has. -/
theorem runPass_each {c : Settings} {scan : Scan} (h : ∀ u ∈ s.tt.tracks, I u)
    (hoffer : ∀ u before q s', I u → I (offerSpot c scan before q (u.associate c q) s').1)
    (hmiss : ∀ u hits miss, I u → I { u with state := .tentative hits miss })
    (hbirth : ∀ l q s', I (offerSpot c scan (.tentative 1 0) q (newTrack l scan q) s').1) :
    ∀ u ∈ (runPass c scan s).tt.tracks, I u := by
  refine (runPass_spec (P := fun _ => True) c scan s h ?_ ?_ fun q _ l s' _ _ _ => hbirth l _ s').2.1
  · exact fun q _ u s' _ _ hu => ⟨offerSpot_reaches c scan _ _ _ s', hoffer u _ _ s' hu⟩
  · intro u v hu hv
    unfold missTentative at hv
    split at hv
    · split at hv <;> cases hv
      exact hmiss u _ _ hu
    · cases hv; exact hu
    · cases hv; exact hu

/-! ## Role, link and peer fields -/

/-- What a role outcome makes of its track (R84 to R86): nothing; CONTESTED, or SHADOW without its held records, against an OWNER;
SHADOW after a release; or a take-over. -/
theorem roleOutcome_cases (n : Nat) (x : EdgeEntry) (u : Track) (s : State) :
    (roleOutcome n x u s).1 = u
    ∨ (u.role = .owner ∧ (roleOutcome n x u s).1 = { u with contested := true })
    ∨ (x.role = .owner ∧ (roleOutcome n x u s).1 = { u with role := .shadow, held := [] })
    ∨ (x.role = .owner ∧ u.role ≠ .owner ∧ (roleOutcome n x u s).1 = { u with role := .shadow })
    ∨ ∃ start, (roleOutcome n x u s).1 = (takeOver start u s).1 := by
  unfold roleOutcome
  simp only
  split
  · rename_i hrole hx
    split
    · exact .inr (.inl ⟨hrole, rfl⟩)
    · exact .inr (.inr (.inl ⟨hx, rfl⟩))
  · exact .inl rfl
  · exact .inl rfl
  · exact .inl rfl
  · exact .inr (.inr (.inr (.inr ⟨_, rfl⟩)))
  · split
    · exact .inr (.inr (.inr (.inr ⟨_, rfl⟩)))
    · exact .inl rfl
  · rename_i hrole hx
    exact .inr (.inr (.inr (.inl ⟨hx, by rw [hrole]; simp, rfl⟩)))
  · exact .inl rfl
  · split
    · exact .inr (.inr (.inr (.inr ⟨_, rfl⟩)))
    · exact .inl rfl

/-- The peer-owner-through is kept or replaced by the entry's, which an OWNER always gives (R87). -/
theorem peerFrom_through {g : Int} {x : EdgeEntry} (h : x.role = .owner ∨ u.peerThrough ≠ none) :
    (u.peerFrom g x).peerThrough ≠ none := by
  unfold Track.peerFrom
  cases hx : x.role with
  | owner => simp
  | releasing j => simp
  | shadow => simpa [hx] using h

theorem settle_ownership (h : OwnershipSound u) (side : Side) (r : EdgeReport) (x : EdgeEntry) (s : State) :
    OwnershipSound (settle side r x u s).1 := by
  obtain ⟨-, howner, hheld, -, hshadow, -, -⟩ := h
  -- of the track after its role outcome, only the link and the records held by its role are left to show
  have hpeer {v : Track} (hlink : v.link = some side) (habsent : v.absent = 0) (howner : v.role = .owner → v.held = [])
      (hheld : v.held.length ≤ 4) (hshadow : v.role = .shadow → x.role = .owner ∨ v.peerThrough ≠ none) :
      OwnershipSound (v.peerFrom r.bin x) := by
    have hlink' : (v.peerFrom r.bin x).link = some side := hlink
    refine ⟨fun _ => by simp [hlink'], howner, hheld, by rw [hlink']; rfl, fun hs => peerFrom_through (hshadow hs), ?_,
      fun hl => by simp [hlink'] at hl⟩
    exact habsent.le.trans (by decide)
  unfold settle
  rcases roleOutcome_cases r.source x { u with link := some side, absent := 0 } s with
    hv | ⟨hrole, hv⟩ | ⟨hx, hv⟩ | ⟨hx, hrole, hv⟩ | ⟨start, hv⟩ <;> simp only [hv]
  · exact hpeer rfl rfl howner hheld fun hs => .inr (hshadow hs)
  · exact hpeer rfl rfl howner hheld fun hs => .inr (hshadow hs)
  · exact hpeer rfl rfl nofun (Nat.zero_le _) fun _ => .inl hx
  · exact hpeer rfl rfl nofun hheld fun _ => .inl hx
  · rw [takeOver_track]
    exact hpeer rfl rfl (fun _ => rfl) (Nat.zero_le _) nofun

/-- A dissolved link leaves an unlinked OWNER that holds nothing (R88). -/
theorem dissolve_ownership (h : OwnershipSound u) (s : State) : OwnershipSound (dissolve u s).1 := by
  obtain ⟨-, howner, hheld, -⟩ := h
  obtain ⟨hkept, htaken⟩ := dissolve_track u s
  by_cases hrole : u.role = .owner
  · rw [hkept hrole]
    exact ⟨fun hn => absurd hrole hn, howner, hheld, rfl, fun hs => absurd (hrole.symm.trans hs) (by simp),
      Nat.zero_le _, fun _ => rfl⟩
  · rw [htaken hrole]
    exact ⟨fun hn => absurd rfl hn, fun _ => rfl, Nat.zero_le _, rfl, nofun, Nat.zero_le _, fun _ => rfl⟩

theorem ownershipSound_applicationsKeep : ApplicationsKeep OwnershipSound where
  relabel := fun h _ _ _ => h
  settle := settle_ownership
  absent := fun ⟨hlink, howner, hheld, hpeer, hshadow, _, hthrough⟩ _ =>
    ⟨hlink, howner, hheld, hpeer, hshadow, le_rfl, hthrough⟩
  dissolve := dissolve_ownership
  mark := fun h _ => h

/-- A record made is entered by an OWNER and held by the others, four at most; a release begins on a linked track (R89, R91,
R120). -/
theorem finishRecord_ownership (h : OwnershipSound u) (c : Settings) (r : Record) (s : State) :
    OwnershipSound (finishRecord c r u s).1 := by
  obtain ⟨hlink, howner, hheld, hpeer, hshadow, habsent, hthrough⟩ := id h
  obtain ⟨v, hv, hmade⟩ := finishRecord_track c r u s
  have hsound : OwnershipSound v := by
    rcases hv with rfl | ⟨-, rfl⟩ | ⟨hrole, rfl⟩
    · exact h
    · exact h
    · exact ⟨hlink, fun ho => absurd ho hrole, holdRecord_length _ r hheld, hpeer, hshadow, habsent, hthrough⟩
  rcases hmade with hmade | ⟨-, hrole, hl, hmade⟩ <;> rw [hmade]
  · exact hsound
  · obtain ⟨-, -, hheld, hpeer, -, habsent, hthrough⟩ := hsound
    exact ⟨fun _ => hl, nofun, hheld, hpeer, nofun, habsent, hthrough⟩

theorem closeTrack_ownership {c : Settings} {k : Int} {final : Bool} (h : OwnershipSound u) (s : State)
    (hv : (closeTrack c k final u s).1 = some v) : OwnershipSound v := by
  obtain ⟨a, -, -, hmade⟩ | ⟨a, -, -, -, hmade⟩ | ⟨a, -, -, -, hmade⟩ | ⟨-, -, hmade⟩ | ⟨-, -, -, hmade⟩
    | ⟨-, -, -, -, r, -, hmade⟩ := closeTrack_cases c k final u s <;> rw [hmade] at hv <;> cases hv
  · exact h
  · exact h
  · exact finishRecord_ownership (u := { u with acc := none, missedBins := 0 }) h c _ s
  · exact h
  · exact finishRecord_ownership (u := { u with missedBins := u.missedBins + 1, state := .coasting }) h c _ s

theorem offerSpot_ownership (h : OwnershipSound u) (c : Settings) (scan : Scan) (before : TrackState) (q : CarSpot)
    (s : State) : OwnershipSound (offerSpot c scan before q u s).1 := by
  obtain ⟨-, hmade⟩ | ⟨-, hmade⟩ | ⟨-, a, -, -, hmade⟩ := offerSpot_cases c scan before q u s <;> rw [hmade]
  · exact h
  · exact h
  · unfold closeAccumulator
    split
    · exact h
    · exact finishRecord_ownership (u := { u with acc := none, missedBins := 0 }) h c _ s

theorem newTrack_ownership (l : Label) (scan : Scan) (q : CarSpot) : OwnershipSound (newTrack l scan q) := by
  simp [OwnershipSound, newTrack]

/-! ## The law over a whole step -/

theorem exec_ownership (h : ∀ u ∈ s.tt.tracks, OwnershipSound u) {i : Instr} (hstep : exec i s = .next t) :
    ∀ u ∈ t.tt.tracks, OwnershipSound u := by
  have hkept := ownershipSound_applicationsKeep
  have hsame : t.tt.tracks = s.tt.tracks → ∀ u ∈ t.tt.tracks, OwnershipSound u := fun htracks => by
    rw [htracks]; exact h
  have hnone : t.tt.tracks = [] → ∀ u ∈ t.tt.tracks, OwnershipSound u := fun htracks => by
    rw [htracks]; exact List.forall_mem_nil _
  have hgroup : TakesGroup s t → ∀ u ∈ t.tt.tracks, OwnershipSound u := fun hg => hsame hg.tracks
  have hdealt (c : Settings) (k : Int) (final : Bool) (e : Nat) (rest : List Request) :
      ∀ u ∈ (dealWithTracks c k final (s.takeRequest e rest)).tt.tracks, OwnershipSound u :=
    dealWithTracks_each (s := s.takeRequest e rest) h fun u v s' hu hv => closeTrack_ownership hu s' hv
  cases hd : disturbs i with
  | false => exact hsame (exec_undisturbed hd hstep).tracks
  | true =>
    cases i with
    | powerOnReset => cases hstep; exact hnone rfl
    | odometerTransition => exact hgroup (takeEdges_takesGroup hstep)
    | illegalTransition => exact hgroup (takeEdges_takesGroup hstep)
    | scanPass e =>
      obtain ⟨p, rest, c, scan, -, -, -, -, rfl⟩ := execScanPass_next hstep
      rw [endPass_tracks]
      refine runPass_each (s := s.takeRequest e rest) h ?_ (fun _ _ _ hu => hu) ?_
      · exact fun u before q s' hu => offerSpot_ownership (u := u.associate c q) hu c scan before q s'
      · exact fun l q s' => offerSpot_ownership (newTrack_ownership l scan q) c scan _ q s'
    | binClose e =>
      obtain ⟨k, rest, c, -, -, -, rfl⟩ := execBinClose_next hstep
      rw [binClose_tracks]
      intro u hu
      obtain ⟨v, hv, rfl | rfl⟩ := mem_binClosed hu
      · exact hdealt c k false e rest u hv
      · exact hdealt c k false e rest v hv
    | finalClose e =>
      obtain ⟨k, rest, c, -, -, -, rfl⟩ := execFinalClose_next hstep
      rw [finalClose_tracks]
      exact hdealt c k true e rest
    | edgeApplication e =>
      obtain ⟨side, report, rest, c, -, rfl⟩ := execEdgeApplication_next hstep
      exact hkept.applyEdge (s := s.takeRequest e rest) h c side report
    | markApplication e =>
      obtain ⟨number, type, rest, c, -, rfl⟩ := execMarkApplication_next hstep
      exact hkept.applyMark (s := s.takeRequest e rest) h c number type
    | neighbourLostApplication e =>
      obtain ⟨side, rest, -, rfl⟩ := execNeighbourLostApplication_next hstep
      exact hkept.dissolveAll (s := s.takeRequest e rest) h _
    | runStart e =>
      rcases execRunStart_next hstep with ⟨-, r, -, rfl⟩ | rfl
      · exact hnone rfl
      · exact h
    | enterDraining e =>
      rcases execEnterDraining_next hstep with ⟨-, rfl⟩ | rfl
      · exact hsame (testForm_undisturbed (s.elapse e).drainBegun).tracks
      · exact h
    | _ => cases hd

end Sys2Proof.Machine

/-! The law of order over a whole step (R47, R55, R91): what a track holds and gathers lies below the bins still to come. -/

namespace Sys2Proof.Machine

variable {s t : State} {u v : Track} {c : Settings} {e : Nat} {g n : Int} {r : Request} {rest : List Request}

/-! ## The law by its parts -/

/-- The bins of one track are in order: its held records among themselves, below the bin it gathers, below the open bin, and
before every turn waiting (R55, R91). -/
structure BinsBelow (isOpen : Bool) (hw : Int) (turns : List Int) (u : Track) : Prop where
  sorted : u.held.Pairwise (fun a b => a.gpi < b.gpi)
  gathers : ∀ a ∈ u.acc, (∀ r ∈ u.held, r.gpi < a.bin) ∧ (isOpen = true → a.bin ≤ hw) ∧ ∀ n ∈ turns, 2 * a.bin ≤ n
  holds : ∀ r ∈ u.held, (isOpen = true → r.gpi < hw) ∧ ∀ n ∈ turns, 2 * r.gpi + 1 < n

/-- `OrderSound` part by part. -/
structure InOrder (s : State) : Prop where
  sorted : s.turns.Pairwise (fun a b => a ≤ b ∧ (a % 2 = 1 → a < b))
  reached : ∀ n ∈ s.turns, n ≤ 2 * s.du.hw + 1
  running : s.rca.node = .running → ∀ n ∈ s.turns, n ≤ 2 * s.du.hw
  tracks : ∀ u ∈ s.tt.tracks, BinsBelow s.tt.isOpen s.du.hw s.turns u

theorem orderSound_iff : OrderSound s ↔ InOrder s := by
  constructor
  · rintro ⟨hsorted, hreached, hrunning, htracks⟩
    refine ⟨hsorted, hreached, hrunning, fun u hu => ?_⟩
    obtain ⟨hheld, hacc, hbelow⟩ := htracks u hu
    exact ⟨hheld, hacc, hbelow⟩
  · rintro ⟨hsorted, hreached, hrunning, htracks⟩
    exact ⟨hsorted, hreached, hrunning, fun u hu => ⟨(htracks u hu).sorted, (htracks u hu).gathers, (htracks u hu).holds⟩⟩

section Tracks

variable {isOpen isOpen' : Bool} {hw hw' : Int} {turns turns' : List Int}

/-- The open bin may rise, the table may be closed, and turns may pass. -/
theorem BinsBelow.mono (h : BinsBelow isOpen hw turns u) (hopen : isOpen' = true → isOpen = true) (hhw : hw ≤ hw')
    (hturns : ∀ n ∈ turns', n ∈ turns) : BinsBelow isOpen' hw' turns' u := by
  obtain ⟨hsorted, hgathers, hholds⟩ := h
  refine ⟨hsorted, fun a ha => ?_, fun r hr => ?_⟩
  · obtain ⟨hheld, hle, hturn⟩ := hgathers a ha
    exact ⟨hheld, fun ho => (hle (hopen ho)).trans hhw, fun n hn => hturn n (hturns n hn)⟩
  · obtain ⟨hlt, hturn⟩ := hholds r hr
    exact ⟨fun ho => (hlt (hopen ho)).trans_le hhw, fun n hn => hturn n (hturns n hn)⟩

/-- The bins of a track are its held records and its accumulator, nothing else; and its records may leave. -/
theorem BinsBelow.of_held (h : BinsBelow isOpen hw turns u) (hacc : v.acc = u.acc) (hheld : v.held = u.held ∨ v.held = []) :
    BinsBelow isOpen hw turns v := by
  obtain ⟨hsorted, hgathers, hholds⟩ := h
  rcases hheld with hheld | hheld
  · exact ⟨by rw [hheld]; exact hsorted, by rw [hacc, hheld]; exact hgathers, by rw [hheld]; exact hholds⟩
  · refine ⟨by rw [hheld]; exact .nil, fun a ha => ?_, by rw [hheld]; exact List.forall_mem_nil _⟩
    obtain ⟨-, hrest⟩ := hgathers a (hacc ▸ ha)
    exact ⟨by rw [hheld]; exact List.forall_mem_nil _, hrest⟩

theorem roleOutcome_heldKept (n : Nat) (x : EdgeEntry) (u : Track) (s : State) :
    (roleOutcome n x u s).1.held = u.held ∨ (roleOutcome n x u s).1.held = [] := by
  rcases roleOutcome_cases n x u s with h | ⟨-, h⟩ | ⟨-, h⟩ | ⟨-, -, h⟩ | ⟨start, h⟩ <;> rw [h]
  · exact .inl rfl
  · exact .inl rfl
  · exact .inr rfl
  · exact .inl rfl
  · rw [takeOver_track]; exact .inr rfl

theorem dissolve_bins (u : Track) (s : State) :
    (dissolve u s).1.acc = u.acc ∧ ((dissolve u s).1.held = u.held ∨ (dissolve u s).1.held = []) := by
  obtain ⟨hkept, htaken⟩ := dissolve_track u s
  by_cases hrole : u.role = .owner
  · rw [hkept hrole]; exact ⟨rfl, .inl rfl⟩
  · rw [htaken hrole]; exact ⟨rfl, .inr rfl⟩

theorem binsBelow_applicationsKeep : ApplicationsKeep (BinsBelow isOpen hw turns) where
  relabel := fun h _ _ _ => h.of_held rfl (.inl rfl)
  settle := fun {u} h side r x s => h.of_held (settle_kept side r x u s).acc
    (roleOutcome_heldKept r.source x { u with link := some side, absent := 0 } s)
  absent := fun h _ => h.of_held rfl (.inl rfl)
  dissolve := fun h s => h.of_held (dissolve_bins _ s).1 (dissolve_bins _ s).2
  mark := fun h _ => h.of_held rfl (.inl rfl)

/-! ## A track while bin `g` is dealt with (R55, R61, R68) -/

/-- The records held lie below bin `g` and in order, and what is gathered is of a later bin up to `g`. -/
structure OrderedTo (g : Int) (u : Track) : Prop where
  sorted : u.held.Pairwise (fun a b => a.gpi < b.gpi)
  gathers : ∀ a ∈ u.acc, (∀ r ∈ u.held, r.gpi < a.bin) ∧ a.bin ≤ g
  holds : ∀ r ∈ u.held, r.gpi < g

/-- The oldest turn, a scan or the close of bin `g`, finds every track at bin `g` at the latest. -/
theorem BinsBelow.orderedTo (h : BinsBelow isOpen hw turns u) (hn : n ∈ turns) (hle : n ≤ 2 * g + 1) : OrderedTo g u := by
  obtain ⟨hsorted, hgathers, hholds⟩ := h
  refine ⟨hsorted, fun a ha => ?_, fun r hr => ?_⟩
  · obtain ⟨hheld, -, hturn⟩ := hgathers a ha
    have := hturn n hn
    exact ⟨hheld, by omega⟩
  · have := (hholds r hr).2 n hn
    omega

/-- A track at bin `g` is in order where the open bin is no earlier and the turns waiting are scans or closes from there on. -/
theorem OrderedTo.binsBelow (h : OrderedTo g u) (hopen : isOpen = true → g ≤ hw) (hturns : ∀ n ∈ turns, 2 * g ≤ n) :
    BinsBelow isOpen hw turns u := by
  obtain ⟨hsorted, hgathers, hholds⟩ := h
  refine ⟨hsorted, fun a ha => ?_, fun r hr => ?_⟩
  · obtain ⟨hheld, hle⟩ := hgathers a ha
    exact ⟨hheld, fun ho => hle.trans (hopen ho), fun n hn => by have := hturns n hn; omega⟩
  · have hlt := hholds r hr
    exact ⟨fun ho => hlt.trans_le (hopen ho), fun n hn => by have := hturns n hn; omega⟩

end Tracks

/-- A record made for a later bin than those held keeps the hold list in order (R91). -/
theorem holdRecord_sorted {held : List Record} {r : Record} (h : held.Pairwise (fun a b => a.gpi < b.gpi))
    (hr : ∀ x ∈ held, x.gpi < r.gpi) : (holdRecord held r).Pairwise (fun a b => a.gpi < b.gpi) := by
  have happend {l : List Record} (hl : l.Sublist held) : (l ++ [r]).Pairwise (fun a b => a.gpi < b.gpi) :=
    List.pairwise_append.2 ⟨h.sublist hl, List.pairwise_singleton _ _, fun x hx y hy => by
      rw [List.mem_singleton.1 hy]; exact hr x (hl.subset hx)⟩
  rw [holdRecord_eq]
  split
  · exact happend (List.drop_sublist 1 held)
  · exact happend (List.Sublist.refl held)

/-- The making of a record leaves the accumulator and at most appends to the hold list (R91, R120). -/
theorem finishRecord_held (c : Settings) (r : Record) (u : Track) (s : State) : (finishRecord c r u s).1.acc = u.acc
    ∧ ((finishRecord c r u s).1.held = u.held ∨ (finishRecord c r u s).1.held = holdRecord u.held r) := by
  obtain ⟨v, hv, hmade⟩ := finishRecord_track c r u s
  have hbins : v.acc = u.acc ∧ (v.held = u.held ∨ v.held = holdRecord u.held r) := by
    rcases hv with rfl | ⟨-, rfl⟩ | ⟨-, rfl⟩
    · exact ⟨rfl, .inl rfl⟩
    · exact ⟨rfl, .inl rfl⟩
    · exact ⟨rfl, .inr rfl⟩
  rcases hmade with hmade | ⟨-, -, -, hmade⟩ <;> rw [hmade] <;> exact hbins

/-- A track without samples stays in order as a record of a bin later than those held is made for it. -/
theorem finishRecord_orderedTo {x : Record} (hsorted : u.held.Pairwise (fun a b => a.gpi < b.gpi)) (hacc : u.acc = none)
    (hheld : ∀ y ∈ u.held, y.gpi < x.gpi) (hx : x.gpi < g) (c : Settings) (s : State) :
    OrderedTo g (finishRecord c x u s).1 := by
  obtain ⟨hacc', hmade⟩ := finishRecord_held c x u s
  refine ⟨?_, by rw [hacc', hacc]; exact nofun, ?_⟩
  · rcases hmade with hmade | hmade <;> rw [hmade]
    · exact hsorted
    · exact holdRecord_sorted hsorted hheld
  · intro y hy
    rcases hmade with hmade | hmade <;> rw [hmade] at hy
    · exact (hheld y hy).trans hx
    · rcases mem_holdRecord hy with hy | rfl
      · exact (hheld y hy).trans hx
      · exact hx

/-- The close of a gathered bin makes its record, above those held (R68, R70). -/
theorem closeAccumulator_orderedTo {a : Accumulator} {k : Int} (h : OrderedTo k u) (ha : u.acc = some a) (hg : a.bin < g)
    (c : Settings) (final : Bool) (before : TrackState) (s : State) : OrderedTo g (closeAccumulator c final before a u s).1 := by
  obtain ⟨hsorted, hgathers, -⟩ := h
  obtain ⟨hheld, -⟩ := hgathers a ha
  unfold closeAccumulator
  split
  · exact ⟨hsorted, nofun, fun r hr => (hheld r hr).trans hg⟩
  · exact finishRecord_orderedTo (u := { u with acc := none, missedBins := 0 }) hsorted rfl hheld hg c s

/-- The close of bin `k` leaves a track without samples, its records at bin `k` or before (R67). -/
theorem closeTrack_orderedTo {k : Int} {final : Bool} (h : OrderedTo k u) (s : State)
    (hv : (closeTrack c k final u s).1 = some v) : OrderedTo (k + 1) v := by
  have hnone (hacc : u.acc = none) : OrderedTo (k + 1) u :=
    ⟨h.sorted, by rw [hacc]; exact nofun, fun r hr => (h.holds r hr).trans (Int.lt_succ k)⟩
  unfold closeTrack at hv
  split at hv
  · rename_i a ha
    have hle : a.bin ≤ k := (h.gathers a ha).2
    rw [if_pos hle] at hv
    cases hv
    exact closeAccumulator_orderedTo h ha (Int.lt_add_one_of_le hle) c final u.state s
  · rename_i hacc
    split at hv
    · cases hv; exact hnone hacc
    · unfold closeUnseen at hv
      split at hv
      · cases hv
      · split at hv <;> cases hv
        exact finishRecord_orderedTo (u := { u with missedBins := u.missedBins + 1, state := .coasting }) h.sorted hacc h.holds
          (Int.lt_succ k) c s

theorem accumulate_bin (g : Int) (q : CarSpot) (w : Option WearSample) (acc : Option Accumulator) :
    (accumulate g q w acc).bin = (acc.map (·.bin)).getD g := by
  unfold accumulate
  cases acc <;> cases w <;> simp only [Option.getD_none, Option.getD_some, Option.map_none, Option.map_some] <;> split <;> rfl

/-- A track at bin `g` gathers a sample of bin `g`. -/
theorem OrderedTo.accumulate (h : OrderedTo g u) (q : CarSpot) (w : Option WearSample) :
    OrderedTo g { u with acc := some (accumulate g q w u.acc) } := by
  obtain ⟨hsorted, hgathers, hholds⟩ := h
  refine ⟨hsorted, fun a ha => ?_, hholds⟩
  cases ha
  rw [accumulate_bin]
  cases hacc : u.acc with
  | none => exact ⟨hholds, le_rfl⟩
  | some a => exact hgathers a hacc

/-- The offer of a spot of a scan leaves the track at the scan's bin (R61, R62). -/
theorem offerSpot_orderedTo {scan : Scan} (h : OrderedTo scan.hw u) (c : Settings) (before : TrackState) (q : CarSpot)
    (s : State) : OrderedTo scan.hw (offerSpot c scan before q u s).1 := by
  obtain ⟨-, hmade⟩ | ⟨hforth, hmade⟩ | ⟨hforth, a, ha, hlt, hmade⟩ := offerSpot_cases c scan before q u s <;> rw [hmade]
  · exact h
  · rw [(backtracking_eq_false_iff scan).1 hforth]
    exact h.accumulate q _
  · rw [(backtracking_eq_false_iff scan).1 hforth] at hlt ⊢
    exact (closeAccumulator_orderedTo h ha hlt c false before s).accumulate q _

/-! ## Turns -/

/-- The turns waiting depend on the pages that wait, not on the others. -/
theorem turns_congr {x y : Siu} {l : List Request} (h : ∀ p, .scanPass p ∈ l → y.page p = x.page p) :
    l.filterMap (Request.turn y) = l.filterMap (Request.turn x) := by
  refine List.filterMap_congr fun r hr => ?_
  cases r with
  | scanPass p => simp only [Request.turn, h p hr]
  | _ => rfl

theorem turns_append {new : List Request} (hlist : t.tt.requests = s.tt.requests ++ new)
    (hpages : ∀ p, .scanPass p ∈ s.tt.requests → t.siu.page p = s.siu.page p) :
    t.turns = s.turns ++ new.filterMap (Request.turn t.siu) := by
  unfold State.turns
  rw [hlist, List.filterMap_append, turns_congr hpages]

theorem turns_cons (hr : s.tt.requests = r :: rest) :
    s.turns = (r.turn s.siu).toList ++ rest.filterMap (Request.turn s.siu) := by
  unfold State.turns
  rw [hr, List.filterMap_cons]
  cases r.turn s.siu <;> rfl

/-- Beside scan passes and final closes only the closes of the DU have turns: where none of the three joins, the turns stay. -/
theorem PostsOnly.turns (h : PostsOnly s t) (hcloses : t.tt.closes.Sublist s.tt.closes) : t.turns = s.turns := by
  obtain ⟨hsiu, -, -, new, hlist, hnew⟩ := h
  have hnone : new.filterMap Request.closedBin = [] := by
    rw [Tt.closes, Tt.closes, hlist, List.filterMap_append] at hcloses
    have hlength := hcloses.length_le
    rw [List.length_append] at hlength
    exact List.eq_nil_of_length_eq_zero (by omega)
  have hturns : new.filterMap (Request.turn t.siu) = [] := by
    rw [List.filterMap_eq_nil_iff] at hnone ⊢
    intro r hr
    obtain ⟨-, hpass, hfinal⟩ := hnew r hr
    cases r with
    | scanPass p => exact absurd rfl (hpass p)
    | finalClose k => exact absurd rfl (hfinal k)
    | binClose k => exact absurd (hnone _ hr) (by simp [Request.closedBin])
    | edge | mark | neighbourLost => rfl
  rw [turns_append hlist fun p _ => by rw [hsiu], hturns, List.append_nil]

theorem Steady.hw (h : Steady s t) : t.du.hw = s.du.hw := by rcases h.du with hdu | hdu <;> rw [hdu]

namespace InOrder

/-! ## What keeps the order -/

/-- No turn joins, the open bin does not fall back, and no track goes beyond where the order stood. -/
theorem keeps (h : InOrder s) (hturns : t.turns.Sublist s.turns) (hhw : s.du.hw ≤ t.du.hw)
    (hnode : t.rca.node = .running → s.rca.node = .running) (hopen : t.tt.isOpen = true → s.tt.isOpen = true)
    (htracks : ∀ u ∈ t.tt.tracks, BinsBelow s.tt.isOpen s.du.hw s.turns u) : InOrder t where
  sorted := h.sorted.sublist hturns
  reached := fun n hn => by have := h.reached n (hturns.subset hn); omega
  running := fun hrun n hn => by have := h.running (hnode hrun) n (hturns.subset hn); omega
  tracks := fun u hu => (htracks u hu).mono hopen hhw fun _ hn => hturns.subset hn

/-- A steady command that leaves pages and turns as they are, with the tracks in order. -/
theorem applied (h : InOrder s) (hposts : PostsOnly s t) (hsteady : Steady s t)
    (htracks : ∀ u ∈ t.tt.tracks, BinsBelow s.tt.isOpen s.du.hw s.turns u) : InOrder t :=
  h.keeps (by rw [hposts.turns hsteady.closes]) hsteady.hw.ge hposts.node (fun ho => hposts.isOpen ▸ ho) htracks

/-- The oldest request is taken. -/
theorem taken (h : InOrder s) (hr : s.tt.requests = r :: rest) (e : Nat) : InOrder (s.takeRequest e rest) := by
  refine h.keeps ?_ le_rfl id id h.tracks
  rw [turns_cons hr]
  exact List.sublist_append_right _ _

/-- A turn of the open bin joins the list of a RUNNING node: that of a scan, or that of the close with which the bin is left or
the run ends (R21, R39, R159). -/
theorem posted (h : InOrder s) (hrun : s.rca.node = .running) (hopen : s.tt.isOpen = true) (hturns : t.turns = s.turns ++ [n])
    (hn : 2 * s.du.hw ≤ n ∧ n ≤ 2 * s.du.hw + 1) (hhw : s.du.hw ≤ t.du.hw)
    (hnode : t.rca.node = .running → n ≤ 2 * t.du.hw) (htracks : t.tt.tracks = s.tt.tracks) : InOrder t := by
  have hold := h.running hrun
  constructor
  · rw [hturns]
    refine List.pairwise_append.2 ⟨h.sorted, List.pairwise_singleton _ _, fun m hm m' hm' => ?_⟩
    have := hold m hm
    rw [List.mem_singleton.1 hm']
    omega
  · intro m hm
    rcases List.mem_append.1 (hturns ▸ hm) with hm | hm
    · have := hold m hm; omega
    · rw [List.mem_singleton.1 hm]; omega
  · intro hrun' m hm
    rcases List.mem_append.1 (hturns ▸ hm) with hm | hm
    · have := hold m hm; omega
    · rw [List.mem_singleton.1 hm]; exact hnode hrun'
  · intro u hu
    obtain ⟨hsorted, hgathers, hholds⟩ := h.tracks u (htracks ▸ hu)
    rw [hturns]
    refine ⟨hsorted, fun a ha => ?_, fun r hr => ?_⟩
    · obtain ⟨hheld, hle, hturn⟩ := hgathers a ha
      have := hle hopen
      refine ⟨hheld, fun _ => by omega, fun m hm => ?_⟩
      rcases List.mem_append.1 hm with hm | hm
      · exact hturn m hm
      · rw [List.mem_singleton.1 hm]; omega
    · obtain ⟨hlt, hturn⟩ := hholds r hr
      have := hlt hopen
      refine ⟨fun _ => by omega, fun m hm => ?_⟩
      rcases List.mem_append.1 hm with hm | hm
      · exact hturn m hm
      · rw [List.mem_singleton.1 hm]; omega

/-- The oldest turn, a scan or the close of bin `g`, finds every track at bin `g` at the latest. -/
theorem orderedTo (h : InOrder s) (hr : s.tt.requests = r :: rest) (hturn : r.turn s.siu = some n) (hle : n ≤ 2 * g + 1) :
    ∀ u ∈ s.tt.tracks, OrderedTo g u := fun u hu =>
  (h.tracks u hu).orderedTo (by rw [turns_cons hr, hturn]; exact List.mem_cons_self) hle

/-- The oldest request was served and has left its tracks at bin `g`, which no turn behind it precedes. -/
theorem dealt (h : InOrder s) (hr : s.tt.requests = r :: rest) (hturn : r.turn s.siu = some n)
    (hturns : t.turns.Sublist (rest.filterMap (Request.turn s.siu))) (hhw : t.du.hw = s.du.hw)
    (hnode : t.rca.node = .running → s.rca.node = .running) (hg : ∀ m, n ≤ m → (n % 2 = 1 → n < m) → 2 * g ≤ m)
    (hopen : t.tt.isOpen = true → g ≤ s.du.hw) (htracks : ∀ u ∈ t.tt.tracks, OrderedTo g u) : InOrder t := by
  have hs : s.turns = n :: rest.filterMap (Request.turn s.siu) := by rw [turns_cons hr, hturn]; rfl
  have hsub : t.turns.Sublist s.turns := by rw [hs]; exact hturns.cons n
  have hbehind := (List.pairwise_cons.1 (hs ▸ h.sorted)).1
  refine ⟨h.sorted.sublist hsub, fun m hm => ?_, fun hrun m hm => ?_, fun u hu => ?_⟩
  · rw [hhw]; exact h.reached m (hsub.subset hm)
  · rw [hhw]; exact h.running (hnode hrun) m (hsub.subset hm)
  · rw [hhw]
    refine (htracks u hu).binsBelow hopen fun m hm => ?_
    obtain ⟨hle, hlt⟩ := hbehind m (hturns.subset hm)
    exact hg m hle hlt

end InOrder

/-! ## Odometer and run (R39, R158, R159) -/

theorem TakesGroup.inOrder (htakes : TakesGroup s t) (hposts : PostsOnly s t) (h : InOrder s) (hpages : PagesAgree s) :
    InOrder t := by
  have htracks : ∀ u ∈ t.tt.tracks, BinsBelow s.tt.isOpen s.du.hw s.turns u := by rw [htakes.tracks]; exact h.tracks
  rcases htakes.requests with ⟨hlist, hhw⟩ | ⟨hlist, hrun, hhw, -⟩
  · have hcloses : t.tt.closes.Sublist s.tt.closes := by rw [Tt.closes, Tt.closes, hlist]
    exact h.keeps (by rw [hposts.turns hcloses]) hhw hposts.node (fun ho => hposts.isOpen ▸ ho) htracks
  · have hturns := turns_append hlist fun p _ => by rw [hposts.siu]
    exact h.posted hrun (hpages.running hrun).1 hturns (by omega) hhw.le (fun _ => by omega) htakes.tracks

theorem takeEdges_inOrder {x : EdgeGroup} (hstep : takeEdges e x s = .next t) (h : InOrder s) (hpages : PagesAgree s) :
    InOrder t := (takeEdges_takesGroup hstep).inOrder (takeEdges_postsOnly hstep) h hpages

theorem InOrder.elapse (h : InOrder s) (e : Nat) : InOrder (s.elapse e) :=
  h.keeps (List.Sublist.refl _) le_rfl id id h.tracks

theorem startDrain_inOrder (hrun : s.rca.node = .running) (h : InOrder s) (hpages : PagesAgree s) : InOrder (startDrain s) := by
  have hturns : s.drainBegun.turns = s.turns ++ [2 * s.du.hw + 1] :=
    turns_append (t := s.drainBegun) (new := [.finalClose s.du.hw]) rfl fun _ _ => rfl
  have hbegun : InOrder s.drainBegun := h.posted hrun (hpages.running hrun).1 hturns (by omega) le_rfl nofun rfl
  have htested := testForm_undisturbed s.drainBegun
  rw [startDrain_eq]
  exact hbegun.applied (testForm_postsOnly _) htested.toSteady (by rw [htested.tracks]; exact hbegun.tracks)

theorem inOrder_of_empty (hlist : t.tt.requests = []) (htracks : t.tt.tracks = []) : InOrder t := by
  have hturns : t.turns = [] := by unfold State.turns; rw [hlist]; rfl
  refine ⟨?_, ?_, ?_, ?_⟩
  · rw [hturns]; exact .nil
  · rw [hturns]; exact List.forall_mem_nil _
  · rw [hturns]; exact fun _ => List.forall_mem_nil _
  · rw [htracks]; exact List.forall_mem_nil _

/-! ## The sensor port (R15 to R21) -/

/-- The port leaves list, table and node as they are, and every page that waits for its scan pass. -/
structure IntakeKept (s t : State) : Prop where
  requests : t.tt.requests = s.tt.requests
  isOpen : t.tt.isOpen = s.tt.isOpen
  node : t.rca.node = s.rca.node
  pages : ∀ p scan, s.siu.page p = .posted scan → t.siu.page p = .posted scan

theorem IntakeKept.trans {a b d : State} (h : IntakeKept a b) (h' : IntakeKept b d) : IntakeKept a d :=
  ⟨h'.requests.trans h.requests, h'.isOpen.trans h.isOpen, h'.node.trans h.node,
    fun p scan hp => h'.pages p scan (h.pages p scan hp)⟩

/-- A page with a scan pass waiting is POSTED (R21). -/
theorem PagesAgree.page_of_mem (h : PagesAgree s) {p : PageId} (hp : .scanPass p ∈ s.tt.requests) :
    ∃ scan, s.siu.page p = .posted scan := by
  have hcount := List.count_pos_iff.2 hp
  rw [h.posted p] at hcount
  cases hpage : s.siu.page p with
  | posted scan => exact ⟨scan, rfl⟩
  | free | filling => rw [hpage] at hcount; cases hcount

theorem IntakeKept.inOrder (hkept : IntakeKept s t) (hdu : Undisturbed s t) (h : InOrder s) (hpages : PagesAgree s) :
    InOrder t := by
  have hlist : t.tt.requests = s.tt.requests ++ [] := by rw [hkept.requests, List.append_nil]
  have hturns : t.turns = s.turns := (turns_append hlist fun p hp => by
    obtain ⟨scan, hscan⟩ := hpages.page_of_mem hp
    rw [hscan, hkept.pages p scan hscan]).trans (List.append_nil _)
  exact h.keeps (by rw [hturns]) (by rw [hdu.sameDu]) (fun hrun => hkept.node ▸ hrun) (fun ho => hkept.isOpen ▸ ho)
    (by rw [hdu.tracks]; exact h.tracks)

theorem elapse_intakeKept (s : State) (e : Nat) : IntakeKept s (s.elapse e) := ⟨rfl, rfl, rfl, fun _ _ h => h⟩

theorem portIdle_intakeKept (s : State) : IntakeKept s s.portIdle := ⟨rfl, rfl, rfl, fun p _ h => by cases p <;> exact h⟩

theorem continuityCheck_intakeKept (bytes : List Byte) (s : State) : IntakeKept s (continuityCheck bytes s) := by
  rw [continuityCheck_frame]
  exact ⟨rfl, rfl, rfl, fun p _ h => by cases p <;> exact h⟩

/-- A page that is not POSTED may change. -/
theorem setPage_intakeKept {p : PageId} (hp : ∀ scan, s.siu.page p ≠ .posted scan) (x : Page) :
    IntakeKept s (s.withSiu (s.siu.setPage p x)) := by
  refine ⟨rfl, rfl, rfl, fun p' scan hscan => ?_⟩
  show (s.siu.setPage p x).page p' = _
  rw [page_setPage, if_neg fun he : p' = p => hp scan (he ▸ hscan)]
  exact hscan

/-- The page that the port fills is freed (R16, R17). -/
theorem freePage_intakeKept {p : PageId} (hpages : PagesAgree s) (hport : s.siu.port = .captured p) :
    IntakeKept s (s.portIdle.withSiu (s.portIdle.siu.setPage p .free)) := by
  refine (portIdle_intakeKept s).trans (setPage_intakeKept (fun scan hscan => ?_) .free)
  have hfilling : s.portIdle.siu.page p = .filling := by
    rw [← (hpages.filling p).2 hport]
    cases p <;> rfl
  rw [hfilling] at hscan
  cases hscan

theorem beginMessage_intakeKept (s : State) : IntakeKept s (beginMessage s) := by
  unfold beginMessage
  split
  · rename_i hfree
    refine ⟨rfl, rfl, rfl, fun p _ hscan => ?_⟩
    cases p
    · rw [show s.siu.page .a = .free from hfree] at hscan; cases hscan
    · exact hscan
  · split
    · rename_i hfree
      refine ⟨rfl, rfl, rfl, fun p _ hscan => ?_⟩
      cases p
      · exact hscan
      · rw [show s.siu.page .b = .free from hfree] at hscan; cases hscan
    · simp only
      split <;> exact ⟨rfl, rfl, rfl, fun p _ h => by cases p <;> exact h⟩

/-- The scan pass of the page that the port fills joins the list, stamped with the open bin (R20, R21). -/
theorem postPage_inOrder {p : PageId} {scan : Scan} (h : InOrder s) (hpages : PagesAgree s) (hport : s.siu.port = .captured p)
    (hrun : s.rca.node = .running) (hlist : t.tt.requests = s.tt.requests ++ [.scanPass p])
    (hpage : t.siu.page p = .posted scan) (hstamp : scan.hw = s.du.hw)
    (hothers : ∀ p', p' ≠ p → ∀ scan, s.siu.page p' = .posted scan → t.siu.page p' = .posted scan) (hdu : Undisturbed s t) :
    InOrder t := by
  have hturns := turns_append hlist fun p' hp' => by
    obtain ⟨scan', hscan'⟩ := hpages.page_of_mem hp'
    have hne : p' ≠ p := fun he => by
      rw [he, (hpages.filling p).2 hport] at hscan'
      cases hscan'
    rw [hscan', hothers p' hne scan' hscan']
  have hturn : [Request.scanPass p].filterMap (Request.turn t.siu) = [2 * s.du.hw] := by
    simp only [List.filterMap_cons, List.filterMap_nil, Request.turn, hpage, hstamp]
  rw [hturn] at hturns
  exact h.posted hrun (hpages.running hrun).1 hturns (by omega) (by rw [hdu.sameDu]) (fun _ => by rw [hdu.sameDu]) hdu.tracks

/-- A captured message that ends in RUNNING is lost, or posts its scan (R16, R21). -/
theorem takeMessage_inOrder {p : PageId} (h : InOrder s) (hpages : PagesAgree s) (hport : s.siu.port = .captured p)
    (hrun : s.rca.node = .running) (c : Settings) (bytes : List Byte) : InOrder (takeMessage c p bytes s.portIdle) := by
  have hdu : Undisturbed s (takeMessage c p bytes s.portIdle) :=
    (takeMessage_undisturbed c p bytes s.portIdle).after le_rfl rfl rfl rfl id
  cases hbad : malformedScan bytes with
  | true =>
    have hlost : IntakeKept (s.portIdle.withSiu (s.portIdle.siu.setPage p .free))
        (s.portIdle.withSiu (s.portIdle.siu.setPage p .free)).loseScan := ⟨rfl, rfl, rfl, fun _ _ h => h⟩
    refine IntakeKept.inOrder ?_ hdu h hpages
    simp only [takeMessage, hbad, if_true]
    exact ((freePage_intakeKept hpages hport).trans hlost).trans (continuityCheck_intakeKept bytes _)
  | false =>
    have hcheck := (portIdle_intakeKept s).trans (continuityCheck_intakeKept bytes s.portIdle)
    have hposted : (takeMessage c p bytes s.portIdle).siu = (continuityCheck bytes s.portIdle).siu.setPage p
        (.posted (scanOf c bytes (continuityCheck bytes s.portIdle))) := by simp [takeMessage, hbad]
    refine postPage_inOrder (scan := scanOf c bytes (continuityCheck bytes s.portIdle)) h hpages hport hrun ?_ ?_ ?_ ?_ hdu
    · simp [takeMessage, hbad, hcheck.requests]
    · rw [hposted, page_setPage, if_pos rfl]
    · rw [continuityCheck_frame]; rfl
    · intro p' hne scan hscan
      rw [hposted, page_setPage, if_neg hne]
      exact hcheck.pages p' scan hscan

theorem endMessage_inOrder (h : InOrder s) (hpages : PagesAgree s) {bytes : List Byte} (hstep : endMessage bytes s = .next t) :
    InOrder t := by
  have hdu := endMessage_undisturbed hstep
  unfold endMessage at hstep
  split at hstep
  · cases hstep
  · cases hstep
  · cases hstep
    refine IntakeKept.inOrder ?_ hdu h hpages
    split
    · exact (portIdle_intakeKept s).trans (continuityCheck_intakeKept bytes _)
    · exact portIdle_intakeKept s
  · rename_i p hport
    split at hstep
    · split at hstep <;> cases hstep
      exact takeMessage_inOrder h hpages hport ‹_› _ _
    · cases hstep
      exact (freePage_intakeKept hpages hport).inOrder hdu h hpages

theorem execScanMessageSilence_inOrder (h : InOrder s) (hpages : PagesAgree s) {bytes : List Byte}
    (hstep : execScanMessageSilence e bytes s = .next t) : InOrder t := by
  have hdu := execScanMessageSilence_undisturbed hstep
  unfold execScanMessageSilence at hstep
  split at hstep
  · cases hstep
    exact ((elapse_intakeKept s e).trans (portIdle_intakeKept _)).inOrder hdu h hpages
  all_goals exact endMessage_inOrder (h.elapse e) (elapse_pagesAgree hpages e) hstep

theorem execScanMessageBegin_intakeKept (hstep : execScanMessageBegin e s = .next t) : IntakeKept s t := by
  unfold execScanMessageBegin at hstep
  split at hstep <;> cases hstep
  exact (elapse_intakeKept s e).trans (beginMessage_intakeKept _)

theorem execExposureWordSent_intakeKept (hstep : execExposureWordSent e s = .next t) : IntakeKept s t := by
  unfold execExposureWordSent at hstep
  split at hstep <;> cases hstep
  exact ⟨rfl, rfl, rfl, fun p _ h => by cases p <;> exact h⟩

theorem execEndMarkAfterReset_intakeKept (hstep : execEndMarkAfterReset e s = .next t) : IntakeKept s t := by
  unfold execEndMarkAfterReset at hstep
  split at hstep <;> cases hstep
  exact (elapse_intakeKept s e).trans (portIdle_intakeKept _)

/-! ## Requests of the track table (R55, R61, R67, R125) -/

theorem newTrack_orderedTo (l : Label) (scan : Scan) (q : CarSpot) : OrderedTo g (newTrack l scan q) :=
  ⟨.nil, fun _ ha => (by cases ha), List.forall_mem_nil _⟩

theorem execScanPass_inOrder (h : InOrder s) (hpages : PagesAgree s) (hstep : execScanPass e s = .next t) : InOrder t := by
  have hsteady := execScanPass_steady hstep
  obtain ⟨p, rest, c, scan, hr, -, -, hscan, rfl⟩ := execScanPass_next hstep
  have hfoot := runPass_footprint c scan (s.takeRequest e rest)
  have hturn : (Request.scanPass p).turn s.siu = some (2 * scan.hw) := by simp only [Request.turn, hscan]
  have hnone : .scanPass p ∉ rest := by
    have hcount := hpages.posted p
    rw [hr, hscan, List.count_cons_self] at hcount
    exact List.count_eq_zero.1 (Nat.succ.inj hcount)
  have hlist : (endPass p (runPass c scan (s.takeRequest e rest))).tt.requests = rest := by
    show (runPass c scan (s.takeRequest e rest)).tt.requests = rest
    rw [hfoot.tt]; rfl
  have hturns : (endPass p (runPass c scan (s.takeRequest e rest))).turns = rest.filterMap (Request.turn s.siu) := by
    unfold State.turns
    rw [hlist]
    refine turns_congr fun p' hp' => ?_
    show ((runPass c scan (s.takeRequest e rest)).siu.setPage p .free).page p' = _
    rw [page_setPage, if_neg fun he : p' = p => hnone (he ▸ hp'), hfoot.siu]
    cases p' <;> rfl
  have htracks : ∀ u ∈ s.tt.tracks, OrderedTo scan.hw u := h.orderedTo hr hturn (by omega)
  refine h.dealt (g := scan.hw) hr hturn (by rw [hturns]) hsteady.hw (fun hrun => hfoot.queue.node ▸ hrun)
    (fun m hm _ => hm) (fun _ => ?_) ?_
  · have := h.reached (2 * scan.hw) (by rw [turns_cons hr, hturn]; exact List.mem_cons_self)
    omega
  · rw [endPass_tracks]
    refine runPass_each (s := s.takeRequest e rest) htracks ?_ ?_ ?_
    · intro u before q s' hu
      exact offerSpot_orderedTo (u := u.associate c q) ⟨hu.sorted, hu.gathers, hu.holds⟩ c before q s'
    · exact fun u _ _ hu => ⟨hu.sorted, hu.gathers, hu.holds⟩
    · exact fun l q s' => offerSpot_orderedTo (newTrack_orderedTo l scan q) c _ q s'

/-- The exposure step at the end of a close leaves the turns as they are (R26). -/
theorem exposureStep_turns (c : Settings) (s : State) : (exposureStep c s).served.turns = s.turns := by
  refine turns_congr (l := s.tt.requests) fun p _ => ?_
  show (exposureStep c s).siu.page p = s.siu.page p
  rw [exposureStep_frame]
  cases p <;> rfl

theorem execBinClose_inOrder (h : InOrder s) (hcloses : ClosesSound s) (hstep : execBinClose e s = .next t) : InOrder t := by
  have hsteady := execBinClose_steady hstep
  obtain ⟨k, rest, c, hr, -, -, rfl⟩ := execBinClose_next hstep
  have hposts := binClosed_postsOnly c k (s.takeRequest e rest)
  have hturns : (exposureStep c (binClosed c k (s.takeRequest e rest))).served.turns = rest.filterMap (Request.turn s.siu) := by
    have hclosed := (dealWithTracks_steady c k false (s.takeRequest e rest)).trans (buildReport_steady c k _)
    rw [exposureStep_turns, hposts.turns hclosed.closes]
    rfl
  have hordered : ∀ u ∈ s.tt.tracks, OrderedTo k u := h.orderedTo (n := 2 * k + 1) hr rfl le_rfl
  refine h.dealt (n := 2 * k + 1) (g := k + 1) hr rfl (by rw [hturns]) hsteady.hw (fun hrun => hposts.node hrun)
    (fun m _ hm => by have := hm (by omega); omega) (fun _ => ?_) ?_
  · exact hcloses.2 k (by rw [hr]; exact List.mem_cons_self)
  · have hdealt : ∀ v ∈ (dealWithTracks c k false (s.takeRequest e rest)).tt.tracks, OrderedTo (k + 1) v :=
      dealWithTracks_each (s := s.takeRequest e rest) hordered
        fun u v s' hu hv => closeTrack_orderedTo hu s' hv
    rw [binClose_tracks]
    intro u hu
    obtain ⟨v, hv, rfl | rfl⟩ := mem_binClosed hu
    · exact hdealt u hv
    · obtain ⟨hsorted, hgathers, hholds⟩ := hdealt v hv
      exact ⟨hsorted, hgathers, hholds⟩

theorem execFinalClose_inOrder (h : InOrder s) (hstep : execFinalClose e s = .next t) : InOrder t := by
  have hsteady := execFinalClose_steady hstep
  obtain ⟨k, rest, c, hr, -, -, rfl⟩ := execFinalClose_next hstep
  have hordered : ∀ u ∈ s.tt.tracks, OrderedTo k u := h.orderedTo (n := 2 * k + 1) hr rfl le_rfl
  have hdealt := dealWithTracks_postsOnly c k true (s.takeRequest e rest)
  have htested := testDrainEnd_postsOnly (exposureStep c (dealWithTracks c k true (s.takeRequest e rest))).served.closeTable
  have htt := testDrainEnd_tt (exposureStep c (dealWithTracks c k true (s.takeRequest e rest))).served.closeTable
  refine h.dealt (n := 2 * k + 1) (g := k + 1) hr rfl ?_ hsteady.hw ?_ (fun m _ hm => by have := hm (by omega); omega) ?_ ?_
  · unfold State.turns
    rw [htt]
    exact List.nil_sublist _
  · exact fun hrun => hdealt.node (htested.node hrun)
  · rw [htt]; exact nofun
  · rw [finalClose_tracks]
    exact dealWithTracks_each (s := s.takeRequest e rest) hordered fun u v s' hu hv => closeTrack_orderedTo hu s' hv

/-! ## The law over a whole step -/

/-- The commands of port and link (R15, R21, R53). -/
theorem exec_inOrder_of_undisturbed (h : InOrder s) (hpages : PagesAgree s) {i : Instr} (hi : disturbs i = false)
    (hstep : exec i s = .next t) : InOrder t := by
  have hdu := exec_undisturbed hi hstep
  have hport : IntakeKept s t → InOrder t := fun hkept => hkept.inOrder hdu h hpages
  have hlink : PostsOnly s t → InOrder t := fun hposts => h.applied hposts hdu.toSteady (by rw [hdu.tracks]; exact h.tracks)
  cases i with
  | scanMessageBegin => exact hport (execScanMessageBegin_intakeKept hstep)
  | scanMessageEnd e => exact endMessage_inOrder (h.elapse e) (elapse_pagesAgree hpages e) hstep
  | scanMessageSilence => exact execScanMessageSilence_inOrder h hpages hstep
  | exposureWordSent => exact hport (execExposureWordSent_intakeKept hstep)
  | endMarkAfterReset => exact hport (execEndMarkAfterReset_intakeKept hstep)
  | powerOnReset | odometerTransition | illegalTransition | scanPass | binClose | finalClose | edgeApplication
  | markApplication | neighbourLostApplication | runStart | enterDraining => cases hi
  | _ => exact hlink (exec_postsOnly rfl hstep)

theorem exec_inOrder (h : InOrder s) (hpages : PagesAgree s) (hcloses : ClosesSound s) {i : Instr}
    (hstep : exec i s = .next t) : InOrder t := by
  have hgroup {e : Nat} {x : EdgeGroup} : takeEdges e x s = .next t → InOrder t := fun hx => takeEdges_inOrder hx h hpages
  cases hd : disturbs i with
  | false => exact exec_inOrder_of_undisturbed h hpages hd hstep
  | true =>
    cases i with
    | powerOnReset => cases hstep; exact inOrder_of_empty rfl rfl
    | odometerTransition => exact hgroup hstep
    | illegalTransition => exact hgroup hstep
    | scanPass => exact execScanPass_inOrder h hpages hstep
    | binClose => exact execBinClose_inOrder h hcloses hstep
    | finalClose => exact execFinalClose_inOrder h hstep
    | edgeApplication e =>
      obtain ⟨side, report, rest, c, hr, rfl⟩ := execEdgeApplication_next hstep
      have htaken := h.taken hr e
      exact htaken.applied ((applyEdge_postsOnly c side report _).trans (served_postsOnly _))
        ((applyEdge_steady c side report _).trans (served_steady _))
        (binsBelow_applicationsKeep.applyEdge htaken.tracks c side report)
    | markApplication e =>
      obtain ⟨number, type, rest, c, hr, rfl⟩ := execMarkApplication_next hstep
      have htaken := h.taken hr e
      exact htaken.applied ((applyMark_postsOnly c number type _).trans (served_postsOnly _))
        ((applyMark_steady c number type _).trans (served_steady _))
        (binsBelow_applicationsKeep.applyMark htaken.tracks c number type)
    | neighbourLostApplication e =>
      obtain ⟨side, rest, hr, rfl⟩ := execNeighbourLostApplication_next hstep
      have htaken := h.taken hr e
      exact htaken.applied ((dissolveAll_postsOnly _ _).trans (served_postsOnly _))
        ((dissolveAll_steady _ _).trans (served_steady _)) (binsBelow_applicationsKeep.dissolveAll htaken.tracks _)
    | runStart e =>
      rcases execRunStart_next hstep with ⟨-, r, -, rfl⟩ | rfl
      · exact inOrder_of_empty rfl rfl
      · exact h.elapse e
    | enterDraining e =>
      rcases execEnterDraining_next hstep with ⟨hrun, rfl⟩ | rfl
      · exact startDrain_inOrder hrun (h.elapse e) (elapse_pagesAgree hpages e)
      · exact h.elapse e
    | _ => cases hd

/-- Settles O54: the queue of commands is no part of either law, and every command keeps both. -/
theorem ownershipLaw : Obligations.OwnershipLaw := by
  refine ⟨fun s t h hstep => ?_, fun s t hpages hcloses horder hstep => ?_⟩
  · unfold step at hstep
    split at hstep
    · cases hstep; exact h
    · rename_i i rest _
      exact exec_ownership (s := { s with pending := rest }) h hstep
  · rw [pagesSound_iff] at hpages
    rw [orderSound_iff] at horder ⊢
    unfold step at hstep
    split at hstep
    · cases hstep; exact horder
    · rename_i i rest _
      have horder' : InOrder { s with pending := rest } := horder.keeps (List.Sublist.refl _) le_rfl id id horder.tracks
      exact exec_inOrder horder' (hpages.congr (fun _ => rfl) rfl rfl rfl id) hcloses hstep

end Sys2Proof.Machine

/-! The law of the table over a whole step (R48, R79): what each service of the track table does to the labels (O52). -/

namespace Sys2Proof.Machine

variable {s t : State} {c : Settings} {e : Nat}

/-- No more tracks, and their labels among those before in the same order: the laws of the table stay. -/
theorem tableSound_of_sublist (h : TableSound s)
    (hl : (t.tt.tracks.map (·.label)).Sublist (s.tt.tracks.map (·.label))) : TableSound t := by
  have hlength := hl.length_le
  rw [List.length_map, List.length_map] at hlength
  exact ⟨hlength.trans h.1, h.2.sublist hl⟩

theorem tableSound_of_labels (h : TableSound s) (hl : t.tt.tracks.map (·.label) = s.tt.tracks.map (·.label)) :
    TableSound t := tableSound_of_sublist h (hl ▸ List.Sublist.refl _)

theorem tableSound_of_empty (h : t.tt.tracks = []) : TableSound t := by simp [TableSound, h]

/-! ## Scan pass and closes (R64, R65, R69) -/

theorem runPass_tableSound (h : TableSound s) (c : Settings) (scan : Scan) : TableSound (runPass c scan s) := by
  obtain ⟨-, -, hlength, hnodup⟩ := runPass_spec (P := fun _ => True) (I := fun _ => True) c scan s (fun _ _ => trivial)
    (fun _ _ _ _ _ _ _ => ⟨offerSpot_reaches c scan _ _ _ _, trivial⟩) (fun _ _ _ _ => trivial)
    fun _ _ _ _ _ _ _ => trivial
  exact ⟨hlength h.1, hnodup h.2⟩

theorem dealWithTracks_tableSound (h : TableSound s) (c : Settings) (k : Int) (final : Bool) :
    TableSound (dealWithTracks c k final s) := by
  obtain ⟨-, -, -, hlength, hnodup⟩ := dealWithTracks_spec (P := fun _ => True) (s := s) c k final
    fun _ _ => ⟨fun _ _ _ => trivial, trivial⟩
  exact ⟨hlength.trans h.1, hnodup h.2⟩

/-- The report of a close clears former labels and nothing else of the tracks (R77, R126). -/
theorem buildReport_tracks (c : Settings) (k : Int) (s : State) : (buildReport c k s).tt.tracks
    = if s.rca.node = .running then s.tt.tracks.map fun u => { u with former := none } else s.tt.tracks := by
  obtain ⟨hother, hrun⟩ := buildReport_spec c k s
  split
  · rename_i hn
    rw [hrun hn, (arbitrate_footprint (fun _ => True) _).tt]
    rfl
  · rename_i hn
    rw [hother hn]

theorem buildReport_labels (c : Settings) (k : Int) (s : State) :
    (buildReport c k s).tt.tracks.map (·.label) = s.tt.tracks.map (·.label) := by
  rw [buildReport_tracks]
  split
  · rw [List.map_map]; rfl
  · rfl

theorem binClosed_tableSound (h : TableSound s) (c : Settings) (k : Int) : TableSound (binClosed c k s) :=
  tableSound_of_labels (dealWithTracks_tableSound h c k false) (buildReport_labels c k _)

/-! ## Applications (R78, R79, R96, R124) -/

theorem closeApplied_tableSound (h : TableSound s) (c : Settings) (side : Side) (report : EdgeReport) :
    TableSound (closeApplied c side report s) := by
  unfold closeApplied
  obtain ⟨-, hlength, -, hnodup, -⟩ := applyMatching_spec (P := fun _ => True) (I := fun _ => True) (c := c)
    (t := settleAndCount side report.clamped (matchEntries c side report.clamped.entries s.tt.tracks) s)
    (fun _ _ => trivial) (fun _ _ _ _ => trivial) (fun x u s' _ _ => ⟨settle_reaches side _ x u s', trivial⟩)
    (fun u s' _ _ => ⟨countAbsence_reaches u s', trivial⟩) rfl rfl rfl
  exact ⟨hlength.le.trans h.1, hnodup h.2⟩

theorem applyEdge_tableSound (h : TableSound s) (c : Settings) (side : Side) (report : EdgeReport) :
    TableSound (applyEdge c side report s) := by
  have hcentre : TableSound (s.takeCentre side report) := by cases side <;> exact h
  cases hnames : headerNames s.rca.slot side report with
  | false => rw [applyEdge_mismatch hnames]; exact h
  | true =>
    cases hbeat : report.heartbeat with
    | true => rw [applyEdge_heartbeat hnames hbeat]; exact hcentre
    | false => rw [applyEdge_close hnames hbeat]; exact closeApplied_tableSound hcentre c side report

theorem applyMark_labels (c : Settings) (number : Nat) (type : Option Nat) (s : State) :
    (applyMark c number type s).tt.tracks.map (·.label) = s.tt.tracks.map (·.label) := by
  have htracks : (applyMark c number type s).tt.tracks = s.tt.tracks.map fun u => { u with mark := some number } := by
    unfold applyMark
    simp only
    split
    · split <;> rfl
    · rfl
  rw [htracks, List.map_map]
  rfl

/-- Dissolving links leaves every label in its place (R96). -/
theorem dissolveAll_labels (places : List Nat) (s : State) :
    (places.foldl (fun s i => s.updateTrack i dissolve) s).tt.tracks.map (·.label) = s.tt.tracks.map (·.label) := by
  obtain ⟨-, hlength, -, hplaces⟩ := foldl_updateTrack (P := fun _ => True) (R := fun u v => v.label = u.label)
    (I := fun _ => True) (fun _ => rfl) (fun _ _ _ h h' => h'.trans h) (fun i : Nat => i) (fun _ u s => dissolve u s)
    places s (fun _ _ => trivial)
    fun _ _ u s' _ _ _ => ⟨dissolve_footprint fun _ _ _ _ => trivial, (dissolve_kept u s').label, trivial⟩
  refine List.ext_getElem? fun i => ?_
  rw [List.getElem?_map, List.getElem?_map]
  cases hu : s.tt.tracks[i]? with
  | none => rw [List.getElem?_eq_none (hlength.le.trans (List.getElem?_eq_none_iff.1 hu))]
  | some u =>
    obtain ⟨v, hv, hl, -⟩ := hplaces i u hu
    rw [hv]
    exact congrArg some hl

/-! ## The law over a whole step -/

theorem exec_tableSound (h : TableSound s) {i : Instr} (hstep : exec i s = .next t) : TableSound t := by
  have hsame (htracks : t.tt.tracks = s.tt.tracks) : TableSound t := tableSound_of_labels h (by rw [htracks])
  cases hd : disturbs i with
  | false => exact hsame (exec_undisturbed hd hstep).tracks
  | true =>
    cases i with
    | powerOnReset => cases hstep; exact tableSound_of_empty rfl
    | odometerTransition => exact hsame (takeEdges_takesGroup hstep).tracks
    | illegalTransition => exact hsame (takeEdges_takesGroup hstep).tracks
    | scanPass e =>
      obtain ⟨p, rest, c, scan, -, -, -, -, rfl⟩ := execScanPass_next hstep
      exact runPass_tableSound (s := s.takeRequest e rest) h c scan
    | binClose e =>
      obtain ⟨k, rest, c, -, -, -, rfl⟩ := execBinClose_next hstep
      exact binClosed_tableSound (s := s.takeRequest e rest) h c k
    | finalClose e =>
      obtain ⟨k, rest, c, -, -, -, rfl⟩ := execFinalClose_next hstep
      exact tableSound_of_labels (dealWithTracks_tableSound (s := s.takeRequest e rest) h c k true)
        (by rw [finalClose_tracks])
    | edgeApplication e =>
      obtain ⟨side, report, rest, c, -, rfl⟩ := execEdgeApplication_next hstep
      exact applyEdge_tableSound (s := s.takeRequest e rest) h c side report
    | markApplication e =>
      obtain ⟨number, type, rest, c, -, rfl⟩ := execMarkApplication_next hstep
      exact tableSound_of_labels h (applyMark_labels c number type (s.takeRequest e rest))
    | neighbourLostApplication e =>
      obtain ⟨side, rest, -, rfl⟩ := execNeighbourLostApplication_next hstep
      exact tableSound_of_labels h (dissolveAll_labels _ (s.takeRequest e rest))
    | runStart e =>
      rcases execRunStart_next hstep with ⟨-, r, -, rfl⟩ | rfl
      · exact tableSound_of_empty rfl
      · exact h
    | enterDraining e =>
      rcases execEnterDraining_next hstep with ⟨-, rfl⟩ | rfl
      · exact hsame (testForm_undisturbed (s.elapse e).drainBegun).tracks
      · exact h
    | _ => cases hd

/-- Settles O52: only births and relabelling give labels, each a label that no track bears, and births need a free entry. -/
theorem tableLaw : Obligations.TableLaw := by
  intro s t h hstep
  cases hp : s.pending with
  | nil => rw [step, hp] at hstep; cases hstep; exact h
  | cons i rest =>
    rw [step, hp] at hstep
    exact exec_tableSound (s := { s with pending := rest }) h hstep

end Sys2Proof.Machine

/-! Reception on the neighbours' side: signs of life and the neighbour timer (R94, R95), and the applications that valid frames
bring (R53, R152, R153). -/

namespace Sys2Proof.Machine

variable {s : State} {c : Settings} {side : Side} {source e ends : Nat} {r : Request}

/-! ## Signs of life (R94) -/

theorem neighbourSide_left (h : c.leftNeighbour = some source) : neighbourSide c source = some .left := by
  simp [neighbourSide, h]

theorem neighbourSide_right (hl : c.leftNeighbour ≠ some source) (hr : c.rightNeighbour = some source) :
    neighbourSide c source = some .right := by
  simp [neighbourSide, hl, hr]

theorem neighbourSide_none (hl : c.leftNeighbour ≠ some source) (hr : c.rightNeighbour ≠ some source) :
    neighbourSide c source = none := by
  simp [neighbourSide, hl, hr]

theorem sourceSide_eq (hc : s.settings = some c) (source : Nat) : s.sourceSide source = neighbourSide c source := by
  simp [State.sourceSide, hc]

/-- In RUNNING a neighbour becomes PRESENT and its timer restarts (R94). -/
theorem signOfLife_neighbour (hc : s.settings = some c) (hn : s.rca.node = .running)
    (hs : neighbourSide c source = some side) : signOfLife source s =
      s.withRlc (s.rlc.setLife side (some ⟨.present, some (s.now + c.neighbourTimeout * 1000000)⟩)) := by
  rw [← sourceSide_eq hc] at hs
  unfold signOfLife
  simp only [hc, hs, if_pos hn]
  rfl

theorem signOfLife_stranger (h : s.sourceSide source = none) : signOfLife source s = s := by
  unfold signOfLife
  split
  · rename_i hs; rw [h] at hs; cases hs
  · rfl

theorem signOfLife_outside (h : s.rca.node ≠ .running) : signOfLife source s = s := by
  unfold signOfLife
  split
  · rw [if_neg h]
  · rfl

/-- A sign of life touches the liveness alone. -/
theorem signOfLife_frame (source : Nat) (s : State) : signOfLife source s = s.withRlc (signOfLife source s).rlc := by
  unfold signOfLife
  split
  · split <;> rfl
  · rfl

/-! ## The neighbour timer (R95) -/

theorem onExpiry_due {timer : Option Nat} (ht : timer = some ends) (h : ends ≤ s.now) (go : Result) :
    onExpiry s timer go = go := by
  simp [onExpiry, ht, h]

theorem onExpiry_early {timer : Option Nat} (ht : timer = some ends) (h : s.now < ends) (go : Result) :
    onExpiry s timer go = .refused .timeNotReached := by
  simp [onExpiry, ht, h]

/-- A neighbour lost, up to the posting of its application (R95). -/
def State.markLost (s : State) (side : Side) : State :=
  (s.withRlc (s.rlc.setLife side (some ⟨.lost, none⟩))).setLatch .neighbourLost

theorem loseNeighbour_posts (ho : s.tt.isOpen = true) (h : .neighbourLost side ∉ s.tt.requests) :
    loseNeighbour side s = (s.markLost side).post (.neighbourLost side) :=
  if_pos (by simpa [ho] using h)

theorem loseNeighbour_only (h : s.tt.isOpen = false ∨ .neighbourLost side ∈ s.tt.requests) :
    loseNeighbour side s = s.markLost side :=
  if_neg (by rcases h with h | h <;> simp [h])

/-- Settles O46: a sign of life by the side of its source, an expiry by what becomes of the neighbour and its application. -/
theorem liveness : Obligations.Liveness := by
  intro s
  have htimer {e side state ends} (hl : s.rlc.life side = some ⟨state, some ends⟩) :
      ((s.elapse e).rlc.life side).bind (·.timer) = some ends := by
    rw [State.elapse_rlc, hl]; rfl
  refine ⟨fun c source hc hn => ⟨fun hl => ?_, fun hl hr => ?_, fun hl hr => ?_⟩, fun source hn => signOfLife_outside hn,
    fun e side state ends hl hdue => ?_, fun e side state ends hl hearly => onExpiry_early (htimer hl) hearly _⟩
  · exact signOfLife_neighbour hc hn (neighbourSide_left hl)
  · exact signOfLife_neighbour hc hn (neighbourSide_right hl hr)
  · exact signOfLife_stranger ((sourceSide_eq hc source).trans (neighbourSide_none hl hr))
  · have hexec : exec (.neighbourTimerExpiry e side) s = .next (loseNeighbour side (s.elapse e)) :=
      onExpiry_due (htimer hl) hdue _
    refine ⟨fun ho hfree => ?_, fun h => ?_⟩
    · rw [hexec, loseNeighbour_posts (by exact ho) (by exact hfree)]; rfl
    · rw [hexec, loseNeighbour_only (by exact h)]; rfl

/-! ## Applications (R53, R153, R177) -/

theorem offerApplication_posts (ho : s.tt.isOpen = true) (h : s.tt.requests.countP Request.isApplication < 4) :
    offerApplication r s = s.post r := by
  rw [offerApplication, if_pos ho, if_pos (by exact h)]

theorem offerApplication_lost (ho : s.tt.isOpen = true) (h : 4 ≤ s.tt.requests.countP Request.isApplication) :
    offerApplication r s = s.withCounters { s.rca.counters with
      droppedEdges := min (s.rca.counters.droppedEdges + 1) 65535 } := by
  rw [offerApplication, if_pos ho, if_neg (by exact Nat.not_lt.2 h)]
  rfl

theorem offerApplication_closed (ho : s.tt.isOpen = false) : offerApplication r s = s := by
  rw [offerApplication, if_neg (by simp [ho])]

variable {f : ReceivedFrame} {bytes : List Byte}

/-- An EDGE frame from a neighbour brings its report (R152). -/
theorem filterFrame_edge {report : EdgeReport} (hk : f.kind = 1) (hs : s.sourceSide f.source = some side)
    (hp : parseEdge f.source f.payload = some report) : filterFrame f s = offerApplication (.edge side report) s := by
  have hkind : frameKind f.kind = some .edge := by rw [hk]; rfl
  simp only [filterFrame, hkind, hs, hp]

/-- A malformed EDGE payload from a neighbour is a bad frame (R177). -/
theorem filterFrame_edge_malformed (hk : f.kind = 1) (hs : s.sourceSide f.source = some side)
    (hp : parseEdge f.source f.payload = none) : filterFrame f s = s.countBad := by
  have hkind : frameKind f.kind = some .edge := by rw [hk]; rfl
  simp only [filterFrame, hkind, hs, hp]

/-- A MARK frame for this node brings its mark, or is bad (R152, R176, R177). -/
theorem filterFrame_mark (hk : f.kind = 6) (ha : addressed s f = true) : filterFrame f s =
    if f.payload.length = 3 then offerApplication (.mark (fieldAt f.payload 0 2)
      (if fieldAt f.payload 2 1 = 255 then none else some (fieldAt f.payload 2 1))) s
    else s.countBad := by
  have hkind : frameKind f.kind = some .mark := by rw [hk]; rfl
  simp only [filterFrame, hkind, ha, if_true, parseMark]
  by_cases hl : f.payload.length = 3
  · rw [if_pos hl, if_pos hl]
  · rw [if_neg hl, if_neg hl]

/-- A valid frame is a sign of life before the filter takes it (R151, R152). -/
theorem judgeReception_valid (h : validReception bytes = true) (s : State) :
    judgeReception bytes s = filterFrame (parseFrame bytes) (signOfLife (fieldAt bytes 1 1) s) := by
  have hlength : 64 ≤ bytes.length := by
    simp only [validReception, Bool.and_eq_true, decide_eq_true_eq] at h
    exact h.1.1.1
  rw [judgeReception, if_neg (by omega), if_pos h]
  rfl

theorem exec_frameReceived {heard : List Bool} (h : s.rlc.reception = some heard) (e : Nat) (bits : List Bool) :
    exec (.frameReceived e bits) s
      = .next (judgeReception (wholeBytes (heard ++ bits)) (s.elapse e).carrierEnds) := by
  show execFrameReceived e bits s = _
  simp only [execFrameReceived, h]

/-- Settles O43: after the sign of life the filter hands an EDGE or MARK frame on, and neither touches what decides its fate. -/
theorem applicationReceived : Obligations.ApplicationReceived := by
  intro e heard bits s hheard bytes hvalid v payload out posts bad
  have hout : out = .next (filterFrame (parseFrame bytes) v) :=
    (exec_frameReceived hheard e bits).trans (congrArg _ (judgeReception_valid hvalid _))
  have hframe : v = (s.elapse e).carrierEnds.withRlc v.rlc := signOfLife_frame _ _
  have htt : v.tt = s.tt := by rw [hframe]; rfl
  have hrca : v.rca = s.rca := by rw [hframe]; rfl
  have hposts : ∀ r, out = .next (offerApplication r v) → posts r := fun r h => by
    refine ⟨fun ho hroom => ?_, fun ho hfull => ?_, fun ho => ?_⟩
    · rw [h, offerApplication_posts (by rw [htt]; exact ho) (by rw [htt]; exact hroom), State.post, htt]; rfl
    · rw [h, offerApplication_lost (by rw [htt]; exact ho) (by rw [htt]; exact hfull), State.withCounters, hrca]; rfl
    · rw [h, offerApplication_closed (by rw [htt]; exact ho)]
  have hbad : out = .next v.countBad → bad := fun h => by
    show out = _
    rw [h, State.countBad, State.withCounters, hrca]; rfl
  refine ⟨fun side hkind hside => ?_, fun hkind hdest => ?_⟩
  · have hside' : v.sourceSide (parseFrame bytes).source = some side := by
      rw [← hside]; unfold State.sourceSide State.settings; rw [hrca]; rfl
    refine ⟨fun report hparse => hposts _ ?_, fun hparse => hbad ?_⟩
    · rw [hout, filterFrame_edge (by exact hkind) hside' (by exact hparse)]
    · rw [hout, filterFrame_edge_malformed (by exact hkind) hside' (by exact hparse)]
  · have haddressed : addressed v (parseFrame bytes) = true := by
      rw [addressed, hrca, Bool.or_eq_true, beq_iff_eq, beq_iff_eq]
      exact hdest
    rw [filterFrame_mark (by exact hkind) haddressed] at hout
    refine ⟨fun hl => hposts _ ?_, fun hl => hbad ?_⟩
    · rw [hout, if_pos (by exact hl)]; rfl
    · rw [hout, if_neg (by exact hl)]

end Sys2Proof.Machine

/-! Greedy assignment (R59, R80) and the candidate pairs that it orders (R57, R58, R80). -/

namespace Sys2Proof.Machine

variable {cs : List Candidate} {k : Candidate}

/-! ## Greedy assignment -/

/-- A candidate passed over shares its track or its other side with a pair accepted before it, or with what was taken at the
start (R59, R80). -/
theorem greedy_passed_over (hsorted : cs.Pairwise fun a b => lexLt b.key a.key = false) (hk : k ∈ cs)
    (tracks others : List Nat) (hpassed : k ∉ greedy cs tracks others) :
    (k.track ∈ tracks ∨ k.other ∈ others)
      ∨ ∃ a ∈ greedy cs tracks others, (a.track = k.track ∨ a.other = k.other) ∧ lexLt k.key a.key = false := by
  induction cs generalizing tracks others with
  | nil => cases hk
  | cons d cs ih =>
    obtain ⟨hd, hsorted⟩ := List.pairwise_cons.1 hsorted
    unfold greedy at hpassed ⊢
    by_cases htaken : (tracks.contains d.track || others.contains d.other) = true
    · rw [if_pos htaken] at hpassed ⊢
      rcases List.mem_cons.1 hk with rfl | hk
      · exact .inl (by simpa using htaken)
      · exact ih hsorted hk _ _ hpassed
    · rw [if_neg htaken] at hpassed ⊢
      obtain ⟨hne, hpassed⟩ := not_or.1 (mt List.mem_cons.2 hpassed)
      have hk : k ∈ cs := (List.mem_cons.1 hk).resolve_left hne
      have hshared (h : d.track = k.track ∨ d.other = k.other) :
          ∃ a ∈ d :: greedy cs (d.track :: tracks) (d.other :: others),
            (a.track = k.track ∨ a.other = k.other) ∧ lexLt k.key a.key = false :=
        ⟨d, List.mem_cons_self, h, hd k hk⟩
      rcases ih hsorted hk _ _ hpassed with (h | h) | ⟨a, ha, h⟩
      · exact (List.mem_cons.1 h).elim (fun h => .inr (hshared (.inl h.symm))) fun h => .inl (.inl h)
      · exact (List.mem_cons.1 h).elim (fun h => .inr (hshared (.inr h.symm))) fun h => .inl (.inr h)
      · exact .inr ⟨a, List.mem_cons_of_mem _ ha, h⟩

theorem assign_sorted (cs : List Candidate) : (assign cs).Pairwise fun a b => lexLt b.key a.key = false :=
  (sortBy_sorted Candidate.key cs).sublist (greedy_sublist _ _ _)

theorem assign_disjoint (cs : List Candidate) :
    (assign cs).Pairwise fun a b => a.track ≠ b.track ∧ a.other ≠ b.other := greedy_disjoint _ _ _

theorem assign_passed_over (hk : k ∈ cs) (hpassed : k ∉ assign cs) :
    ∃ a ∈ assign cs, (a.track = k.track ∨ a.other = k.other) ∧ lexLt k.key a.key = false := by
  rcases greedy_passed_over (sortBy_sorted Candidate.key cs) ((mem_sortBy _ _ _).2 hk) [] [] hpassed with (h | h) | h
  · cases h
  · cases h
  · exact h

/-! ## Candidate pairs -/

/-- The gates and classes of R58 in their words. -/
theorem isCandidate_iff (c : Settings) (u : Track) (p : CarSpot) : isCandidate c u p = true ↔
    (p.cls = .strong ∨ p.cls = .weak ∧ u.state.isTentative = false)
      ∧ (p.x - u.lastX).natAbs ≤ min (c.xGate + 10 * u.missedBins) (2 * c.xGate)
      ∧ ((p.z : Int) - u.lastZ).natAbs ≤ c.zGate := by
  have hcls : (p.cls ≠ .rejected ∧ (p.cls = .strong ∨ u.state.isTentative = false)) ↔
      (p.cls = .strong ∨ p.cls = .weak ∧ u.state.isTentative = false) := by cases p.cls <;> simp
  simp only [isCandidate, Bool.and_eq_true, Bool.or_eq_true, bne_iff_ne, beq_iff_eq, Bool.not_eq_true', decide_eq_true_eq,
    ← hcls]
  exact ⟨fun ⟨⟨⟨hp, hx⟩, hz⟩, h⟩ => ⟨⟨hp, h⟩, hx, hz⟩, fun ⟨⟨hp, h⟩, hx, hz⟩ => ⟨⟨⟨hp, hx⟩, hz⟩, h⟩⟩

/-- The candidate pairs of a scan pass with their keys (R58, R59). -/
theorem mem_scanCandidates_iff (c : Settings) (ts : List Track) (spots : List CarSpot) (k : Candidate) :
    k ∈ scanCandidates c ts spots ↔ ∃ u p, ts[k.track]? = some u ∧ spots[k.other]? = some p ∧ isCandidate c u p = true
      ∧ k.key = [((p.x - u.lastX).natAbs : Int), u.birth, u.label.origin, u.label.serial, p.x, k.other] := by
  unfold scanCandidates
  constructor
  · intro h
    obtain ⟨⟨u, i⟩, hu, h⟩ := List.mem_flatMap.1 h
    obtain ⟨⟨p, j⟩, hp, rfl⟩ := List.mem_map.1 h
    obtain ⟨hp, hcand⟩ := List.mem_filter.1 hp
    exact ⟨u, p, List.mk_mem_zipIdx_iff_getElem?.1 hu, List.mk_mem_zipIdx_iff_getElem?.1 hp, hcand, rfl⟩
  · rintro ⟨u, p, hu, hp, hcand, hkey⟩
    refine List.mem_flatMap.2 ⟨(u, k.track), List.mk_mem_zipIdx_iff_getElem?.2 hu, List.mem_map.2 ⟨(p, k.other),
      List.mem_filter.2 ⟨List.mk_mem_zipIdx_iff_getElem?.2 hp, hcand⟩, ?_⟩⟩
    exact congrArg (Candidate.mk k.track k.other) hkey.symm

/-- The conditions of R80 in their words. -/
theorem isLinkCandidate_iff (c : Settings) (side : Side) (m : Matching) (u : Track) (i : Nat) (x : EdgeEntry) :
    isLinkCandidate c side m u i x = true ↔ u.link = none ∧ (∀ q ∈ m.matched, q.2 ≠ i)
      ∧ effectiveSide c u.lastX = some side ∧ (x.x - u.lastX).natAbs ≤ c.linkXGate
      ∧ ((x.z : Int) - u.lastZ).natAbs ≤ c.linkZGate := by
  simp only [isLinkCandidate, Bool.and_eq_true, Option.isNone_iff_eq_none, Bool.not_eq_true', List.any_eq_false,
    beq_iff_eq, decide_eq_true_eq, and_assoc]
  rfl

/-- The candidate pairs of an EDGE application with their keys (R80). -/
theorem mem_linkCandidates_iff (c : Settings) (side : Side) (m : Matching) (k : Candidate) :
    k ∈ linkCandidates c side m ↔ ∃ u x, m.tracks[k.track]? = some u ∧ (x, k.other) ∈ m.passed
      ∧ isLinkCandidate c side m u k.track x = true
      ∧ k.key = [((x.x - u.lastX).natAbs : Int), u.birth, u.label.origin, u.label.serial, x.x, k.other] := by
  unfold linkCandidates
  constructor
  · intro h
    obtain ⟨⟨u, i⟩, hu, h⟩ := List.mem_flatMap.1 h
    obtain ⟨⟨x, j⟩, hx, rfl⟩ := List.mem_map.1 h
    obtain ⟨hx, hcand⟩ := List.mem_filter.1 hx
    exact ⟨u, x, List.mk_mem_zipIdx_iff_getElem?.1 hu, hx, hcand, rfl⟩
  · rintro ⟨u, x, hu, hx, hcand, hkey⟩
    refine List.mem_flatMap.2 ⟨(u, k.track), List.mk_mem_zipIdx_iff_getElem?.2 hu, List.mem_map.2 ⟨(x, k.other),
      List.mem_filter.2 ⟨hx, hcand⟩, ?_⟩⟩
    exact congrArg (Candidate.mk k.track k.other) hkey.symm

/-- Settles O15: the assignment is greedy over a sorted list, and each list of candidates is characterised by its members. -/
theorem greedyAssignment : Obligations.GreedyAssignment := by
  refine ⟨fun cs => ⟨fun k hk => mem_of_mem_assign hk, (assign_sorted cs).and (assign_disjoint cs),
    fun k hk hpassed => assign_passed_over hk hpassed⟩, fun c ts spots k => ?_, fun c side m k => ?_⟩
  · rw [mem_scanCandidates_iff]
    simp only [isCandidate_iff, and_assoc]
  · rw [mem_linkCandidates_iff]
    simp only [isLinkCandidate_iff, and_assoc]

end Sys2Proof.Machine

/-! The birth of a track (R64 to R66): the pass of a STRONG spot outside all gates. -/

namespace Sys2Proof.Machine

variable {s : State} {c : Settings} {scan : Scan} {spot : Spot} {q : CarSpot} {k : Candidate} {ts : List Track}

/-! ## One birth -/

/-- The offer to a newborn track gives its first sample where the scan gives one, and touches nothing else (R61, R64). -/
theorem offerSpot_newTrack (c : Settings) (scan : Scan) (q : CarSpot) (l : Label) (s : State) :
    offerSpot c scan (.tentative 1 0) q (newTrack l scan q) s = (bornTrack c scan q s.wau l, s) := by
  cases hb : scan.backtracking with
  | true => rw [offerSpot_backtracking hb]; simp [bornTrack, hb, newTrack]
  | false => rw [offerSpot_empty hb _ (by rfl)]; simp [bornTrack, hb]

theorem birth_serial {n : Nat} (hn : allocateSerial s.rca.slot s.tt.tracks 8 s.tt.serial = n) (c : Settings)
    (scan : Scan) (q : CarSpot) : birth c scan q s = s.withTt { s.tt with
      tracks := s.tt.tracks ++ [bornTrack c scan q s.wau ⟨s.rca.slot, n⟩], serial := (n + 1) % 65536 } := by
  unfold birth
  simp only [Config.trackEntries, Config.serials, hn, offerSpot_newTrack]

theorem borne_iff (l : Label) (ts : List Track) : borne l ts = true ↔ ∃ u ∈ ts, u.label = l := by
  simp [borne]

/-- The first serial from the counter on that no track bears, one of the next eight (R65). -/
theorem allocateSerial_first (slot : Nat) {n : Nat} (hn : n < 65536) (hroom : ts.length < 8) :
    ∃ k < 8, allocateSerial slot ts 8 n = (n + k) % 65536
      ∧ (∀ v ∈ ts, v.label ≠ ⟨slot, (n + k) % 65536⟩)
      ∧ ∀ j < k, ∃ v ∈ ts, v.label = ⟨slot, (n + j) % 65536⟩ := by
  obtain ⟨k, hk, halloc, hborne, hfree⟩ := allocateSerial_fresh slot ts n hroom
  simp only [serialAt_lt hn] at halloc hborne hfree
  exact ⟨k, hk, halloc, borne_false hfree, fun j hj => (borne_iff _ _).1 (hborne j hj)⟩

/-! ## A pass of one spot outside all gates -/

theorem scanPairs_outside (hs : scan.spots = [spot]) (hout : ∀ u ∈ ts, isCandidate c u (carSpot c spot) = false) :
    scanPairs c scan ts = [] := by
  have hno : scanCandidates c ts [carSpot c spot] = [] := by
    refine List.eq_nil_iff_forall_not_mem.2 fun k hk => ?_
    obtain ⟨u, q, hu, hq, hcand⟩ := mem_scanCandidates hk
    obtain rfl : carSpot c spot = q := List.mem_singleton.1 (List.mem_of_getElem? hq) |>.symm
    rw [hout u (List.mem_of_getElem? hu)] at hcand
    cases hcand
  rw [scanPairs, hs, List.map_singleton, hno]
  rfl

/-- Without a pair every track is missed and the spot is left for a birth (R63, R64). -/
theorem runPass_outside (hs : scan.spots = [spot]) (hcls : (carSpot c spot).cls = .strong)
    (hout : ∀ u ∈ s.tt.tracks, isCandidate c u (carSpot c spot) = false) : runPass c scan s =
      births c scan [carSpot c spot] ((s.settleBy scan).withTracks (s.tt.tracks.filterMap missTentative)) := by
  have hpairs := scanPairs_outside hs hout
  have hpaired : paired c scan s = s.settleBy scan := by rw [paired, hpairs]; rfl
  have hleft : spotsLeft c scan s = [carSpot c spot] := by
    rw [spotsLeft, hpairs, hs]
    simp [leftOver, hcls, sortBy, insertBy]
  rw [runPass_eq, hleft, keptTracks, hpairs, hpaired, List.map_nil, countMisses_nil]
  rfl

/-- Settles O18: the one spot meets no track, so the pass is its misses and then one birth or TABLE_FULL. -/
theorem birthOfATrack : Obligations.BirthOfATrack := by
  intro e p rest c scan spot s hr ho hc hp hs hcls hserial hgates q kept
  have hout : ∀ u ∈ s.tt.tracks, isCandidate c u q = false := fun u hu => by
    refine Bool.eq_false_iff.2 fun h => ?_
    obtain ⟨-, hx, hz⟩ := (isCandidate_iff c u q).1 h
    rcases hgates u hu with hg | hg
    · exact absurd hx (Nat.not_le.2 hg)
    · exact absurd hz (Nat.not_le.2 hg)
  have hkept : s.tt.tracks.filterMap missTentative = kept :=
    congrArg (fun f => s.tt.tracks.filterMap f) (funext missTentative_eq)
  have hpass := runPass_outside (s := s.takeRequest e rest) hs hcls hout
  rw [show (s.takeRequest e rest).tt.tracks = s.tt.tracks from rfl, hkept] at hpass
  have hexec := execScanPass_eq (e := e) hr ho hc hp
  have hassociated : (endPass p (runPass c scan (s.takeRequest e rest))).siu.associated = s.siu.associated := by
    rw [(endPass_statistics p _).1, runPass_siu,
      scanPairs_outside (ts := (s.takeRequest e rest).tt.tracks) hs hout]
    rfl
  refine ⟨_, hexec, hassociated, fun hfull => ?_, fun hroom => ?_⟩ <;> rw [hpass, births_cons]
  · rw [if_neg (by exact Nat.not_lt.2 hfull)]
    exact ⟨rfl, rfl, latched_setLatch_self _ _⟩
  · rw [if_pos (by exact hroom)]
    obtain ⟨k, hk, halloc, hfree, hborne⟩ := allocateSerial_first s.rca.slot hserial hroom
    rw [birth_serial (by exact halloc), bornTrack_of_strong hcls]
    refine ⟨rfl, k, hk, hfree, hborne, ?_, rfl⟩
    exact (Nat.mod_add_mod _ _ _ : ((s.tt.serial + k) % 65536 + 1) % 65536 = _)

end Sys2Proof.Machine

/-! The tracks at a close (R67 to R71, R125): what a close makes of one track in each case, and of the table. -/

namespace Sys2Proof.Machine

variable {s t b : State} {c : Settings} {k : Int} {final : Bool} {u v w : Track} {a : Accumulator} {us ts ts' : List Track}

/-! ## One track (R67 to R70) -/

theorem closeTrack_later (ha : u.acc = some a) (hbin : k < a.bin) : closeTrack c k final u s = (some u, s) := by
  simp only [closeTrack, ha, if_neg (not_le.2 hbin)]

theorem closeTrack_tentative_empty (ha : u.acc = none) (ht : u.state.isTentative = true) :
    closeTrack c k final u s = (some u, s) := by
  simp only [closeTrack, ha, ht, if_true]

theorem closeTrack_clears (ha : u.acc = some a) (hbin : a.bin ≤ k) (ht : u.state.isTentative = true) :
    closeTrack c k final u s = (some { u with acc := none }, s) := by
  simp only [closeTrack, ha, if_pos hbin, closeAccumulator, ht, if_true]

theorem closeTrack_records (ha : u.acc = some a) (hbin : a.bin ≤ k) (ht : u.state.isTentative = false) :
    closeTrack c k final u s =
      (some (finishRecord c (fullRecord c final u.label a) { u with acc := none, missedBins := 0 } s).1,
        (finishRecord c (fullRecord c final u.label a) { u with acc := none, missedBins := 0 } s).2) := by
  simp only [closeTrack, ha, if_pos hbin, closeAccumulator, ht, Bool.false_eq_true, if_false]

/-- Without a sample a track that is not TENTATIVE goes by R69. -/
theorem closeTrack_unseen (ha : u.acc = none) (ht : u.state.isTentative = false) :
    closeTrack c k final u s = closeUnseen c k final u s := by
  simp only [closeTrack, ha, ht, Bool.false_eq_true, if_false]

theorem closeTrack_exits (ha : u.acc = none) (ht : u.state.isTentative = false)
    (hedge : edgeDistance c u.lastX ≤ xGateOf c u.missedBins) : closeTrack c k final u s = (none, s) := by
  rw [closeTrack_unseen ha ht, closeUnseen, if_pos hedge]

theorem closeTrack_lost (ha : u.acc = none) (ht : u.state.isTentative = false) (hlimit : c.coastLimit < u.missedBins + 1) :
    closeTrack c k final u s = (none, s) := by
  rw [closeTrack_unseen ha ht, closeUnseen]
  exact ite_eq_left_iff.2 fun _ => if_pos hlimit

/-- A track that coasts, as it stands when its NO_SAMPLE record is made (R69). -/
def Track.coast (u : Track) : Track := { u with missedBins := u.missedBins + 1, state := .coasting }

theorem closeTrack_coasts (ha : u.acc = none) (ht : u.state.isTentative = false)
    (hedge : xGateOf c u.missedBins < edgeDistance c u.lastX) (hlimit : u.missedBins + 1 ≤ c.coastLimit) :
    closeTrack c k final u s = (some (finishRecord c (noSampleRecord final k u.coast) u.coast s).1,
      (finishRecord c (noSampleRecord final k u.coast) u.coast s).2) := by
  rw [closeTrack_unseen ha ht, closeUnseen, if_neg (not_le.2 hedge), if_neg (not_lt.2 hlimit)]
  rfl

/-- Of a track that remains a close changes neither label, age, position nor link (R67 to R71). -/
theorem closeTrack_keeps_place (h : (closeTrack c k final u s).1 = some v) : v.label = u.label ∧ v.birth = u.birth
    ∧ v.lastX = u.lastX ∧ v.lastZ = u.lastZ ∧ v.link = u.link ∧ v.peerRole = u.peerRole ∧ v.peerThrough = u.peerThrough
    ∧ v.absent = u.absent := by
  have hafter (r : Record) (x : Track) := (finishRecord_after c r x s).1
  obtain ⟨a, -, -, hmade⟩ | ⟨a, -, -, -, hmade⟩ | ⟨a, -, -, -, hmade⟩ | ⟨-, -, hmade⟩ | ⟨-, -, -, hmade⟩
    | ⟨-, -, -, -, r, -, hmade⟩ := closeTrack_cases c k final u s <;> rw [hmade] at h <;> cases h
  · exact ⟨rfl, rfl, rfl, rfl, rfl, rfl, rfl, rfl⟩
  · exact ⟨rfl, rfl, rfl, rfl, rfl, rfl, rfl, rfl⟩
  · obtain ⟨hlabel, hbirth, -, -, hx, hz, hlink, hrole, hthrough, habsent, -, -⟩ :=
      hafter (fullRecord c final u.label a) { u with acc := none, missedBins := 0 }
    exact ⟨hlabel, hbirth, hx, hz, hlink, hrole, hthrough, habsent⟩
  · exact ⟨rfl, rfl, rfl, rfl, rfl, rfl, rfl, rfl⟩
  · obtain ⟨hlabel, hbirth, -, -, hx, hz, hlink, hrole, hthrough, habsent, -, -⟩ := hafter r u.coast
    exact ⟨hlabel, hbirth, hx, hz, hlink, hrole, hthrough, habsent⟩

/-! ## The tracks in turn (R125) -/

theorem closeTracks_cons_none (h : (closeTrack c k final u s).1 = none) :
    closeTracks c k final (u :: us) s = closeTracks c k final us (closeTrack c k final u s).2 := by
  simp only [closeTracks, h, Option.toList_none, List.nil_append]

theorem closeTracks_cons_some (h : (closeTrack c k final u s).1 = some v) : closeTracks c k final (u :: us) s =
    (v :: (closeTracks c k final us (closeTrack c k final u s).2).1,
      (closeTracks c k final us (closeTrack c k final u s).2).2) := by
  simp only [closeTracks, h, Option.toList_some, List.singleton_append]

/-! ## The table -/

/-- Two tracks agree in what a close is stated by: all but former label, entry marks, last queued GPI and hold list. -/
structure Agree (w v : Track) : Prop where
  label : v.label = w.label
  birth : v.birth = w.birth
  state : v.state = w.state
  role : v.role = w.role
  missedBins : v.missedBins = w.missedBins
  lastX : v.lastX = w.lastX
  lastZ : v.lastZ = w.lastZ
  link : v.link = w.link
  peerRole : v.peerRole = w.peerRole
  peerThrough : v.peerThrough = w.peerThrough
  absent : v.absent = w.absent
  acc : v.acc = w.acc

theorem Agree.refl (w : Track) : Agree w w := by constructor <;> rfl

theorem Agree.clearFormer (h : Agree w v) : Agree w { v with former := none } := { h with }

/-- `ts'` are the tracks `ts` after a close: each is what the close makes of one before it, perhaps with its former label
cleared, and what the close makes of a track is among them (R67, R126). -/
structure ClosedTracks (c : Settings) (k : Int) (final : Bool) (ts ts' : List Track) : Prop where
  origin : ∀ v ∈ ts', ∃ u ∈ ts, ∃ s w, (closeTrack c k final u s).1 = some w ∧ Agree w v
  made : ∀ u ∈ ts, ∃ s, ∀ w, (closeTrack c k final u s).1 = some w → ∃ v ∈ ts', Agree w v

theorem dealWithTracks_closed (c : Settings) (k : Int) (final : Bool) (s : State) :
    ClosedTracks c k final s.tt.tracks (dealWithTracks c k final s).tt.tracks := by
  obtain ⟨-, horigin, hmade, -⟩ := dealWithTracks_spec (P := fun _ => True) (s := s) c k final
    fun _ _ => ⟨fun _ _ _ => trivial, trivial⟩
  refine ⟨fun v hv => ?_, fun u hu => ?_⟩
  · obtain ⟨u, hu, s', -, hw⟩ := horigin v hv
    exact ⟨u, hu, s', v, hw, .refl v⟩
  · obtain ⟨s', -, hnone | ⟨v, hv, hsome⟩⟩ := hmade u hu
    · exact ⟨s', fun w hw => by rw [hnone] at hw; cases hw⟩
    · exact ⟨s', fun w hw => ⟨v, hv, by rw [hsome] at hw; cases hw; exact .refl v⟩⟩

namespace ClosedTracks

variable (h : ClosedTracks c k final ts ts')
include h

theorem clearFormer : ClosedTracks c k final ts (ts'.map fun u => { u with former := none }) where
  origin := by
    intro v hv
    obtain ⟨x, hx, rfl⟩ := List.mem_map.1 hv
    obtain ⟨u, hu, s, w, hw, hx⟩ := h.origin x hx
    exact ⟨u, hu, s, w, hw, hx.clearFormer⟩
  made := by
    intro u hu
    obtain ⟨s, hs⟩ := h.made u hu
    refine ⟨s, fun w hw => ?_⟩
    obtain ⟨v, hv, hvw⟩ := hs w hw
    exact ⟨_, List.mem_map_of_mem hv, hvw.clearFormer⟩

theorem keeps_place : ∀ v ∈ ts', ∃ u ∈ ts, v.label = u.label ∧ v.birth = u.birth
    ∧ v.lastX = u.lastX ∧ v.lastZ = u.lastZ ∧ v.link = u.link ∧ v.peerRole = u.peerRole ∧ v.peerThrough = u.peerThrough
    ∧ v.absent = u.absent := by
  intro v hv
  obtain ⟨u, hu, s, w, hw, hvw⟩ := h.origin v hv
  obtain ⟨hlabel, hbirth, hx, hz, hlink, hpeer, hthrough, habsent⟩ := closeTrack_keeps_place hw
  exact ⟨u, hu, hvw.label.trans hlabel, hvw.birth.trans hbirth, hvw.lastX.trans hx, hvw.lastZ.trans hz,
    hvw.link.trans hlink, hvw.peerRole.trans hpeer, hvw.peerThrough.trans hthrough, hvw.absent.trans habsent⟩

/-- Labels being different, a track that the close drops leaves no track of its label. -/
theorem dropped (hn : (ts.map (·.label)).Nodup) (hu : u ∈ ts) (hdrop : ∀ s, (closeTrack c k final u s).1 = none) :
    ∀ v ∈ ts', v.label ≠ u.label := by
  intro v hv hlabel
  obtain ⟨x, hx, s, w, hw, hvw⟩ := h.origin v hv
  have hwx := (closeTrack_keeps_place hw).1
  obtain rfl : x = u := List.inj_on_of_nodup_map hn hx hu (hwx.symm.trans (hvw.label.symm.trans hlabel))
  rw [hdrop s] at hw
  cases hw

/-- A TENTATIVE track stays, its accumulator cleared up to the bin closed (R70). -/
theorem tentative (hu : u ∈ ts) (ht : u.state.isTentative = true) : ∃ v ∈ ts', v.label = u.label ∧ v.state = u.state
    ∧ v.role = u.role ∧ v.acc = u.acc.filter fun a => decide (k < a.bin) := by
  obtain ⟨s, hs⟩ := h.made u hu
  have hkept (hfilter : (u.acc.filter fun a => decide (k < a.bin)) = u.acc)
      (hclose : closeTrack c k final u s = (some u, s)) : ∃ v ∈ ts', v.label = u.label ∧ v.state = u.state
        ∧ v.role = u.role ∧ v.acc = u.acc.filter fun a => decide (k < a.bin) := by
    obtain ⟨v, hv, hvw⟩ := hs u (by rw [hclose])
    rw [hfilter]
    exact ⟨v, hv, hvw.label, hvw.state, hvw.role, hvw.acc⟩
  cases ha : u.acc with
  | none =>
    rw [← ha]
    exact hkept (by rw [ha]; rfl) (closeTrack_tentative_empty ha ht)
  | some a =>
    by_cases hbin : a.bin ≤ k
    · obtain ⟨v, hv, hvw⟩ := hs _ (congrArg Prod.fst (closeTrack_clears ha hbin ht))
      rw [Option.filter_some, if_neg (by simpa using hbin)]
      exact ⟨v, hv, hvw.label, hvw.state, hvw.role, hvw.acc⟩
    · rw [← ha]
      exact hkept (by rw [ha, Option.filter_some, if_pos (by simpa using hbin)]) (closeTrack_later ha (not_le.1 hbin))

theorem coasts (hu : u ∈ ts) (ht : u.state.isTentative = false) (ha : u.acc = none)
    (hedge : xGateOf c u.missedBins < edgeDistance c u.lastX) (hlimit : u.missedBins + 1 ≤ c.coastLimit) :
    ∃ v ∈ ts', v.label = u.label ∧ v.state = .coasting ∧ v.missedBins = u.missedBins + 1 ∧ v.acc = none := by
  obtain ⟨s, hs⟩ := h.made u hu
  obtain ⟨v, hv, hvw⟩ := hs _ (congrArg Prod.fst (closeTrack_coasts ha ht hedge hlimit))
  have hafter := (finishRecord_after c (noSampleRecord final k u.coast) u.coast s).1
  exact ⟨v, hv, hvw.label.trans hafter.label, hvw.state.trans hafter.state, hvw.missedBins.trans hafter.missedBins,
    hvw.acc.trans (hafter.acc.trans ha)⟩

theorem recorded (hu : u ∈ ts) (ht : u.state.isTentative = false) (ha : u.acc = some a) (hbin : a.bin ≤ k) :
    ∃ v ∈ ts', v.label = u.label ∧ v.state = u.state ∧ v.missedBins = 0 ∧ v.acc = none := by
  obtain ⟨s, hs⟩ := h.made u hu
  obtain ⟨v, hv, hvw⟩ := hs _ (congrArg Prod.fst (closeTrack_records ha hbin ht))
  have hafter := (finishRecord_after c (fullRecord c final u.label a) { u with acc := none, missedBins := 0 } s).1
  exact ⟨v, hv, hvw.label.trans hafter.label, hvw.state.trans hafter.state, hvw.missedBins.trans hafter.missedBins,
    hvw.acc.trans hafter.acc⟩

/-- A track that gathers a later bin stays as it is (R67). -/
theorem later (hu : u ∈ ts) (ha : u.acc = some a) (hbin : k < a.bin) :
    ∃ v ∈ ts', v.label = u.label ∧ v.state = u.state ∧ v.role = u.role ∧ v.acc = some a := by
  obtain ⟨s, hs⟩ := h.made u hu
  obtain ⟨v, hv, hvw⟩ := hs u (congrArg Prod.fst (closeTrack_later ha hbin))
  exact ⟨v, hv, hvw.label, hvw.state, hvw.role, hvw.acc.trans ha⟩

end ClosedTracks

/-! ## The command -/

@[simp] theorem buildReport_rq (c : Settings) (k : Int) (s : State) : (buildReport c k s).rq = s.rq := by
  obtain ⟨hother, hrun⟩ := buildReport_spec c k s
  by_cases hn : s.rca.node = .running
  · rw [hrun hn, arbitrate_rq]; rfl
  · rw [hother hn]

@[simp] theorem buildReport_counters (c : Settings) (k : Int) (s : State) :
    (buildReport c k s).rca.counters = s.rca.counters := by
  obtain ⟨hother, hrun⟩ := buildReport_spec c k s
  by_cases hn : s.rca.node = .running
  · rw [hrun hn, arbitrate_counters]; rfl
  · rw [hother hn]

@[simp] theorem testDrainEnd_counters (s : State) : (testDrainEnd s).rca.counters = s.rca.counters :=
  congrArg (·.rca.counters) (testDrainEnd_frame s)

/-- A close of either kind leaves tracks, queue and counters as its first part does, but for the former labels that a report
clears (R125, R126). -/
theorem exec_close {e : Nat} {m : Instr} {rest : List Request}
    (hm : m = .binClose e ∧ final = false ∧ s.tt.requests = .binClose k :: rest
      ∨ m = .finalClose e ∧ final = true ∧ s.tt.requests = .finalClose k :: rest)
    (ho : s.tt.isOpen = true) (hc : s.settings = some c) (hb : dealWithTracks c k final (s.takeRequest e rest) = b) :
    ∃ t, exec m s = .next t
      ∧ t.tt.tracks = (if final = false ∧ s.rca.node = .running then b.tt.tracks.map fun u => { u with former := none }
        else b.tt.tracks)
      ∧ t.rq = b.rq ∧ t.rca.counters = b.rca.counters := by
  rcases hm with ⟨rfl, rfl, hr⟩ | ⟨rfl, rfl, hr⟩
  · have hnode : b.rca.node = s.rca.node := by
      rw [← hb]
      exact (dealWithTracks_spec (P := fun _ => True) c k false fun _ _ => ⟨fun _ _ _ => trivial, trivial⟩).1.1.node
    refine ⟨_, execBinClose_eq hr ho hc, ?_, ?_, ?_⟩
    · rw [binClose_tracks, binClosed, hb, buildReport_tracks, hnode]
      simp only [true_and]
    · exact (buildReport_rq c k _).trans (by rw [hb])
    · exact (buildReport_counters c k _).trans (by rw [hb])
  · refine ⟨_, execFinalClose_eq hr ho hc, ?_, ?_, ?_⟩
    · rw [finalClose_tracks, hb, if_neg (by simp)]
    · rw [testDrainEnd_rq, hb]; rfl
    · rw [testDrainEnd_counters, hb]; rfl

/-- Settles O24: the table after a close holds what the close makes of each track, and each case is a lemma on one track. -/
theorem tracksAtAClose : Obligations.TracksAtAClose := by
  constructor
  · intro e k m final rest c s hm ho hc sorted out
    obtain ⟨t, hexec, htracks, hrq, hcounters⟩ := exec_close hm ho hc rfl
    have hclosed : ClosedTracks c k final s.tt.tracks t.tt.tracks := by
      have hdealt := dealWithTracks_closed c k final (s.takeRequest e rest)
      rw [htracks]
      split
      · exact hdealt.clearFormer
      · exact hdealt
    refine ⟨t, hexec, sortBy_perm _ _, sortBy_sorted _ _, htracks, hrq, hcounters, fun hn => ⟨hclosed.keeps_place,
      fun u hu => ⟨hclosed.tentative hu, fun ht ha hedge => ?_, fun ht ha hlimit => ?_, hclosed.coasts hu,
        fun a => hclosed.recorded hu, fun a => hclosed.later hu⟩⟩⟩
    · exact hclosed.dropped hn hu fun s' => congrArg Prod.fst (closeTrack_exits ha ht hedge)
    · exact hclosed.dropped hn hu fun s' => congrArg Prod.fst (closeTrack_lost ha ht hlimit)
  · intro c k final u us v first coast
    exact ⟨rfl, closeTracks_cons_none, fun u' => closeTracks_cons_some, fun a => closeTrack_later,
      closeTrack_tentative_empty, fun a => closeTrack_clears, fun a => closeTrack_records, closeTrack_exits,
      closeTrack_lost, closeTrack_coasts⟩

end Sys2Proof.Machine

/-! The final close (R54, R119) and the end of the drain that it tests (R160, R164). -/

namespace Sys2Proof.Machine

variable {s s' a b t : State} {c : Settings} {k : Int} {final : Bool} {u v : Track}

/-! ## What only an entry sets off (R121, R129, R142) -/

/-- From `s` to `s'` records enter at the tail of the queue, and where none enters, the roof link, the pending STATUS and the
clear mask stay as they were. -/
def LinkWaitsForEntry (s s' : State) : Prop := ∃ new, s'.rq.records = s.rq.records ++ new
  ∧ (new = [] → s'.rlc = s.rlc ∧ s'.rca.status = s.rca.status ∧ s'.rca.clearMask = s.rca.clearMask)

namespace LinkWaitsForEntry

theorem of_same (hrq : s'.rq.records = s.rq.records) (hrlc : s'.rlc = s.rlc) (hstatus : s'.rca.status = s.rca.status)
    (hmask : s'.rca.clearMask = s.rca.clearMask) : LinkWaitsForEntry s s' :=
  ⟨[], by rw [hrq, List.append_nil], fun _ => ⟨hrlc, hstatus, hmask⟩⟩

theorem refl (s : State) : LinkWaitsForEntry s s := of_same rfl rfl rfl rfl

theorem trans (h : LinkWaitsForEntry a b) (h' : LinkWaitsForEntry b t) : LinkWaitsForEntry a t := by
  obtain ⟨new, hnew, hkept⟩ := h
  obtain ⟨new', hnew', hkept'⟩ := h'
  refine ⟨new ++ new', by rw [hnew', hnew, List.append_assoc], fun hnone => ?_⟩
  obtain ⟨hno, hno'⟩ := List.append_eq_nil_iff.1 hnone
  obtain ⟨hrlc, hstatus, hmask⟩ := hkept hno
  obtain ⟨hrlc', hstatus', hmask'⟩ := hkept' hno'
  exact ⟨hrlc'.trans hrlc, hstatus'.trans hstatus, hmask'.trans hmask⟩

theorem of_no_entry (h : LinkWaitsForEntry s s') (hrecords : s'.rq.records = s.rq.records) :
    s'.rlc = s.rlc ∧ s'.rca.status = s.rca.status ∧ s'.rca.clearMask = s.rca.clearMask := by
  obtain ⟨new, hnew, hkept⟩ := h
  exact hkept (List.append_right_eq_self.1 (hnew.symm.trans hrecords))

end LinkWaitsForEntry

theorem latchIf_linkWaitsForEntry (s : State) (b : Bool) (l : Latch) : LinkWaitsForEntry s (s.latchIf b l) := by
  cases b
  · exact .refl s
  · exact .of_same rfl rfl rfl rfl

theorem offer_linkWaitsForEntry (r : Record) (u : Track) (s : State) : LinkWaitsForEntry s (offer r u s).2 := by
  obtain ⟨-, h⟩ | ⟨-, -, h⟩ | ⟨-, -, -, h⟩ | ⟨-, -, -, h⟩ := offer_cases r u s <;> rw [h]
  · exact .of_same rfl rfl rfl rfl
  · exact .refl s
  · exact .of_same rfl rfl rfl rfl
  · refine ⟨[⟨u.entryOf r, s.now⟩], ?_, nofun⟩
    rw [testForm_records, Rq.records, Rq.records, List.append_assoc]
    rfl

theorem finishRecord_linkWaitsForEntry (c : Settings) (r : Record) (u : Track) (s : State) :
    LinkWaitsForEntry s (finishRecord c r u s).2 := by
  rw [finishRecord_snd]
  have hlatch : LinkWaitsForEntry s (s.latchRecord r) :=
    (latchIf_linkWaitsForEntry s _ _).trans (latchIf_linkWaitsForEntry _ _ _)
  refine hlatch.trans ?_
  by_cases ho : u.role = .owner
  · rw [route_of_owner ho]; exact offer_linkWaitsForEntry r u _
  · rw [route_of_not_owner ho]; exact .refl _

/-- Beyond its track a close does nothing but perhaps make a record (R67 to R70). -/
theorem closeTrack_snd (c : Settings) (k : Int) (final : Bool) (u : Track) (s : State) :
    (closeTrack c k final u s).2 = s ∨ ∃ r x, (closeTrack c k final u s).2 = (finishRecord c r x s).2 := by
  cases ha : u.acc with
  | some a =>
    by_cases hbin : a.bin ≤ k
    · cases ht : u.state.isTentative with
      | true => exact .inl (by rw [closeTrack_clears ha hbin ht])
      | false => exact .inr ⟨_, _, by rw [closeTrack_records ha hbin ht]⟩
    · exact .inl (by rw [closeTrack_later ha (not_le.1 hbin)])
  | none =>
    cases ht : u.state.isTentative with
    | true => exact .inl (by rw [closeTrack_tentative_empty ha ht])
    | false =>
      by_cases hedge : edgeDistance c u.lastX ≤ xGateOf c u.missedBins
      · exact .inl (by rw [closeTrack_exits ha ht hedge])
      · by_cases hlimit : c.coastLimit < u.missedBins + 1
        · exact .inl (by rw [closeTrack_lost ha ht hlimit])
        · exact .inr ⟨_, _, by rw [closeTrack_coasts ha ht (not_le.1 hedge) (not_lt.1 hlimit)]⟩

theorem closeTracks_linkWaitsForEntry (c : Settings) (k : Int) (final : Bool) (us : List Track) (s : State) :
    LinkWaitsForEntry s (closeTracks c k final us s).2 := by
  induction us generalizing s with
  | nil => exact .refl s
  | cons u us ih =>
    refine .trans ?_ (ih _)
    rcases closeTrack_snd c k final u s with h | ⟨r, x, h⟩ <;> rw [h]
    · exact .refl s
    · exact finishRecord_linkWaitsForEntry c r x s

/-! ## The tracks at a final close (R119) -/

/-- Without the release check no track changes role (R119). -/
theorem closeTrack_final_role (h : (closeTrack c k true u s).1 = some v) : v.role = u.role ∧ v.former = u.former := by
  obtain ⟨a, -, -, hmade⟩ | ⟨a, -, -, -, hmade⟩ | ⟨a, -, -, -, hmade⟩ | ⟨-, -, hmade⟩ | ⟨-, -, -, hmade⟩
    | ⟨-, -, -, -, r, hr, hmade⟩ := closeTrack_cases c k true u s <;> rw [hmade] at h <;> cases h
  · exact ⟨rfl, rfl⟩
  · exact ⟨rfl, rfl⟩
  · obtain ⟨hafter, hrole⟩ :=
      finishRecord_after c (fullRecord c true u.label a) { u with acc := none, missedBins := 0 } s
    exact ⟨hrole rfl, hafter.former⟩
  · exact ⟨rfl, rfl⟩
  · obtain ⟨hafter, hrole⟩ := finishRecord_after c r u.coast s
    exact ⟨hrole hr, hafter.former⟩

/-- Every record that a final close enters carries END (R119). -/
theorem dealWithTracks_final (c : Settings) (k : Int) (s : State) :
    TracksFootprint (fun q => q.record.final = true) s (dealWithTracks c k true s)
      ∧ ∀ v ∈ (dealWithTracks c k true s).tt.tracks, ∃ u ∈ s.tt.tracks, v.label = u.label ∧ v.role = u.role
        ∧ v.link = u.link ∧ v.former = u.former ∧ v.lastX = u.lastX ∧ v.lastZ = u.lastZ := by
  obtain ⟨hfoot, horigin, -⟩ := dealWithTracks_spec (P := fun q => q.record.final = true) (s := s) c k true
    fun _ _ => ⟨fun _ _ _ => rfl, rfl⟩
  refine ⟨hfoot, fun v hv => ?_⟩
  obtain ⟨u, hu, s', -, hmade⟩ := horigin v hv
  obtain ⟨hlabel, -, hx, hz, hlink, -⟩ := closeTrack_keeps_place hmade
  obtain ⟨hrole, hformer⟩ := closeTrack_final_role hmade
  exact ⟨u, hu, hlabel, hrole, hlink, hformer, hx, hz⟩

/-! ## The end of a drain (R160, R164) -/

theorem drainDone_iff (s : State) : drainDone s = true ↔ s.rca.node = .draining ∧ s.tt.isOpen = false ∧ s.rq.inFrame = []
    ∧ s.rq.queued = [] ∧ s.rlc.edgeSlot = none ∧ s.rlc.tx = .free ∧ drainEndPending s = false := by
  simp only [drainDone, Bool.and_eq_true, decide_eq_true_eq, Bool.not_eq_true', List.isEmpty_iff,
    Option.isNone_iff_eq_none, and_assoc]

/-- With the transmitter free and no EDGE frame waiting the arbiter chooses the pending STATUS (R142). -/
theorem arbitrate_status {p : PendingStatus} (htx : s.rlc.tx = .free) (hslot : s.rlc.edgeSlot = none)
    (hp : s.rca.status = some p) : arbitrate s = s.chooseStatus p := by
  simp only [arbitrate, htx, hslot, hp]

/-- With its conditions met the test sends the DRAINED STATUS into its attempt cycle and stops the drain timer (R143, R160). -/
theorem testDrainEnd_done (hdone : drainDone s = true) {d : Nat} (hd : drainDestination s = some d) :
    testDrainEnd s = { s with
      rlc := { s.rlc with
        tx := .busy (.status true)
          (frameProper d s.rca.slot .status (statusPayload (s.snapshot .drained))) 0 .deferring }
      rca := { s.rca with
        status := none, drainTimer := none, clearMask := 0, latches := s.rca.latches &&& ~~~s.rca.clearMask } } := by
  obtain ⟨-, -, -, -, hslot, htx, -⟩ := (drainDone_iff s).1 hdone
  simp only [testDrainEnd, hd, hdone, if_true]
  rw [arbitrate_status (by exact htx) (by exact hslot) rfl]
  rfl

theorem testDrainEnd_undone (h : drainDone s = false) : testDrainEnd s = arbitrate s := by
  rcases testDrainEnd_cases s with h' | ⟨d, -, hdone, -⟩
  · exact h'
  · rw [h] at hdone; cases hdone

theorem testDrainEnd_outside (h : s.rca.node ≠ .draining) : (testDrainEnd s).rca.drainTimer = s.rca.drainTimer := by
  rw [testDrainEnd_undone (Bool.eq_false_iff.2 fun hd => h ((drainDone_iff s).1 hd).1)]
  exact (arbitrate_footprint (fun _ => True) s).drainTimer

/-- In a run the destination is that of the pending STATUS, else the recording station (R164). -/
theorem drainDestination_run (hrun : s.rca.runSettings ≠ none) : ∃ d, drainDestination s = some d
    ∧ (∀ p, s.rca.status = some p → d = p.destination)
    ∧ (s.rca.status = none → ∀ r, s.rca.runSettings = some r → d = r.source) := by
  obtain ⟨r, hr⟩ := Option.ne_none_iff_exists'.1 hrun
  cases hp : s.rca.status with
  | none =>
    refine ⟨r.source, by simp only [drainDestination, hp, hr], nofun, fun _ r' hr' => ?_⟩
    rw [hr] at hr'; cases hr'; rfl
  | some p => exact ⟨p.destination, by simp only [drainDestination, hp], fun p' hp' => by cases hp'; rfl, nofun⟩

/-! ## The command -/

/-- A final close up to the test of the end of the drain (R54, R119). -/
def finalClosed (c : Settings) (k : Int) (s : State) : State :=
  (exposureStep c (dealWithTracks c k true s)).served.closeTable

/-- What a final close has left when the end of the drain is tested. -/
structure FinalClosed (s : State) (e : Nat) (u : State) : Prop where
  pending : u.pending = s.pending
  now : u.now = s.now + e
  du : u.du = s.du
  wau : u.wau = s.wau
  siu : u.siu = { s.siu with level := u.siu.level, drift := u.siu.drift, word := u.siu.word, wordDue := u.siu.wordDue
                             associated := 0, saturated := 0, weak := 0, settled := false }
  tt : u.tt = { s.tt with isOpen := false, requests := [], serving := none, tracks := u.tt.tracks }
  rq : u.rq = { s.rq with inFrame := u.rq.inFrame, queued := u.rq.queued }
  rlc : u.rlc = { s.rlc with tx := u.rlc.tx, edgeSlot := u.rlc.edgeSlot }
  rca : u.rca = { s.rca with latches := u.rca.latches, clearMask := u.rca.clearMask, status := u.rca.status
                             counters := u.rca.counters, alert := u.rca.alert }
  counters : u.rca.counters = { s.rca.counters with lostBins := u.rca.counters.lostBins
                                                    drainLoss := u.rca.counters.drainLoss }
  records : ∃ new, u.rq.records = s.rq.records ++ new ∧ ∀ q ∈ new, q.record.final = true
  link : LinkWaitsForEntry s u
  tracks : ∀ v ∈ u.tt.tracks, ∃ x ∈ s.tt.tracks, v.label = x.label ∧ v.role = x.role ∧ v.link = x.link
    ∧ v.former = x.former ∧ v.lastX = x.lastX ∧ v.lastZ = x.lastZ

theorem finalClosed_spec (c : Settings) (k : Int) (s : State) (e : Nat) (rest : List Request) :
    FinalClosed s e (finalClosed c k (s.takeRequest e rest)) := by
  obtain ⟨⟨hqueue, htt⟩, htracks⟩ := dealWithTracks_final c k (s.takeRequest e rest)
  have hlink : LinkWaitsForEntry s (dealWithTracks c k true (s.takeRequest e rest)) :=
    closeTracks_linkWaitsForEntry c k true _ (s.takeRequest e rest)
  unfold finalClosed
  generalize dealWithTracks c k true (s.takeRequest e rest) = b at *
  have hsiu : b.siu = s.siu := hqueue.siu
  refine ⟨hqueue.pending, hqueue.now, hqueue.du, hqueue.wau, ?_, ?_, hqueue.rq_frame, hqueue.rlc_frame, hqueue.rca_frame,
    hqueue.counters, hqueue.records, hlink, htracks⟩
  · rw [← hsiu]
    exact congrArg (·.siu) (exposureStep_frame c b)
  · show { b.tt with serving := none, isOpen := false, requests := [] } = _
    rw [htt]
    rfl

namespace FinalClosed

variable {e : Nat} {m : State} (h : FinalClosed s e m)
include h

/-- With the queue empty nothing entered, so the end of the drain is decided by how the command found the link (R160). -/
theorem drainDone_of_empty (hdrain : s.rca.node = .draining) (hslot : s.rlc.edgeSlot = none) (htx : s.rlc.tx = .free)
    (hpending : drainEndPending s = false) (hin : m.rq.inFrame = []) (hq : m.rq.queued = []) :
    drainDone m = true ∧ m.rlc = s.rlc ∧ m.rca.status = s.rca.status := by
  have hempty : m.rq.records = [] := by rw [Rq.records, hin, hq]; rfl
  obtain ⟨new, hnew, -⟩ := h.records
  obtain ⟨hs, -⟩ := List.append_eq_nil_iff.1 (hnew.symm.trans hempty)
  obtain ⟨hrlc, hstatus, -⟩ := h.link.of_no_entry (hempty.trans hs.symm)
  refine ⟨(drainDone_iff m).2 ⟨by rw [h.rca]; exact hdrain, by rw [h.tt], hin, hq, by rw [hrlc]; exact hslot,
    by rw [hrlc]; exact htx, ?_⟩, hrlc, hstatus⟩
  rw [drainEndPending, hstatus]
  exact hpending

end FinalClosed

/-- Settles O28: the close leaves what `FinalClosed` says, and the test of the end of the drain comes last. -/
theorem finalClose : Obligations.FinalClose := by
  intro e k rest c s hr ho hc
  have hclosed := finalClosed_spec c k s e rest
  have hexec : exec (.finalClose e) s = .next (testDrainEnd (finalClosed c k (s.takeRequest e rest))) :=
    execFinalClose_eq hr ho hc
  generalize finalClosed c k (s.takeRequest e rest) = m at hclosed hexec
  have hframe := testDrainEnd_frame m
  have hnode : m.rca.node = s.rca.node := by rw [hclosed.rca]
  refine ⟨_, hexec, ?_, ?_, ?_, ?_, ?_, ?_, ?_, ?_, ?_, ?_, ?_, ?_, m, rfl, (testDrainEnd_tt m).symm,
    (testDrainEnd_rq m).symm, (testDrainEnd_siu m).symm, ?_, hclosed.rlc, fun hrecords => ?_,
    fun hdrain hslot htx hpending hin hq => ?_, fun hdrain => ?_⟩
  · rw [hframe]; exact hclosed.pending
  · rw [hframe]; exact hclosed.now
  · rw [testDrainEnd_du]; exact hclosed.du
  · rw [hframe]; exact hclosed.wau
  · rw [testDrainEnd_siu]; exact hclosed.siu
  · rw [testDrainEnd_tt]; exact hclosed.tt
  · rw [testDrainEnd_rq]; exact hclosed.rq
  · rw [hframe, hclosed.rlc]
  · rw [hframe, hclosed.rca]
  · rw [testDrainEnd_counters]; exact hclosed.counters
  · rw [testDrainEnd_rq]; exact hclosed.records
  · rw [testDrainEnd_tt]; exact hclosed.tracks
  · rw [hframe]; exact hclosed.rca
  · rw [testDrainEnd_rq] at hrecords
    exact hclosed.link.of_no_entry hrecords
  · rw [testDrainEnd_rq] at hin hq
    obtain ⟨hdone, hrlc, hstatus⟩ := hclosed.drainDone_of_empty hdrain hslot htx hpending hin hq
    have hrun : m.rca.runSettings = s.rca.runSettings := by rw [hclosed.rca]
    have hslot' : m.rca.slot = s.rca.slot := by rw [hclosed.rca]
    obtain ⟨d, hd, hpend, hstation⟩ := drainDestination_run (s := m) (by
      rw [hrun]
      rintro hnone
      rw [State.settings, hnone] at hc
      cases hc)
    rw [hrun, hstatus] at hstation
    rw [hstatus] at hpend
    rw [testDrainEnd_done hdone hd, ← hslot']
    exact ⟨rfl, rfl, rfl, by rw [← hslot, ← hrlc], d, rfl, hpend, hstation⟩
  · rw [testDrainEnd_outside (by rw [hnode]; exact hdrain), hclosed.rca]

end Sys2Proof.Machine

/-! Which commands leave run control alone: node state, both copies of the settings and every heartbeat, neighbour and drain timer
stay as they are, and no drain-end STATUS comes up (R97, R147, R156 to R160). -/

namespace Sys2Proof.Machine

variable {P : QueuedRecord → Prop} {s s' t a b d : State} {e : Nat}

/-- The drain-end STATUS is in its attempt cycle (R160). -/
def State.endsDrain (s : State) : Prop := ∃ bytes n p, s.rlc.tx = .busy (.status true) bytes n p

/-- From `s` to `t` nothing changes of what the law of run control speaks of, but that a STATUS other than the drain-end STATUS may
come and go, and a frame may leave its cycle for another. -/
structure ControlKept (s t : State) : Prop where
  node : t.rca.node = s.rca.node
  pendingSettings : t.rca.pendingSettings = s.rca.pendingSettings
  runSettings : t.rca.runSettings = s.rca.runSettings
  drainTimer : t.rca.drainTimer = s.rca.drainTimer
  heartbeat : t.rlc.heartbeat = s.rlc.heartbeat
  life : ∀ side, t.rlc.life side = s.rlc.life side
  drainEnd : drainEndPending s = false → drainEndPending t = false ∧ (t.endsDrain → s.endsDrain)

namespace ControlKept

theorem refl (s : State) : ControlKept s s := ⟨rfl, rfl, rfl, rfl, rfl, fun _ => rfl, fun h => ⟨h, id⟩⟩

theorem trans (h : ControlKept a b) (h' : ControlKept b d) : ControlKept a d where
  node := h'.node.trans h.node
  pendingSettings := h'.pendingSettings.trans h.pendingSettings
  runSettings := h'.runSettings.trans h.runSettings
  drainTimer := h'.drainTimer.trans h.drainTimer
  heartbeat := h'.heartbeat.trans h.heartbeat
  life := fun side => (h'.life side).trans (h.life side)
  drainEnd := fun hpending => by
    obtain ⟨hb, hcycle⟩ := h.drainEnd hpending
    obtain ⟨hd, hcycle'⟩ := h'.drainEnd hb
    exact ⟨hd, hcycle ∘ hcycle'⟩

/-- Of the RLC at most carrier, reception and the time of the last quiet change, of the RCA at most latches, counters and the alert
pulse. -/
theorem of_frame
    (hrlc : t.rlc = { s.rlc with carrier := t.rlc.carrier, reception := t.rlc.reception, lastQuiet := t.rlc.lastQuiet })
    (hrca : t.rca = { s.rca with latches := t.rca.latches, counters := t.rca.counters, alert := t.rca.alert }) :
    ControlKept s t where
  node := by rw [hrca]
  pendingSettings := by rw [hrca]
  runSettings := by rw [hrca]
  drainTimer := by rw [hrca]
  heartbeat := by rw [hrlc]
  life := fun side => by cases side <;> rw [hrlc] <;> rfl
  drainEnd := fun hpending => ⟨by rw [drainEndPending, hrca]; exact hpending, by rw [State.endsDrain, hrlc]; exact id⟩

/-- What comes before keeps to such a frame. -/
theorem after (h : ControlKept b d)
    (hrlc : b.rlc = { a.rlc with carrier := b.rlc.carrier, reception := b.rlc.reception, lastQuiet := b.rlc.lastQuiet })
    (hrca : b.rca = { a.rca with latches := b.rca.latches, counters := b.rca.counters, alert := b.rca.alert }) :
    ControlKept a d := (of_frame hrlc hrca).trans h

/-- The transmitter goes on with the same frame, or is set free. -/
theorem withTx {x : Transmitter} (h : ∀ bytes n p, x = .busy (.status true) bytes n p → s.endsDrain) :
    ControlKept s (s.withTx x) :=
  ⟨rfl, rfl, rfl, rfl, rfl, fun side => by cases side <;> rfl, fun hpending => ⟨hpending, fun ⟨_, _, _, hx⟩ => h _ _ _ hx⟩⟩

theorem withTx_free (s : State) : ControlKept s (s.withTx .free) := withTx nofun

/-- The frame in its cycle changes its phase or its attempt count. -/
theorem withTx_same {source : FrameSource} {bytes : List Byte} {n : Nat} {p : TxPhase}
    (h : s.rlc.tx = .busy source bytes n p) (bytes' : List Byte) (n' : Nat) (p' : TxPhase) :
    ControlKept s (s.withTx (.busy source bytes' n' p')) :=
  withTx fun _ _ _ hx => by cases hx; exact ⟨_, _, _, h⟩

/-- An EDGE frame is put into the slot or taken from it. -/
theorem withEdgeSlot (s : State) (x : Option EdgeFrame) : ControlKept s (s.withRlc { s.rlc with edgeSlot := x }) :=
  ⟨rfl, rfl, rfl, rfl, rfl, fun side => by cases side <;> rfl, fun hpending => ⟨hpending, id⟩⟩

end ControlKept

theorem elapse_controlKept (s : State) (e : Nat) : ControlKept s (s.elapse e) := .of_frame rfl rfl

theorem QueueFootprint.controlKept (h : QueueFootprint P s s') : ControlKept s s' where
  node := h.node
  pendingSettings := h.pendingSettings
  runSettings := h.runSettings
  drainTimer := h.drainTimer
  heartbeat := h.heartbeat
  life := fun side => by
    cases side
    · exact h.leftLife
    · exact h.rightLife
  drainEnd := fun hpending => by
    obtain ⟨hpending', hcycle⟩ := h.drainEnd hpending
    exact ⟨hpending', fun ⟨_, _, _, hx⟩ => ⟨_, _, _, hcycle _ _ _ hx⟩⟩

theorem TracksFootprint.controlKept (h : TracksFootprint P s s') : ControlKept s s' := h.1.controlKept.trans (.of_frame rfl rfl)

theorem PassFootprint.controlKept (h : PassFootprint P s s') : ControlKept s s' :=
  h.queue.controlKept.trans (.of_frame rfl rfl)

theorem arbitrate_controlKept (s : State) : ControlKept s (arbitrate s) := (arbitrate_footprint (fun _ => True) s).controlKept

theorem testForm_controlKept (s : State) : ControlKept s (testForm s) := (testForm_footprint (fun _ => True) s).controlKept

theorem placeEdge_controlKept (s : State) (x : EdgeFrame) : ControlKept s (s.placeEdge x) :=
  (ControlKept.withEdgeSlot s _).trans (arbitrate_controlKept _)

/-! ## The sensor port (R15 to R24) -/

theorem beginMessage_controlKept (s : State) : ControlKept s (beginMessage s) := by
  unfold beginMessage
  split
  · exact .of_frame rfl rfl
  · split
    · exact .of_frame rfl rfl
    · simp only
      split <;> exact .of_frame rfl rfl

theorem continuityCheck_controlKept (bytes : List Byte) (s : State) : ControlKept s (continuityCheck bytes s) := by
  rw [continuityCheck_frame]
  exact .of_frame rfl rfl

theorem takeMessage_controlKept (c : Settings) (p : PageId) (bytes : List Byte) (s : State) :
    ControlKept s (takeMessage c p bytes s) := by
  unfold takeMessage
  split
  · exact (continuityCheck_controlKept bytes _).after rfl rfl
  · exact (continuityCheck_controlKept bytes s).trans (.of_frame rfl rfl)

theorem endMessage_controlKept {bytes : List Byte} (hstep : endMessage bytes s = .next t) : ControlKept s t := by
  have hidle : ControlKept s s.portIdle := .of_frame rfl rfl
  unfold endMessage at hstep
  split at hstep
  · cases hstep
  · cases hstep
  · cases hstep
    split
    · exact hidle.trans (continuityCheck_controlKept _ _)
    · exact hidle
  · split at hstep
    · split at hstep <;> cases hstep
      exact hidle.trans (takeMessage_controlKept _ _ _ _)
    · cases hstep
      exact .of_frame rfl rfl

theorem execScanMessageBegin_controlKept (hstep : execScanMessageBegin e s = .next t) : ControlKept s t := by
  unfold execScanMessageBegin at hstep
  split at hstep <;> cases hstep
  exact (elapse_controlKept s e).trans (beginMessage_controlKept _)

theorem execScanMessageSilence_controlKept {bytes : List Byte} (hstep : execScanMessageSilence e bytes s = .next t) :
    ControlKept s t := by
  unfold execScanMessageSilence at hstep
  split at hstep
  · cases hstep; exact .of_frame rfl rfl
  all_goals exact (elapse_controlKept s e).trans (endMessage_controlKept hstep)

theorem execExposureWordSent_controlKept (hstep : execExposureWordSent e s = .next t) : ControlKept s t := by
  unfold execExposureWordSent at hstep
  split at hstep <;> cases hstep
  exact .of_frame rfl rfl

theorem execEndMarkAfterReset_controlKept (hstep : execEndMarkAfterReset e s = .next t) : ControlKept s t := by
  unfold execEndMarkAfterReset at hstep
  split at hstep <;> cases hstep
  exact .of_frame rfl rfl

/-! ## The Distance Unit (R32 to R40) -/

theorem postClose_controlKept (k : Int) (s : State) : ControlKept s (postClose k s) := by
  rcases postClose_cases k s with ⟨-, h⟩ | h <;> rw [h] <;> exact .of_frame rfl rfl

theorem takeQuarter_controlKept {line : OdoLine} (hstep : takeQuarter line s = .next t) : ControlKept s t := by
  have hcounted (u : Du) : ControlKept s (s.withDu u) := .of_frame rfl rfl
  unfold takeQuarter at hstep
  split at hstep
  · split at hstep <;> cases hstep
    split
    · exact (hcounted _).trans (postClose_controlKept _ _)
    · exact hcounted _
  · cases hstep
    exact hcounted _

theorem takeEdges_controlKept {g : EdgeGroup} (hstep : takeEdges e g s = .next t) : ControlKept s t := by
  have hresolved : ControlKept s (s.resolveAt e) := .of_frame rfl rfl
  unfold takeEdges at hstep
  simp only at hstep
  split at hstep
  · cases hstep
  · split at hstep
    · cases hstep; exact hresolved
    · exact hresolved.trans (takeQuarter_controlKept hstep)
    · cases hstep
      unfold takeIllegal State.latchIf
      split <;> exact .of_frame rfl rfl

/-! ## Requests of the track table (R52 to R56, R78, R96, R124, R125) -/

theorem takeRequest_controlKept (s : State) (e : Nat) (rest : List Request) : ControlKept s (s.takeRequest e rest) :=
  .of_frame rfl rfl

theorem served_controlKept (s : State) : ControlKept s s.served := .of_frame rfl rfl

theorem dealWithTracks_controlKept (c : Settings) (k : Int) (final : Bool) (s : State) :
    ControlKept s (dealWithTracks c k final s) :=
  (dealWithTracks_spec (P := fun _ => True) c k final fun _ _ => ⟨fun _ _ _ => trivial, trivial⟩).1.controlKept

theorem buildReport_controlKept (c : Settings) (k : Int) (s : State) : ControlKept s (buildReport c k s) := by
  unfold buildReport
  split
  · exact (placeEdge_controlKept _ _).after rfl rfl
  · exact .refl s

theorem exposureStep_controlKept (c : Settings) (s : State) : ControlKept s (exposureStep c s) := .of_frame rfl rfl

theorem execScanPass_controlKept (hstep : execScanPass e s = .next t) : ControlKept s t := by
  obtain ⟨p, rest, c, scan, -, -, -, -, rfl⟩ := execScanPass_next hstep
  exact ((takeRequest_controlKept s e rest).trans (runPass_footprint c scan _).controlKept).trans (.of_frame rfl rfl)

theorem execBinClose_controlKept (hstep : execBinClose e s = .next t) : ControlKept s t := by
  obtain ⟨k, rest, c, -, -, -, rfl⟩ := execBinClose_next hstep
  have hdealt := (takeRequest_controlKept s e rest).trans (dealWithTracks_controlKept c k false _)
  exact ((hdealt.trans (buildReport_controlKept c k _)).trans (exposureStep_controlKept c _)).trans (served_controlKept _)

theorem applyEdge_controlKept (c : Settings) (side : Side) (report : EdgeReport) (s : State) :
    ControlKept s (applyEdge c side report s) := by
  have hcentre : ControlKept s (s.takeCentre side report) := .of_frame rfl rfl
  cases hnames : headerNames s.rca.slot side report with
  | false => rw [applyEdge_mismatch hnames]; exact .of_frame rfl rfl
  | true =>
    cases hbeat : report.heartbeat with
    | true => rw [applyEdge_heartbeat hnames hbeat]; exact hcentre
    | false =>
      rw [applyEdge_close hnames hbeat]
      exact hcentre.trans (closeApplied_spec c side report _).1.controlKept

theorem applyMark_controlKept (c : Settings) (number : Nat) (type : Option Nat) (s : State) :
    ControlKept s (applyMark c number type s) := by
  unfold applyMark
  simp only
  split
  · split <;> exact .of_frame rfl rfl
  · exact .of_frame rfl rfl

theorem dissolveAll_controlKept (places : List Nat) (s : State) :
    ControlKept s (places.foldl (fun s i => s.updateTrack i dissolve) s) := by
  induction places generalizing s with
  | nil => exact .refl s
  | cons i places ih =>
    have hone : TracksFootprint (fun _ => True) s (s.updateTrack i dissolve) :=
      (updateTrack_spec fun _ _ => dissolve_footprint fun _ _ _ _ => trivial).1
    exact hone.controlKept.trans (ih _)

theorem execEdgeApplication_controlKept (hstep : execEdgeApplication e s = .next t) : ControlKept s t := by
  obtain ⟨side, report, rest, c, -, rfl⟩ := execEdgeApplication_next hstep
  exact ((takeRequest_controlKept s e rest).trans (applyEdge_controlKept c side report _)).trans (served_controlKept _)

theorem execMarkApplication_controlKept (hstep : execMarkApplication e s = .next t) : ControlKept s t := by
  obtain ⟨number, type, rest, c, -, rfl⟩ := execMarkApplication_next hstep
  exact ((takeRequest_controlKept s e rest).trans (applyMark_controlKept c number type _)).trans (served_controlKept _)

theorem execNeighbourLostApplication_controlKept (hstep : execNeighbourLostApplication e s = .next t) : ControlKept s t := by
  obtain ⟨side, rest, -, rfl⟩ := execNeighbourLostApplication_next hstep
  exact ((takeRequest_controlKept s e rest).trans (dissolveAll_controlKept _ _)).trans (served_controlKept _)

/-! ## The roof link (R130, R131, R137 to R141) -/

theorem stopDriving_controlKept (s : State) : ControlKept s s.stopDriving := by
  unfold State.stopDriving
  split <;> exact .of_frame rfl rfl

theorem spellBegins_controlKept (s : State) (usable : Bool) : ControlKept s (s.spellBegins usable) := by
  unfold State.spellBegins
  split <;> exact .of_frame rfl rfl

theorem spellBegins_tx (s : State) (usable : Bool) : (s.spellBegins usable).rlc.tx = s.rlc.tx := by
  unfold State.spellBegins
  split <;> rfl

theorem collide_controlKept {source : FrameSource} {bytes : List Byte} {n : Nat} {p : TxPhase}
    (h : s.rlc.tx = .busy source bytes n p) : ControlKept s (collide source bytes n s) :=
  (spellBegins_controlKept s false).trans (.withTx_same ((spellBegins_tx s false).trans h) _ _ _)

theorem execCollision_controlKept (hstep : execCollision e s = .next t) : ControlKept s t := by
  unfold execCollision at hstep
  simp only at hstep
  split at hstep
  · rename_i htx
    split at hstep <;> cases hstep
    exact (elapse_controlKept s e).trans (collide_controlKept htx)
  all_goals cases hstep

theorem execBackoffEnd_controlKept (hstep : execBackoffEnd e s = .next t) : ControlKept s t := by
  unfold execBackoffEnd at hstep
  simp only at hstep
  split at hstep
  · rename_i htx
    split at hstep <;> cases hstep
    exact (elapse_controlKept s e).trans (.withTx_same htx _ _ _)
  all_goals cases hstep

theorem execBusJam_controlKept (hstep : execBusJam e s = .next t) : ControlKept s t := by
  unfold execBusJam at hstep
  simp only at hstep
  split at hstep
  · cases hstep
  · split at hstep
    · cases hstep
    · split at hstep <;> cases hstep
      exact .of_frame rfl rfl

theorem execMediumQuiet_controlKept (hstep : execMediumQuiet e s = .next t) : ControlKept s t := by
  unfold execMediumQuiet at hstep
  split at hstep
  · cases hstep
  · split at hstep <;> cases hstep
    exact .of_frame rfl rfl

theorem execCarrierAppears_controlKept (hstep : execCarrierAppears e s = .next t) : ControlKept s t := by
  have helapsed := elapse_controlKept s e
  unfold execCarrierAppears at hstep
  simp only at hstep
  split at hstep
  · cases hstep
  · split at hstep <;> cases hstep
    · rename_i htx
      split
      · exact helapsed.trans (collide_controlKept htx)
      · exact helapsed.trans (spellBegins_controlKept _ _)
    all_goals exact helapsed.trans (spellBegins_controlKept _ _)

theorem execRecordAgeExpiry_controlKept (hstep : execRecordAgeExpiry e s = .next t) : ControlKept s t := by
  unfold execRecordAgeExpiry at hstep
  simp only at hstep
  split at hstep
  · cases hstep
  · split at hstep <;> cases hstep
    exact (elapse_controlKept s e).trans (testForm_controlKept _)
  · cases hstep

theorem execHoldPeriodEnd_controlKept (hstep : execHoldPeriodEnd e s = .next t) : ControlKept s t := by
  obtain ⟨-, -, -, hgo⟩ := onExpiry_next hstep
  cases hgo
  exact (testForm_controlKept _).after rfl rfl

theorem execAlertPulseEnd_controlKept (hstep : execAlertPulseEnd e s = .next t) : ControlKept s t := by
  obtain ⟨-, -, -, hgo⟩ := onExpiry_next hstep
  cases hgo
  exact .of_frame rfl rfl

theorem execReceptionBegin_controlKept {event : ReceptionEvent} (hstep : execReceptionBegin event s = .next t) :
    ControlKept s t := by
  unfold execReceptionBegin at hstep
  split at hstep
  · cases hstep
  · split at hstep
    · cases hstep
    · split at hstep <;> cases hstep
      exact .of_frame rfl rfl

/-! ## The commands -/

/-- The commands that may change the node state, the settings or a timer, or at which the end of a drain is tested (R94, R95,
R147, R158 to R162). -/
def touchesControl : Instr → Bool
  | .powerOnReset .. | .finalClose _ | .attemptBegin _ | .jamEnd .. | .frameSent _ | .heartbeatTimerExpiry _
  | .frameReceived .. | .neighbourTimerExpiry .. | .runStart _ | .enterDraining _ | .drainLimit _ => true
  | _ => false

theorem exec_controlKept {i : Instr} (hi : touchesControl i = false) (hstep : exec i s = .next t) : ControlKept s t := by
  cases i with
  | scanMessageBegin => exact execScanMessageBegin_controlKept hstep
  | scanMessageEnd e => exact (elapse_controlKept s e).trans (endMessage_controlKept hstep)
  | scanMessageSilence => exact execScanMessageSilence_controlKept hstep
  | exposureWordSent => exact execExposureWordSent_controlKept hstep
  | odometerTransition => exact takeEdges_controlKept hstep
  | illegalTransition => exact takeEdges_controlKept hstep
  | scanPass => exact execScanPass_controlKept hstep
  | binClose => exact execBinClose_controlKept hstep
  | edgeApplication => exact execEdgeApplication_controlKept hstep
  | markApplication => exact execMarkApplication_controlKept hstep
  | neighbourLostApplication => exact execNeighbourLostApplication_controlKept hstep
  | collision => exact execCollision_controlKept hstep
  | backoffEnd => exact execBackoffEnd_controlKept hstep
  | busJam => exact execBusJam_controlKept hstep
  | receptionBegin => exact execReceptionBegin_controlKept hstep
  | recordAgeExpiry => exact execRecordAgeExpiry_controlKept hstep
  | holdPeriodEnd => exact execHoldPeriodEnd_controlKept hstep
  | alertPulseEnd => exact execAlertPulseEnd_controlKept hstep
  | mediumQuiet => exact execMediumQuiet_controlKept hstep
  | carrierAppears => exact execCarrierAppears_controlKept hstep
  | endMarkAfterReset => exact execEndMarkAfterReset_controlKept hstep
  | _ => cases hi

end Sys2Proof.Machine

/-! The law of run control over a whole step (O55): what a change of node state, settings or timers does to it, and each command that
makes one. -/

namespace Sys2Proof.Machine

variable {s t : State} {e : Nat}

/-! ## The law by its parts -/

/-- The settings that the node state needs are there and sound (R156, R158, R162), each timer runs in its node state alone (R97,
R147, R159), and the drain-end STATUS never waits and is in its cycle only at the end of a drain (R160). -/
structure ControlSound (s : State) : Prop where
  pendingSound : ∀ r ∈ s.rca.pendingSettings, SettingsSound r.settings
  runSound : ∀ r ∈ s.rca.runSettings, SettingsSound r.settings
  configured : s.rca.node ≠ .unconfigured → s.rca.pendingSettings ≠ none
  inForce : s.rca.node = .running ∨ s.rca.node = .draining → s.rca.runSettings ≠ none
  heartbeat : s.rlc.heartbeat ≠ none → s.rca.node = .running
  life : ∀ side, ∀ l ∈ s.rlc.life side, l.timer ≠ none → s.rca.node = .running
  drainTimer : s.rca.drainTimer ≠ none → s.rca.node = .draining
  drainEnd : drainEndPending s = false
  cycle : s.endsDrain → s.rca.node = .draining ∧ s.rca.drainTimer = none

theorem cycle_iff (s : State) : (s.endsDrain → s.rca.node = .draining ∧ s.rca.drainTimer = none) ↔
    (match s.rlc.tx with
      | .busy (.status true) _ _ _ => s.rca.node = .draining ∧ s.rca.drainTimer = none
      | _ => True) := by
  unfold State.endsDrain
  split
  · rename_i htx
    exact ⟨fun h => h ⟨_, _, _, htx⟩, fun h _ => h⟩
  · rename_i htx
    exact ⟨fun _ => trivial, fun _ ⟨_, _, _, h⟩ => absurd h (htx _ _ _)⟩

theorem controlSound_iff : RunSound s ∧ TimersSound s ↔ ControlSound s := by
  constructor
  · rintro ⟨⟨hpending, hrun, hconfigured, hforce⟩, hbeat, hleft, hright, hdrain, hend, hcycle⟩
    exact ⟨hpending, hrun, hconfigured, hforce, hbeat, fun side => by cases side <;> assumption, hdrain, hend,
      (cycle_iff s).2 hcycle⟩
  · rintro ⟨hpending, hrun, hconfigured, hforce, hbeat, hlife, hdrain, hend, hcycle⟩
    exact ⟨⟨hpending, hrun, hconfigured, hforce⟩, hbeat, hlife .left, hlife .right, hdrain, hend, (cycle_iff s).1 hcycle⟩

theorem ControlKept.sound (h : ControlKept s t) (hs : ControlSound s) : ControlSound t := by
  obtain ⟨hpending, hcycle⟩ := h.drainEnd hs.drainEnd
  refine ⟨?_, ?_, ?_, ?_, ?_, ?_, ?_, hpending, ?_⟩
  · rw [h.pendingSettings]; exact hs.pendingSound
  · rw [h.runSettings]; exact hs.runSound
  · rw [h.node, h.pendingSettings]; exact hs.configured
  · rw [h.node, h.runSettings]; exact hs.inForce
  · rw [h.node, h.heartbeat]; exact hs.heartbeat
  · intro side; rw [h.node, h.life]; exact hs.life side
  · rw [h.node, h.drainTimer]; exact hs.drainTimer
  · rw [h.node, h.drainTimer]; exact hs.cycle ∘ hcycle

/-! ## State operations -/

namespace ControlSound

/-- What is no business of run control may change. -/
theorem of_frame (h : ControlSound s)
    (hrlc : t.rlc = { s.rlc with carrier := t.rlc.carrier, reception := t.rlc.reception, lastQuiet := t.rlc.lastQuiet })
    (hrca : t.rca = { s.rca with latches := t.rca.latches, counters := t.rca.counters, alert := t.rca.alert }) :
    ControlSound t := (ControlKept.of_frame hrlc hrca).sound h

variable (h : ControlSound s)
include h

/-- A pending STATUS that is not the drain-end STATUS (R164). -/
theorem withStatus (result : StatusResult) (destination : Nat) :
    ControlSound (s.withRca { s.rca with status := some ⟨result, destination, false⟩ }) :=
  { h with drainEnd := rfl }

theorem statusFor (result : StatusResult) (destination : Nat) : ControlSound (s.statusFor result destination) := by
  rw [State.statusFor, h.drainEnd]
  exact (arbitrate_controlKept _).sound (h.withStatus result destination)

/-- The drain timer stops (R133). -/
theorem stopDrainTimer : ControlSound (s.withRca { s.rca with drainTimer := none }) :=
  { h with
    drainTimer := fun hne => absurd rfl hne
    cycle := fun hcycle => ⟨(h.cycle hcycle).1, rfl⟩ }

/-- At the end of a drain the DRAINED STATUS enters its cycle at once, and the drain timer has stopped (R160). -/
theorem testDrainEnd : ControlSound (testDrainEnd s) := by
  rcases testDrainEnd_cases s with htest | ⟨d, hd, hdone, -⟩
  · rw [htest]
    exact (arbitrate_controlKept s).sound h
  · obtain ⟨hnode, -, -, -, -, -, -⟩ := (drainDone_iff s).1 hdone
    rw [testDrainEnd_done hdone hd]
    exact
      { h with
        life := fun side => by cases side; exacts [h.life .left, h.life .right]
        drainTimer := fun hne => absurd rfl hne
        drainEnd := rfl
        cycle := fun _ => ⟨hnode, rfl⟩ }

/-- With the end of its drain the node enters READY (R160). -/
theorem statusEnded {drainEnd : Bool} (hfree : s.rlc.tx = .free)
    (hend : drainEnd = true → s.rca.node = .draining ∧ s.rca.drainTimer = none) : ControlSound (s.statusEnded drainEnd) := by
  cases drainEnd with
  | false => exact h
  | true =>
    obtain ⟨hnode, htimer⟩ := hend rfl
    have hidle : s.rca.node ≠ .running := by rw [hnode]; decide
    exact
      { h with
        configured := fun _ => h.configured (by rw [hnode]; decide)
        inForce := nofun
        heartbeat := fun hne => absurd (h.heartbeat hne) hidle
        life := fun side l hl hne => absurd (h.life side l hl hne) hidle
        drainTimer := fun hne => absurd htimer hne
        cycle := fun ⟨_, _, _, hbusy⟩ => by
          have hbusy : s.rlc.tx = _ := hbusy
          rw [hfree] at hbusy
          cases hbusy }

/-- The heartbeat timer runs in RUNNING (R147). -/
theorem withHeartbeat (hrun : s.rca.node = .running) (ends : Nat) :
    ControlSound (s.withRlc { s.rlc with heartbeat := some ends }) :=
  { h with
    heartbeat := fun _ => hrun
    life := fun side => by cases side; exacts [h.life .left, h.life .right] }

/-- The liveness of a side changes: its timer runs in RUNNING alone (R94, R95). -/
theorem setLife (side : Side) {l : Liveness} (hl : l.timer ≠ none → s.rca.node = .running) :
    ControlSound (s.withRlc (s.rlc.setLife side (some l))) := by
  have hnew : ∀ l' ∈ some l, l'.timer ≠ none → s.rca.node = .running := fun l' hl' => by cases hl'; exact hl
  cases side
  · exact { h with life := fun side => by cases side; exacts [hnew, h.life .right] }
  · exact { h with life := fun side => by cases side; exacts [h.life .left, hnew] }

end ControlSound

/-! ## The roof link (R137 to R147, R160) -/

/-- The transmitter is set free of a frame; if that was the drain-end STATUS, the drain is at its end (R160). -/
theorem ControlSound.freed (h : ControlSound s) {source : FrameSource} {bytes : List Byte} {n : Nat} {p : TxPhase}
    (htx : s.rlc.tx = .busy source bytes n p) : ControlSound (s.stopDriving.withTx .free)
      ∧ (source = .status true → s.rca.node = .draining ∧ s.rca.drainTimer = none) :=
  ⟨((stopDriving_controlKept s).trans (.withTx_free _)).sound h, fun hsource => h.cycle ⟨_, _, _, hsource ▸ htx⟩⟩

theorem frameEnded_controlSound (h : ControlSound s) (hfree : s.rlc.tx = .free) {source : FrameSource}
    (hend : source = .status true → s.rca.node = .draining ∧ s.rca.drainTimer = none) : ControlSound (frameEnded source s) := by
  cases source with
  | edge bin =>
    simp only [frameEnded, State.restartHeartbeat]
    split
    · exact h.withHeartbeat ‹_› _
    · exact h
  | status drainEnd => exact h.statusEnded hfree fun hd => hend (by rw [hd])
  | gauge =>
    have hemptied : ControlSound (s.withRq { s.rq with inFrame := [] }) := h.of_frame rfl rfl
    exact (testForm_controlKept _).sound hemptied

theorem returnRecords_controlKept (s : State) : ControlKept s s.returnRecords := by
  unfold State.returnRecords
  split <;> exact .of_frame rfl rfl

theorem frameAbandoned_controlSound (h : ControlSound s) (hfree : s.rlc.tx = .free) {source : FrameSource}
    (hend : source = .status true → s.rca.node = .draining ∧ s.rca.drainTimer = none) :
    ControlSound (frameAbandoned source s) := by
  have hcounted : ControlSound (s.countAbandoned.setLatch .collisionLimit) := h.of_frame rfl rfl
  cases source with
  | edge bin => exact hcounted
  | status drainEnd => exact hcounted.statusEnded hfree fun hd => hend (by rw [hd])
  | gauge => exact (returnRecords_controlKept _).sound hcounted

theorem stopDriving_frame (s : State) :
    s.stopDriving = s.withRlc { s.rlc with lastQuiet := s.stopDriving.rlc.lastQuiet } := by
  unfold State.stopDriving
  split <;> rfl

theorem execAttemptBegin_controlSound (h : ControlSound s) (hstep : execAttemptBegin e s = .next t) : ControlSound t := by
  have helapsed := (elapse_controlKept s e).sound h
  unfold execAttemptBegin at hstep
  simp only at hstep
  split at hstep
  · rename_i htx
    split at hstep
    · cases hstep
    · split at hstep <;> cases hstep
      unfold beginAttempt
      split
      · have hdropped : ControlSound ((s.elapse e).withTx .free).countAbandoned :=
          ((ControlKept.withTx_free _).sound helapsed).of_frame rfl rfl
        exact hdropped.testDrainEnd
      · exact (ControlKept.withTx_same htx _ _ _).sound helapsed
  all_goals cases hstep

theorem endJam_controlSound (h : ControlSound s) {source : FrameSource} {bytes : List Byte} {n : Nat} {p : TxPhase}
    (htx : s.rlc.tx = .busy source bytes n p) (draw : Nat) : ControlSound (endJam source bytes n draw s) := by
  obtain ⟨hfreed, hend⟩ := h.freed htx
  have hsame : s.stopDriving.rlc.tx = s.rlc.tx := by rw [stopDriving_frame]; rfl
  have hrca : s.stopDriving.rca = s.rca := by rw [stopDriving_frame]; rfl
  unfold endJam
  simp only
  split
  · exact ((stopDriving_controlKept s).trans (.withTx_same (hsame.trans htx) _ _ _)).sound h
  · refine (frameAbandoned_controlSound hfreed rfl ?_).testDrainEnd
    rw [State.withTx_rca, hrca]
    exact hend

theorem execJamEnd_controlSound (h : ControlSound s) {draw : Nat} (hstep : execJamEnd e draw s = .next t) : ControlSound t := by
  unfold execJamEnd at hstep
  simp only at hstep
  split at hstep
  · rename_i htx
    split at hstep <;> cases hstep
    exact endJam_controlSound ((elapse_controlKept s e).sound h) htx draw
  all_goals cases hstep

theorem execFrameSent_controlSound (h : ControlSound s) (hstep : execFrameSent e s = .next t) : ControlSound t := by
  unfold execFrameSent at hstep
  simp only at hstep
  split at hstep
  · rename_i htx
    split at hstep <;> cases hstep
    obtain ⟨hfreed, hend⟩ := ((elapse_controlKept s e).sound h).freed htx
    refine (frameEnded_controlSound hfreed rfl ?_).testDrainEnd
    rw [stopDriving_frame]
    exact hend
  all_goals cases hstep

theorem execHeartbeatTimerExpiry_controlSound (h : ControlSound s) (hstep : execHeartbeatTimerExpiry e s = .next t) :
    ControlSound t := by
  obtain ⟨ends, hends, -, hgo⟩ := onExpiry_next hstep
  split at hgo <;> cases hgo
  have hrun : s.rca.node = .running := h.heartbeat (by
    rintro hnone
    rw [State.elapse_rlc, hnone] at hends
    cases hends)
  have hrestarted := ((elapse_controlKept s e).sound h).withHeartbeat hrun ((s.elapse e).now + heartbeatTime)
  unfold expireHeartbeat
  simp only
  split
  · exact (placeEdge_controlKept _ _).sound hrestarted
  · exact hrestarted

/-! ## Reception (R94, R95, R149 to R153, R162, R164) -/

theorem offerApplication_controlKept (r : Request) (s : State) : ControlKept s (offerApplication r s) := by
  unfold offerApplication
  split
  · split <;> exact .of_frame rfl rfl
  · exact .refl s

/-- Settings judged sound become the pending settings, and the node is then at least READY (R156, R162). -/
theorem takeConfig_controlSound (h : ControlSound s) (f : ReceivedFrame) : ControlSound (takeConfig f s) := by
  unfold takeConfig
  split
  · have hlatched : ControlSound (s.setLatch .configRefused) := h.of_frame rfl rfl
    exact hlatched.statusFor _ _
  · rename_i c hok
    have htaken : ControlSound (s.withRca { s.rca with pendingSettings := some ⟨c, f.source⟩ }) :=
      { h with
        pendingSound := fun r hr => by cases hr; exact settingsSound_of_judgeConfig hok
        configured := fun _ => Option.some_ne_none _ }
    simp only
    split
    · rename_i hnode
      have hidle : s.rca.node ≠ .running := by rw [show s.rca.node = _ from hnode]; decide
      have hnodrain : s.rca.node ≠ .draining := by rw [show s.rca.node = _ from hnode]; decide
      refine ControlSound.statusFor ?_ _ _
      exact
        { htaken with
          configured := fun _ => Option.some_ne_none _
          inForce := nofun
          heartbeat := fun hne => absurd (h.heartbeat hne) hidle
          life := fun side l hl hne => absurd (h.life side l hl hne) hidle
          drainTimer := fun hne => absurd (h.drainTimer hne) hnodrain
          cycle := fun hcycle => absurd (h.cycle hcycle).1 hnodrain }
    · exact htaken.statusFor _ _

theorem takeQuery_controlSound (h : ControlSound s) (f : ReceivedFrame) : ControlSound (takeQuery f s) := by
  unfold takeQuery
  split
  · have hmasked : ControlSound (s.withRca { s.rca with
        clearMask := s.rca.clearMask ||| BitVec.ofNat 13 (fieldAt f.payload 0 2) }) := { h with }
    exact hmasked.statusFor _ _
  · exact h.statusFor _ _

theorem filterFrame_controlSound (h : ControlSound s) (f : ReceivedFrame) : ControlSound (filterFrame f s) := by
  have hbad : ControlSound s.countBad := h.of_frame rfl rfl
  unfold filterFrame
  split
  · exact hbad
  · exact h
  · exact h
  · split
    · split
      · exact (offerApplication_controlKept _ s).sound h
      · exact hbad
    · exact h
  · split
    · split
      · exact (offerApplication_controlKept _ s).sound h
      · exact hbad
    · exact h
  · split
    · exact takeConfig_controlSound h f
    · exact h
  · split
    · exact takeQuery_controlSound h f
    · exact h

theorem signOfLife_controlSound (h : ControlSound s) (source : Nat) : ControlSound (signOfLife source s) := by
  unfold signOfLife
  split
  · split
    · exact h.setLife _ fun _ => ‹_›
    · exact h
  · exact h

theorem judgeReception_controlSound (h : ControlSound s) (bytes : List Byte) : ControlSound (judgeReception bytes s) := by
  unfold judgeReception
  split
  · exact h
  · split
    · exact filterFrame_controlSound (signOfLife_controlSound h _) _
    · exact h.of_frame rfl rfl

theorem execFrameReceived_controlSound (h : ControlSound s) {bits : List Bool}
    (hstep : execFrameReceived e bits s = .next t) : ControlSound t := by
  unfold execFrameReceived at hstep
  split at hstep <;> cases hstep
  have hended : ControlSound (s.elapse e).carrierEnds := h.of_frame rfl rfl
  exact judgeReception_controlSound hended _

theorem loseNeighbour_controlSound (h : ControlSound s) (side : Side) : ControlSound (loseNeighbour side s) := by
  have hlost := h.setLife side (l := ⟨.lost, none⟩) fun hne => absurd rfl hne
  unfold loseNeighbour
  simp only
  split <;> exact hlost.of_frame rfl rfl

theorem execNeighbourTimerExpiry_controlSound (h : ControlSound s) {side : Side}
    (hstep : execNeighbourTimerExpiry e side s = .next t) : ControlSound t := by
  obtain ⟨-, -, -, hgo⟩ := onExpiry_next hstep
  cases hgo
  exact loseNeighbour_controlSound ((elapse_controlKept s e).sound h) side

/-! ## Runs (R133, R157 to R161) -/

theorem execPowerOnReset_controlSound {straps : BitVec 3} {pair : OdoPair} {carrier midScan : Bool}
    (hstep : execPowerOnReset e straps pair carrier midScan s = .next t) : ControlSound t := by
  cases hstep
  exact
    { pendingSound := nofun
      runSound := nofun
      configured := fun hne => absurd rfl hne
      inForce := nofun
      heartbeat := fun hne => absurd rfl hne
      life := fun side l hl => by cases side <;> cases hl
      drainTimer := fun hne => absurd rfl hne
      drainEnd := rfl
      cycle := fun ⟨_, _, _, htx⟩ => nomatch htx }

/-- A run starts with the pending settings, in a READY node, where neither the drain timer runs nor a drain-end STATUS is in its
cycle (R158). -/
theorem startRun_controlSound (h : ControlSound s) (hready : s.rca.node = .ready) {r : SourcedSettings}
    (hr : s.rca.pendingSettings = some r) : ControlSound (startRun r s) := by
  have hnodrain : s.rca.node ≠ .draining := by rw [hready]; decide
  exact
    { pendingSound := h.pendingSound
      runSound := fun r' hr' => by cases hr'; exact h.pendingSound r hr
      configured := fun _ => by show s.rca.pendingSettings ≠ none; rw [hr]; exact Option.some_ne_none _
      inForce := fun _ => Option.some_ne_none _
      heartbeat := fun _ => rfl
      life := fun _ _ _ _ => rfl
      drainTimer := fun hne => absurd (h.drainTimer hne) hnodrain
      drainEnd := h.drainEnd
      cycle := fun hcycle => absurd (h.cycle hcycle).1 hnodrain }

theorem execRunStart_controlSound (h : ControlSound s) (hstep : execRunStart e s = .next t) : ControlSound t := by
  have helapsed := (elapse_controlKept s e).sound h
  rcases execRunStart_next hstep with ⟨hready, r, hr, rfl⟩ | rfl
  · exact startRun_controlSound helapsed hready hr
  · exact helapsed

/-- Heartbeat and neighbour timers stop as the drain begins (R97, R147, R159). -/
theorem drainBegun_controlSound (h : ControlSound s) (hrun : s.rca.node = .running) : ControlSound s.drainBegun := by
  have hstopped (o : Option Liveness) : ∀ l ∈ o.map Liveness.stop, l.timer ≠ none → NodeState.draining = .running := by
    intro l hl hne
    obtain ⟨l', -, rfl⟩ := Option.map_eq_some_iff.1 hl
    exact absurd rfl hne
  exact
    { pendingSound := h.pendingSound
      runSound := h.runSound
      configured := fun _ => h.configured (by rw [hrun]; decide)
      inForce := fun _ => h.inForce (.inl hrun)
      heartbeat := fun hne => absurd rfl hne
      life := fun side => by cases side <;> exact hstopped _
      drainTimer := fun _ => rfl
      drainEnd := h.drainEnd
      cycle := fun hcycle => by
        have hnode := (h.cycle hcycle).1
        rw [hrun] at hnode
        cases hnode }

theorem execEnterDraining_controlSound (h : ControlSound s) (hstep : execEnterDraining e s = .next t) : ControlSound t := by
  have helapsed := (elapse_controlKept s e).sound h
  rcases execEnterDraining_next hstep with ⟨hrun, rfl⟩ | rfl
  · rw [startDrain_eq]
    exact (testForm_controlKept _).sound (drainBegun_controlSound helapsed hrun)
  · exact helapsed

theorem execDrainLimit_controlSound (h : ControlSound s) (hstep : execDrainLimit e s = .next t) : ControlSound t := by
  obtain ⟨-, -, -, hgo⟩ := onExpiry_next hstep
  cases hgo
  have hlost : ControlSound (((s.elapse e).countDrainLoss s.rq.queued.length).withRq
      { s.rq with queued := [], pastLimit := true }) := h.of_frame rfl rfl
  exact hlost.stopDrainTimer.testDrainEnd

theorem execFinalClose_controlSound (h : ControlSound s) (hstep : execFinalClose e s = .next t) : ControlSound t := by
  obtain ⟨k, rest, c, -, -, -, rfl⟩ := execFinalClose_next hstep
  have hdealt := (takeRequest_controlKept s e rest).trans (dealWithTracks_controlKept c k true _)
  have hclosed := (hdealt.trans (exposureStep_controlKept c _)).trans (served_controlKept _)
  have hshut : ControlSound (exposureStep c (dealWithTracks c k true (s.takeRequest e rest))).served.closeTable :=
    (hclosed.sound h).of_frame rfl rfl
  exact hshut.testDrainEnd

/-! ## The step -/

theorem exec_controlSound (h : ControlSound s) {i : Instr} (hstep : exec i s = .next t) : ControlSound t := by
  cases hi : touchesControl i with
  | false => exact (exec_controlKept hi hstep).sound h
  | true =>
    cases i with
    | powerOnReset => exact execPowerOnReset_controlSound hstep
    | finalClose => exact execFinalClose_controlSound h hstep
    | attemptBegin => exact execAttemptBegin_controlSound h hstep
    | jamEnd => exact execJamEnd_controlSound h hstep
    | frameSent => exact execFrameSent_controlSound h hstep
    | heartbeatTimerExpiry => exact execHeartbeatTimerExpiry_controlSound h hstep
    | frameReceived => exact execFrameReceived_controlSound h hstep
    | neighbourTimerExpiry => exact execNeighbourTimerExpiry_controlSound h hstep
    | runStart => exact execRunStart_controlSound h hstep
    | enterDraining => exact execEnterDraining_controlSound h hstep
    | drainLimit => exact execDrainLimit_controlSound h hstep
    | _ => cases hi

/-- Settles O55: the queue of commands is no part of the law, and every command keeps it. -/
theorem runControlLaw : Obligations.RunControlLaw := by
  intro s t hrun htimers hstep
  have h : ControlSound s := controlSound_iff.1 ⟨hrun, htimers⟩
  refine controlSound_iff.2 ?_
  unfold step at hstep
  split at hstep
  · cases hstep; exact h
  · rename_i i rest _
    exact exec_controlSound (s := { s with pending := rest }) { h with } hstep

end Sys2Proof.Machine

/-! The winner rule and the outcome of a match for each pair of roles (R82 to R87). -/

namespace Sys2Proof.Machine

variable {s : State} {u : Track} {x : EdgeEntry} {n own : Nat} {l : Label}

/-! ## The winner rule (R83) -/

theorem wins_own (h : l.origin = own) : wins own n l = true := by simp [wins, h]

theorem wins_other (hne : own ≠ n) (h : l.origin = n) : wins own n l = false := by
  simp [wins, h, Ne.symm hne]

theorem wins_foreign (hown : l.origin ≠ own) (hn : l.origin ≠ n) : wins own n l = decide (own < n) := by
  simp [wins, hown, hn]

/-- The other node reaches the opposite decision: the label's origin decides for both, else the order of their slots. -/
theorem wins_swap (hne : own ≠ n) (l : Label) : wins n own l = !wins own n l := by
  by_cases hown : l.origin = own
  · rw [wins_own hown, wins_other hne.symm hown]; rfl
  · by_cases hn : l.origin = n
    · rw [wins_own hn, wins_other hne hn]; rfl
    · rw [wins_foreign hown hn, wins_foreign hn hown, ← decide_not]
      exact decide_eq_decide.2 (by omega)

/-- Settles O29. -/
theorem winnerRule : Obligations.WinnerRule := by
  intro own n l hne
  exact ⟨wins_own, wins_other hne, fun hown hn => by rw [wins_foreign hown hn, decide_eq_true_eq], wins_swap hne l⟩

/-! ## The nine pairs of roles (R84 to R86) -/

theorem roleOutcome_owner_owner (hu : u.role = .owner) (hx : x.role = .owner) : roleOutcome n x u s =
    if wins s.rca.slot n u.label then ({ u with contested := true }, s.setLatch .contested)
    else ({ u with role := .shadow, held := [] }, s) := by
  simp only [roleOutcome, hu, hx]

/-- An OWNER goes on where the neighbour is SHADOW or RELEASING (R84). -/
theorem roleOutcome_owner_other (hu : u.role = .owner) (hx : x.role ≠ .owner) : roleOutcome n x u s = (u, s) := by
  cases hrole : x.role with
  | owner => exact absurd hrole hx
  | shadow => simp only [roleOutcome, hu, hrole]
  | releasing j => simp only [roleOutcome, hu, hrole]

theorem roleOutcome_shadow_owner (hu : u.role = .shadow) (hx : x.role = .owner) : roleOutcome n x u s = (u, s) := by
  simp only [roleOutcome, hu, hx]

theorem roleOutcome_shadow_releasing {j : Int} (hu : u.role = .shadow) (hx : x.role = .releasing j) :
    roleOutcome n x u s = takeOver (some j) u s := by
  simp only [roleOutcome, hu, hx]

theorem roleOutcome_shadow_shadow (hu : u.role = .shadow) (hx : x.role = .shadow) : roleOutcome n x u s =
    if wins s.rca.slot n u.label then takeOver (takeOverStart u) u s else (u, s) := by
  simp only [roleOutcome, hu, hx]

theorem roleOutcome_releasing_owner {j : Int} (hu : u.role = .releasing j) (hx : x.role = .owner) :
    roleOutcome n x u s = ({ u with role := .shadow }, s) := by
  simp only [roleOutcome, hu, hx]

theorem roleOutcome_releasing_shadow {j : Int} (hu : u.role = .releasing j) (hx : x.role = .shadow) :
    roleOutcome n x u s = (u, s) := by
  simp only [roleOutcome, hu, hx]

theorem roleOutcome_releasing_releasing {j j' : Int} (hu : u.role = .releasing j) (hx : x.role = .releasing j') :
    roleOutcome n x u s = if wins s.rca.slot n u.label then takeOver (some (max j j')) u s else (u, s) := by
  simp only [roleOutcome, hu, hx]

/-! ## The peer fields (R87) -/

theorem peerFrom_owner (hx : x.role = .owner) (g : Int) (u : Track) :
    u.peerFrom g x = { u with peerRole := some .owner, peerThrough := some g } := by
  simp only [Track.peerFrom, hx, Role.name]

theorem peerFrom_shadow (hx : x.role = .shadow) (g : Int) (u : Track) :
    u.peerFrom g x = { u with peerRole := some .shadow } := by
  simp only [Track.peerFrom, hx, Role.name]

theorem peerFrom_releasing {j : Int} (hx : x.role = .releasing j) (g : Int) (u : Track) :
    u.peerFrom g x = { u with peerRole := some .releasing, peerThrough := some (j - 1) } := by
  simp only [Track.peerFrom, hx, Role.name]

/-! ## A take-over's start (R85, R88) -/

theorem takeOverStart_through {g : Int} (h : u.peerThrough = some g) : takeOverStart u = some (g + 1) := by
  simp only [takeOverStart, h]

theorem takeOverStart_held {r : Record} {rs : List Record} (h : u.peerThrough = none) (hheld : u.held = r :: rs) :
    takeOverStart u = some r.gpi := by
  simp only [takeOverStart, h, hheld]

theorem takeOverStart_none (h : u.peerThrough = none) (hheld : u.held = []) : takeOverStart u = none := by
  simp only [takeOverStart, h, hheld]

/-! ## The outcome of a match (R82) -/

/-- Settles O30: the link is set, the role outcome follows, and then the peer fields are taken from the entry. -/
theorem roleOutcomes : Obligations.RoleOutcomes := by
  intro side report x t s u win
  have hsettle : settle side report x t s = ((roleOutcome report.source x u s).1.peerFrom report.bin x,
      (roleOutcome report.source x u s).2) := rfl
  have hwin : wins s.rca.slot report.source u.label = win := rfl
  rw [hsettle]
  refine ⟨fun hu hx hw => ?_, fun hu hx hw => ?_, fun hu hx => ?_, fun j hu hx => ?_, fun hu hx => ?_, fun j hu hx => ?_,
    fun g hu hx hw hg => ?_, fun hu hx hw => ?_, fun j hu hx => ?_, fun j hu hx => ?_, fun j j' hu hx hw => ?_,
    fun j j' hu hx hw => ?_⟩
  · rw [roleOutcome_owner_owner (u := u) hu hx, hwin, if_pos hw, peerFrom_owner hx]
  · rw [roleOutcome_owner_owner (u := u) hu hx, hwin, hw, peerFrom_owner hx]; rfl
  · rw [roleOutcome_owner_other (u := u) hu (by rw [hx]; decide), peerFrom_shadow hx]
  · rw [roleOutcome_owner_other (u := u) hu (by rw [hx]; exact nofun), peerFrom_releasing hx]
  · rw [roleOutcome_shadow_owner (u := u) hu hx, peerFrom_owner hx]
  · rw [roleOutcome_shadow_releasing (u := u) hu hx, peerFrom_releasing hx]
  · rw [roleOutcome_shadow_shadow (u := u) hu hx, hwin, if_pos hw, takeOverStart_through (u := u) hg, peerFrom_shadow hx]
  · rw [roleOutcome_shadow_shadow (u := u) hu hx, hwin, hw, peerFrom_shadow hx]; rfl
  · rw [roleOutcome_releasing_owner (u := u) hu hx, peerFrom_owner hx]
  · rw [roleOutcome_releasing_shadow (u := u) hu hx, peerFrom_shadow hx]
  · rw [roleOutcome_releasing_releasing (u := u) hu hx, hwin, if_pos hw, peerFrom_releasing hx]
  · rw [roleOutcome_releasing_releasing (u := u) hu hx, hwin, hw, peerFrom_releasing hx]; rfl

end Sys2Proof.Machine

/-! Take-overs and links that dissolve (R88, R92, R96): what the offers of the held records enter. -/

namespace Sys2Proof.Machine

variable {s : State} {u : Track} {r : Record} {rs : List Record} {f l : Int}

/-! ## Offers with room in the queue (R92, R121) -/

theorem count_eq_records_length (q : Rq) : q.count = q.records.length := (List.length_append ..).symm

theorem covers_iff (h : u.lastQueued = some l) : u.covers r = true ↔ r.gpi ≤ l := by
  simp only [Track.covers, h, decide_eq_true_eq]

theorem offer_covered (hlimit : s.rq.pastLimit = false) (hc : u.covers r = true) : offer r u s = (u, s) := by
  simp [offer, hlimit, hc]

theorem offer_enters (hlimit : s.rq.pastLimit = false) (hc : u.covers r = false) (hroom : s.rq.count < 64) :
    offer r u s = (u.afterEntry r, testForm (s.enqueue (u.entryOf r))) := by
  simp [offer, hlimit, hc, Config.queuePlaces, not_le.2 hroom]

/-- What the offers of several records of the track `u` leave where those of the gauge points `bins` enter: they stand at the tail of
the queue in their order, under the label of `u`, and the first takes the TAKEN_OVER mark of `u` with it (R121, R123). -/
structure Enters (u : Track) (s : State) (bins : List Int) (out : Track × State) (new : List QueuedRecord) : Prop where
  records : out.2.rq.records = s.rq.records ++ new
  bins : new.map (·.record.gpi) = bins
  each : ∀ q ∈ new, q.record.label = u.label ∧ q.entered = s.now
  first : ∀ q, new.head? = some q → q.record.takenOver = u.takenOver
  some_mark : new ≠ [] → out.1.takenOver = false
  none_mark : new = [] → out.1.takenOver = u.takenOver

/-- An entry followed by offers that enter the rest. -/
theorem Enters.cons {s' : State} {bins : List Int} {out : Track × State} {new : List QueuedRecord}
    (hrecords : s'.rq.records = s.rq.records ++ [⟨u.entryOf r, s.now⟩]) (hnow : s'.now = s.now)
    (h : Enters (u.afterEntry r) s' bins out new) : Enters u s (r.gpi :: bins) out (⟨u.entryOf r, s.now⟩ :: new) where
  records := by rw [h.records, hrecords, List.append_assoc]; rfl
  bins := by rw [List.map_cons, h.bins]; rfl
  each := List.forall_mem_cons.2 ⟨⟨rfl, rfl⟩, fun q hq => hnow ▸ h.each q hq⟩
  first := fun q hq => by cases hq; rfl
  some_mark := fun _ => by
    by_cases hnew : new = []
    · exact h.none_mark hnew
    · exact h.some_mark hnew
  none_mark := nofun

/-- With room for all, exactly the records that the last queued GPI does not cover enter; once one has entered, all later ones do,
for their gauge points increase (R47, R121). -/
theorem offerAll_enters (hlimit : s.rq.pastLimit = false) (hroom : s.rq.count + rs.length ≤ 64)
    (hsorted : rs.Pairwise fun a b => a.gpi < b.gpi) (hl : u.lastQueued = some l) :
    ∃ new, Enters u s ((rs.map (·.gpi)).filter fun g => decide (l < g)) (offerAll rs u s) new := by
  induction rs generalizing u s l with
  | nil =>
    refine ⟨[], ⟨(List.append_nil _).symm, rfl, List.forall_mem_nil _, fun q hq => ?_, fun h => absurd rfl h, fun _ => rfl⟩⟩
    cases hq
  | cons r rs ih =>
    obtain ⟨hnext, hrest⟩ := List.pairwise_cons.1 hsorted
    rw [List.length_cons] at hroom
    rw [offerAll, List.map_cons]
    by_cases hcovered : r.gpi ≤ l
    · rw [offer_covered hlimit ((covers_iff hl).2 hcovered), List.filter_cons_of_neg (by simpa using hcovered)]
      exact ih hlimit (by omega) hrest hl
    · have hrecords : (testForm (s.enqueue (u.entryOf r))).rq.records = s.rq.records ++ [⟨u.entryOf r, s.now⟩] := by
        rw [testForm_records]; simp [Rq.records]
      have hfoot := testForm_footprint (fun _ => True) (s.enqueue (u.entryOf r))
      have huncovered : u.covers r = false := Bool.eq_false_iff.2 fun hc => hcovered ((covers_iff hl).1 hc)
      have hcount : (testForm (s.enqueue (u.entryOf r))).rq.count = s.rq.count + 1 := by
        rw [count_eq_records_length, hrecords, List.length_append, List.length_singleton, ← count_eq_records_length]
      have hlater : (rs.map (·.gpi)).filter (fun g => decide (l < g))
          = (rs.map (·.gpi)).filter (fun g => decide (r.gpi < g)) := by
        refine List.filter_congr fun g hg => ?_
        obtain ⟨r', hr', rfl⟩ := List.mem_map.1 hg
        have := hnext r' hr'
        exact decide_eq_decide.2 ⟨fun _ => this, fun _ => by omega⟩
      rw [offer_enters hlimit huncovered (by omega), List.filter_cons_of_pos (by simpa using hcovered), hlater]
      obtain ⟨new, hnew⟩ := ih (s := testForm (s.enqueue (u.entryOf r))) (u := u.afterEntry r) (l := r.gpi)
        (hfoot.pastLimit.trans hlimit) (by omega) hrest rfl
      exact ⟨_, hnew.cons hrecords hfoot.now⟩

/-! ## Take-overs (R92) -/

/-- Step 1 of a take-over on a track: OWNER, with the last queued GPI at `f - 1` or beyond, the hold list given up. -/
def Track.takenFrom (f : Int) (u : Track) : Track :=
  { u with role := .owner, takenOver := true, lastQueued := raisedQueued u.lastQueued f, held := [] }

theorem takeOver_some (f : Int) (u : Track) (s : State) :
    takeOver (some f) u s = offerAll (u.held.filter fun r => decide (f ≤ r.gpi)) (u.takenFrom f) s := rfl

/-- The last queued GPI is at least `f - 1`, and covers of the bins from `f` on exactly what it covered before (R92). -/
theorem raisedQueued_spec (last : Option Int) (f : Int) : ∃ l, raisedQueued last f = some l ∧ f - 1 ≤ l
    ∧ ∀ g, l < g ↔ f ≤ g ∧ ∀ l' ∈ last, l' < g := by
  cases last with
  | none => exact ⟨f - 1, rfl, le_rfl, fun g => ⟨fun h => ⟨by omega, nofun⟩, fun ⟨h, _⟩ => by omega⟩⟩
  | some l =>
    refine ⟨max l (f - 1), rfl, le_max_right _ _, fun g => ?_⟩
    rw [max_lt_iff]
    simp only [Option.mem_some_iff, forall_eq']
    omega

theorem offerAll_lastQueued (hrs : ∀ r ∈ rs, f ≤ r.gpi) (h : ∃ l, u.lastQueued = some l ∧ f - 1 ≤ l) :
    ∃ l, (offerAll rs u s).1.lastQueued = some l ∧ f - 1 ≤ l := by
  induction rs generalizing u s with
  | nil => exact h
  | cons r rs ih =>
    obtain ⟨hr, hrest⟩ := List.forall_mem_cons.1 hrs
    refine ih hrest ?_
    rcases offer_track r u s with e | e <;> rw [e]
    · exact h
    · exact ⟨r.gpi, rfl, by omega⟩

theorem takeOver_lastQueued (f : Int) (u : Track) (s : State) :
    ∃ l, (takeOver (some f) u s).1.lastQueued = some l ∧ f - 1 ≤ l := by
  obtain ⟨l, hl, hle, -⟩ := raisedQueued_spec u.lastQueued f
  rw [takeOver_some]
  exact offerAll_lastQueued (fun r hr => by simpa using (List.mem_filter.1 hr).2) ⟨l, hl, hle⟩

/-- With room in the queue the held records from `f` on that are not covered enter (R92). -/
theorem takeOver_enters (f : Int) (hlimit : s.rq.pastLimit = false) (hroom : s.rq.count + u.held.length ≤ 64)
    (hsorted : u.held.Pairwise fun a b => a.gpi < b.gpi) :
    ∃ new, Enters (u.takenFrom f) s
      ((u.held.map (·.gpi)).filter fun g => decide (f ≤ g) && u.lastQueued.all fun l => decide (l < g))
      (takeOver (some f) u s) new := by
  obtain ⟨l, hl, -, hcovers⟩ := raisedQueued_spec u.lastQueued f
  have hbins : ((u.held.filter fun r => decide (f ≤ r.gpi)).map (·.gpi)).filter (fun g => decide (l < g))
      = (u.held.map (·.gpi)).filter fun g => decide (f ≤ g) && u.lastQueued.all fun l => decide (l < g) := by
    rw [List.filter_map, List.filter_filter, List.filter_map]
    refine congrArg _ (List.filter_congr fun r _ => ?_)
    rw [Bool.eq_iff_iff]
    simp only [Function.comp_apply, Bool.and_eq_true, decide_eq_true_eq, Option.all_eq_true, hcovers]
    tauto
  rw [takeOver_some, ← hbins]
  exact offerAll_enters hlimit (le_trans (Nat.add_le_add_left (List.length_filter_le _ _) _) hroom)
    (hsorted.filter _) hl

/-! ## Links that dissolve (R88, R96) -/

/-- A track whose link is gone, with its peer role and its absences. -/
def Track.unlink (u : Track) : Track := { u with link := none, absent := 0, peerRole := none }

theorem dissolve_owner (h : u.role = .owner) (s : State) :
    dissolve u s = ({ u.unlink with peerThrough := none }, s) := by
  unfold dissolve
  split
  · rfl
  · rename_i hrole; rw [h] at hrole; cases hrole
  · rename_i hrole; rw [h] at hrole; cases hrole

theorem dissolve_takes {start : Option Int} (h : u.role ≠ .owner) (hstart : takeOverStart u = start) (s : State) :
    dissolve u s = ({ (takeOver start u.unlink s).1 with peerThrough := none }, (takeOver start u.unlink s).2) := by
  rw [← hstart]
  unfold dissolve
  split
  · exact absurd ‹_› h
  · rfl
  · rfl

/-- Settles O31. -/
theorem Ownership.takeOver : Obligations.TakeOver := by
  refine ⟨fun f u s => ⟨rfl, takeOver_track (some f) u s, takeOver_lastQueued f u s, fun hlimit hroom hsorted => ?_⟩,
    fun u s => ⟨fun ho => dissolve_owner ho s, fun g ho hg => dissolve_takes ho (takeOverStart_through hg) s,
      fun r rs ho hg hheld => dissolve_takes ho (takeOverStart_held hg hheld) s,
      fun ho hg hheld => dissolve_takes ho (takeOverStart_none hg hheld) s⟩⟩
  obtain ⟨new, hnew⟩ := takeOver_enters f hlimit hroom hsorted
  exact ⟨new, hnew.records, hnew.bins, hnew.each, hnew.first, hnew.some_mark, hnew.none_mark⟩

end Sys2Proof.Machine

/-! NEIGHBOUR_LOST_APPLICATION (R96): every link to the lost neighbour dissolves, each at a moment of the command. -/

namespace Sys2Proof.Machine

variable {s b m : State} {u v : Track} {side : Side} {i : Nat}

/-! ## One link (R88, R92) -/

theorem dissolve_reaches (u : Track) (s : State) : QueueFootprint (fun _ => True) s (dissolve u s).2 :=
  dissolve_footprint fun _ _ _ _ => trivial

theorem dissolve_held (u : Track) (s : State) : ∀ x ∈ (dissolve u s).1.held, x ∈ u.held := by
  obtain ⟨howner, hother⟩ := dissolve_track u s
  by_cases hr : u.role = .owner
  · rw [howner hr]; exact fun _ => id
  · rw [hother hr]; exact fun x hx => absurd hx List.not_mem_nil

/-- The take-over of a dissolved link starts after peer-owner-through, so the last queued GPI is at least that (R88, R92). -/
theorem dissolve_lastQueued {g : Int} (hr : u.role ≠ .owner) (hg : u.peerThrough = some g) (s : State) :
    ∃ l, (dissolve u s).1.lastQueued = some l ∧ g ≤ l := by
  obtain ⟨l, hl, hle⟩ := takeOver_lastQueued (g + 1) u.unlink s
  rw [dissolve_takes hr (takeOverStart_through hg)]
  exact ⟨l, hl, by omega⟩

/-! ## All links to a side -/

/-- The links to a side dissolve, in increasing label order (R96). -/
def dissolveLinks (side : Side) (s : State) : State :=
  (linkedPlaces side s.tt.tracks).foldl (fun s i => s.updateTrack i dissolve) s

theorem execNeighbourLostApplication_eq {e : Nat} {rest : List Request} {c : Settings}
    (hr : s.tt.requests = .neighbourLost side :: rest) (ho : s.tt.isOpen = true) (hc : s.settings = some c) :
    exec (.neighbourLostApplication e) s = .next (dissolveLinks side (s.takeRequest e rest)).served := by
  have hc' : (s.elapse e).settings = some c := hc
  show execNeighbourLostApplication e s = _
  simp [execNeighbourLostApplication, serveNext, hr, ho, hc', State.takeRequest, dissolveLinks]

/-- The table as a whole, with the records that enter. -/
theorem dissolveLinks_spec (side : Side) (b : State) :
    TracksFootprint (EnteredFrom b.tt.tracks b.now) b (dissolveLinks side b)
      ∧ (dissolveLinks side b).tt.tracks.length = b.tt.tracks.length := by
  obtain ⟨hfoot, hlength, -, -⟩ := foldl_updateTrack (P := EnteredFrom b.tt.tracks b.now) (R := fun _ _ => True)
    (I := HoldsFrom b.tt.tracks) (fun _ => trivial) (fun _ _ _ _ _ => trivial) (fun i : Nat => i) (fun _ => dissolve)
    (linkedPlaces side b.tt.tracks) b (fun u hu x hx => ⟨u, hu, x, hx, rfl⟩)
    fun _ _ u s' hnow _ hu => ⟨dissolve_footprint fun _ x _ hx => ⟨hnow, hu x hx⟩, trivial,
      fun x hx => hu x (dissolve_held u s' x hx)⟩
  exact ⟨hfoot, hlength⟩

theorem dissolveLinks_other (hu : b.tt.tracks[i]? = some u) (hl : u.link ≠ some side) :
    (dissolveLinks side b).tt.tracks[i]? = some u := by
  refine (foldl_updateTrack_other (place := id) (op := fun _ => dissolve) (fun _ => dissolve_reaches) hu
    fun j hj hji => ?_).2
  obtain ⟨x, hx, hlx⟩ := mem_linkedPlaces hj
  obtain rfl : j = i := hji
  obtain rfl : x = u := Option.some.inj (hx.symm.trans hu)
  exact hl hlx

theorem dissolveLinks_linked (hu : b.tt.tracks[i]? = some u) (hl : u.link = some side) :
    ∃ v, (dissolveLinks side b).tt.tracks[i]? = some v ∧ MadeBetween b (dissolveLinks side b) (dissolve u) v :=
  foldl_updateTrack_once (place := id) (op := fun _ => dissolve) (fun _ => dissolve_reaches) (linkedPlaces_mem hu hl)
    (by simpa using linkedPlaces_nodup side b.tt.tracks) hu

/-- Settles O33: the frame is the footprint of the application; a track linked to the lost neighbour is what the dissolving of its
link makes of it at its moment, and any other is not reached. -/
theorem neighbourLostApplication : Obligations.NeighbourLostApplication := by
  intro e side rest c s hr ho hc
  have hexec := execNeighbourLostApplication_eq (e := e) hr ho hc
  have hdealt : ∀ {f v}, MadeBetween (s.takeRequest e rest) (dissolveLinks side (s.takeRequest e rest)) f v →
      Dealt s (dissolveLinks side (s.takeRequest e rest)).served f v := dealt_of_madeBetween rfl rfl rfl rfl
  obtain ⟨hfoot, hlength⟩ := dissolveLinks_spec side (s.takeRequest e rest)
  obtain ⟨new, hrecords, hnew⟩ := hfoot.1.records
  refine ⟨_, hexec, hfoot.1.pending, hfoot.now, hfoot.1.siu, hfoot.1.du, hfoot.1.wau, ?_, hfoot.1.rq_frame,
    hfoot.1.rlc_frame, hfoot.1.rca_frame, hfoot.1.counters, ⟨new, hrecords, fun q hq => ?_⟩, hlength, fun i u hu => ?_⟩
  · rw [State.served_tt, hfoot.2]
    rfl
  · obtain ⟨hentered, hheld⟩ := hnew q hq
    exact ⟨hentered.trans hfoot.now.symm, hheld⟩
  · by_cases hl : u.link = some side
    · obtain ⟨v, hv, hmade⟩ := dissolveLinks_linked (b := s.takeRequest e rest) hu hl
      have hmoment := hdealt hmade
      obtain ⟨m, -, -, -, hvm⟩ := hmade
      obtain ⟨howner, hother⟩ := dissolve_track u m
      refine ⟨v, hv, fun h => absurd hl h, fun _ => hmoment, fun _ hrole => hvm.trans (howner hrole),
        fun _ hrole => ⟨?_, fun g hg => hvm ▸ dissolve_lastQueued hrole hg m⟩⟩
      rw [hvm]
      exact hother hrole
    · exact ⟨u, dissolveLinks_other (b := s.takeRequest e rest) hu hl, fun _ => rfl, fun h => absurd h hl,
        fun h => absurd h hl, fun h => absurd h hl⟩

end Sys2Proof.Machine

/-! The report of a close (R76, R77, R126, R142, R145): what it holds, and whether it waits in the EDGE slot or enters its attempt
cycle at once (log 10). -/

namespace Sys2Proof.Machine

variable {P : QueuedRecord → Prop} {s s' b t : State} {c : Settings} {k : Int} {final : Bool} {u v : Track}

/-! ## What the tracks of a close do to the link -/

/-- A property of states that latches and offers keep is kept while the tracks are dealt with (R120, R125). -/
theorem closeTracks_keepsState {J : State → Prop} (hlatch : ∀ s l, J s → J (s.setLatch l))
    (hoffer : ∀ r u s, J s → J (offer r u s).2) (c : Settings) (k : Int) (final : Bool) (us : List Track) (h : J s) :
    J (closeTracks c k final us s).2 := by
  have hlatchIf : ∀ s b l, J s → J (s.latchIf b l) := fun s b l hs => by
    cases b
    · exact hs
    · exact hlatch s l hs
  have hfinish : ∀ r u s, J s → J (finishRecord c r u s).2 := fun r u s hs => by
    have hlatched : J (s.latchRecord r) := hlatchIf _ _ _ (hlatchIf _ _ _ hs)
    rw [finishRecord_snd]
    by_cases ho : u.role = .owner
    · rw [route_of_owner ho]; exact hoffer r u _ hlatched
    · rw [route_of_not_owner ho]; exact hlatched
  induction us generalizing s with
  | nil => exact h
  | cons u us ih =>
    refine ih ?_
    rcases closeTrack_snd c k final u s with hclose | ⟨r, x, hclose⟩ <;> rw [hclose]
    · exact h
    · exact hfinish r x s h

/-- An offer enters a record or touches counters and latches alone, so a property of the rest is kept by offers where entries keep
it (R121, R133). -/
theorem offer_keepsState {J : State → Prop} (hrca : ∀ {s t : State}, t.rq = s.rq → t.rlc = s.rlc →
      t.rca.status = s.rca.status → J s → J t)
    (hform : ∀ s r, J s → J (testForm (s.enqueue r))) (r : Record) (u : Track) (s : State) (h : J s) : J (offer r u s).2 := by
  obtain ⟨-, e⟩ | ⟨-, -, e⟩ | ⟨-, -, -, e⟩ | ⟨-, -, -, e⟩ := offer_cases r u s <;> rw [e]
  · exact hrca (s := s) rfl rfl rfl h
  · exact h
  · exact hrca (s := s) rfl rfl rfl h
  · exact hform _ _ h

theorem arbitrate_edgeSlot (h : s.rlc.edgeSlot = none) : (arbitrate s).rlc.edgeSlot = none := by
  obtain ⟨e, -⟩ | ⟨x, -, hx, -⟩ | ⟨p, -, -, -, e⟩ | ⟨r, -, -, -, -, -, e⟩ := arbitrate_cases s
  · rw [e]; exact h
  · rw [h] at hx; cases hx
  · rw [e]; exact h
  · rw [e]; exact h

/-- An empty EDGE slot stays empty while the tracks of a close are dealt with (R125). -/
theorem dealWithTracks_edgeSlot (h : s.rlc.edgeSlot = none) : (dealWithTracks c k final s).rlc.edgeSlot = none := by
  refine closeTracks_keepsState (J := fun s => s.rlc.edgeSlot = none) (fun _ _ => id) ?_ c k final _ h
  refine offer_keepsState (fun _ hrlc _ hs => hrlc ▸ hs) fun s r hs => ?_
  obtain e | ⟨-, e⟩ := testForm_cases (s.enqueue r) <;> rw [e]
  · exact hs
  · exact arbitrate_edgeSlot hs

/-- The transmitter is free and nothing is offered to it (R142). -/
structure LinkIdle (s : State) : Prop where
  tx : s.rlc.tx = .free
  edgeSlot : s.rlc.edgeSlot = none
  status : s.rca.status = none
  inFrame : s.rq.inFrame = []

/-- A GAUGE frame has just entered its attempt cycle, and no EDGE frame waits (R129, R142). -/
structure GaugeBegun (s : State) : Prop where
  tx : ∃ bytes, s.rlc.tx = .busy .gauge bytes 0 .deferring
  edgeSlot : s.rlc.edgeSlot = none
  inFrame : s.rq.inFrame ≠ []

theorem canForm_queued (h : canForm s = true) : s.rq.queued ≠ [] := by
  unfold canForm at h
  split at h
  · rename_i c _
    rintro hnone
    simp [gaugeDue, hnone] at h
  · cases h

/-- A GAUGE frame that forms while nothing is offered enters its attempt cycle at once (R129, R142, log 10). -/
theorem testForm_of_idle (h : LinkIdle s) : LinkIdle (testForm s) ∨ GaugeBegun (testForm s) := by
  obtain e | ⟨hform, e⟩ := testForm_cases s
  · rw [e]; exact .inl h
  · obtain ⟨run, hrun⟩ := Option.ne_none_iff_exists'.1 (canForm_settings hform)
    obtain ⟨q, qs, hq⟩ := List.exists_cons_of_ne_nil (canForm_queued hform)
    have hsent : testForm s = (s.withRq { s.rq with inFrame := s.rq.queued.take 24, queued := s.rq.queued.drop 24 }).enterCycle
        .gauge (State.gaugeBytes (s.withRq { s.rq with inFrame := s.rq.queued.take 24, queued := s.rq.queued.drop 24 })
          run.source) := by
      rw [e]
      simp [arbitrate, h.tx, h.edgeSlot, h.status, hrun, hq]
    rw [hsent]
    exact .inr ⟨⟨_, rfl⟩, h.edgeSlot, by simp [hq]⟩

theorem testForm_of_begun (h : GaugeBegun s) : testForm s = s := by
  obtain e | ⟨hform, -⟩ := testForm_cases s
  · exact e
  · exact absurd (canForm_inFrame hform) h.inFrame

/-- While the tracks of a close are dealt with, a link with nothing offered stays so, or a GAUGE frame begins (R125, R129). -/
theorem dealWithTracks_link (h : LinkIdle s) :
    LinkIdle (dealWithTracks c k final s) ∨ GaugeBegun (dealWithTracks c k final s) := by
  have hrca : ∀ {s t : State}, t.rq = s.rq → t.rlc = s.rlc → t.rca.status = s.rca.status → LinkIdle s ∨ GaugeBegun s →
      LinkIdle t ∨ GaugeBegun t := by
    rintro s t hrq hrlc hstatus (hs | hs)
    · exact .inl ⟨hrlc ▸ hs.tx, hrlc ▸ hs.edgeSlot, hstatus.trans hs.status, hrq ▸ hs.inFrame⟩
    · exact .inr ⟨hrlc ▸ hs.tx, hrlc ▸ hs.edgeSlot, hrq ▸ hs.inFrame⟩
  have hkept : LinkIdle (closeTracks c k final (sortBy (fun u => u.label.key) s.tt.tracks) s).2
      ∨ GaugeBegun (closeTracks c k final (sortBy (fun u => u.label.key) s.tt.tracks) s).2 := by
    refine closeTracks_keepsState (J := fun s => LinkIdle s ∨ GaugeBegun s) (fun _ _ => hrca rfl rfl rfl) ?_ c k final _ (.inl h)
    refine offer_keepsState hrca fun s r hs => ?_
    rcases hs with ⟨htx, hslot, hstatus, hin⟩ | ⟨htx, hslot, hin⟩
    · exact testForm_of_idle (s := s.enqueue r) ⟨htx, hslot, hstatus, hin⟩
    · have hbegun : GaugeBegun (s.enqueue r) := ⟨htx, hslot, hin⟩
      rw [testForm_of_begun hbegun]
      exact .inr hbegun
  exact hrca (s := (closeTracks c k final _ s).2) rfl rfl rfl hkept

/-- With a frame in its cycle the roof link stays as it is (R142). -/
theorem QueueFootprint.rlc_of_busy (h : QueueFootprint P s s') (hbusy : s.rlc.tx ≠ .free) : s'.rlc = s.rlc := by
  obtain ⟨htx, hslot⟩ := h.busy hbusy
  rw [h.rlc_frame, htx, hslot]

/-! ## The report placed (R126, R142, R145) -/

theorem buildReport_outside (hn : s.rca.node ≠ .running) : buildReport c k s = s := (buildReport_spec c k s).1 hn

/-- Behind a frame in its cycle the report waits in the slot, in place of any frame there (R145). -/
theorem buildReport_busy (hrun : s.rca.node = .running) (hbusy : s.rlc.tx ≠ .free) :
    (buildReport c k s).rlc = { s.rlc with edgeSlot := some (edgeFrame (closeReport c k s)) } := by
  rw [(buildReport_spec c k s).2 hrun, arbitrate_busy (by exact hbusy)]
  rfl

/-- With the transmitter free the report enters its attempt cycle at once (R142, log 10). -/
theorem buildReport_free (hrun : s.rca.node = .running) (hfree : s.rlc.tx = .free) : (buildReport c k s).rlc = { s.rlc with
    edgeSlot := none, tx := .busy (.edge k) (edgeFrame (closeReport c k s)).bytes 0 .deferring } := by
  rw [(buildReport_spec c k s).2 hrun]
  simp only [arbitrate, State.withTracks_rlc, State.withRlc_rlc, hfree]
  rfl

/-! ## The entries (R76) -/

theorem closeTrack_former (h : (closeTrack c k final u s).1 = some v) : v.former = u.former := by
  have hafter (r : Record) (x : Track) : (finishRecord c r x s).1.former = x.former := (finishRecord_after c r x s).1.former
  obtain ⟨a, -, -, hmade⟩ | ⟨a, -, -, -, hmade⟩ | ⟨a, -, -, -, hmade⟩ | ⟨-, -, hmade⟩ | ⟨-, -, -, hmade⟩
    | ⟨-, -, -, -, r, -, hmade⟩ := closeTrack_cases c k final u s <;> rw [hmade] at h <;> cases h
  · rfl
  · rfl
  · exact hafter _ _
  · rfl
  · exact hafter _ _

theorem dealWithTracks_labels : ∀ v ∈ (dealWithTracks c k final s).tt.tracks,
    ∃ u ∈ s.tt.tracks, v.label = u.label ∧ v.former = u.former := by
  obtain ⟨-, horigin, -⟩ := dealWithTracks_spec (P := fun _ => True) (s := s) c k final
    fun _ _ => ⟨fun _ _ _ => trivial, trivial⟩
  intro v hv
  obtain ⟨u, hu, s', -, hmade⟩ := horigin v hv
  exact ⟨u, hu, (closeTrack_keeps_place hmade).1, closeTrack_former hmade⟩

/-- Entries stand in increasing x, then increasing label (R76). -/
theorem closeReport_sorted (c : Settings) (k : Int) (s : State) :
    (closeReport c k s).entries.Pairwise fun a b => a.x < b.x ∨ a.x = b.x ∧ lexLt b.label.key a.label.key = false := by
  refine (sortBy_sorted (fun e : EdgeEntry => e.x :: e.label.key) _).imp fun {x y} h => ?_
  rw [lexLt] at h
  split at h
  · cases h
  · split at h
    · exact .inl ‹_›
    · exact .inr ⟨by omega, h⟩

/-! ## The command -/

/-- Settles O26: the tracks are dealt with first, and what that leaves on the link decides whether the report waits. -/
theorem binCloseReport : Obligations.BinCloseReport := by
  intro e k rest c s hr ho hc
  have hfoot : QueueFootprint (fun _ => True) (s.takeRequest e rest)
      ((dealWithTracks c k false (s.takeRequest e rest)).withTt (s.takeRequest e rest).tt) :=
    (dealWithTracks_spec c k false fun _ _ => ⟨fun _ _ _ => trivial, trivial⟩).1.1
  have hslotless := dealWithTracks_edgeSlot (s := s.takeRequest e rest) (c := c) (k := k) (final := false)
  have hlink := dealWithTracks_link (s := s.takeRequest e rest) (c := c) (k := k) (final := false)
  have hlabels := dealWithTracks_labels (s := s.takeRequest e rest) (c := c) (k := k) (final := false)
  have hexec := execBinClose_eq (e := e) hr ho hc
  rw [binClosed] at hexec
  generalize dealWithTracks c k false (s.takeRequest e rest) = b at *
  have hnode : b.rca.node = s.rca.node := hfoot.node
  have hslot : b.rca.slot = s.rca.slot := hfoot.slot
  have hbusy : s.rlc.tx ≠ .free → b.rlc = s.rlc := hfoot.rlc_of_busy
  have htx : s.rlc.tx ≠ .free → (buildReport c k b).rlc.tx = s.rlc.tx := fun htx => by
    have hb := hbusy htx
    by_cases hrun : b.rca.node = .running
    · rw [buildReport_busy hrun (by rw [hb]; exact htx), hb]
    · rw [buildReport_outside hrun, hb]
  refine ⟨_, hexec, htx, fun hn htx => ?_, fun hn _ hempty => ?_, fun hrun => ?_⟩
  · exact (congrArg State.rlc (buildReport_outside (hnode ▸ hn))).trans (hbusy htx)
  · exact (congrArg (·.rlc.edgeSlot) (buildReport_outside (hnode ▸ hn))).trans (hslotless hempty)
  · have hrun : b.rca.node = .running := hnode.trans hrun
    refine ⟨b.tt.tracks, (closeReport c k b).entries, ?_⟩
    rw [← hslot]
    refine ⟨fun htx => ?_, fun hfree hempty hstatus hin => ?_, ?_, hlabels, closeReport_sorted c k b, sortBy_perm _ _⟩
    · exact congrArg Rlc.edgeSlot (buildReport_busy hrun (by rw [hbusy htx]; exact htx))
    · have hrq : (buildReport c k b).rq.inFrame = b.rq.inFrame := by rw [buildReport_rq]
      rcases hlink ⟨hfree, hempty, hstatus, hin⟩ with hidle | hbegun
      · have hrlc := buildReport_free (c := c) (k := k) hrun hidle.tx
        exact ⟨fun _ => ⟨congrArg Rlc.tx hrlc, congrArg Rlc.edgeSlot hrlc⟩, fun hne => absurd (hrq.trans hidle.inFrame) hne⟩
      · obtain ⟨bytes, hbytes⟩ := hbegun.tx
        have hrlc := buildReport_busy (c := c) (k := k) hrun (by rw [hbytes]; exact nofun)
        exact ⟨fun hnone => absurd (hrq.symm.trans hnone) hbegun.inFrame,
          fun _ => ⟨⟨bytes, (congrArg Rlc.tx hrlc).trans hbytes⟩, congrArg Rlc.edgeSlot hrlc⟩⟩
    · exact (buildReport_tracks c k b).trans (if_pos hrun)

end Sys2Proof.Machine

/-! Receptions that are not handed on (R149 to R152, R172): the whole bytes of the bits, fragments, bad frames, and the valid frames
that the filter drops. -/

namespace Sys2Proof.Machine

variable {s : State} {f : ReceivedFrame} {bytes : List Byte} {bits : List Bool} {i j : Nat} {b : Byte}

/-! ## The whole bytes of received bits (R135, R149) -/

theorem length_lt_eight (h : ∀ b0 b1 b2 b3 b4 b5 b6 b7 rest, bits ≠ b0 :: b1 :: b2 :: b3 :: b4 :: b5 :: b6 :: b7 :: rest) :
    bits.length < 8 := by
  rcases bits with _ | ⟨b0, _ | ⟨b1, _ | ⟨b2, _ | ⟨b3, _ | ⟨b4, _ | ⟨b5, _ | ⟨b6, _ | ⟨b7, rest⟩⟩⟩⟩⟩⟩⟩⟩
  case cons.cons.cons.cons.cons.cons.cons.cons => exact absurd rfl (h _ _ _ _ _ _ _ _ _)
  all_goals simp

/-- Every eight bits make a byte; trailing bits are ignored (R149, log 31). -/
theorem wholeBytes_length (bits : List Bool) : (wholeBytes bits).length = bits.length / 8 := by
  induction bits using wholeBytes.induct with
  | case1 b0 b1 b2 b3 b4 b5 b6 b7 rest ih =>
    rw [wholeBytes, List.length_cons, ih]
    simp only [List.length_cons]
    omega
  | case2 bits h =>
    have hshort := length_lt_eight h
    rw [wholeBytes.eq_2 bits h, List.length_nil]
    omega

/-- Bit `j` of byte `i` is bit `8 * i + j` of the reception: least significant bit first (R135). -/
theorem wholeBytes_bit (hb : (wholeBytes bits)[i]? = some b) (hj : j < 8) : bits[8 * i + j]? = some (b.getLsbD j) := by
  induction bits using wholeBytes.induct generalizing i with
  | case1 b0 b1 b2 b3 b4 b5 b6 b7 rest ih =>
    rw [wholeBytes] at hb
    cases i with
    | zero =>
      obtain rfl := Option.some.inj hb
      have hbit := BitVec.getLsbD_ofBoolListLE (bs := [b0, b1, b2, b3, b4, b5, b6, b7]) (i := j)
      rw [show (BitVec.ofBoolListLE [b0, b1, b2, b3, b4, b5, b6, b7] : BitVec 8).getLsbD j = _ from hbit,
        List.getD_eq_getElem _ _ hj]
      show ([b0, b1, b2, b3, b4, b5, b6, b7] ++ rest)[8 * 0 + j]? = _
      rw [Nat.mul_zero, Nat.zero_add, List.getElem?_append_left hj, List.getElem?_eq_getElem hj]
    | succ i =>
      rw [show 8 * (i + 1) + j = 8 * i + j + 8 by omega]
      exact ih hb
  | case2 bits h =>
    rw [wholeBytes.eq_2 bits h] at hb
    cases hb

/-! ## Validity (R149, R150) -/

theorem validReception_iff (bytes : List Byte) : validReception bytes = true ↔ 64 ≤ bytes.length ∧ bytes.length ≤ 1024
    ∧ crcMatches bytes = true ∧ bytes.length = max 64 (fieldAt bytes 3 2 + 7) := by
  simp only [validReception, Bool.and_eq_true, decide_eq_true_eq, and_assoc]
  rfl

theorem judgeReception_fragment (h : bytes.length < 64) (s : State) : judgeReception bytes s = s := if_pos h

theorem judgeReception_bad (h : 64 ≤ bytes.length) (hv : validReception bytes = false) (s : State) :
    judgeReception bytes s = s.countBad := by
  rw [judgeReception, if_neg (by omega), if_neg (by rw [hv]; exact Bool.false_ne_true)]

/-! ## The filter (R152, R172) -/

/-- A code of no kind, 0 or above 6, is a bad frame (R172). -/
theorem filterFrame_unknown (hk : f.kind = 0 ∨ 6 < f.kind) : filterFrame f s = s.countBad := by
  have hkind : frameKind f.kind = none := by
    refine List.find?_eq_none.2 fun k _ => ?_
    have hcode : 1 ≤ k.code ∧ k.code ≤ 6 := by cases k <;> decide
    rw [beq_iff_eq]
    omega
  simp only [filterFrame, hkind]

/-- GAUGE and STATUS frames of other nodes are ignored (R152). -/
theorem filterFrame_ignored (hk : f.kind = 2 ∨ f.kind = 3) : filterFrame f s = s := by
  rcases hk with hk | hk
  · have hkind : frameKind f.kind = some .gauge := by rw [hk]; rfl
    simp only [filterFrame, hkind]
  · have hkind : frameKind f.kind = some .status := by rw [hk]; rfl
    simp only [filterFrame, hkind]

/-- CONFIG, QUERY and MARK frames for another slot are ignored (R152). -/
theorem filterFrame_foreign (hk : f.kind = 4 ∨ f.kind = 5 ∨ f.kind = 6) (ha : addressed s f = false) :
    filterFrame f s = s := by
  rcases hk with hk | hk | hk
  · have hkind : frameKind f.kind = some .config := by rw [hk]; rfl
    simp only [filterFrame, hkind, ha, Bool.false_eq_true, if_false]
  · have hkind : frameKind f.kind = some .query := by rw [hk]; rfl
    simp only [filterFrame, hkind, ha, Bool.false_eq_true, if_false]
  · have hkind : frameKind f.kind = some .mark := by rw [hk]; rfl
    simp only [filterFrame, hkind, ha, Bool.false_eq_true, if_false]

/-- EDGE frames of another source than a neighbour in force are ignored (R152). -/
theorem filterFrame_stranger (hk : f.kind = 1) (hs : s.sourceSide f.source = none) : filterFrame f s = s := by
  have hkind : frameKind f.kind = some .edge := by rw [hk]; rfl
  simp only [filterFrame, hkind, hs]

theorem addressed_eq_false (hslot : f.destination ≠ s.rca.slot) (hcast : f.destination ≠ 15) : addressed s f = false := by
  simp [addressed, hslot, hcast, Config.broadcast]

/-- Settles O42: the whole bytes are judged, and what each judgement leaves is a lemma; a sign of life touches neither slot nor
settings in force, by which the filter decides. -/
theorem frameNotTaken : Obligations.FrameNotTaken := by
  intro e heard bits s hheard bytes u v kind foreign
  have hexec : exec (.frameReceived e bits) s = .next (judgeReception bytes u) := exec_frameReceived hheard e bits
  have hframe : v = u.withRlc v.rlc := signOfLife_frame _ _
  have hrca : v.rca = s.rca := by rw [hframe]; rfl
  refine ⟨⟨wholeBytes_length _, fun i b hb j hj => wholeBytes_bit hb hj⟩, fun hshort => ?_, fun hlong hbad => ?_,
    fun hmin hmax hcrc hlength => ?_⟩
  · rw [hexec, judgeReception_fragment hshort]
  · have hinvalid : validReception bytes = false := Bool.eq_false_iff.2 fun hv => by
      obtain ⟨-, hmax, hcrc, hlength⟩ := (validReception_iff bytes).1 hv
      rcases hbad with hbad | hbad | hbad
      · omega
      · rw [hcrc] at hbad; cases hbad
      · exact hbad hlength
    rw [hexec, judgeReception_bad hlong hinvalid]
    rfl
  · have hvalid := (validReception_iff bytes).2 ⟨hmin, hmax, hcrc, hlength⟩
    rw [hexec, judgeReception_valid hvalid]
    refine ⟨fun hk => ?_, fun hk => ?_, fun hk hforeign => ?_, fun hk hside => ?_⟩
    · rw [filterFrame_unknown hk, ← hrca]; rfl
    · rw [filterFrame_ignored hk]
    · obtain ⟨hslot, hcast⟩ := hforeign
      rw [← hrca] at hslot
      rw [filterFrame_foreign hk (addressed_eq_false hslot hcast)]
    · rw [filterFrame_stranger hk]
      show v.sourceSide (fieldAt bytes 1 1) = none
      rw [State.sourceSide, State.settings, hrca]
      exact hside

end Sys2Proof.Machine

/-! EDGE payloads (R76, R172, R173, R177): fields at their offsets, which entries are well formed and what is read of them, and what
the node builds read back. -/

namespace Sys2Proof.Machine

variable {b q rest x : List Byte} {e : EdgeEntry} {es : List EdgeEntry} {source offset n m v : Nat} {i : Int}

/-! ## Fields of joined bytes (R169) -/

theorem fieldAt_append_left (h : offset + n ≤ q.length) (rest : List Byte) :
    fieldAt (q ++ rest) offset n = fieldAt q offset n := by
  have hlen : n ≤ (q.drop offset).length := by rw [List.length_drop]; omega
  rw [fieldAt, fieldAt, List.drop_append_of_le_length (by omega), List.take_append_of_le_length hlen]

theorem signedAt_append_left (h : offset + n ≤ q.length) (rest : List Byte) :
    signedAt (q ++ rest) offset n = signedAt q offset n := by
  rw [signedAt, signedAt, fieldAt_append_left h]

theorem fieldAt_append_right (h : x.length ≤ offset) (rest : List Byte) (n : Nat) :
    fieldAt (x ++ rest) offset n = fieldAt rest (offset - x.length) n := by
  rw [fieldAt, fieldAt, List.drop_append, List.drop_eq_nil_of_le h, List.nil_append]

theorem fieldAt_leBytes_skip (h : m ≤ offset) (v : Nat) (rest : List Byte) (n : Nat) :
    fieldAt (leBytes m v ++ rest) offset n = fieldAt rest (offset - m) n := by
  rw [fieldAt_append_right (by rwa [leBytes_length]), leBytes_length]

theorem fieldAt_leIntBytes_skip (h : m ≤ offset) (i : Int) (rest : List Byte) (n : Nat) :
    fieldAt (leIntBytes m i ++ rest) offset n = fieldAt rest (offset - m) n := fieldAt_leBytes_skip h _ _ _

theorem signedAt_leBytes_skip (h : m ≤ offset) (v : Nat) (rest : List Byte) (n : Nat) :
    signedAt (leBytes m v ++ rest) offset n = signedAt rest (offset - m) n := by
  rw [signedAt, signedAt, fieldAt_leBytes_skip h]

theorem signedAt_leIntBytes_skip (h : m ≤ offset) (i : Int) (rest : List Byte) (n : Nat) :
    signedAt (leIntBytes m i ++ rest) offset n = signedAt rest (offset - m) n := signedAt_leBytes_skip h _ _ _

theorem fieldAt_leBytes (h : v < 256 ^ n) (rest : List Byte) : fieldAt (leBytes n v ++ rest) 0 n = v := by
  rw [fieldAt_append_left (by simp), fieldAt, List.drop_zero, List.take_of_length_le (by simp), readLe_leBytes n v h]

theorem fieldAt_byte (h : v ≤ 255) (rest : List Byte) : fieldAt (leBytes 1 v ++ rest) 0 1 = v :=
  fieldAt_leBytes (by omega) rest

theorem fieldAt_word (h : v ≤ 65535) (rest : List Byte) : fieldAt (leBytes 2 v ++ rest) 0 2 = v :=
  fieldAt_leBytes (by omega) rest

/-- Two's complement is read back where the number fits: `2 * k` numbers of which the lower `k` are not negative. -/
theorem twosComplement_read {k : Nat} (hlow : -(k : Int) ≤ i) (hhigh : i < k) :
    (if (i % (2 * k : Nat)).toNat < k then ((i % (2 * k : Nat)).toNat : Int) else (i % (2 * k : Nat)).toNat - (2 * k : Nat))
      = i := by
  rcases Int.lt_or_le i 0 with hneg | hpos
  · have hmod : i % (2 * k : Nat) = i + (2 * k : Nat) := by
      rw [← Int.add_emod_right, Int.emod_eq_of_lt (by omega) (by omega)]
    rw [hmod, if_neg (by omega)]
    omega
  · have hmod : i % (2 * k : Nat) = i := Int.emod_eq_of_lt hpos (by omega)
    rw [hmod, if_pos (by omega)]
    omega

theorem signedAt_word (hlow : -32768 ≤ i) (hhigh : i ≤ 32767) (rest : List Byte) :
    signedAt (leIntBytes 2 i ++ rest) 0 2 = i := by
  rw [signedAt, leIntBytes, fieldAt_leBytes (by omega)]
  exact twosComplement_read (k := 32768) (by omega) (by omega)

theorem signedAt_long (hlow : -2147483648 ≤ i) (hhigh : i ≤ 2147483647) (rest : List Byte) :
    signedAt (leIntBytes 4 i ++ rest) 0 4 = i := by
  rw [signedAt, leIntBytes, fieldAt_leBytes (by omega)]
  exact twosComplement_read (k := 2147483648) (by omega) (by omega)

/-! ## One entry (R173, R177) -/

/-- The length of the entry at the head of the bytes: four bytes more where RELEASING (R173). -/
def entrySize (q : List Byte) : Nat := if fieldAt q 1 1 = 2 then 20 else 16

/-- The codes of a well-formed entry (R177). -/
def EntryCodes (q : List Byte) : Prop :=
  fieldAt q 0 1 ≤ 1 ∧ fieldAt q 1 1 ≤ 2 ∧ fieldAt q 2 1 ≤ 7 ∧ (fieldAt q 13 1 ≤ 7 ∨ fieldAt q 13 1 = 255)

/-- What stands in an entry, at the offsets of R173. -/
def readEntry (q : List Byte) : EdgeEntry where
  side := if fieldAt q 0 1 = 0 then .left else .right
  role := if fieldAt q 1 1 = 0 then .owner else if fieldAt q 1 1 = 1 then .shadow else .releasing (signedAt q 16 4)
  label := ⟨fieldAt q 2 1, fieldAt q 3 2⟩
  birth := signedAt q 5 4
  x := signedAt q 9 2
  z := fieldAt q 11 2
  former := if fieldAt q 13 1 = 255 then none else some ⟨fieldAt q 13 1, fieldAt q 14 2⟩

theorem entrySize_ge (q : List Byte) : 16 ≤ entrySize q := by
  rw [entrySize]
  split <;> omega

theorem sideCode_of_le (h : v ≤ 1) : sideCode v = some (if v = 0 then .left else .right) := by
  have hv : v = 0 ∨ v = 1 := by omega
  rcases hv with rfl | rfl <;> rfl

theorem sideCode_le {side : Side} (h : sideCode v = some side) : v ≤ 1 := by
  rcases v with _ | _ | v
  · omega
  · omega
  · cases h

theorem slotCode_of_code (h : v ≤ 7 ∨ v = 255) : slotCode v = some (if v = 255 then none else some v) := by
  rcases h with h | rfl
  · rw [slotCode, if_pos h, if_neg (by omega)]
  · rfl

theorem slotCode_code {o : Option Nat} (h : slotCode v = some o) : v ≤ 7 ∨ v = 255 :=
  (slotCode_isSome_iff v).1 (by rw [h]; rfl)

theorem parseEntry_of_codes (hc : EntryCodes b) (hlen : entrySize b ≤ b.length) :
    parseEntry b = some (readEntry b, b.drop (entrySize b)) := by
  obtain ⟨hside, hrole, horigin, hformer⟩ := hc
  have hgood : ¬ (2 < fieldAt b 1 1 ∨ 7 < fieldAt b 2 1 ∨ b.length < entrySize b) := by omega
  have hlabel : (if fieldAt b 13 1 = 255 then none else some (fieldAt b 13 1)).map (Label.mk · (fieldAt b 14 2))
      = (readEntry b).former := by
    simp only [readEntry]
    split <;> rfl
  simp only [parseEntry, sideCode_of_le hside, slotCode_of_code hformer, hlabel]
  exact if_neg hgood

theorem codes_of_parseEntry {p : EdgeEntry × List Byte} (h : parseEntry b = some p) :
    EntryCodes b ∧ entrySize b ≤ b.length := by
  rw [parseEntry] at h
  split at h
  case h_1 side former hside hformer =>
    by_cases hbad : 2 < fieldAt b 1 1 ∨ 7 < fieldAt b 2 1 ∨ b.length < entrySize b
    · cases (if_pos hbad).symm.trans h
    · exact ⟨⟨sideCode_le hside, by omega, by omega, slotCode_code hformer⟩, by omega⟩
  case h_2 => cases h

/-! What is read of an entry does not depend on the bytes after it. -/

theorem entrySize_append (h : 16 ≤ q.length) (rest : List Byte) : entrySize (q ++ rest) = entrySize q := by
  rw [entrySize, entrySize, fieldAt_append_left (by omega)]

theorem entryCodes_append (h : 16 ≤ q.length) (rest : List Byte) : EntryCodes (q ++ rest) ↔ EntryCodes q := by
  simp only [EntryCodes, fieldAt_append_left (show 0 + 1 ≤ q.length by omega),
    fieldAt_append_left (show 1 + 1 ≤ q.length by omega), fieldAt_append_left (show 2 + 1 ≤ q.length by omega),
    fieldAt_append_left (show 13 + 1 ≤ q.length by omega)]

theorem readEntry_append (h : entrySize q = q.length) (hc : EntryCodes q) (rest : List Byte) :
    readEntry (q ++ rest) = readEntry q := by
  have hge := entrySize_ge q
  have hrole : (if fieldAt q 1 1 = 0 then Role.owner else if fieldAt q 1 1 = 1 then .shadow
      else .releasing (signedAt (q ++ rest) 16 4)) = if fieldAt q 1 1 = 0 then .owner else if fieldAt q 1 1 = 1 then .shadow
      else .releasing (signedAt q 16 4) := by
    obtain ⟨-, hle, -⟩ := hc
    split
    · rfl
    · split
      · rfl
      · have hsize : entrySize q = 20 := if_pos (by omega)
        rw [signedAt_append_left (by omega)]
  simp only [readEntry, fieldAt_append_left (show 0 + 1 ≤ q.length by omega),
    fieldAt_append_left (show 1 + 1 ≤ q.length by omega), fieldAt_append_left (show 2 + 1 ≤ q.length by omega),
    fieldAt_append_left (show 3 + 2 ≤ q.length by omega), signedAt_append_left (show 5 + 4 ≤ q.length by omega),
    signedAt_append_left (show 9 + 2 ≤ q.length by omega), fieldAt_append_left (show 11 + 2 ≤ q.length by omega),
    fieldAt_append_left (show 13 + 1 ≤ q.length by omega), fieldAt_append_left (show 14 + 2 ≤ q.length by omega), hrole]

/-- A well-formed entry (R177): its codes name something, and it is as long as its role says. -/
def EntryFormed (q : List Byte) : Prop := EntryCodes q ∧ q.length = entrySize q

/-- An entry is parsed exactly where a well-formed one stands first. -/
theorem parseEntry_iff :
    parseEntry b = some (e, rest) ↔ ∃ q, b = q ++ rest ∧ EntryFormed q ∧ e = readEntry q := by
  constructor
  · intro h
    obtain ⟨hcodes, hlen⟩ := codes_of_parseEntry h
    rw [parseEntry_of_codes hcodes hlen] at h
    obtain ⟨rfl, rfl⟩ := Prod.mk.inj (Option.some.inj h)
    have hge := entrySize_ge b
    have hcut : b = b.take (entrySize b) ++ b.drop (entrySize b) := (List.take_append_drop _ _).symm
    have hq : (b.take (entrySize b)).length = entrySize b := by rw [List.length_take]; omega
    generalize hhead : b.take (entrySize b) = q at hcut hq
    generalize b.drop (entrySize b) = rest at hcut ⊢
    subst hcut
    have hlong : 16 ≤ q.length := by omega
    rw [entrySize_append hlong] at hq
    rw [entryCodes_append hlong] at hcodes
    exact ⟨q, rfl, ⟨hcodes, hq⟩, readEntry_append hq.symm hcodes rest⟩
  · rintro ⟨q, rfl, ⟨hcodes, hlen⟩, rfl⟩
    have hge := entrySize_ge q
    rw [parseEntry_of_codes ((entryCodes_append (by omega) rest).2 hcodes)
        (by rw [entrySize_append (by omega), List.length_append]; omega),
      entrySize_append (by omega), readEntry_append hlen.symm hcodes, ← hlen, List.drop_left]

/-! ## All entries, and the payload (R173, R177) -/

/-- Entries are parsed exactly where well-formed ones, as many as the count says, fill the bytes to the last. -/
theorem parseEntries_iff : parseEntries n b = some es ↔
    ∃ parts : List (List Byte), b = parts.flatten ∧ parts.length = n ∧ (∀ q ∈ parts, EntryFormed q)
      ∧ es = parts.map readEntry := by
  induction n generalizing b es with
  | zero =>
    constructor
    · intro h
      rw [parseEntries] at h
      split at h
      · rename_i hnil
        cases h
        exact ⟨[], List.isEmpty_iff.1 hnil, rfl, nofun, rfl⟩
      · cases h
    · rintro ⟨parts, rfl, hlen, -, rfl⟩
      obtain rfl := List.length_eq_zero_iff.1 hlen
      rfl
  | succ n ih =>
    constructor
    · intro h
      rw [parseEntries] at h
      split at h
      · rename_i e rest hfirst
        obtain ⟨tail, hrest, rfl⟩ := Option.map_eq_some_iff.1 h
        obtain ⟨q, rfl, hformed, rfl⟩ := parseEntry_iff.1 hfirst
        obtain ⟨parts, rfl, rfl, hall, rfl⟩ := ih.1 hrest
        exact ⟨q :: parts, rfl, rfl, List.forall_mem_cons.2 ⟨hformed, hall⟩, rfl⟩
      · cases h
    · rintro ⟨parts, rfl, hlen, hall, rfl⟩
      obtain ⟨q, parts, rfl⟩ := List.exists_cons_of_length_eq_add_one hlen
      obtain ⟨hformed, hall⟩ := List.forall_mem_cons.1 hall
      have hfirst : parseEntry ((q :: parts).flatten) = some (readEntry q, parts.flatten) :=
        parseEntry_iff.2 ⟨q, rfl, hformed, rfl⟩
      have hrest : parseEntries n parts.flatten = some (parts.map readEntry) :=
        ih.2 ⟨parts, rfl, Nat.succ.inj hlen, hall, rfl⟩
      simp only [parseEntries, hfirst, hrest, Option.map_some, List.map_cons]

/-- What stands in the header of an EDGE payload (R173), with given entries. -/
def readHeader (source : Nat) (b : List Byte) (es : List EdgeEntry) : EdgeReport where
  source := source
  bin := signedAt b 0 4
  left := fieldAt b 4 1
  right := fieldAt b 5 1
  centre := signedAt b 6 2
  heartbeat := decide (128 ≤ fieldAt b 8 1)
  entries := es

/-- A payload is parsed exactly where its header and its entries are well formed (R177). -/
theorem parseEdge_iff {r : EdgeReport} : parseEdge source b = some r ↔
    9 ≤ b.length ∧ fieldAt b 8 1 % 16 ≤ 8 ∧ fieldAt b 8 1 / 16 % 8 = 0 ∧ (128 ≤ fieldAt b 8 1 → fieldAt b 8 1 % 16 = 0)
      ∧ ∃ parts : List (List Byte), b.drop 9 = parts.flatten ∧ parts.length = fieldAt b 8 1 % 16
        ∧ (∀ q ∈ parts, EntryFormed q) ∧ r = readHeader source b (parts.map readEntry) := by
  simp only [parseEdge, decide_eq_true_eq]
  constructor
  · intro h
    split at h
    · cases h
    · rename_i hgood
      obtain ⟨es, hentries, rfl⟩ := Option.map_eq_some_iff.1 h
      obtain ⟨parts, hbytes, hcount, hformed, rfl⟩ := parseEntries_iff.1 hentries
      exact ⟨by omega, by omega, by omega, by omega, parts, hbytes, hcount, hformed, rfl⟩
  · rintro ⟨hlen, hcount, hzero, hbeat, parts, hbytes, hparts, hformed, rfl⟩
    rw [if_neg (by omega), parseEntries_iff.2 ⟨parts, hbytes, hparts, hformed, rfl⟩]
    rfl

/-! ## What the node builds (R172, R173) -/

/-- The ranges of R173 for an entry. -/
def EntryRanges (e : EdgeEntry) : Prop :=
  e.label.origin ≤ 7 ∧ e.label.serial ≤ 65535 ∧ -2147483648 ≤ e.birth ∧ e.birth ≤ 2147483647
    ∧ -32768 ≤ e.x ∧ e.x ≤ 32767 ∧ e.z ≤ 65535 ∧ (∀ l ∈ e.former, l.origin ≤ 7 ∧ l.serial ≤ 65535)
    ∧ ∀ j, e.role = .releasing j → -2147483648 ≤ j ∧ j ≤ 2147483647

theorem former_of_entryRanges (h : EntryRanges e) : ∀ l ∈ e.former, l.origin ≤ 7 ∧ l.serial ≤ 65535 := by
  obtain ⟨-, -, -, -, -, -, -, hformer, -⟩ := h
  exact hformer

theorem sideByte_le (side : Side) : sideByte side ≤ 1 := by cases side <;> decide

theorem roleCode_le (role : Role) : role.code ≤ 2 := by cases role <;> simp [Role.code]

theorem formerByte_code {former : Option Label} (h : ∀ l ∈ former, l.origin ≤ 7 ∧ l.serial ≤ 65535) :
    slotByte (former.map (·.origin)) ≤ 7 ∨ slotByte (former.map (·.origin)) = 255 := by
  cases former with
  | none => exact .inr rfl
  | some l => exact .inl (h l rfl).1

theorem formerSerial_le {former : Option Label} (h : ∀ l ∈ former, l.origin ≤ 7 ∧ l.serial ≤ 65535) :
    (former.map (·.serial)).getD 0 ≤ 65535 := by
  cases former with
  | none => exact Nat.zero_le _
  | some l => exact (h l rfl).2

/-- The bytes that only a RELEASING entry has: its start bin (R173). -/
def startBytes : Role → List Byte
  | .releasing j => leIntBytes 4 j
  | _ => []

/-- The bytes of an entry as its fields one after the other. -/
theorem entryBytes_eq (e : EdgeEntry) : entryBytes e =
    leBytes 1 (sideByte e.side) ++ (leBytes 1 e.role.code ++ (leBytes 1 e.label.origin ++ (leBytes 2 e.label.serial
      ++ (leIntBytes 4 e.birth ++ (leIntBytes 2 e.x ++ (leBytes 2 e.z
      ++ (leBytes 1 (slotByte (e.former.map (·.origin))) ++ (leBytes 2 ((e.former.map (·.serial)).getD 0)
      ++ startBytes e.role)))))))) := by
  simp only [entryBytes, List.append_assoc]
  cases e.role <;> rfl

theorem entryBytes_length (e : EdgeEntry) : (entryBytes e).length = if e.role.code = 2 then 20 else 16 := by
  rw [entryBytes_eq]
  cases e.role <;> simp [startBytes, Role.code]

/-- The codes of an entry as the node sends it. -/
theorem entryBytes_codes (h : EntryRanges e) : fieldAt (entryBytes e) 0 1 = sideByte e.side
    ∧ fieldAt (entryBytes e) 1 1 = e.role.code ∧ fieldAt (entryBytes e) 2 1 = e.label.origin
    ∧ fieldAt (entryBytes e) 13 1 = slotByte (e.former.map (·.origin)) := by
  have hside := sideByte_le e.side
  have hrole := roleCode_le e.role
  have hslot := formerByte_code (former_of_entryRanges h)
  obtain ⟨horigin, -⟩ := h
  rw [entryBytes_eq]
  refine ⟨fieldAt_byte (by omega) _, ?_, ?_, ?_⟩
  all_goals
    simp only [fieldAt_leBytes_skip, fieldAt_leIntBytes_skip, Nat.reduceLeDiff, Nat.reduceSub]
    exact fieldAt_byte (by omega) _

/-- The other fields of an entry as the node sends it. -/
theorem entryBytes_fields (h : EntryRanges e) : fieldAt (entryBytes e) 3 2 = e.label.serial
    ∧ signedAt (entryBytes e) 5 4 = e.birth ∧ signedAt (entryBytes e) 9 2 = e.x ∧ fieldAt (entryBytes e) 11 2 = e.z
    ∧ fieldAt (entryBytes e) 14 2 = (e.former.map (·.serial)).getD 0 := by
  have hformer := former_of_entryRanges h
  obtain ⟨-, hserial, hbirthLow, hbirthHigh, hxLow, hxHigh, hz, -⟩ := h
  rw [entryBytes_eq]
  simp only [fieldAt_leBytes_skip, fieldAt_leIntBytes_skip, signedAt_leBytes_skip, signedAt_leIntBytes_skip,
    Nat.reduceLeDiff, Nat.reduceSub]
  exact ⟨fieldAt_word hserial _, signedAt_long hbirthLow hbirthHigh _, signedAt_word hxLow hxHigh _, fieldAt_word hz _,
    fieldAt_word (formerSerial_le hformer) _⟩

/-- A RELEASING entry names its start bin at offset 16. -/
theorem entryBytes_start {j : Int} (h : EntryRanges e) (hrole : e.role = .releasing j) :
    signedAt (entryBytes e) 16 4 = j := by
  obtain ⟨-, -, -, -, -, -, -, -, hstart⟩ := h
  obtain ⟨hlow, hhigh⟩ := hstart j hrole
  rw [entryBytes_eq, hrole]
  simp only [signedAt_leBytes_skip, signedAt_leIntBytes_skip, Nat.reduceLeDiff, Nat.reduceSub, startBytes]
  rw [← List.append_nil (leIntBytes 4 j)]
  exact signedAt_long hlow hhigh []

theorem entryBytes_formed (h : EntryRanges e) : EntryFormed (entryBytes e) := by
  obtain ⟨hside, hrole, horigin, hformer⟩ := entryBytes_codes h
  refine ⟨?_, by rw [entryBytes_length, entrySize, hrole]⟩
  rw [EntryCodes, hside, hrole, horigin, hformer]
  exact ⟨sideByte_le _, roleCode_le _, h.1, formerByte_code (former_of_entryRanges h)⟩

/-- An entry is read back whole. -/
theorem readEntry_entryBytes (h : EntryRanges e) : readEntry (entryBytes e) = e := by
  obtain ⟨hside, hrole, horigin, hformer⟩ := entryBytes_codes h
  obtain ⟨hserial, hbirth, hx, hz, hformerSerial⟩ := entryBytes_fields h
  have hstart := fun j => entryBytes_start (j := j) h
  have hranges := former_of_entryRanges h
  simp only [readEntry, hside, hrole, horigin, hserial, hbirth, hx, hz, hformer, hformerSerial]
  generalize signedAt (entryBytes e) 16 4 = start at hstart
  obtain ⟨side, role, label, birth, x, z, former⟩ := e
  have hsideBack : (if sideByte side = 0 then Side.left else Side.right) = side := by cases side <;> rfl
  have hroleBack : (if role.code = 0 then Role.owner else if role.code = 1 then .shadow else .releasing start) = role := by
    cases role with
    | owner => rfl
    | shadow => rfl
    | releasing j => exact congrArg Role.releasing (hstart j rfl)
  have hformerBack : (if slotByte (former.map (·.origin)) = 255 then none
      else some ⟨slotByte (former.map (·.origin)), (former.map (·.serial)).getD 0⟩) = former := by
    cases former with
    | none => rfl
    | some l =>
      obtain ⟨hle, -⟩ := hranges l rfl
      exact if_neg (show l.origin ≠ 255 by omega)
  rw [hsideBack, hroleBack, hformerBack]

/-- An absent former label is sent as FFh with serial 0 (R173). -/
theorem entryBytes_former_none (h : e.former = none) :
    fieldAt (entryBytes e) 13 1 = 255 ∧ fieldAt (entryBytes e) 14 2 = 0 := by
  rw [entryBytes_eq, h]
  simp only [fieldAt_leBytes_skip, fieldAt_leIntBytes_skip, Nat.reduceLeDiff, Nat.reduceSub]
  exact ⟨fieldAt_byte (Nat.le_refl 255) _, fieldAt_word (Nat.zero_le _) _⟩

/-! ## A whole report -/

/-- Offset 8 of an EDGE payload (R173). -/
def infoByte (r : EdgeReport) : Nat := r.entries.length + if r.heartbeat then 128 else 0

theorem edgePayload_eq (r : EdgeReport) : edgePayload r =
    leIntBytes 4 r.bin ++ (leBytes 1 r.left ++ (leBytes 1 r.right ++ (leIntBytes 2 r.centre
      ++ (leBytes 1 (infoByte r) ++ r.entries.flatMap entryBytes)))) := by
  simp only [edgePayload, List.append_assoc]
  rfl

theorem edgePayload_drop (r : EdgeReport) : (edgePayload r).drop 9 = r.entries.flatMap entryBytes :=
  List.drop_left' (by simp)

theorem edgePayload_length (r : EdgeReport) :
    (edgePayload r).length = 9 + (r.entries.flatMap entryBytes).length := by
  simp only [edgePayload_eq, List.length_append, leBytes_length, leIntBytes_length]
  omega

theorem entriesBytes_length_le (es : List EdgeEntry) : (es.flatMap entryBytes).length ≤ 20 * es.length := by
  induction es with
  | nil => exact Nat.le_refl _
  | cons e es ih =>
    have hentry : (entryBytes e).length ≤ 20 := by rw [entryBytes_length]; split <;> omega
    rw [List.flatMap_cons, List.length_append, List.length_cons]
    omega

theorem infoByte_le {r : EdgeReport} (h : r.entries.length ≤ 8) : infoByte r ≤ 255 := by
  rw [infoByte]
  split <;> omega

/-- Offset 8 of the payload gives back the count and the heartbeat bit. -/
theorem infoByte_read {r : EdgeReport} (h : r.entries.length ≤ 8) : infoByte r % 16 = r.entries.length
    ∧ infoByte r / 16 % 8 = 0 ∧ (128 ≤ infoByte r ↔ r.heartbeat = true) := by
  rw [infoByte]
  cases r.heartbeat with
  | false =>
    rw [if_neg Bool.false_ne_true]
    exact ⟨by omega, by omega, fun _ => by omega, nofun⟩
  | true =>
    rw [if_pos rfl]
    exact ⟨by omega, by omega, fun _ => rfl, fun _ => by omega⟩

/-- The header of an EDGE payload is read back (R173). -/
theorem edgePayload_info {r : EdgeReport} (h : r.entries.length ≤ 8) : fieldAt (edgePayload r) 8 1 = infoByte r := by
  rw [edgePayload_eq]
  simp only [fieldAt_leBytes_skip, fieldAt_leIntBytes_skip, Nat.reduceLeDiff, Nat.reduceSub]
  exact fieldAt_byte (infoByte_le h) _

theorem readHeader_edgePayload {r : EdgeReport} (hbinLow : -2147483648 ≤ r.bin) (hbinHigh : r.bin ≤ 2147483647)
    (hleft : r.left ≤ 255) (hright : r.right ≤ 255) (hcentreLow : -32768 ≤ r.centre) (hcentreHigh : r.centre ≤ 32767)
    (hcount : r.entries.length ≤ 8) : readHeader r.source (edgePayload r) r.entries = r := by
  have hbin : signedAt (edgePayload r) 0 4 = r.bin := by
    rw [edgePayload_eq]
    exact signedAt_long hbinLow hbinHigh _
  have hrest : fieldAt (edgePayload r) 4 1 = r.left ∧ fieldAt (edgePayload r) 5 1 = r.right
      ∧ signedAt (edgePayload r) 6 2 = r.centre := by
    rw [edgePayload_eq]
    simp only [fieldAt_leBytes_skip, fieldAt_leIntBytes_skip, signedAt_leBytes_skip, signedAt_leIntBytes_skip,
      Nat.reduceLeDiff, Nat.reduceSub]
    exact ⟨fieldAt_byte hleft _, fieldAt_byte hright _, signedAt_word hcentreLow hcentreHigh _⟩
  obtain ⟨hl, hr, hc⟩ := hrest
  obtain ⟨-, -, hbeat⟩ := infoByte_read hcount
  simp only [readHeader, hbin, hl, hr, hc, edgePayload_info hcount, hbeat, Bool.decide_eq_true]

/-- A report within its ranges is read back whole from the payload the node builds for it. -/
theorem parseEdge_edgePayload {r : EdgeReport} (hheader : readHeader r.source (edgePayload r) r.entries = r)
    (hcount : r.entries.length ≤ 8) (hbeat : r.heartbeat = true → r.entries = [])
    (hranges : ∀ e ∈ r.entries, EntryRanges e) : parseEdge r.source (edgePayload r) = some r := by
  obtain ⟨hinfo, hzero, hbit⟩ := infoByte_read hcount
  have hread : (r.entries.map entryBytes).map readEntry = r.entries := by
    rw [List.map_map]
    exact (List.map_congr_left fun e he => readEntry_entryBytes (hranges e he)).trans (List.map_id _)
  rw [parseEdge_iff, edgePayload_info hcount, edgePayload_length, edgePayload_drop]
  refine ⟨by omega, by omega, hzero, fun hb => ?_, r.entries.map entryBytes, List.flatMap_def, ?_, ?_, ?_⟩
  · rw [hinfo, hbeat (hbit.1 hb), List.length_nil]
  · rw [List.length_map, hinfo]
  · intro q hq
    obtain ⟨e, he, rfl⟩ := List.mem_map.1 hq
    exact entryBytes_formed (hranges e he)
  · rw [hread, hheader]

/-! ## A frame proper is valid and is read back (R136, R150) -/

variable {destination sender : Nat} {kind : FrameKind} {payload : List Byte}

theorem frameBody_length : (frameBody destination sender kind payload).length = properLength payload.length - 2 := by
  simp only [frameBody, List.length_append, leBytes_length, List.length_replicate, properLength]
  omega

theorem frameProper_eq : frameProper destination sender kind payload =
    leBytes 1 destination ++ (leBytes 1 sender ++ (leBytes 1 kind.code ++ (leBytes 2 payload.length ++ (payload
      ++ (List.replicate (57 - payload.length) 0#8
      ++ leBytes 2 (crc (frameBody destination sender kind payload)).toNat))))) := by
  simp only [frameProper, frameBody, List.append_assoc]

theorem crcMatches_frameProper : crcMatches (frameProper destination sender kind payload) = true := by
  have hbody : (frameProper destination sender kind payload).length - 2
      = (frameBody destination sender kind payload).length := by rw [frameProper_length, frameBody_length]
  rw [crcMatches, hbody, frameProper, List.take_left, List.drop_left, readLe_leBytes 2 _ (BitVec.isLt _), beq_self_eq_true]

/-- The header of a frame proper is read back (R171). -/
theorem frameProper_fields (hd : destination ≤ 255) (hs : sender ≤ 255) (hp : payload.length ≤ 65535) :
    fieldAt (frameProper destination sender kind payload) 0 1 = destination
    ∧ fieldAt (frameProper destination sender kind payload) 1 1 = sender
    ∧ fieldAt (frameProper destination sender kind payload) 2 1 = kind.code
    ∧ fieldAt (frameProper destination sender kind payload) 3 2 = payload.length := by
  have hk : kind.code ≤ 255 := by cases kind <;> decide
  rw [frameProper_eq]
  simp only [fieldAt_leBytes_skip, Nat.reduceLeDiff, Nat.reduceSub]
  exact ⟨fieldAt_byte hd _, fieldAt_byte hs _, fieldAt_byte hk _, fieldAt_word hp _⟩

theorem frameProper_payload : ((frameProper destination sender kind payload).drop 5).take payload.length = payload := by
  have hdrop : (frameProper destination sender kind payload).drop 5 = payload ++ (List.replicate (57 - payload.length) 0#8
      ++ leBytes 2 (crc (frameBody destination sender kind payload)).toNat) := by
    simp only [frameProper, frameBody, List.append_assoc]
    rfl
  rw [hdrop, List.take_left]

theorem validReception_frameProper (hd : destination ≤ 255) (hs : sender ≤ 255) (hp : payload.length ≤ 1017) :
    validReception (frameProper destination sender kind payload) = true := by
  obtain ⟨-, -, -, hlen⟩ := frameProper_fields (kind := kind) hd hs (show payload.length ≤ 65535 by omega)
  rw [validReception_iff, hlen, frameProper_length, properLength]
  exact ⟨by omega, by omega, crcMatches_frameProper, rfl⟩

theorem parseFrame_frameProper (hd : destination ≤ 255) (hs : sender ≤ 255) (hp : payload.length ≤ 65535) :
    parseFrame (frameProper destination sender kind payload) = ⟨destination, sender, kind.code, payload⟩ := by
  obtain ⟨hdst, hsrc, hkind, hlen⟩ := frameProper_fields (kind := kind) hd hs hp
  rw [parseFrame, hdst, hsrc, hkind, hlen, frameProper_payload]

/-- Settles O51: the parser by `parseEdge_iff`, the frame by the laws of any frame proper, and the round trip by reading each field
where it was laid out. -/
theorem edgeReportRoundTrip : Obligations.EdgeReportRoundTrip := by
  refine ⟨fun source b r => ?_, fun r => ⟨rfl, rfl, edgePayload_drop r, fun e => entryBytes_former_none, ?_⟩, ?_⟩
  · have hiff := parseEdge_iff (source := source) (b := b) (r := r)
    simp only [EntryFormed, EntryCodes, entrySize, and_assoc] at hiff
    exact hiff
  · intro hsource hcount
    have hentries := entriesBytes_length_le r.entries
    have hlen := edgePayload_length r
    exact ⟨validReception_frameProper (by decide) hsource (by omega),
      parseFrame_frameProper (by decide) hsource (by omega)⟩
  · intro r hbinLow hbinHigh hleft hright hcentreLow hcentreHigh hcount hbeat hranges
    exact parseEdge_edgePayload (readHeader_edgePayload hbinLow hbinHigh hleft hright hcentreLow hcentreHigh hcount)
      hcount hbeat hranges

end Sys2Proof.Machine

/-! The wear arithmetic, the making of a record and the mark of a MARK application (R104 to R109, R111, R112, R116 to R118, R124).
The theorems that settle WearSample and FullRecord stand under a name of their own: the model's functions bear theirs already. -/

namespace Sys2Proof.Machine

variable {s : State} {c : Settings} {w : WireType} {q : Int} {index width radius root : Nat}

/-! ## The three stages of the residual computation (R106 to R108) -/

theorem wearSample_noFlat (h : correctedWidth w width < 50) :
    wearSample w index width = ⟨w.nominal, (correctedWidth w width).toNat, .noFlat, index⟩ := if_pos h

theorem wearSample_beyond (h : 50 ≤ correctedWidth w width) (hq : chordTerm w (correctedWidth w width) ≤ 0) :
    wearSample w index width = ⟨w.nominal - w.radius, (correctedWidth w width).toNat, .beyond, index⟩ :=
  (if_neg h.not_gt).trans (if_pos hq)

theorem wearSample_measured (h : 50 ≤ correctedWidth w width) (hq : 0 < chordTerm w (correctedWidth w width)) :
    wearSample w index width =
      ⟨w.nominal - removedHeight w.radius (integerRoot (chordTerm w (correctedWidth w width)).toNat),
        (correctedWidth w width).toNat, .measured, index⟩ :=
  (if_neg h.not_gt).trans (if_neg hq.not_ge)

/-! ## The chord term and its root (R107, R108) -/

theorem chordTerm_le {x : Int} (hr : w.radius ≤ 1000) (hx : 50 ≤ x) : chordTerm w x ≤ 3997500 := by
  have hradius : (w.radius : Int) ^ 2 ≤ 1000 ^ 2 := pow_le_pow_left₀ (by omega) (by omega) 2
  have hwidth : 50 ^ 2 ≤ x ^ 2 := pow_le_pow_left₀ (by omega) hx 2
  unfold chordTerm
  omega

theorem chordTerm_lt_diameter_sq {x : Int} (hx : 50 ≤ x) : chordTerm w x < (2 * (w.radius : Int)) ^ 2 := by
  have hwidth : 0 < x ^ 2 := pow_pos (by omega) 2
  rw [chordTerm, mul_pow]
  omega

theorem integerRoot_sq_bounds (hq : 0 < q) (h : q < 2 ^ 22) :
    (integerRoot q.toNat : Int) ^ 2 ≤ q ∧ q < ((integerRoot q.toNat : Int) + 1) ^ 2 := by
  obtain ⟨hle, hlt⟩ := integerRoot_bounds q.toNat (by omega)
  have hcast : ((q.toNat : Nat) : Int) = q := Int.toNat_of_nonneg hq.le
  rw [← hcast, pow_two, pow_two]
  exact ⟨mod_cast hle, mod_cast hlt⟩

theorem root_pos (hq : 0 < q) (hlt : q < ((root : Int) + 1) ^ 2) : 1 ≤ root := by
  by_contra h
  obtain rfl : root = 0 := by omega
  norm_num at hlt
  omega

theorem root_lt_of_sq_le {bound : Nat} (hle : (root : Int) ^ 2 ≤ q) (hq : q < (bound : Int) ^ 2) : root < bound := by
  have hroot : (root : Int) < bound := lt_of_pow_lt_pow_left₀ 2 (Int.natCast_nonneg _) (hle.trans_lt hq)
  exact mod_cast hroot

/-! ## The removed height (R108) -/

theorem removedHeight_cast (h : root ≤ 2 * radius) :
    (removedHeight radius root : Int) = (2 * (radius : Int) - root + 1) / 2 := by
  unfold removedHeight
  omega

theorem removedHeight_range (h : root < 2 * radius) :
    1 ≤ removedHeight radius root ∧ removedHeight radius root ≤ radius := by
  unfold removedHeight
  omega

/-- The exact cap height, rounded up, is the half difference of diameter and integer root, rounded half up: the exact root lies
less than one above the integer root, so the exact height lies less than a half below the half difference. -/
theorem ceil_capHeight (hle : (root : Int) ^ 2 ≤ q) (hlt : q < ((root : Int) + 1) ^ 2) :
    ⌈(2 * (radius : ℝ) - Real.sqrt (q : ℝ)) / 2⌉ = (2 * (radius : Int) - root + 1) / 2 := by
  have hroot : (root : ℝ) ≤ Real.sqrt q := Real.le_sqrt_of_sq_le (mod_cast hle)
  have hroot' : Real.sqrt q < (root : ℝ) + 1 := (Real.sqrt_lt' (by positivity)).2 (mod_cast hlt)
  obtain ⟨h, hh⟩ : ∃ h, (2 * (radius : Int) - root + 1) / 2 = h := ⟨_, rfl⟩
  have hlow : 2 * h - 1 ≤ 2 * (radius : Int) - root := by omega
  have hhigh : 2 * (radius : Int) - root ≤ 2 * h := by omega
  have hlow' : 2 * (h : ℝ) - 1 ≤ 2 * (radius : ℝ) - root := mod_cast hlow
  have hhigh' : 2 * (radius : ℝ) - root ≤ 2 * (h : ℝ) := mod_cast hhigh
  rw [hh, Int.ceil_eq_iff]
  constructor <;> linarith

/-- A chord term above 0: its root, the removed height and their ranges (R107, R108). -/
theorem measured_stage {x : Int} (hr : w.radius ≤ 1000) (hx : 50 ≤ x) (hq : 0 < chordTerm w x) :
    ∃ root, root = integerRoot (chordTerm w x).toNat ∧ (root : Int) ^ 2 ≤ chordTerm w x
      ∧ chordTerm w x < ((root : Int) + 1) ^ 2 ∧ 1 ≤ root ∧ root < 2 * w.radius := by
  have hle := chordTerm_le hr hx
  obtain ⟨hroot, hroot'⟩ := integerRoot_sq_bounds hq (by omega)
  exact ⟨_, rfl, hroot, hroot', root_pos hq hroot', root_lt_of_sq_le hroot (mod_cast chordTerm_lt_diameter_sq hx)⟩

/-- From a corrected width of 50 up, every sample shows some wear (R108, R109). -/
theorem wearSample_residual_lt (hr : 1 ≤ w.radius) (hr' : w.radius ≤ 1000) (hn : 1 ≤ w.nominal)
    (hx : 50 ≤ correctedWidth w width) : (wearSample w index width).residual < w.nominal := by
  rcases le_or_gt (chordTerm w (correctedWidth w width)) 0 with hq | hq
  · rw [wearSample_beyond hx hq]
    exact Nat.sub_lt hn hr
  · obtain ⟨root, hroot, -, -, -, hlt⟩ := measured_stage hr' hx hq
    rw [wearSample_measured hx hq, ← hroot]
    exact Nat.sub_lt hn (removedHeight_range hlt).1

/-- Settles O19: one stage of the computation for each case; the root is exact, and the rounding of the height cancels what the
root leaves off. -/
theorem Residual.wearSample : Obligations.WearSample := by
  intro w index width hr hr' _ x q r
  refine ⟨wearSample_noFlat, wearSample_beyond, fun hx hq => ?_,
    fun hx hn => wearSample_residual_lt (by omega) hr' hn hx, (wearSample_range w index width).1⟩
  obtain ⟨root, hroot, hle, hlt, hpos, hdiameter⟩ := measured_stage hr' hx hq
  have hcast := removedHeight_cast hdiameter.le
  obtain ⟨hh, hh'⟩ := removedHeight_range hdiameter
  exact ⟨root, removedHeight w.radius root, hle, hlt, hcast, hcast.trans (ceil_capHeight hle hlt).symm, hpos, by omega,
    by omega, chordTerm_le hr' hx, hh, hh', hroot ▸ wearSample_measured hx hq⟩

/-! ## The making of a record (R111, R112, R116 to R118) -/

/-- The mean is the sum over the count, rounded to the nearest whole number with a half upward (R116). -/
theorem mean_bounds (sum : Int) {n : Nat} (hn : 1 ≤ n) :
    2 * n * mean sum n ≤ 2 * sum + n ∧ 2 * sum + n < 2 * n * (mean sum n + 1) := by
  have hpos : (0 : Int) < 2 * n := by omega
  rw [mul_add_one, mean, Nat.cast_mul, Nat.cast_ofNat]
  exact ⟨Int.mul_ediv_self_le hpos.ne', Int.lt_mul_ediv_self_add hpos⟩

theorem height_bounds {a : Accumulator} (hn : 1 ≤ a.count) :
    2 * a.count * height a ≤ 2 * a.sumZ + a.count ∧ 2 * a.sumZ + a.count < 2 * a.count * (height a + 1) :=
  ⟨Nat.mul_div_le _ _, Nat.lt_mul_div_succ _ (by omega)⟩

theorem belowWearLimit_iff (c : Settings) (m : Option WearSample) : belowWearLimit c m = true ↔
    ∃ x w, m = some x ∧ c.wireTypes[x.type]? = some w ∧ x.residual < w.limit := by
  cases m with
  | none => simp [belowWearLimit]
  | some x => cases h : c.wireTypes[x.type]? <;> simp [belowWearLimit, h]

theorem beyondStagger_iff (c : Settings) (x : Int) :
    beyondStagger c x = true ↔ c.staggerLimit ≠ 0 ∧ (c.staggerLimit : Int) < |x| := by
  rw [← Int.natCast_natAbs, Nat.cast_lt]
  simp [beyondStagger]

/-- Settles O20: the means by `mean_bounds` and `height_bounds`, each flag by what sets it; the NO_SAMPLE record and the latches
are as defined. -/
theorem MadeRecord.fullRecord : Obligations.FullRecord := by
  refine ⟨fun c final l a hn => ?_, fun _ _ _ => rfl, fun _ _ => rfl⟩
  obtain ⟨hmean, hmean'⟩ := mean_bounds a.sumX hn
  obtain ⟨hheight, hheight'⟩ := height_bounds hn
  exact ⟨⟨mean a.sumX a.count, hmean, hmean', rfl⟩, hheight, hheight', rfl, rfl, rfl, rfl, rfl, rfl, rfl, rfl, rfl, rfl,
    hasClass_iff _ _, hasClass_iff _ _, belowWearLimit_iff c _, beyondStagger_iff c _⟩

/-! ## The mark (R104, R124) -/

/-- The current type after a MARK: an index that names no entry leaves it as it was (R104). -/
def markedType (c : Settings) (type current : Option Nat) : Option Nat :=
  match type with
  | some i => if i < c.wireTypes.length then some i else current
  | none => current

theorem applyMark_eq (c : Settings) (number : Nat) (type : Option Nat) (s : State) :
    applyMark c number type s = { s with
      wau := ⟨markedType c type s.wau.currentType⟩
      tt := { s.tt with tracks := s.tt.tracks.map fun u => { u with mark := some number } } } := by
  cases type with
  | none => rfl
  | some i =>
    unfold applyMark markedType
    simp only
    split <;> rfl

theorem execMarkApplication_eq {e number : Nat} {type : Option Nat} {rest : List Request}
    (hr : s.tt.requests = .mark number type :: rest) (ho : s.tt.isOpen = true) (hc : s.settings = some c) :
    exec (.markApplication e) s = .next (applyMark c number type (s.takeRequest e rest)).served := by
  have hc' : (s.elapse e).settings = some c := hc
  show execMarkApplication e s = _
  simp [execMarkApplication, serveNext, hr, ho, hc', State.takeRequest]

/-- Settles O34: the application is the oldest request, and `applyMark_eq` says the whole of its effect. -/
theorem markApplication : Obligations.MarkApplication := by
  intro e number type rest c s hr ho hc
  rw [execMarkApplication_eq hr ho hc, applyMark_eq]
  rfl

end Sys2Proof.Machine

/-! The entry of a record into the queue, with the marks it takes there (R121 to R123, R133), and the forming of a GAUGE frame
(R129, R131, R133). -/

namespace Sys2Proof.Machine

variable {s : State} {t : Track} {r : Record} {c : Settings} {l g : Int}

/-! ## The entry marks (R122) -/

theorem gapCount_within (h : g ≤ l + 1) : gapCount (some l) g = none := if_neg (not_lt.2 h)

theorem gapCount_beyond (h : l + 1 < g) : gapCount (some l) g = some (min (g - l - 1).toNat 65535) := if_pos h

theorem entryOf_gap {last : Option Int} (h : t.lastQueued = last) : (t.entryOf r).gap = gapCount last r.gpi := by
  rw [← h]; rfl

/-- Settles O22: the gap count in its four cases; the other marks are copied. -/
theorem entryMarks : Obligations.EntryMarks := by
  intro r t
  refine ⟨rfl, fun hl => entryOf_gap hl, fun l hl hle => ?_, fun l hl hlt hle => ?_, fun l hl hlt => ?_, rfl⟩
  · rw [entryOf_gap hl, gapCount_within hle]
  · refine ⟨(r.gpi - l - 1).toNat, ?_, by omega⟩
    rw [entryOf_gap hl, gapCount_beyond hlt, min_eq_left (by omega)]
  · rw [entryOf_gap hl, gapCount_beyond (by omega), min_eq_right (by omega)]

/-! ## The four outcomes of an offer (R121, R133) -/

theorem covers_eq_false (h : ∀ l, t.lastQueued = some l → l < r.gpi) : t.covers r = false := by
  cases hl : t.lastQueued with
  | none => simp only [Track.covers, hl]
  | some l => exact Bool.eq_false_iff.2 fun hc => absurd ((covers_iff hl).1 hc) (not_le.2 (h l hl))

theorem offer_pastLimit (h : s.rq.pastLimit = true) : offer r t s = (t, s.countDrainLoss 1) := if_pos h

theorem offer_refused (hlimit : s.rq.pastLimit = false) (hc : t.covers r = false) (hfull : 64 ≤ s.rq.count) :
    offer r t s = (t, s.refuseRecord) := by
  simp [offer, hlimit, hc, Config.queuePlaces, hfull]

theorem testForm_counters (s : State) : (testForm s).rca.counters = s.rca.counters := by
  obtain h | ⟨-, h⟩ := testForm_cases s <;> rw [h]
  rw [arbitrate_counters]; rfl

/-- Settles O21: each outcome is the offer's own lemma; an entry adds its record at the tail, and the test of R129 after it moves
none past another. -/
theorem recordOffered : Obligations.RecordOffered := by
  intro r t s
  refine ⟨fun hlimit => offer_pastLimit hlimit, fun hlimit ⟨l, hl, hle⟩ => offer_covered hlimit ((covers_iff hl).2 hle),
    fun hlimit hnew hfull => ⟨_, offer_refused hlimit (covers_eq_false hnew) hfull,
      latched_setLatch_self s .queueFull, rfl, rfl⟩,
    fun hlimit hnew hroom => ⟨_, offer_enters hlimit (covers_eq_false hnew) hroom, rfl, ?_, testForm_counters _, rfl⟩⟩
  calc (testForm (s.enqueue (t.entryOf r))).rq.records = (s.enqueue (t.entryOf r)).rq.records := testForm_records _
    _ = s.rq.records ++ [⟨t.entryOf r, s.now⟩] := (List.append_assoc ..).symm

/-! ## The forming of a GAUGE frame (R129) -/

theorem gaugeDue_iff (s : State) (c : Settings) : gaugeDue s c = true ↔ s.rq.queued ≠ []
    ∧ (c.drainThreshold ≤ s.rq.queued.length ∨ (∃ q, s.rq.queued.head? = some q ∧ q.entered + c.ageLimit * 1000000 ≤ s.now)
      ∨ s.rca.node = .draining) := by
  cases hq : s.rq.queued with
  | nil => simp [gaugeDue, hq]
  | cons q qs =>
    simp only [gaugeDue, hq, Bool.or_eq_true, decide_eq_true_eq, or_assoc, ne_eq, reduceCtorEq, not_false_eq_true, true_and,
      List.head?_cons, Option.some.injEq, exists_eq_left']
    rfl

theorem canForm_iff (hc : s.settings = some c) : canForm s = true ↔
    s.rq.inFrame = [] ∧ s.rq.hold = none ∧ s.rq.pastLimit = false ∧ gaugeDue s c = true := by
  simp only [canForm, hc, Bool.and_eq_true, List.isEmpty_iff, Option.isNone_iff_eq_none, Bool.not_eq_true', and_assoc]

/-- Settles O36: the test forms a frame exactly where `canForm` allows it. -/
theorem gaugeFrameForms : Obligations.GaugeFrameForms := by
  intro c s hc due
  have hdue : canForm s = true ↔ due := by rw [canForm_iff hc, gaugeDue_iff]
  exact ⟨fun h => if_pos (hdue.2 h), fun h => if_neg fun hform => h (hdue.1 hform)⟩

end Sys2Proof.Machine

/-! The end of an attempt cycle (R131, R133, R138 to R140, R160), the bits of a frame on the pair (R135), and the timers of the
link and the record queue (R130, R131, R147). -/

namespace Sys2Proof.Machine

variable {s : State} {c : Settings} {e n i ends since draw : Nat} {source : FrameSource} {bytes : List Byte}

/-! ## A frame leaves the transmitter -/

theorem stopDriving_eq (s : State) : s.stopDriving = { s with rlc := { s.rlc with
    lastQuiet := if s.rlc.carrier = none then s.now else s.rlc.lastQuiet } } := by
  unfold State.stopDriving
  cases hcarrier : s.rlc.carrier <;> simp [State.withRlc]

/-- The node has stopped driving the pair, and the transmitter is free. -/
def State.released (s : State) : State := s.stopDriving.withTx .free

theorem released_eq (s : State) : s.released = { s with rlc := { s.rlc with
    tx := .free, lastQuiet := if s.rlc.carrier = none then s.now else s.rlc.lastQuiet } } := by
  rw [State.released, stopDriving_eq]; rfl

/-! ## The end of a jam (R139, R140) -/

theorem exec_jamEnd (htx : s.rlc.tx = .busy source bytes n (.jam ends)) (hdue : ends ≤ s.now + e) :
    exec (.jamEnd e draw) s = .next (endJam source bytes n draw (s.elapse e)) := by
  show execJamEnd e draw s = _
  simp only [execJamEnd, State.elapse_rlc, htx, State.elapse_now, hdue, if_true]

theorem endJam_retries (h : n + 1 < 16) : endJam source bytes n draw s =
    s.stopDriving.withTx (.busy source bytes (n + 1) (backoffPhase s.stopDriving (draw % 2 ^ min (n + 1) 10))) := if_pos h

theorem endJam_abandons (h : 15 ≤ n) :
    endJam source bytes n draw s = testDrainEnd (frameAbandoned source s.released) :=
  if_neg (by simp only [Config.attempts]; omega)

/-- What the source of an abandoned frame does (R131, R133, R160). -/
def FrameSource.takeBack (source : FrameSource) (s : State) : State :=
  match source with
  | .edge _ => s
  | .status drainEnd => s.statusEnded drainEnd
  | .gauge => s.returnRecords

theorem frameAbandoned_eq (source : FrameSource) (s : State) :
    frameAbandoned source s = source.takeBack (s.countAbandoned.setLatch .collisionLimit) := by
  cases source <;> rfl

/-- Before the drain limit the records of an abandoned GAUGE frame return to the head of the queue, for a hold period (R131). -/
theorem returnRecords_before (h : s.rq.pastLimit = false) : s.returnRecords = s.withRq { s.rq with
    inFrame := [], queued := s.rq.inFrame ++ s.rq.queued, hold := some (s.now + holdTime) } := by
  simp only [State.returnRecords, h, Bool.false_eq_true, if_false]

/-- After the drain limit they are drain loss (R133). -/
theorem returnRecords_after (h : s.rq.pastLimit = true) :
    s.returnRecords = (s.countDrainLoss s.rq.inFrame.length).withRq { s.rq with inFrame := [] } := if_pos h

/-- Settles O38: below sixteen attempts the frame tries again, after the sixteenth its source takes it back. -/
theorem jamEnd : Obligations.JamEnd := by
  intro e draw n ends source bytes s htx hdue r quiet u
  have hexec := exec_jamEnd (draw := draw) htx hdue
  have hreleased : (s.elapse e).released.countAbandoned.setLatch .collisionLimit = u := by rw [released_eq]; rfl
  have habandon (hn : 15 ≤ n) : exec (.jamEnd e draw) s = .next (testDrainEnd (source.takeBack u)) := by
    rw [hexec, endJam_abandons hn, frameAbandoned_eq, hreleased]
  refine ⟨fun hn => ?_, fun bin hn hs => ?_, fun hn hs => ?_, fun hn hs => ?_, fun hn hs hlimit => ?_,
    fun hn hs hlimit => ?_⟩
  · rw [hexec, endJam_retries hn, stopDriving_eq]; rfl
  all_goals rw [habandon hn]; subst hs
  · rfl
  · rfl
  · rfl
  · rw [FrameSource.takeBack, returnRecords_before (by exact hlimit)]; rfl
  · rw [FrameSource.takeBack, returnRecords_after (by exact hlimit)]; rfl

/-! ## A frame sent (R138) -/

theorem exec_frameSent (htx : s.rlc.tx = .busy source bytes n (.transmitting since))
    (hdue : since + (8 + bytes.length) * 400 ≤ s.now + e) :
    exec (.frameSent e) s = .next (testDrainEnd (frameEnded source (s.elapse e).released)) := by
  show execFrameSent e s = _
  simp only [execFrameSent, State.elapse_rlc, htx, State.elapse_now, frameTime_eq, hdue, if_true]
  rfl

theorem restartHeartbeat_running (h : s.rca.node = .running) :
    s.restartHeartbeat = s.withRlc { s.rlc with heartbeat := some (s.now + heartbeatTime) } := if_pos h

theorem restartHeartbeat_outside (h : s.rca.node ≠ .running) : s.restartHeartbeat = s := if_neg h

/-! ## The bits on the pair (R135) -/

/-- Byte `i` of preamble and frame. -/
theorem preamble_append_getElem? (bytes : List Byte) (i : Nat) : (preamble ++ bytes)[i]? =
    if i < 7 then some 0x55#8 else if i < 8 then some 0xD5#8 else bytes[i - 8]? := by
  by_cases hi : i < 8
  · rw [List.getElem?_append_left hi]
    interval_cases i <;> rfl
  · rw [List.getElem?_append_right (not_lt.1 hi), if_neg (by omega), if_neg hi]; rfl

theorem frameSignal_getElem? (bytes : List Byte) (i : Nat) : (frameSignal bytes)[i]? =
    if i < 56 then some ((0x55#8).getLsbD (i % 8)) else if i < 64 then some ((0xD5#8).getLsbD (i % 8))
    else bytes[(i - 64) / 8]?.map fun b => b.getLsbD (i % 8) := by
  have h7 : i / 8 < 7 ↔ i < 56 := by omega
  have h8 : i / 8 < 8 ↔ i < 64 := by omega
  have hbyte : i / 8 - 8 = (i - 64) / 8 := by omega
  rw [frameSignal, sentBits_getElem?, preamble_append_getElem?]
  simp only [h7, h8, hbyte]
  split
  · rfl
  · split <;> rfl

/-- While a frame is sent the pair carries its bits in turn, 50 ns each (R135). -/
theorem drivenBit_transmitting (htx : s.rlc.tx = .busy source bytes n (.transmitting since)) (hfrom : since + 50 * i ≤ s.now)
    (hto : s.now < since + 50 * (i + 1)) : s.drivenBit = (frameSignal bytes)[i]? := by
  have hbit : (s.now - since) / bitTime = i := by
    rw [bitTime]; omega
  simp only [State.drivenBit, htx, hbit]

/-- Settles O39: the bit at an instant is one of the frame's signal, and each source is told in its own way. -/
theorem frameSent : Obligations.FrameSent := by
  intro e n since source bytes s htx
  refine ⟨fun i hfrom hto => (drivenBit_transmitting htx hfrom hto).trans (frameSignal_getElem? bytes i), fun hdue => ?_⟩
  intro u
  have hexec : exec (.frameSent e) s = .next (testDrainEnd (frameEnded source u)) := by
    rw [exec_frameSent htx hdue, released_eq]; rfl
  rw [hexec]
  refine ⟨fun bin hs hrun => ?_, fun bin hs hrun => ?_, fun hs => ?_, fun hs => ?_, fun hs => ?_⟩ <;> subst hs
  · rw [frameEnded, restartHeartbeat_running (by exact hrun)]; rfl
  · rw [frameEnded, restartHeartbeat_outside (by exact hrun)]
  · rfl
  · rfl
  · rfl

/-! ## Timers (R130, R131, R147) -/

theorem expireHeartbeat_builds (hslot : s.rlc.edgeSlot = none) (hcycle : edgeInCycle s = false) : expireHeartbeat c s =
    (s.withRlc { s.rlc with heartbeat := some (s.now + heartbeatTime) }).placeEdge
      (edgeFrame (reportOf c s.rca.slot (s.du.hw - 1) true [])) := by
  simp only [expireHeartbeat, hslot, hcycle, Option.isNone_none, Bool.not_false, Bool.and_self, if_true]
  rfl

theorem expireHeartbeat_only (h : s.rlc.edgeSlot ≠ none ∨ edgeInCycle s = true) :
    expireHeartbeat c s = s.withRlc { s.rlc with heartbeat := some (s.now + heartbeatTime) } := by
  refine if_neg fun hdue => ?_
  obtain ⟨hslot, hcycle⟩ := Bool.and_eq_true_iff.1 hdue
  rcases h with h | h
  · exact h (Option.isNone_iff_eq_none.1 hslot)
  · rw [h] at hcycle; cases hcycle

theorem exec_heartbeatTimerExpiry (hc : s.settings = some c) (ht : s.rlc.heartbeat = some ends) (hdue : ends ≤ s.now + e) :
    exec (.heartbeatTimerExpiry e) s = .next (expireHeartbeat c (s.elapse e)) := by
  have hc' : (s.elapse e).settings = some c := hc
  refine (onExpiry_due (s := s.elapse e) ht hdue _).trans ?_
  simp only [hc']

theorem exec_recordAgeExpiry {q : QueuedRecord} {rest : List QueuedRecord} (hc : s.settings = some c)
    (hq : s.rq.queued = q :: rest) : exec (.recordAgeExpiry e) s =
      if q.entered + c.ageLimit * millisecond ≤ s.now + e then .next (testForm (s.elapse e)) else .refused .timeNotReached := by
  have hc' : (s.elapse e).settings = some c := hc
  show execRecordAgeExpiry e s = _
  simp only [execRecordAgeExpiry, State.elapse_rq, hq, hc']
  rfl

/-- Settles O41: each timer at its end and before it. -/
theorem linkTimers : Obligations.LinkTimers := by
  intro e c s hc
  refine ⟨fun ends ht hdue => ⟨fun hslot hcycle => ?_, fun h => ?_⟩, fun ends ht hearly => ?_, fun q rest hq => ?_,
    fun ends ht => ⟨fun hdue => ?_, fun hearly => ?_⟩⟩
  · rw [exec_heartbeatTimerExpiry hc ht hdue, expireHeartbeat_builds (s := s.elapse e) hslot hcycle]; rfl
  · rw [exec_heartbeatTimerExpiry hc ht hdue, expireHeartbeat_only (s := s.elapse e) h]; rfl
  · exact onExpiry_early (s := s.elapse e) ht hearly _
  · rw [exec_recordAgeExpiry hc hq]
    exact ⟨fun hdue => if_pos hdue, fun hearly => if_neg (not_le.2 hearly)⟩
  · exact onExpiry_due (s := s.elapse e) ht hdue _
  · exact onExpiry_early (s := s.elapse e) ht hearly _

end Sys2Proof.Machine

/-! The end of a drain and the drain limit (R133, R160, R164). -/

namespace Sys2Proof.Machine

variable {s : State} {d : Nat}

theorem drainDestination_eq (hpending : ∀ p, s.rca.status = some p → p.destination = d)
    (hstation : s.rca.status = none → ∃ r, s.rca.runSettings = some r ∧ r.source = d) : drainDestination s = some d := by
  cases hp : s.rca.status with
  | none =>
    obtain ⟨r, hr, hsource⟩ := hstation hp
    simp only [drainDestination, hp, hr, hsource]
  | some p => simp only [drainDestination, hp, hpending p hp]

theorem drainDone_eq_false (h : s.rca.node ≠ .draining ∨ s.tt.isOpen = true ∨ s.rq.inFrame ≠ [] ∨ s.rq.queued ≠ []
    ∨ s.rlc.edgeSlot ≠ none ∨ s.rlc.tx ≠ .free) : drainDone s = false := by
  refine Bool.eq_false_iff.2 fun hdone => ?_
  obtain ⟨hnode, hopen, hin, hqueued, hslot, htx, -⟩ := (drainDone_iff s).1 hdone
  simp [hnode, hopen, hin, hqueued, hslot, htx] at h

/-- Settles O49: the end of the drain by its conditions, the drain limit by its timer. -/
theorem drainEnd : Obligations.DrainEnd := by
  intro s
  refine ⟨fun d hnode hopen hin hqueued hslot htx hpending hdest hstation => ?_,
    fun h => testDrainEnd_undone (drainDone_eq_false h), fun e ends ht hdue => ?_, fun e ends ht hearly => ?_⟩
  · exact testDrainEnd_done ((drainDone_iff s).2 ⟨hnode, hopen, hin, hqueued, hslot, htx, hpending⟩)
      (drainDestination_eq hdest hstation)
  · exact onExpiry_due (s := s.elapse e) ht hdue _
  · exact onExpiry_early (s := s.elapse e) ht hearly _

end Sys2Proof.Machine

/-! BIN_CLOSE with everything it may change (R125). -/

namespace Sys2Proof.Machine

/-- The arbiter touches nothing but the transmitter with the EDGE slot, latches, clear mask and the pending STATUS (R142, R165). -/
theorem arbitrate_frame (s : State) : arbitrate s = { s with
    rlc := { s.rlc with tx := (arbitrate s).rlc.tx, edgeSlot := (arbitrate s).rlc.edgeSlot }
    rca := { s.rca with
      latches := (arbitrate s).rca.latches, clearMask := (arbitrate s).rca.clearMask
      status := (arbitrate s).rca.status } } := by
  obtain ⟨h, -⟩ | ⟨x, -, -, h⟩ | ⟨p, -, -, -, h⟩ | ⟨r, -, -, -, -, -, h⟩ := arbitrate_cases s <;> rw [h] <;> rfl

/-- The report of a close touches the tracks besides (R126). -/
theorem buildReport_frame (c : Settings) (k : Int) (s : State) : ∃ tracks tx slot latches mask status,
    buildReport c k s = { s with
      tt := { s.tt with tracks := tracks }
      rlc := { s.rlc with tx := tx, edgeSlot := slot }
      rca := { s.rca with latches := latches, clearMask := mask, status := status } } := by
  obtain ⟨hother, hrun⟩ := buildReport_spec c k s
  by_cases hn : s.rca.node = .running
  · exact ⟨_, _, _, _, _, _, (hrun hn).trans (arbitrate_frame _)⟩
  · exact ⟨_, _, _, _, _, _, hother hn⟩

/-- What a bin close enters is of its bin or an older one, without END, and entered at its instant (R119, R121, R125). -/
abbrev EnteredAtClose (k : Int) (now : Nat) (q : QueuedRecord) : Prop :=
  q.record.final = false ∧ q.record.gpi ≤ k ∧ q.entered = now

theorem dealWithTracks_enters (c : Settings) (k : Int) (s : State) :
    TracksFootprint (EnteredAtClose k s.now) s (dealWithTracks c k false s) :=
  (dealWithTracks_spec c k false fun _ _ => ⟨fun _ _ hbin => ⟨rfl, hbin, rfl⟩, rfl, le_rfl, rfl⟩).1

/-- Settles O25: the tracks stay within the footprint of the queue, the report and the exposure step within their frames. -/
theorem binClose : Obligations.BinClose := by
  intro e k rest c s hr ho hc
  obtain ⟨hqueue, htt⟩ := dealWithTracks_enters c k (s.takeRequest e rest)
  have hexec := execBinClose_eq (e := e) hr ho hc
  rw [binClosed] at hexec
  generalize dealWithTracks c k false (s.takeRequest e rest) = b at *
  obtain ⟨tracks, tx, slot, latches, mask, status, hreport⟩ := buildReport_frame c k b
  rw [hreport] at hexec
  have hsiu : b.siu = s.siu := hqueue.siu
  have hrlc : b.rlc = { s.rlc with tx := b.rlc.tx, edgeSlot := b.rlc.edgeSlot } := hqueue.rlc_frame
  have hrca : b.rca = { s.rca with latches := b.rca.latches, clearMask := b.rca.clearMask, status := b.rca.status
                                   counters := b.rca.counters, alert := b.rca.alert } := hqueue.rca_frame
  refine ⟨_, hexec, hqueue.pending, hqueue.now, hqueue.du, hqueue.wau, ?_, ?_, hqueue.rq_frame, ?_, ?_, hqueue.counters, ?_⟩
  · rw [← hsiu]
    exact congrArg State.siu (exposureStep_frame c _)
  · show { b.tt with tracks := tracks, serving := none } = _
    rw [htt]; rfl
  · show { b.rlc with tx := tx, edgeSlot := slot } = _
    rw [hrlc]; rfl
  · show { b.rca with latches := latches, clearMask := mask, status := status } = _
    rw [hrca]; rfl
  · obtain ⟨new, hnew, hentered⟩ := hqueue.records
    refine ⟨new, hnew, fun q hq => ?_⟩
    obtain ⟨hfinal, hbin, hentry⟩ := hentered q hq
    exact ⟨hfinal, hbin, hentry.trans hqueue.now.symm⟩

end Sys2Proof.Machine

/-! The law of the transmitter over a whole step (R140, R142; O58): a command that offers a frame or sets the transmitter free ends
with the arbiter, and no other command touches what the law speaks of. -/

namespace Sys2Proof.Machine

variable {P : QueuedRecord → Prop} {s s' t : State} {e : Nat}

/-! ## Before and after the arbiter -/

/-- What the arbiter has to find for the law to hold after it: the law but for what a free transmitter leaves waiting. -/
structure ArbiterReady (s : State) : Prop where
  attempts : ∀ source bytes n p, s.rlc.tx = .busy source bytes n p → n < 16
  station : s.rq.inFrame ≠ [] → s.rca.runSettings ≠ none

theorem transmitterSound_iff : TransmitterSound s ↔
    ArbiterReady s ∧ (s.rlc.tx = .free → s.rlc.edgeSlot = none ∧ s.rca.status = none ∧ s.rq.inFrame = []) := by
  cases htx : s.rlc.tx with
  | free =>
    simp only [TransmitterSound, htx]
    exact ⟨fun ⟨hidle, hstation⟩ => ⟨⟨fun _ _ _ _ hx => (nomatch htx.symm.trans hx), hstation⟩, fun _ => hidle⟩,
      fun ⟨hready, hidle⟩ => ⟨hidle trivial, hready.station⟩⟩
  | busy source bytes n p =>
    simp only [TransmitterSound, htx]
    exact ⟨fun ⟨hn, hstation⟩ => ⟨⟨fun _ _ _ _ hx => by cases htx.symm.trans hx; exact hn, hstation⟩, nofun⟩,
      fun ⟨hready, _⟩ => ⟨hready.attempts _ _ _ _ htx, hready.station⟩⟩

theorem arbiterReady_of_transmitterSound (h : TransmitterSound s) : ArbiterReady s := (transmitterSound_iff.1 h).1

/-- A frame in its cycle with fewer than sixteen attempts meets the law, whatever waits behind it. -/
theorem transmitterSound_of_busy {source : FrameSource} {bytes : List Byte} {n : Nat} {p : TxPhase} (h : ArbiterReady s)
    (hn : n < 16) : TransmitterSound (s.withTx (.busy source bytes n p)) := ⟨hn, h.station⟩

namespace ArbiterReady

/-- A transmitter set free has nothing to keep to before the arbiter has decided. -/
theorem freed (h : ArbiterReady s) : ArbiterReady (s.withTx .free) := ⟨nofun, h.station⟩

/-- The records IN_FRAME leave their frame. -/
theorem emptied (h : ArbiterReady s) (q : Rq) (hq : q.inFrame = []) : ArbiterReady (s.withRq q) :=
  ⟨h.attempts, fun hne => absurd hq hne⟩

theorem arbitrate (h : ArbiterReady s) : TransmitterSound (arbitrate s) := arbitrate_transmitter h.attempts h.station

theorem testForm (h : ArbiterReady s) : ArbiterReady (testForm s) := by
  rcases testForm_cases s with htest | ⟨hform, htest⟩ <;> rw [htest]
  · exact h
  · have hformed : ArbiterReady (s.withRq { s.rq with inFrame := s.rq.queued.take 24, queued := s.rq.queued.drop 24 }) :=
      ⟨h.attempts, fun _ => canForm_settings (s := s) hform⟩
    exact arbiterReady_of_transmitterSound hformed.arbitrate

theorem testDrainEnd (h : ArbiterReady s) : TransmitterSound (testDrainEnd s) := by
  rcases testDrainEnd_cases s with htest | ⟨d, -, -, htest⟩ <;> rw [htest]
  · exact h.arbitrate
  · exact arbitrate (s := s.withRca _) ⟨h.attempts, h.station⟩

theorem placeEdge (h : ArbiterReady s) (x : EdgeFrame) : TransmitterSound (s.placeEdge x) :=
  arbitrate (s := s.withRlc _) ⟨h.attempts, h.station⟩

theorem statusFor (h : ArbiterReady s) (result : StatusResult) (destination : Nat) :
    TransmitterSound (s.statusFor result destination) := arbitrate (s := s.withRca _) ⟨h.attempts, h.station⟩

end ArbiterReady

theorem TracksFootprint.transmitterSound (h : TracksFootprint P s s') (hs : TransmitterSound s) : TransmitterSound s' :=
  h.1.transmitter hs

theorem testForm_transmitterSound (h : TransmitterSound s) : TransmitterSound (testForm s) :=
  (testForm_footprint (fun _ => True) s).transmitter h

/-! ## The sensor port and the Distance Unit (R14 to R24, R32 to R40) -/

theorem beginMessage_transmitterSound (h : TransmitterSound s) : TransmitterSound (beginMessage s) := by
  unfold beginMessage
  split
  · exact h
  · split
    · exact h
    · simp only
      split <;> exact h

theorem continuityCheck_transmitterSound (h : TransmitterSound s) (bytes : List Byte) :
    TransmitterSound (continuityCheck bytes s) := by
  rw [continuityCheck_frame]
  exact h

theorem takeMessage_transmitterSound (h : TransmitterSound s) (c : Settings) (p : PageId) (bytes : List Byte) :
    TransmitterSound (takeMessage c p bytes s) := by
  unfold takeMessage
  split
  · refine continuityCheck_transmitterSound ?_ bytes
    exact h
  · exact continuityCheck_transmitterSound h bytes

theorem endMessage_transmitterSound (h : TransmitterSound s) {bytes : List Byte} (hstep : endMessage bytes s = .next t) :
    TransmitterSound t := by
  have hidle : TransmitterSound s.portIdle := h
  unfold endMessage at hstep
  split at hstep
  · cases hstep
  · cases hstep
  · cases hstep
    split
    · exact continuityCheck_transmitterSound hidle bytes
    · exact hidle
  · split at hstep
    · split at hstep <;> cases hstep
      exact takeMessage_transmitterSound hidle _ _ _
    · cases hstep
      exact h

theorem execScanMessageBegin_transmitterSound (h : TransmitterSound s) (hstep : execScanMessageBegin e s = .next t) :
    TransmitterSound t := by
  unfold execScanMessageBegin at hstep
  split at hstep <;> cases hstep
  exact beginMessage_transmitterSound (s := s.elapse e) h

theorem execScanMessageSilence_transmitterSound (h : TransmitterSound s) {bytes : List Byte}
    (hstep : execScanMessageSilence e bytes s = .next t) : TransmitterSound t := by
  unfold execScanMessageSilence at hstep
  split at hstep
  · cases hstep; exact h
  all_goals exact endMessage_transmitterSound (s := s.elapse e) h hstep

theorem execExposureWordSent_transmitterSound (h : TransmitterSound s) (hstep : execExposureWordSent e s = .next t) :
    TransmitterSound t := by
  unfold execExposureWordSent at hstep
  split at hstep <;> cases hstep
  exact h

theorem execEndMarkAfterReset_transmitterSound (h : TransmitterSound s) (hstep : execEndMarkAfterReset e s = .next t) :
    TransmitterSound t := by
  unfold execEndMarkAfterReset at hstep
  split at hstep <;> cases hstep
  exact h

theorem postClose_transmitterSound (h : TransmitterSound s) (k : Int) : TransmitterSound (postClose k s) := by
  rcases postClose_cases k s with ⟨-, hpost⟩ | hpost <;> rw [hpost] <;> exact h

theorem takeQuarter_transmitterSound (h : TransmitterSound s) {line : OdoLine} (hstep : takeQuarter line s = .next t) :
    TransmitterSound t := by
  unfold takeQuarter at hstep
  split at hstep
  · split at hstep <;> cases hstep
    split
    · refine postClose_transmitterSound ?_ _
      exact h
    · exact h
  · cases hstep
    exact h

theorem takeEdges_transmitterSound (h : TransmitterSound s) {g : EdgeGroup} (hstep : takeEdges e g s = .next t) :
    TransmitterSound t := by
  unfold takeEdges at hstep
  simp only at hstep
  split at hstep
  · cases hstep
  · split at hstep
    · cases hstep; exact h
    · exact takeQuarter_transmitterSound (s := s.resolveAt e) h hstep
    · cases hstep
      unfold takeIllegal State.latchIf
      split <;> exact h

/-! ## Requests of the track table (R52 to R56, R78, R96, R124, R125) -/

theorem execScanPass_transmitterSound (h : TransmitterSound s) (hstep : execScanPass e s = .next t) : TransmitterSound t := by
  obtain ⟨p, rest, c, scan, -, -, -, -, rfl⟩ := execScanPass_next hstep
  exact (runPass_footprint c scan (s.takeRequest e rest)).queue.transmitter h

theorem dealWithTracks_transmitterSound (h : TransmitterSound s) (c : Settings) (k : Int) (final : Bool) :
    TransmitterSound (dealWithTracks c k final s) :=
  (dealWithTracks_spec (P := fun _ => True) c k final fun _ _ => ⟨fun _ _ _ => trivial, trivial⟩).1.transmitterSound h

theorem buildReport_transmitterSound (h : TransmitterSound s) (c : Settings) (k : Int) :
    TransmitterSound (buildReport c k s) := by
  have hready := arbiterReady_of_transmitterSound h
  unfold buildReport
  split
  · refine ArbiterReady.placeEdge ?_ _
    exact ⟨hready.attempts, hready.station⟩
  · exact h

theorem execBinClose_transmitterSound (h : TransmitterSound s) (hstep : execBinClose e s = .next t) : TransmitterSound t := by
  obtain ⟨k, rest, c, -, -, -, rfl⟩ := execBinClose_next hstep
  exact buildReport_transmitterSound (dealWithTracks_transmitterSound (s := s.takeRequest e rest) h c k false) c k

theorem execFinalClose_transmitterSound (h : TransmitterSound s) (hstep : execFinalClose e s = .next t) :
    TransmitterSound t := by
  obtain ⟨k, rest, c, -, -, -, rfl⟩ := execFinalClose_next hstep
  have hdealt := dealWithTracks_transmitterSound (s := s.takeRequest e rest) h c k true
  exact ArbiterReady.testDrainEnd
    { arbiterReady_of_transmitterSound hdealt with }

theorem applyEdge_transmitterSound (h : TransmitterSound s) (c : Settings) (side : Side) (report : EdgeReport) :
    TransmitterSound (applyEdge c side report s) := by
  have hcentre : TransmitterSound (s.takeCentre side report) := by cases side <;> exact h
  cases hnames : headerNames s.rca.slot side report with
  | false => rw [applyEdge_mismatch hnames]; exact h
  | true =>
    cases hbeat : report.heartbeat with
    | true => rw [applyEdge_heartbeat hnames hbeat]; exact hcentre
    | false =>
      rw [applyEdge_close hnames hbeat]
      exact (closeApplied_spec c side report _).1.transmitterSound hcentre

theorem execEdgeApplication_transmitterSound (h : TransmitterSound s) (hstep : execEdgeApplication e s = .next t) :
    TransmitterSound t := by
  obtain ⟨side, report, rest, c, -, rfl⟩ := execEdgeApplication_next hstep
  exact applyEdge_transmitterSound (s := s.takeRequest e rest) h c side report

theorem execMarkApplication_transmitterSound (h : TransmitterSound s) (hstep : execMarkApplication e s = .next t) :
    TransmitterSound t := by
  obtain ⟨number, type, rest, c, -, rfl⟩ := execMarkApplication_next hstep
  rw [applyMark_eq]
  exact h

theorem dissolveAll_transmitterSound (h : TransmitterSound s) (places : List Nat) :
    TransmitterSound (places.foldl (fun s i => s.updateTrack i dissolve) s) := by
  induction places generalizing s with
  | nil => exact h
  | cons i places ih =>
    have hone : TracksFootprint (fun _ => True) s (s.updateTrack i dissolve) :=
      (updateTrack_spec fun _ _ => dissolve_footprint fun _ _ _ _ => trivial).1
    exact ih (hone.transmitterSound h)

theorem execNeighbourLostApplication_transmitterSound (h : TransmitterSound s)
    (hstep : execNeighbourLostApplication e s = .next t) : TransmitterSound t := by
  obtain ⟨side, rest, -, rfl⟩ := execNeighbourLostApplication_next hstep
  exact dissolveAll_transmitterSound (s := s.takeRequest e rest) h _

/-! ## The attempt cycle (R137 to R142) -/

theorem stopDriving_arbiterReady (h : ArbiterReady s) : ArbiterReady s.stopDriving := by
  rw [stopDriving_frame]
  exact { h with }

theorem released_arbiterReady (h : ArbiterReady s) : ArbiterReady s.released := (stopDriving_arbiterReady h).freed

theorem statusEnded_arbiterReady (h : ArbiterReady s) (drainEnd : Bool) : ArbiterReady (s.statusEnded drainEnd) := by
  cases drainEnd
  · exact h
  · exact { h with }

theorem frameEnded_arbiterReady (h : ArbiterReady s) (source : FrameSource) : ArbiterReady (frameEnded source s) := by
  cases source with
  | edge bin =>
    simp only [frameEnded, State.restartHeartbeat]
    split
    · exact { h with }
    · exact h
  | status drainEnd => exact statusEnded_arbiterReady h drainEnd
  | gauge => exact (h.emptied _ rfl).testForm

theorem returnRecords_arbiterReady (h : ArbiterReady s) : ArbiterReady s.returnRecords := by
  cases hlimit : s.rq.pastLimit with
  | false =>
    rw [returnRecords_before hlimit]
    exact h.emptied _ rfl
  | true =>
    rw [returnRecords_after hlimit]
    exact ArbiterReady.emptied (s := s.countDrainLoss _) { h with } _ rfl

theorem frameAbandoned_arbiterReady (h : ArbiterReady s) (source : FrameSource) : ArbiterReady (frameAbandoned source s) := by
  have hcounted : ArbiterReady (s.countAbandoned.setLatch .collisionLimit) := { h with }
  cases source with
  | edge bin => exact hcounted
  | status drainEnd => exact statusEnded_arbiterReady hcounted drainEnd
  | gauge => exact returnRecords_arbiterReady hcounted

theorem execAttemptBegin_transmitterSound (h : TransmitterSound s) (hstep : execAttemptBegin e s = .next t) :
    TransmitterSound t := by
  have hready : ArbiterReady (s.elapse e) := { arbiterReady_of_transmitterSound h with }
  unfold execAttemptBegin at hstep
  simp only at hstep
  split at hstep
  · rename_i htx
    split at hstep
    · cases hstep
    · split at hstep <;> cases hstep
      unfold beginAttempt
      split
      · exact ArbiterReady.testDrainEnd { hready.freed with }
      · exact transmitterSound_of_busy hready (hready.attempts _ _ _ _ htx)
  all_goals cases hstep

theorem spellBegins_transmitterSound (h : TransmitterSound s) (usable : Bool) : TransmitterSound (s.spellBegins usable) := by
  unfold State.spellBegins
  split <;> exact h

theorem collide_transmitterSound (h : TransmitterSound s) {source : FrameSource} {bytes : List Byte} {n : Nat} {p : TxPhase}
    (htx : s.rlc.tx = .busy source bytes n p) : TransmitterSound (collide source bytes n s) :=
  transmitterSound_of_busy (arbiterReady_of_transmitterSound (spellBegins_transmitterSound h false))
    ((arbiterReady_of_transmitterSound h).attempts _ _ _ _ htx)

theorem execCollision_transmitterSound (h : TransmitterSound s) (hstep : execCollision e s = .next t) :
    TransmitterSound t := by
  unfold execCollision at hstep
  simp only at hstep
  split at hstep
  · rename_i htx
    split at hstep <;> cases hstep
    exact collide_transmitterSound (s := s.elapse e) h htx
  all_goals cases hstep

/-- A frame goes on only below sixteen attempts (R140). -/
theorem endJam_transmitterSound (h : ArbiterReady s) (source : FrameSource) (bytes : List Byte) (n draw : Nat) :
    TransmitterSound (endJam source bytes n draw s) := by
  by_cases hn : n + 1 < 16
  · rw [endJam_retries hn]
    exact transmitterSound_of_busy (stopDriving_arbiterReady h) hn
  · rw [endJam_abandons (by omega)]
    exact (frameAbandoned_arbiterReady (released_arbiterReady h) source).testDrainEnd

theorem execJamEnd_transmitterSound (h : TransmitterSound s) {draw : Nat} (hstep : execJamEnd e draw s = .next t) :
    TransmitterSound t := by
  have hready : ArbiterReady (s.elapse e) := { arbiterReady_of_transmitterSound h with }
  unfold execJamEnd at hstep
  simp only at hstep
  split at hstep
  · split at hstep <;> cases hstep
    exact endJam_transmitterSound hready _ _ _ _
  all_goals cases hstep

theorem execBackoffEnd_transmitterSound (h : TransmitterSound s) (hstep : execBackoffEnd e s = .next t) :
    TransmitterSound t := by
  have hready : ArbiterReady (s.elapse e) := { arbiterReady_of_transmitterSound h with }
  unfold execBackoffEnd at hstep
  simp only at hstep
  split at hstep
  · rename_i htx
    split at hstep <;> cases hstep
    exact transmitterSound_of_busy hready (hready.attempts _ _ _ _ htx)
  all_goals cases hstep

theorem execFrameSent_transmitterSound (h : TransmitterSound s) (hstep : execFrameSent e s = .next t) :
    TransmitterSound t := by
  have hready : ArbiterReady (s.elapse e) := { arbiterReady_of_transmitterSound h with }
  unfold execFrameSent at hstep
  simp only at hstep
  split at hstep
  · split at hstep <;> cases hstep
    exact (frameEnded_arbiterReady (released_arbiterReady hready) _).testDrainEnd
  all_goals cases hstep

/-! ## The medium and the timers of the link (R129 to R131, R137, R141, R147) -/

theorem execBusJam_transmitterSound (h : TransmitterSound s) (hstep : execBusJam e s = .next t) : TransmitterSound t := by
  unfold execBusJam at hstep
  simp only at hstep
  split at hstep
  · cases hstep
  · split at hstep
    · cases hstep
    · split at hstep <;> cases hstep
      exact h

theorem execMediumQuiet_transmitterSound (h : TransmitterSound s) (hstep : execMediumQuiet e s = .next t) :
    TransmitterSound t := by
  unfold execMediumQuiet at hstep
  split at hstep
  · cases hstep
  · split at hstep <;> cases hstep
    exact h

theorem execCarrierAppears_transmitterSound (h : TransmitterSound s) (hstep : execCarrierAppears e s = .next t) :
    TransmitterSound t := by
  have helapsed : TransmitterSound (s.elapse e) := h
  unfold execCarrierAppears at hstep
  simp only at hstep
  split at hstep
  · cases hstep
  · split at hstep <;> cases hstep
    · rename_i htx
      split
      · exact collide_transmitterSound helapsed htx
      · exact spellBegins_transmitterSound helapsed _
    all_goals exact spellBegins_transmitterSound helapsed _

theorem execHeartbeatTimerExpiry_transmitterSound (h : TransmitterSound s) (hstep : execHeartbeatTimerExpiry e s = .next t) :
    TransmitterSound t := by
  have hready := arbiterReady_of_transmitterSound h
  obtain ⟨-, -, -, hgo⟩ := onExpiry_next hstep
  split at hgo <;> cases hgo
  unfold expireHeartbeat
  simp only
  split
  · refine ArbiterReady.placeEdge ?_ _
    exact ⟨hready.attempts, hready.station⟩
  · exact h

theorem execRecordAgeExpiry_transmitterSound (h : TransmitterSound s) (hstep : execRecordAgeExpiry e s = .next t) :
    TransmitterSound t := by
  unfold execRecordAgeExpiry at hstep
  simp only at hstep
  split at hstep
  · cases hstep
  · split at hstep <;> cases hstep
    exact testForm_transmitterSound (s := s.elapse e) h
  · cases hstep

theorem execHoldPeriodEnd_transmitterSound (h : TransmitterSound s) (hstep : execHoldPeriodEnd e s = .next t) :
    TransmitterSound t := by
  obtain ⟨-, -, -, hgo⟩ := onExpiry_next hstep
  cases hgo
  exact testForm_transmitterSound (s := (s.elapse e).withRq _) h

/-! ## Reception (R94, R95, R149 to R153, R162, R164) -/

theorem offerApplication_transmitterSound (h : TransmitterSound s) (r : Request) :
    TransmitterSound (offerApplication r s) := by
  unfold offerApplication
  split
  · split <;> exact h
  · exact h

theorem takeConfig_transmitterSound (h : ArbiterReady s) (f : ReceivedFrame) : TransmitterSound (takeConfig f s) := by
  unfold takeConfig
  split
  · refine ArbiterReady.statusFor ?_ _ _
    exact ⟨h.attempts, h.station⟩
  · simp only
    split
    all_goals
      refine ArbiterReady.statusFor ?_ _ _
      exact ⟨h.attempts, h.station⟩

theorem takeQuery_transmitterSound (h : ArbiterReady s) (f : ReceivedFrame) : TransmitterSound (takeQuery f s) := by
  unfold takeQuery
  split
  · refine ArbiterReady.statusFor ?_ _ _
    exact ⟨h.attempts, h.station⟩
  · exact h.statusFor _ _

theorem filterFrame_transmitterSound (h : TransmitterSound s) (f : ReceivedFrame) : TransmitterSound (filterFrame f s) := by
  have hready := arbiterReady_of_transmitterSound h
  unfold filterFrame
  split
  · exact h
  · exact h
  · exact h
  · split
    · split
      · exact offerApplication_transmitterSound h _
      · exact h
    · exact h
  · split
    · split
      · exact offerApplication_transmitterSound h _
      · exact h
    · exact h
  · split
    · exact takeConfig_transmitterSound hready f
    · exact h
  · split
    · exact takeQuery_transmitterSound hready f
    · exact h

theorem signOfLife_transmitterSound (h : TransmitterSound s) (source : Nat) : TransmitterSound (signOfLife source s) := by
  unfold signOfLife
  split
  · rename_i side _ _
    split
    · cases side <;> exact h
    · exact h
  · exact h

theorem judgeReception_transmitterSound (h : TransmitterSound s) (bytes : List Byte) :
    TransmitterSound (judgeReception bytes s) := by
  unfold judgeReception
  split
  · exact h
  · split
    · exact filterFrame_transmitterSound (signOfLife_transmitterSound h _) _
    · exact h

theorem execReceptionBegin_transmitterSound (h : TransmitterSound s) {event : ReceptionEvent}
    (hstep : execReceptionBegin event s = .next t) : TransmitterSound t := by
  unfold execReceptionBegin at hstep
  split at hstep
  · cases hstep
  · split at hstep
    · cases hstep
    · split at hstep <;> cases hstep
      exact h

theorem execFrameReceived_transmitterSound (h : TransmitterSound s) {bits : List Bool}
    (hstep : execFrameReceived e bits s = .next t) : TransmitterSound t := by
  unfold execFrameReceived at hstep
  split at hstep <;> cases hstep
  exact judgeReception_transmitterSound (s := (s.elapse e).carrierEnds) h _

theorem execNeighbourTimerExpiry_transmitterSound (h : TransmitterSound s) {side : Side}
    (hstep : execNeighbourTimerExpiry e side s = .next t) : TransmitterSound t := by
  obtain ⟨-, -, -, hgo⟩ := onExpiry_next hstep
  cases hgo
  have hlost : TransmitterSound ((s.elapse e).withRlc (s.rlc.setLife side (some ⟨.lost, none⟩))) := by cases side <;> exact h
  unfold loseNeighbour
  simp only
  split <;> exact hlost

/-! ## Runs (R133, R157 to R161) -/

theorem execPowerOnReset_transmitterSound {straps : BitVec 3} {pair : OdoPair} {carrier midScan : Bool}
    (hstep : execPowerOnReset e straps pair carrier midScan s = .next t) : TransmitterSound t := by
  cases hstep
  exact ⟨⟨rfl, rfl, rfl⟩, fun hne => absurd rfl hne⟩

/-- A run starts with an empty queue and an empty EDGE slot (R128, R155, R158). -/
theorem startRun_transmitterSound (h : TransmitterSound s) (r : SourcedSettings) : TransmitterSound (startRun r s) := by
  obtain ⟨hready, hidle⟩ := transmitterSound_iff.1 h
  refine transmitterSound_iff.2 ⟨⟨hready.attempts, fun _ => Option.some_ne_none r⟩, fun hfree => ?_⟩
  obtain ⟨-, hstatus, -⟩ := hidle hfree
  exact ⟨rfl, hstatus, rfl⟩

theorem execRunStart_transmitterSound (h : TransmitterSound s) (hstep : execRunStart e s = .next t) : TransmitterSound t := by
  rcases execRunStart_next hstep with ⟨-, r, -, rfl⟩ | rfl
  · exact startRun_transmitterSound (s := s.elapse e) h r
  · exact h

theorem execEnterDraining_transmitterSound (h : TransmitterSound s) (hstep : execEnterDraining e s = .next t) :
    TransmitterSound t := by
  rcases execEnterDraining_next hstep with ⟨-, rfl⟩ | rfl
  · rw [startDrain_eq]
    exact testForm_transmitterSound (s := (s.elapse e).drainBegun) h
  · exact h

theorem execDrainLimit_transmitterSound (h : TransmitterSound s) (hstep : execDrainLimit e s = .next t) :
    TransmitterSound t := by
  obtain ⟨-, -, -, hgo⟩ := onExpiry_next hstep
  cases hgo
  exact ArbiterReady.testDrainEnd { arbiterReady_of_transmitterSound h with }

theorem execAlertPulseEnd_transmitterSound (h : TransmitterSound s) (hstep : execAlertPulseEnd e s = .next t) :
    TransmitterSound t := by
  obtain ⟨-, -, -, hgo⟩ := onExpiry_next hstep
  cases hgo
  exact h

/-! ## The step -/

theorem exec_transmitterSound (h : TransmitterSound s) {i : Instr} (hstep : exec i s = .next t) : TransmitterSound t := by
  cases i with
  | powerOnReset => exact execPowerOnReset_transmitterSound hstep
  | scanMessageBegin => exact execScanMessageBegin_transmitterSound h hstep
  | scanMessageEnd e => exact endMessage_transmitterSound (s := s.elapse e) h hstep
  | scanMessageSilence => exact execScanMessageSilence_transmitterSound h hstep
  | exposureWordSent => exact execExposureWordSent_transmitterSound h hstep
  | odometerTransition => exact takeEdges_transmitterSound h hstep
  | illegalTransition => exact takeEdges_transmitterSound h hstep
  | scanPass => exact execScanPass_transmitterSound h hstep
  | binClose => exact execBinClose_transmitterSound h hstep
  | finalClose => exact execFinalClose_transmitterSound h hstep
  | edgeApplication => exact execEdgeApplication_transmitterSound h hstep
  | markApplication => exact execMarkApplication_transmitterSound h hstep
  | neighbourLostApplication => exact execNeighbourLostApplication_transmitterSound h hstep
  | attemptBegin => exact execAttemptBegin_transmitterSound h hstep
  | collision => exact execCollision_transmitterSound h hstep
  | jamEnd => exact execJamEnd_transmitterSound h hstep
  | backoffEnd => exact execBackoffEnd_transmitterSound h hstep
  | frameSent => exact execFrameSent_transmitterSound h hstep
  | busJam => exact execBusJam_transmitterSound h hstep
  | heartbeatTimerExpiry => exact execHeartbeatTimerExpiry_transmitterSound h hstep
  | receptionBegin => exact execReceptionBegin_transmitterSound h hstep
  | frameReceived => exact execFrameReceived_transmitterSound h hstep
  | neighbourTimerExpiry => exact execNeighbourTimerExpiry_transmitterSound h hstep
  | recordAgeExpiry => exact execRecordAgeExpiry_transmitterSound h hstep
  | holdPeriodEnd => exact execHoldPeriodEnd_transmitterSound h hstep
  | runStart => exact execRunStart_transmitterSound h hstep
  | enterDraining => exact execEnterDraining_transmitterSound h hstep
  | drainLimit => exact execDrainLimit_transmitterSound h hstep
  | alertPulseEnd => exact execAlertPulseEnd_transmitterSound h hstep
  | mediumQuiet => exact execMediumQuiet_transmitterSound h hstep
  | carrierAppears => exact execCarrierAppears_transmitterSound h hstep
  | endMarkAfterReset => exact execEndMarkAfterReset_transmitterSound h hstep

/-- Settles O58: the queue of commands is no part of the law, and every command keeps it. -/
theorem transmitterLaw : Obligations.TransmitterLaw := by
  intro s t h hstep
  unfold step at hstep
  split at hstep
  · cases hstep; exact h
  · rename_i i rest _
    exact exec_transmitterSound (s := { s with pending := rest }) h hstep

end Sys2Proof.Machine

/-! The choices of the transmit arbiter (R142 to R144, R165), the attempt cycle up to the jam (R137 to R139, R146), and carrier
with the end of a preamble in it (R135, R137, R141, R149). -/

namespace Sys2Proof.Machine

variable {s : State} {e n ends since : Nat} {source : FrameSource} {bytes : List Byte} {spell : Spell} {bits rest : List Bool}

/-! ## The arbiter (R142 to R144, R165) -/

theorem arbitrate_edge {f : EdgeFrame} (htx : s.rlc.tx = .free) (hslot : s.rlc.edgeSlot = some f) :
    arbitrate s = (s.withRlc { s.rlc with edgeSlot := none }).enterCycle (.edge f.bin) f.bytes := by
  simp only [arbitrate, htx, hslot]

theorem arbitrate_gauge {r : SourcedSettings} (htx : s.rlc.tx = .free) (hslot : s.rlc.edgeSlot = none)
    (hstatus : s.rca.status = none) (hr : s.rca.runSettings = some r) (hin : s.rq.inFrame ≠ []) :
    arbitrate s = s.enterCycle .gauge (s.gaugeBytes r.source) := by
  simp only [arbitrate, htx, hslot, hstatus, hr, List.isEmpty_iff, hin, if_false]

/-- With nothing offered a free transmitter stays free (R142). -/
theorem arbitrate_nothing (hslot : s.rlc.edgeSlot = none) (hstatus : s.rca.status = none) (hin : s.rq.inFrame = []) :
    arbitrate s = s := by
  obtain ⟨h, -⟩ | ⟨f, -, hf, -⟩ | ⟨p, -, -, hp, -⟩ | ⟨r, -, -, -, -, hne, -⟩ := arbitrate_cases s
  · exact h
  · rw [hslot] at hf; cases hf
  · rw [hstatus] at hp; cases hp
  · exact absurd hin hne

/-- Settles O35: one equation for each source that the arbiter may choose, in the order of their priority. -/
theorem transmitArbiter : Obligations.TransmitArbiter := by
  intro s
  refine ⟨arbitrate_busy, fun f htx hslot => ?_, fun p htx hslot hp => ?_, fun r htx hslot hstatus hr hin => ?_,
    fun _ hslot hstatus hin => arbitrate_nothing hslot hstatus hin⟩
  · rw [arbitrate_edge htx hslot]; rfl
  · rw [arbitrate_status htx hslot hp, State.chooseStatus, State.snapshot]
    cases s.rca.pendingSettings <;> rfl
  · rw [arbitrate_gauge htx hslot hstatus hr hin]; rfl

/-! ## Attempts (R137 to R139, R146) -/

theorem collisionWindow_eq : collisionWindow = 28800 := rfl

theorem exec_attemptBegin (htx : s.rlc.tx = .busy source bytes n .deferring) : exec (.attemptBegin e) s =
    if s.rlc.carrier.isSome then .refused .carrierPresent
    else if s.rlc.lastQuiet + 4800 ≤ s.now + e then .next (beginAttempt source bytes n (s.elapse e))
    else .refused .timeNotReached := by
  show execAttemptBegin e s = _
  simp only [execAttemptBegin, State.elapse_rlc, htx]
  rfl

theorem exec_collision (htx : s.rlc.tx = .busy source bytes n (.transmitting since)) : exec (.collision e) s =
    if s.now + e ≤ since + 28800 then .next (collide source bytes n (s.elapse e)) else .refused .timeNotReached := by
  show execCollision e s = _
  simp only [execCollision, State.elapse_rlc, htx]
  rfl

theorem exec_backoffEnd (htx : s.rlc.tx = .busy source bytes n (.backingOff ends)) : exec (.backoffEnd e) s =
    if ends ≤ s.now + e then .next ((s.elapse e).withTx (.busy source bytes n .deferring)) else .refused .timeNotReached := by
  show execBackoffEnd e s = _
  simp only [execBackoffEnd, State.elapse_rlc, htx]
  rfl

/-- Only an EDGE frame whose bin is more than 4 below the high-water index is stale (R146). -/
theorem stale_iff : stale s source = true ↔ ∃ bin, source = .edge bin ∧ bin < s.du.hw - 4 := by
  cases source <;> simp [stale]

theorem beginAttempt_stale (h : stale s source = true) :
    beginAttempt source bytes n s = testDrainEnd (s.withTx .free).countAbandoned := if_pos h

theorem beginAttempt_fresh (h : ∀ bin, source = .edge bin → s.du.hw - 4 ≤ bin) :
    beginAttempt source bytes n s = s.withTx (.busy source bytes n (.transmitting s.now)) :=
  if_neg fun hstale => by
    obtain ⟨bin, hsource, hlt⟩ := stale_iff.1 hstale
    exact absurd hlt (not_lt.2 (h bin hsource))

/-- A spell in progress goes on; otherwise one begins now (R138, R141). -/
theorem spellBegins_eq (s : State) (usable : Bool) : s.spellBegins usable =
    s.withRlc { s.rlc with carrier := some (s.rlc.carrier.getD ⟨s.now, usable, false⟩) } := by
  unfold State.spellBegins
  cases hcarrier : s.rlc.carrier with
  | none => rfl
  | some spell =>
    show s = s.withRlc { s.rlc with carrier := some spell }
    rw [← hcarrier]
    rfl

theorem collide_eq (source : FrameSource) (bytes : List Byte) (n : Nat) (s : State) : collide source bytes n s =
    s.withRlc { s.rlc with
      carrier := some (s.rlc.carrier.getD ⟨s.now, false, false⟩), tx := .busy source bytes n (.jam (s.now + 1600)) } := by
  rw [collide, spellBegins_eq]
  rfl

/-- Settles O37: each event of the cycle by its time, and an attempt by whether its frame is stale. -/
theorem attemptCycle : Obligations.AttemptCycle := by
  intro e n source bytes s
  refine ⟨fun htx => ⟨fun hquiet hgap hfresh => ?_, fun bin hquiet hgap hsource hold => ?_, fun hcarrier => ?_,
    fun hquiet hearly => ?_⟩, fun since htx => ⟨fun hwithin => ?_, fun hlate => ?_⟩, fun ends htx => ⟨fun hdue => ?_,
    fun hearly => ?_⟩⟩
  · rw [exec_attemptBegin htx, hquiet, if_neg (by decide), if_pos hgap, beginAttempt_fresh (by exact hfresh)]
    rfl
  · have hstale : stale (s.elapse e) source = true := stale_iff.2 ⟨bin, hsource, hold⟩
    rw [exec_attemptBegin htx, hquiet, if_neg (by decide), if_pos hgap, beginAttempt_stale hstale]
    rfl
  · rw [exec_attemptBegin htx, if_pos (Option.isSome_iff_ne_none.2 hcarrier)]
  · rw [exec_attemptBegin htx, hquiet, if_neg (by decide), if_neg (not_le.2 hearly)]
  · rw [exec_collision htx, if_pos hwithin, collide_eq]
    rfl
  · rw [exec_collision htx, if_neg (not_le.2 hlate)]
  · rw [exec_backoffEnd htx, if_pos hdue]
    rfl
  · rw [exec_backoffEnd htx, if_neg (not_le.2 hearly)]

/-! ## Carrier (R135, R137, R141, R149) -/

theorem exec_carrierAppears_listening (hcarrier : s.rlc.carrier = none) (hdrive : s.driving = false) :
    exec (.carrierAppears e) s = .next ((s.elapse e).spellBegins true) := by
  show execCarrierAppears e s = _
  unfold State.driving at hdrive
  simp only [execCarrierAppears, State.elapse_rlc, hcarrier, Option.isSome_none, Bool.false_eq_true, if_false]
  split at hdrive
  · cases hdrive
  · cases hdrive
  all_goals rfl

theorem exec_carrierAppears_transmitting (hcarrier : s.rlc.carrier = none)
    (htx : s.rlc.tx = .busy source bytes n (.transmitting since)) : exec (.carrierAppears e) s =
      .next (if s.now + e ≤ since + 28800 then collide source bytes n (s.elapse e) else (s.elapse e).spellBegins false) := by
  show execCarrierAppears e s = _
  simp only [execCarrierAppears, State.elapse_rlc, hcarrier, htx, Option.isSome_none, Bool.false_eq_true, if_false]
  rfl

theorem exec_carrierAppears_jamming (hcarrier : s.rlc.carrier = none) (htx : s.rlc.tx = .busy source bytes n (.jam ends)) :
    exec (.carrierAppears e) s = .next ((s.elapse e).spellBegins false) := by
  show execCarrierAppears e s = _
  simp only [execCarrierAppears, State.elapse_rlc, hcarrier, htx, Option.isSome_none, Bool.false_eq_true, if_false]

theorem exec_mediumQuiet (hcarrier : s.rlc.carrier ≠ none) (hreception : s.rlc.reception = none) :
    exec (.mediumQuiet e) s = .next (s.elapse e).carrierEnds := by
  show execMediumQuiet e s = _
  simp only [execMediumQuiet, Option.isNone_iff_eq_none, hcarrier, hreception, Option.isSome_none, Bool.false_eq_true, if_false]

theorem exec_receptionBegin {event : ReceptionEvent} (hcarrier : s.rlc.carrier = some spell)
    (hreception : s.rlc.reception = none) (husable : spell.usable = true) : exec (.receptionBegin event) s =
      .next ((s.elapse event.elapsed).withRlc { s.rlc with reception := afterPreamble event.bits }) := by
  show execReceptionBegin event s = _
  simp only [execReceptionBegin, hcarrier, hreception, husable, Option.isSome_none, Bool.false_eq_true, if_false, if_true]

theorem exec_busJam (hcarrier : s.rlc.carrier = some spell) (hjammed : spell.jammed = false)
    (hlong : spell.since + 1000000 < s.now + e) : exec (.busJam e) s = .next (((s.elapse e).withRlc { s.rlc with
      carrier := some ⟨spell.since, false, true⟩, reception := none }).setLatch .busJam) := by
  have htime : spell.since + busJamTime < s.now + e := hlong
  show execBusJam e s = _
  simp only [execBusJam, State.elapse_rlc, State.elapse_now, hcarrier, hjammed, htime, Bool.false_eq_true, if_false, if_true]

/-- The first end of a preamble counts: none stands at an earlier place (R149, log 31). -/
theorem afterPreamble_iff : afterPreamble bits = some rest ↔
    ∃ before, bits = before ++ preambleEnd ++ rest ∧ ∀ n, n < before.length → ¬preambleEnd <+: bits.drop n := by
  induction bits with
  | nil =>
    refine ⟨nofun, fun ⟨before, hbits, _⟩ => ?_⟩
    have hempty := (List.append_eq_nil_iff.1 (List.append_eq_nil_iff.1 hbits.symm).1).2
    exact absurd hempty (by decide)
  | cons b bits ih =>
    by_cases hhere : preambleEnd <+: b :: bits
    · rw [afterPreamble, if_pos (List.isPrefixOf_iff_prefix.2 hhere), Option.some_inj]
      constructor
      · rintro rfl
        exact ⟨[], (List.prefix_iff_eq_append.1 hhere).symm, nofun⟩
      · rintro ⟨before, hbits, hfirst⟩
        cases before with
        | nil => rw [hbits]; exact List.drop_left
        | cons x before => exact absurd hhere (hfirst 0 (Nat.succ_pos _))
    · rw [afterPreamble, if_neg (mt List.isPrefixOf_iff_prefix.1 hhere), ih]
      constructor
      · rintro ⟨before, rfl, hfirst⟩
        refine ⟨b :: before, rfl, fun n hn => ?_⟩
        cases n with
        | zero => exact hhere
        | succ n => exact hfirst n (Nat.lt_of_succ_lt_succ hn)
      · rintro ⟨before, hbits, hfirst⟩
        cases before with
        | nil => exact absurd (hbits ▸ List.prefix_append preambleEnd rest) hhere
        | cons x before =>
          obtain ⟨rfl, rfl⟩ := List.cons.inj hbits
          exact ⟨before, rfl, fun n hn => hfirst (n + 1) (Nat.succ_lt_succ hn)⟩

/-- Settles O40: carrier by what the node is doing as it appears, reception by `afterPreamble_iff`. -/
theorem carrier : Obligations.Carrier := by
  intro e s
  refine ⟨fun hcarrier hdrive => ?_, fun source bytes n since hcarrier htx => ⟨fun hwithin => ?_, fun hlate => ?_⟩,
    fun source bytes n ends hcarrier htx => ?_, fun hcarrier hreception => ?_,
    fun spell bits hcarrier hreception husable => ?_, fun bits rest => afterPreamble_iff,
    fun spell hcarrier hjammed hlong => ?_⟩
  · rw [exec_carrierAppears_listening hcarrier hdrive, spellBegins_eq, State.elapse_rlc, hcarrier]
    rfl
  · rw [exec_carrierAppears_transmitting hcarrier htx, if_pos hwithin, collide_eq, State.elapse_rlc, hcarrier]
    rfl
  · rw [exec_carrierAppears_transmitting hcarrier htx, if_neg (not_le.2 hlate), spellBegins_eq, State.elapse_rlc, hcarrier]
    rfl
  · rw [exec_carrierAppears_jamming hcarrier htx, spellBegins_eq, State.elapse_rlc, hcarrier]
    rfl
  · rw [exec_mediumQuiet hcarrier hreception, State.carrierEnds, ← hreception]
    rfl
  · rw [exec_receptionBegin hcarrier hreception husable]
    rfl
  · rw [exec_busJam hcarrier hjammed hlong]
    rfl

end Sys2Proof.Machine

/-! Frames as bytes (R136, R150, R169, R171, R174, R175): the fields at any offset, the CRC bit by bit, and the payloads of GAUGE and
STATUS frames field by field. -/

namespace Sys2Proof.Machine

variable {b x rest : List Byte} {destination sender offset n v i : Nat} {kind : FrameKind} {payload : List Byte}

/-! ## Fields (R169) -/

/-- The bytes of a field weigh 1, 256, 256², … in their order; bytes that are not there weigh nothing. -/
theorem readLe_take (b : List Byte) (n : Nat) :
    readLe (b.take n) = ((List.range n).map fun j => (b[j]?.getD 0#8).toNat * 256 ^ j).sum := by
  induction n generalizing b with
  | zero => rfl
  | succ n ih =>
    cases b with
    | nil => simp [readLe]
    | cons x b =>
      have hrest (j : Nat) : (b[j]?.getD 0#8).toNat * 256 ^ (j + 1) = 256 * ((b[j]?.getD 0#8).toNat * 256 ^ j) := by
        rw [pow_succ]; ring
      rw [List.take_succ_cons, readLe, ih, List.range_succ_eq_map, List.map_cons, List.sum_cons, List.map_map,
        ← List.sum_map_mul_left]
      simp [Function.comp_def, hrest]

theorem fieldAt_eq_sum (b : List Byte) (i n : Nat) :
    fieldAt b i n = ((List.range n).map fun j => (b[i + j]?.getD 0#8).toNat * 256 ^ j).sum := by
  simp only [fieldAt, readLe_take, List.getElem?_drop]

theorem fieldAt_past (h : x.length = offset) (rest : List Byte) (n : Nat) : fieldAt (x ++ rest) offset n = fieldAt rest 0 n := by
  rw [fieldAt_append_right h.le, h, Nat.sub_self]

theorem fieldAt_long (h : v ≤ 4294967295) (rest : List Byte) : fieldAt (leBytes 4 v ++ rest) 0 4 = v :=
  fieldAt_leBytes (by omega) rest

/-! ## The CRC (R136) -/

/-- The CRC register takes one bit as sent: shifted by one, with the polynomial added where the bit that leaves it differs from the
bit sent. -/
def crcBit (r : BitVec 16) (bit : Bool) : BitVec 16 := if r.getLsbD 0 = bit then r >>> 1 else (r >>> 1) ^^^ 0x8408#16

/-- A shift of the register with bits `y` added beforehand is the taking of the lowest of them, the others being added after it. -/
theorem crcShift_succ_xor (n : Nat) (r y : BitVec 16) :
    crcShift (n + 1) (r ^^^ y) = crcShift n (crcBit r (y.getLsbD 0) ^^^ (y >>> 1)) := by
  have hswap : r >>> 1 ^^^ y >>> 1 ^^^ 0x8408#16 = r >>> 1 ^^^ 0x8408#16 ^^^ y >>> 1 := by ac_rfl
  rw [crcShift, crcBit, BitVec.ushiftRight_xor_distrib, BitVec.getLsbD_xor]
  cases r.getLsbD 0 <;> cases y.getLsbD 0
  · rfl
  · exact congrArg (crcShift n) hswap
  · exact congrArg (crcShift n) hswap
  · rfl

/-- Bits added to the register all at once are bits taken one after another. -/
theorem crcShift_xor {y : BitVec 16} (h : y.toNat < 2 ^ n) (r : BitVec 16) :
    crcShift n (r ^^^ y) = ((List.range n).map y.getLsbD).foldl crcBit r := by
  induction n generalizing r y with
  | zero =>
    have hzero : y = 0#16 := BitVec.eq_of_toNat_eq (by rw [pow_zero] at h; exact Nat.lt_one_iff.1 h)
    rw [hzero, BitVec.xor_zero]; rfl
  | succ n ih =>
    have hshift : (y >>> 1).toNat < 2 ^ n := by
      rw [BitVec.toNat_ushiftRight, Nat.shiftRight_eq_div_pow, pow_one]
      rw [pow_succ] at h
      omega
    have hbit (j : Nat) : (y >>> 1).getLsbD j = y.getLsbD (j + 1) := by rw [BitVec.getLsbD_ushiftRight, Nat.add_comm]
    rw [crcShift_succ_xor, ih hshift, List.range_succ_eq_map, List.map_cons, List.foldl_cons, List.map_map]
    congr 1
    exact List.map_congr_left fun j _ => hbit j

theorem crcByte_eq (r : BitVec 16) (y : Byte) : crcByte r y = ((List.range 8).map y.getLsbD).foldl crcBit r := by
  have hsmall : (y.setWidth 16).toNat < 2 ^ 8 := by
    rw [BitVec.toNat_setWidth]
    exact lt_of_le_of_lt (Nat.mod_le _ _) y.isLt
  have hbits : (List.range 8).map (y.setWidth 16).getLsbD = (List.range 8).map y.getLsbD :=
    List.map_congr_left fun j hj => by
      have hj : j < 16 := by rw [List.mem_range] at hj; omega
      rw [BitVec.getLsbD_setWidth, decide_eq_true hj, Bool.true_and]
  rw [crcByte, crcShift_xor hsmall, hbits]

/-- The CRC takes the bits of the bytes in the order of their sending. -/
theorem crc_eq (b : List Byte) : crc b = (sentBits b).foldl crcBit 0xFFFF#16 := by
  rw [crc, sentBits, List.foldl_flatMap]
  exact congrArg (b.foldl · 0xFFFF#16) (funext₂ crcByte_eq)

theorem crcMatches_iff (b : List Byte) :
    crcMatches b = true ↔ (crc (b.take (b.length - 2))).toNat = fieldAt b (b.length - 2) 2 := by
  rw [crcMatches, beq_iff_eq, fieldAt, List.take_of_length_le (l := b.drop _) (by rw [List.length_drop]; omega)]

/-! ## A frame proper (R136, R171) -/

theorem frameKind_code (kind : FrameKind) : frameKind kind.code = some kind := by cases kind <;> rfl

/-- What stands between payload and CRC is 0 (R136). -/
theorem frameProper_pad (hfrom : payload.length + 5 ≤ i)
    (hto : i + 2 < (frameProper destination sender kind payload).length) :
    (frameProper destination sender kind payload)[i]? = some 0#8 := by
  have hbody : i < (frameBody destination sender kind payload).length := by
    rw [frameProper_length] at hto
    rw [frameBody_length]
    omega
  have hhead : (leBytes 1 destination ++ leBytes 1 sender ++ leBytes 1 kind.code ++ leBytes 2 payload.length
      ++ payload).length = payload.length + 5 := by
    simp only [List.length_append, leBytes_length]
    omega
  rw [frameProper, List.getElem?_append_left hbody]
  rw [frameBody] at hbody ⊢
  rw [List.length_append, List.length_replicate, hhead] at hbody
  rw [List.getElem?_append_right (hhead.trans_le hfrom), List.getElem?_replicate, hhead, if_pos (by omega)]

/-! ## A GAUGE payload (R174) -/

/-- The bytes of the wear fields, where present. -/
def wearBytes : Option (Nat × Nat) → List Byte
  | some (residual, width) => leBytes 2 residual ++ leBytes 2 width
  | none => []

/-- The bytes of an optional field of two bytes: the gap count, or the mark number. -/
def optionalBytes : Option Nat → List Byte
  | some v => leBytes 2 v
  | none => []

/-- The bytes that every record has. -/
def recordHead (r : Record) (rest : List Byte) : List Byte :=
  leBytes 1 r.label.origin ++ (leBytes 2 r.label.serial ++ (leIntBytes 4 r.gpi ++ (leBytes 2 r.flags
    ++ (leIntBytes 2 r.stagger ++ (leBytes 2 r.height ++ (leBytes 1 r.samples ++ rest))))))

theorem recordBytes_eq (r : Record) :
    recordBytes r = recordHead r (wearBytes r.wear ++ (optionalBytes r.gap ++ optionalBytes r.mark)) := by
  simp only [recordBytes, recordHead, List.append_assoc]
  cases r.wear <;> cases r.gap <;> cases r.mark <;> rfl

theorem recordHead_append (r : Record) (x rest : List Byte) : recordHead r (x ++ rest) = recordHead r x ++ rest := by
  simp only [recordHead, List.append_assoc]

theorem recordHead_length (r : Record) (rest : List Byte) : (recordHead r rest).length = 14 + rest.length := by
  simp only [recordHead, List.length_append, leBytes_length, leIntBytes_length]
  omega

theorem wearBytes_length (w : Option (Nat × Nat)) : (wearBytes w).length = if w.isSome then 4 else 0 := by
  cases w <;> rfl

theorem optionalBytes_length (o : Option Nat) : (optionalBytes o).length = if o.isSome then 2 else 0 := by
  cases o <;> rfl

/-- The flags of a record in the order of their bits. -/
def flagBits (r : Record) : List Bool :=
  [r.noSample, r.noFlat, r.beyond, r.wearLimit, r.staggerLimit, r.contested, r.takenOver, r.gap.isSome, r.mark.isSome, r.final,
    r.wear.isSome]

theorem flagBit_eq (y : Bool) (p : Nat) : flagBit y p = 2 ^ p * y.toNat := by cases y <;> simp [flagBit]

/-- The flag word is the number whose bits the flags are. -/
theorem flags_eq (r : Record) : r.flags = (BitVec.ofBoolListLE (flagBits r)).toNat := by
  simp only [Record.flags, flagBit_eq, flagBits, BitVec.ofBoolListLE, BitVec.toNat_concat,
    BitVec.toNat_of_zero_length List.length_nil]
  omega

theorem flags_testBit (r : Record) (i : Nat) : r.flags.testBit i = (flagBits r).getD i false := by
  rw [flags_eq, BitVec.testBit_toNat, BitVec.getLsbD_ofBoolListLE]

theorem flags_le (r : Record) : r.flags ≤ 65535 := by
  have hlt : r.flags < 2 ^ 11 := flags_eq r ▸ (BitVec.ofBoolListLE (flagBits r)).isLt
  omega

/-- The fields that every record has, whatever follows them. -/
theorem recordHead_fields {types : List WireType} {r : Record} (h : RecordSound types r) (rest : List Byte) :
    fieldAt (recordHead r rest) 0 1 = r.label.origin ∧ fieldAt (recordHead r rest) 1 2 = r.label.serial
    ∧ signedAt (recordHead r rest) 3 4 = r.gpi ∧ fieldAt (recordHead r rest) 7 2 = r.flags
    ∧ signedAt (recordHead r rest) 9 2 = r.stagger ∧ fieldAt (recordHead r rest) 11 2 = r.height
    ∧ fieldAt (recordHead r rest) 13 1 = r.samples := by
  obtain ⟨⟨horigin, hserial⟩, ⟨hgpiLow, hgpiHigh⟩, hstaggerLow, hstaggerHigh, hheight, hsamples, -⟩ := h
  simp only [recordHead, fieldAt_leBytes_skip, fieldAt_leIntBytes_skip, signedAt_leBytes_skip, signedAt_leIntBytes_skip,
    Nat.reduceLeDiff, Nat.reduceSub]
  exact ⟨fieldAt_byte (by omega) _, fieldAt_word hserial _, signedAt_long hgpiLow hgpiHigh _, fieldAt_word (flags_le r) _,
    signedAt_word (by omega) (by omega) _, fieldAt_word (by omega) _, fieldAt_byte hsamples _⟩

/-- Where the gap count stands: after the wear fields, where present. -/
theorem recordBytes_gap {r : Record} {g : Nat} (hg : r.gap = some g) (hle : g ≤ 65535) :
    fieldAt (recordBytes r) (if r.wear.isSome then 18 else 14) 2 = g := by
  rw [recordBytes_eq, recordHead_append, fieldAt_past, hg]
  · exact fieldAt_word hle _
  · rw [recordHead_length, wearBytes_length]
    split <;> rfl

/-- The mark number ends the record. -/
theorem recordBytes_mark {r : Record} {m : Nat} (hm : r.mark = some m) (hle : m ≤ 65535) :
    fieldAt (recordBytes r) ((if r.wear.isSome then 18 else 14) + if r.gap.isSome then 2 else 0) 2 = m := by
  rw [recordBytes_eq, ← List.append_assoc, recordHead_append, fieldAt_past, hm, ← List.append_nil (optionalBytes _)]
  · exact fieldAt_word hle _
  · rw [recordHead_length, List.length_append, wearBytes_length, optionalBytes_length]
    split <;> omega

theorem recordBytes_wear {r : Record} {w : Nat × Nat} (hw : r.wear = some w) (hres : w.1 ≤ 65535) (hwidth : w.2 ≤ 65535) :
    fieldAt (recordBytes r) 14 2 = w.1 ∧ fieldAt (recordBytes r) 16 2 = w.2 := by
  rw [recordBytes_eq, hw]
  simp only [recordHead, wearBytes, List.append_assoc, fieldAt_leBytes_skip, fieldAt_leIntBytes_skip, Nat.reduceLeDiff,
    Nat.reduceSub]
  exact ⟨fieldAt_word hres _, fieldAt_word hwidth _⟩

theorem recordBytes_length (r : Record) : (recordBytes r).length = (if r.wear.isSome then 18 else 14)
    + (if r.gap.isSome then 2 else 0) + if r.mark.isSome then 2 else 0 := by
  rw [recordBytes_eq, recordHead_length, List.length_append, List.length_append, wearBytes_length, optionalBytes_length,
    optionalBytes_length]
  split <;> omega

/-! ## A STATUS payload (R175) -/

theorem statusPayload_eq (r : StatusReport) : statusPayload r =
    leBytes 1 r.result.code ++ (leBytes 1 r.result.reasonCode ++ (leBytes 1 r.node.code ++ (leBytes 1 r.slot
      ++ (leBytes 2 r.sequence ++ (leBytes 2 r.latches.toNat ++ (leIntBytes 4 r.hw ++ (leBytes 1 r.level
      ++ (leBytes 1 r.trackCount ++ (leBytes 1 (lifeCode r.leftLife) ++ (leBytes 1 (lifeCode r.rightLife)
      ++ (leBytes 4 r.counters.scansTaken ++ (leBytes 4 r.counters.skippedScans ++ (leBytes 4 r.counters.lostBins
      ++ (leBytes 2 r.counters.abandonedFrames ++ (leBytes 4 r.counters.badFrames ++ (leBytes 2 r.counters.droppedEdges
      ++ (leBytes 2 r.counters.drainLoss ++ []))))))))))))))))) := by
  simp only [statusPayload, List.append_assoc, List.append_nil]

theorem statusPayload_length (r : StatusReport) : (statusPayload r).length = 38 := by
  simp only [statusPayload, List.length_append, leBytes_length, leIntBytes_length]

theorem lifeCode_le (l : Option Liveness) : lifeCode l ≤ 3 := by
  rcases l with _ | ⟨_ | _ | _, timer⟩ <;> simp [lifeCode]

theorem reasonCode_le (result : StatusResult) : result.reasonCode ≤ 7 := by
  cases result with
  | refused reason => cases reason <;> decide
  | accepted | queried | drained => decide

theorem resultCode_le (result : StatusResult) : result.code ≤ 3 := by cases result <;> simp [StatusResult.code]

theorem nodeCode_le (node : NodeState) : node.code ≤ 3 := by cases node <;> decide

/-- The codes of a STATUS payload. -/
theorem statusPayload_codes (r : StatusReport) : fieldAt (statusPayload r) 0 1 = r.result.code
    ∧ fieldAt (statusPayload r) 1 1 = r.result.reasonCode ∧ fieldAt (statusPayload r) 2 1 = r.node.code
    ∧ fieldAt (statusPayload r) 14 1 = lifeCode r.leftLife ∧ fieldAt (statusPayload r) 15 1 = lifeCode r.rightLife := by
  have hresult := resultCode_le r.result
  have hreason := reasonCode_le r.result
  have hnode := nodeCode_le r.node
  have hleft := lifeCode_le r.leftLife
  have hright := lifeCode_le r.rightLife
  rw [statusPayload_eq]
  simp only [fieldAt_leBytes_skip, fieldAt_leIntBytes_skip, Nat.reduceLeDiff, Nat.reduceSub]
  exact ⟨fieldAt_byte (by omega) _, fieldAt_byte (by omega) _, fieldAt_byte (by omega) _, fieldAt_byte (by omega) _,
    fieldAt_byte (by omega) _⟩

/-- Slot, sequence number, latches, high-water index, level and track count of a STATUS payload. -/
theorem statusPayload_values {r : StatusReport} (hslot : r.slot ≤ 255) (hsequence : r.sequence ≤ 65535) (hhw : GpiSound r.hw)
    (hlevel : r.level ≤ 255) (hcount : r.trackCount ≤ 255) : fieldAt (statusPayload r) 3 1 = r.slot
    ∧ fieldAt (statusPayload r) 4 2 = r.sequence ∧ fieldAt (statusPayload r) 6 2 = r.latches.toNat
    ∧ signedAt (statusPayload r) 8 4 = r.hw ∧ fieldAt (statusPayload r) 12 1 = r.level
    ∧ fieldAt (statusPayload r) 13 1 = r.trackCount := by
  have hlatches := r.latches.isLt
  rw [statusPayload_eq]
  simp only [fieldAt_leBytes_skip, fieldAt_leIntBytes_skip, signedAt_leBytes_skip, Nat.reduceLeDiff, Nat.reduceSub]
  exact ⟨fieldAt_byte hslot _, fieldAt_word hsequence _, fieldAt_word (by omega) _, signedAt_long hhw.1 hhw.2 _,
    fieldAt_byte hlevel _, fieldAt_byte hcount _⟩

/-- The counters of a STATUS payload. -/
theorem statusPayload_counters {r : StatusReport} (htaken : r.counters.scansTaken ≤ 4294967295)
    (hskipped : r.counters.skippedScans ≤ 4294967295) (hlost : r.counters.lostBins ≤ 4294967295)
    (habandoned : r.counters.abandonedFrames ≤ 65535) (hbad : r.counters.badFrames ≤ 4294967295)
    (hdropped : r.counters.droppedEdges ≤ 65535) (hdrain : r.counters.drainLoss ≤ 65535) :
    fieldAt (statusPayload r) 16 4 = r.counters.scansTaken ∧ fieldAt (statusPayload r) 20 4 = r.counters.skippedScans
    ∧ fieldAt (statusPayload r) 24 4 = r.counters.lostBins ∧ fieldAt (statusPayload r) 28 2 = r.counters.abandonedFrames
    ∧ fieldAt (statusPayload r) 30 4 = r.counters.badFrames ∧ fieldAt (statusPayload r) 34 2 = r.counters.droppedEdges
    ∧ fieldAt (statusPayload r) 36 2 = r.counters.drainLoss := by
  rw [statusPayload_eq]
  simp only [fieldAt_leBytes_skip, fieldAt_leIntBytes_skip, Nat.reduceLeDiff, Nat.reduceSub]
  exact ⟨fieldAt_long htaken _, fieldAt_long hskipped _, fieldAt_long hlost _, fieldAt_word habandoned _,
    fieldAt_long hbad _, fieldAt_word hdropped _, fieldAt_word hdrain _⟩

/-- Settles O50: frames by the laws of a frame proper, the CRC by `crc_eq`, and each payload by reading its fields where they were
laid out. -/
theorem frameRoundTrip : Obligations.FrameRoundTrip := by
  refine ⟨fun destination source kind payload hd hs hp => ?_, fun b => ?_, fun rs hrs => ?_, fun types r hr => ?_,
    fun r hslot hsequence hhw hlevel hcount htaken hskipped hlost habandoned hbad hdropped hdrain => ?_⟩
  · intro b
    have hd : destination ≤ 255 := Nat.le_of_lt_succ hd
    have hs : source ≤ 255 := Nat.le_of_lt_succ hs
    have hp' : payload.length ≤ 65535 := by omega
    obtain ⟨hdst, hsrc, hkind, hlen⟩ := frameProper_fields (kind := kind) hd hs hp'
    exact ⟨frameProper_length _ _ _ _, validReception_frameProper hd hs hp, parseFrame_frameProper hd hs hp',
      frameKind_code kind, by cases kind <;> rfl, hdst, hsrc, hkind, hlen, frameProper_payload,
      fun i hfrom hto => frameProper_pad hfrom hto, ((crcMatches_iff b).1 crcMatches_frameProper).symm⟩
  · refine ⟨fieldAt_eq_sum b, fun i n _ => ?_, crc_eq b, crcMatches_iff b, validReception_iff b⟩
    rw [signedAt, toSigned]
    push_cast
    rfl
  · exact ⟨fieldAt_byte hrs _, rfl⟩
  · intro b gapAt markAt
    have hbytes := recordBytes_eq r
    obtain ⟨horigin, hserial, hgpi, hflags, hstagger, hheight, hsamples⟩ :=
      recordHead_fields hr (wearBytes r.wear ++ (optionalBytes r.gap ++ optionalBytes r.mark))
    rw [← hbytes] at horigin hserial hgpi hflags hstagger hheight hsamples
    obtain ⟨-, -, -, -, -, -, hwear, -, -, hgap, hmark⟩ := hr
    have hmarkAt : markAt = gapAt + if r.gap.isSome then 2 else 0 := by
      show (if _ then _ else _) = _
      split <;> rfl
    refine ⟨?_, horigin, hserial, hgpi, ?_, hstagger, hheight, hsamples, fun w hw => ?_, fun g hg => ?_, fun m hm => ?_⟩
    · rw [hmarkAt, recordBytes_length]
      cases r.mark <;> rfl
    · rw [hflags, List.map_congr_left fun i _ => flags_testBit r i]
      rfl
    · obtain ⟨hres, hwidth, -⟩ := hwear w hw
      exact recordBytes_wear hw (by omega) (by omega)
    · exact recordBytes_gap hg (hgap g hg).2
    · rw [hmarkAt]
      exact recordBytes_mark hm (hmark m hm)
  · intro b life
    obtain ⟨hresult, hreason, hnode, hleft, hright⟩ := statusPayload_codes r
    obtain ⟨hslot', hsequence', hlatches', hhw', hlevel', hcount'⟩ :=
      statusPayload_values (r := r) (by omega) hsequence hhw (by omega) (by omega)
    have hlife (l : Option Liveness) : lifeCode l = life l := by rcases l with _ | ⟨_ | _ | _, timer⟩ <;> rfl
    refine ⟨statusPayload_length r, ?_, ?_, hslot', hsequence', hlatches', hhw', hlevel', hcount', hleft.trans (hlife _),
      hright.trans (hlife _), statusPayload_counters htaken hskipped hlost habandoned hbad hdropped hdrain⟩
    · rw [hresult, hreason]
      cases r.result with
      | refused reason => cases reason <;> rfl
      | accepted | queried | drained => rfl
    · rw [hnode]
      cases r.node <;> rfl

end Sys2Proof.Machine

/-! CONFIG and QUERY frames for this node (R152, R162, R164, R178): what each does to the settings, the node state and the pending
STATUS. -/

namespace Sys2Proof.Machine

variable {s t : State} {f : ReceivedFrame} {reason : Reason} {c : Settings}

/-- The STATUS made pending is the drain-end STATUS exactly where the one pending before was (R160, R164). -/
theorem statusFor_of_status (h : s.rca.status = t.rca.status) (result : StatusResult) (destination : Nat) :
    s.statusFor result destination
      = arbitrate (s.withRca { s.rca with status := some ⟨result, destination, drainEndPending t⟩ }) := by
  rw [State.statusFor, drainEndPending, drainEndPending, h]

/-- A refused CONFIG is latched and answered, and the pending settings stay (R162). -/
theorem takeConfig_refused (h : judgeConfig s.rca.slot f.payload = .error reason) :
    takeConfig f s = (s.setLatch .configRefused).statusFor (.refused reason) f.source := by
  simp only [takeConfig, h]

/-- The first CONFIG accepted makes the node READY (R156, R162). -/
theorem takeConfig_first (h : judgeConfig s.rca.slot f.payload = .ok c) (hn : s.rca.node = .unconfigured) :
    takeConfig f s = ((s.withRca { s.rca with pendingSettings := some ⟨c, f.source⟩ }).enterNode .ready).statusFor
      .accepted f.source := by
  simp only [takeConfig, h, State.withRca_rca, hn, if_true]

/-- A CONFIG accepted in another state than UNCONFIGURED replaces the pending settings alone (R162). -/
theorem takeConfig_again (h : judgeConfig s.rca.slot f.payload = .ok c) (hn : s.rca.node ≠ .unconfigured) :
    takeConfig f s = (s.withRca { s.rca with pendingSettings := some ⟨c, f.source⟩ }).statusFor .accepted f.source := by
  simp only [takeConfig, h, State.withRca_rca, hn, if_false]

/-- A QUERY of two bytes adds its mask to the clear mask (R164, R178). -/
theorem takeQuery_mask (h : f.payload.length = 2) : takeQuery f s =
    (s.withRca { s.rca with clearMask := s.rca.clearMask ||| BitVec.ofNat 13 (fieldAt f.payload 0 2) }).statusFor
      .queried f.source := if_pos h

/-- A QUERY of another length is answered as refused (R178). -/
theorem takeQuery_length (h : f.payload.length ≠ 2) : takeQuery f s = s.statusFor (.refused .length) f.source := if_neg h

theorem addressed_of_destination (h : f.destination = s.rca.slot ∨ f.destination = 15) : addressed s f = true := by
  rw [addressed, Bool.or_eq_true, beq_iff_eq, beq_iff_eq]
  exact h

theorem filterFrame_config (hk : f.kind = 4) (ha : addressed s f = true) : filterFrame f s = takeConfig f s := by
  have hkind : frameKind f.kind = some .config := by rw [hk]; rfl
  simp only [filterFrame, hkind, ha, if_true]

theorem filterFrame_query (hk : f.kind = 5) (ha : addressed s f = true) : filterFrame f s = takeQuery f s := by
  have hkind : frameKind f.kind = some .query := by rw [hk]; rfl
  simp only [filterFrame, hkind, ha, if_true]

/-- Settles O44: after the sign of life, which leaves the RCA as it was, the filter hands the frame on, and each outcome of CONFIG and
QUERY is a lemma. -/
theorem configAndQuery : Obligations.ConfigAndQuery := by
  intro e heard bits s hheard bytes hvalid hdest source v payload out status
  have hout : out = .next (filterFrame (parseFrame bytes) v) :=
    (exec_frameReceived hheard e bits).trans (congrArg _ (judgeReception_valid hvalid _))
  have hframe : v = (s.elapse e).carrierEnds.withRlc v.rlc := signOfLife_frame _ _
  have hrca : v.rca = s.rca := by rw [hframe]; rfl
  have hnow : v.now = s.now + e := by rw [hframe]; rfl
  have hstatus : v.rca.status = s.rca.status := by rw [hrca]
  have haddressed : addressed v (parseFrame bytes) = true := addressed_of_destination (by rw [hrca]; exact hdest)
  rw [← hrca, ← hnow]
  refine ⟨fun hkind => ?_, fun hkind => ?_⟩
  · rw [filterFrame_config hkind haddressed] at hout
    refine ⟨fun reason hjudge => ?_, fun c hjudge => ⟨fun hnode => ?_, fun hnode => ?_⟩⟩
    · rw [hout, takeConfig_refused hjudge, statusFor_of_status (by exact hstatus)]; rfl
    · rw [hout, takeConfig_first hjudge hnode, statusFor_of_status (by exact hstatus)]; rfl
    · rw [hout, takeConfig_again hjudge hnode, statusFor_of_status (by exact hstatus)]; rfl
  · rw [filterFrame_query hkind haddressed] at hout
    refine ⟨fun hlength => ?_, fun hlength => ?_⟩
    · rw [hout, takeQuery_mask hlength, statusFor_of_status (by exact hstatus)]; rfl
    · rw [hout, takeQuery_length hlength, statusFor_of_status (by exact hstatus)]; rfl

end Sys2Proof.Machine

/-! Power-on reset (R161), and the laws at the state that it leaves. -/

namespace Sys2Proof.Machine

/-- Settles O2: the state is written out by the definition; only the slot's range and the spell of carrier need a word. -/
theorem powerOnReset : Obligations.PowerOnReset := by
  intro e straps pair carrier midScan s
  have hslot : straps.toNat ≤ 7 := Nat.le_of_lt_succ straps.isLt
  refine ⟨_, rfl, rfl, rfl, rfl, rfl, rfl, rfl, rfl, ?_, fun spell hspell => ?_, rfl, rfl, rfl, rfl, rfl, rfl, rfl, rfl, hslot, rfl,
    rfl⟩
  · cases carrier <;> rfl
  · cases carrier with
    | false => cases hspell
    | true => cases hspell; rfl

/-- Settles O3: the reset state is what POWER_ON_RESET leaves of itself, so the lemmas that say what a reset leaves of each law apply
to it; table, queue and list are empty, and the DU stands at 0. -/
theorem resetMeetsTheLaws : Obligations.ResetMeetsTheLaws := by
  have hreset : exec (.powerOnReset 0 0 ⟨false, false⟩ false false) State.reset = .next State.reset := rfl
  have hdu : DuSound Du.reset := by constructor <;> decide
  obtain ⟨hrun, htimers⟩ := controlSound_iff.2 (execPowerOnReset_controlSound hreset)
  obtain ⟨hexposure, -⟩ := execPowerOnReset_exposure hreset
  exact ⟨hreset, tableSound_of_empty rfl, by decide, by decide, List.forall_mem_nil _, hrun,
    positionSound_iff.2 ⟨nofun, hdu, le_rfl⟩, ⟨List.Pairwise.nil, nofun⟩, hexposure,
    execPowerOnReset_transmitterSound hreset, execPowerOnReset_recordsSound hreset, htimers,
    pagesSound_iff.2 (execPowerOnReset_pagesAgree hreset), orderSound_iff.2 (inOrder_of_empty rfl rfl)⟩

end Sys2Proof.Machine

/-! The event latches and the alert pulse (R166, R168). -/

namespace Sys2Proof.Machine

variable {s : State} {l l' : Latch} {c : Settings}

/-- Each latch has a position of its own (R166). -/
theorem Latch.position_injective : Function.Injective Latch.position :=
  Function.LeftInverse.injective (g := Latch.ofNat) fun l => by cases l <;> rfl

theorem latched_setLatch_other (h : l' ≠ l) (s : State) : (s.setLatch l).latched l' = s.latched l' := by
  have hposition : l.position ≠ l'.position := fun heq => h (Latch.position_injective heq).symm
  simp [State.latched, BitVec.getLsbD_twoPow, hposition]

theorem alertAfter_selected (hc : s.settings = some c) (h : c.alertMask.getLsbD l.position = true) :
    alertAfter s l = some (s.now + c.alertPulse * millisecond) := by
  simp [alertAfter, hc, h]

theorem alertAfter_unselected (hc : s.settings = some c) (h : c.alertMask.getLsbD l.position = false) :
    alertAfter s l = s.rca.alert := by
  simp [alertAfter, hc, h]

theorem alertAfter_no_settings (h : s.settings = none) (l : Latch) : alertAfter s l = s.rca.alert := by
  simp [alertAfter, h]

/-- Settles O4: the latch by its position, the pulse by the mask in force, its end by the timer. -/
theorem latchAndAlert : Obligations.LatchAndAlert := by
  intro l s
  exact ⟨rfl, latched_setLatch_self s l, fun l' hne => latched_setLatch_other hne s, fun c => alertAfter_selected,
    fun c => alertAfter_unselected, fun hnone => alertAfter_no_settings hnone l,
    fun e ends halert hdue => onExpiry_due (s := s.elapse e) halert hdue _,
    fun e ends halert hearly => onExpiry_early (s := s.elapse e) halert hearly _, Option.isSome_iff_ne_none⟩

end Sys2Proof.Machine

/-! What a step does, by the queue of commands (95_what_each_step_holds.md; logs 3 and 27). -/

namespace Sys2Proof.Machine

theorem step_of_pending_cons {c : Instr} {rest : List Instr} {s : State} (h : s.pending = c :: rest) :
    step s = exec c { s with pending := rest } := by
  rw [step, h]

theorem step_of_pending_nil {s : State} (h : s.pending = []) : step s = .next s := by
  rw [step, h]

/-- Settles O1: the step's two cases, by whether a command waits. -/
theorem stepRunsTheFrontCommand : Obligations.StepRunsTheFrontCommand :=
  ⟨fun _ _ _ => step_of_pending_cons, fun _ => step_of_pending_nil⟩

end Sys2Proof.Machine
